-- ==== Sys2Proof/Word.lean ====
section
/-! DEFINITION. The word types of the station: bytes on its ports and the 16-bit check word. -/

namespace Sys2Proof

/-- One byte of a burst, a radio frame, a return word or the configuration image (R192). -/
abbrev Byte := BitVec 8

/-- The check word of a burst or a frame (R192). -/
abbrev CheckWord := BitVec 16

end Sys2Proof
end

