-- ==== Sys2Proof/Syntax.lean ====
section
/-! DEFINITION. The commands of the station: one constructor per row of spec/opcode_table.json.
The table gives no row any bits; the operands are what the outside supplies with the event
(DESIGN CHOICE, notes/assumptions/5.md). -/

namespace Sys2Proof

/-- The three kinds of answer a pager gives (R11, R83). -/
inductive AnswerKind
  | accept | decline | done
  deriving DecidableEq, Repr

/-- What tells one answer list entry from another: owner, serial, pager and kind together (R86). -/
structure AnswerKey where
  owner : Nat
  serial : Nat
  pager : Nat
  kind : AnswerKind
  deriving DecidableEq, Repr

/-- The band of an input as a scan reads it, 0 to 3 (R147). -/
abbrev Band := Fin 4

/-- The level of MDI in each microsecond of the read, true for high: 8.768 ms from the assertion of MSEL (R184). -/
abbrev MdiLevels := Vector Bool 8768

/-- The steps of the part, one constructor per row of the table. In the commands that tell of the plant line `line` holds what the
station reads on it, bit time by bit time, since the last such command: true for driven (R115, R116). -/
inductive Instr
  /-- POWER_ON (R183), with the level of the RESTART input (R185). -/
  | powerOn (restartAsserted : Bool)
  /-- RESTART (R183): the RESTART input goes from released to asserted. -/
  | restart
  /-- RESTART_RELEASE (R185). -/
  | restartRelease
  /-- LOAD_WAIT_END (R184). -/
  | loadWaitEnd
  /-- LOAD_READ_END (R186), with what the memory put on MDI during the read (R184). -/
  | loadReadEnd (mdi : MdiLevels)
  /-- SLOT_BOUNDARY (R90). -/
  | slotBoundary
  /-- OUT_TAKEN (R100). -/
  | outTaken
  /-- FIRST_BYTE_DEADLINE (R101). -/
  | firstByteDeadline
  /-- WHOLE_FRAME_DEADLINE (R101). -/
  | wholeFrameDeadline
  /-- IN_STROBE (R109), with the byte on the data lines. -/
  | inStrobe (byte : Byte)
  /-- IN_FULL_END (R109). -/
  | inFullEnd
  /-- GAP_TIMER_EXPIRY (R110). -/
  | gapTimerExpiry
  /-- AGING_TIMER_EXPIRY (R49). -/
  | agingTimerExpiry
  /-- CLAIM_TIMER_EXPIRY (R57). -/
  | claimTimerExpiry
  /-- SCAN (R149), with the LOCKOUT level (true: asserted) and the band of each input 0 to 15. -/
  | scan (lockout : Bool) (bands : Vector Band 16)
  /-- CHATTER_WINDOW_END (R154). -/
  | chatterWindowEnd
  /-- SECONDS_CLOCK_TICK (R162). -/
  | secondsClockTick
  /-- FLASH_PHASE_TURN (R178). -/
  | flashPhaseTurn
  /-- PANEL_SHARE_START (R178). -/
  | panelShareStart
  /-- WINDOW_EXPIRY (R32), of the incident in one entry of the table. -/
  | windowExpiry (entry : Fin 16)
  /-- REFRESH_LIMIT_END (R43), of the incident in one entry of the table. -/
  | refreshLimitEnd (entry : Fin 16)
  /-- ANSWER_REPEAT_TIMER (R87), of one answer list entry. -/
  | answerRepeatTimer (key : AnswerKey)
  /-- BEGIN_BURST (R122). -/
  | beginBurst
  /-- COLLISION (R125), in bit time `bitTime` of the attempt, counted from 0 at the first bit of its start mark. -/
  | collision (bitTime : Nat)
  /-- BURST_SENT_WHOLE (R126). -/
  | burstSentWhole
  /-- START_MARK_HEARD (R128). -/
  | startMarkHeard (line : List Bool)
  /-- RECEPTION_FAILED (R130). -/
  | receptionFailed (line : List Bool)
  /-- RECEIVE_CLAIM (R52). -/
  | receiveClaim (line : List Bool)
  /-- RECEIVE_CALL (R70). -/
  | receiveCall (line : List Bool)
  /-- RECEIVE_ANSWER (R11). -/
  | receiveAnswer (line : List Bool)
  /-- RECEIVE_SETTLE (R75). -/
  | receiveSettle (line : List Bool)
  /-- RECEIVE_DUTY (R62). -/
  | receiveDuty (line : List Bool)
  /-- RECEIVE_ZONE (R145). -/
  | receiveZone (line : List Bool)
  /-- RECEIVE_LOG (R145). -/
  | receiveLog (line : List Bool)
  /-- RECEIVE_STATE (R145). -/
  | receiveState (line : List Bool)
  /-- QUERY_HISTORY (R173). -/
  | queryHistory (line : List Bool)
  /-- QUERY_INCIDENTS (R176). -/
  | queryIncidents (line : List Bool)
  /-- QUERY_RELEASE (R172). -/
  | queryRelease (line : List Bool)
  /-- QUERY_CANCEL (R17). -/
  | queryCancel (line : List Bool)
  /-- LINE_NOISE (R123). -/
  | lineNoise (line : List Bool)
  /-- RECEPTION_FAILS_BY_LENGTH (R128). -/
  | receptionFailsByLength (line : List Bool)
  deriving DecidableEq, Repr

end Sys2Proof
end

