-- ==== Sys2Proof/Machine/Blocks.lean ====
section
/-! DEFINITION. What each block of the station holds, as plain data. A timer is held as the moment of the timebase at which it
expires, and is absent while it is stopped (DESIGN CHOICE, notes/assumptions/2.md). -/

namespace Sys2Proof.Machine

/-! ### Names of the spec -/

/-- Kind of a source: the contact is active, the loop is faulted, or the input chatters (R5, R152). -/
inductive SourceKind
  | alarm | wiring | chatter
  deriving DecidableEq, Repr

/-- State of an open incident (R10). -/
inductive IncidentState
  | calling | unanswered | taken | closing
  deriving DecidableEq, Repr

/-- Kind of a SETTLE (R13, R18). -/
inductive SettleKind
  | taken | closed | withdrawn | cancelled
  deriving DecidableEq, Repr

/-- Rank of a pager holder, and of a level of escalation (R26, R45). -/
inductive Rank
  | crew | lead | supervisor | manager
  deriving DecidableEq, Repr

/-- Scope of a level (R26). -/
inductive Scope
  | group | plant
  deriving DecidableEq, Repr

/-- Line class of a burst, 0 (urgent) or 1 (ordinary) (R117). -/
inductive LineClass
  | class0 | class1
  deriving DecidableEq, Repr

/-- Kind of a page list entry and of its frame (R67, R92). -/
inductive PageKind
  | page | standdown
  deriving DecidableEq, Repr

/-- State of a page list entry (R68). -/
inductive PageState
  | waiting | placed | onAir | answered | spent
  deriving DecidableEq, Repr

/-- Half A is slots 0 to 15, half B is slots 16 to 31 (R91). -/
inductive Half
  | a | b
  deriving DecidableEq, Repr

/-- Mode of an input (R147). -/
inductive InputMode
  | unused | contact | supervised
  deriving DecidableEq, Repr

/-- A condition of an input (R147). -/
inductive Condition
  | short | normal | active | opened
  deriving DecidableEq, Repr

/-- Mode of the History Log (R164). -/
inductive LogMode
  | stop | roll | rollFreeze
  deriving DecidableEq, Repr

/-- Tag of a history record (R163), in the order of its codes (R192). -/
inductive Tag
  | raised | level | taken | declined | done | closed | withdrawn | cancelled | unanswered | overflow
  | zoneDark | zoneLive | lineDrop | lineHold | restart | lost
  deriving DecidableEq, Repr

/-! ### History records, bursts -/

/-- A history record (R163). -/
structure Record where
  tag : Tag
  time : Nat
  serial : Option Nat
  pager : Option Nat
  detail : Option Nat
  deriving DecidableEq, Repr

/-- The number of the record that was appended after `count` others since power-on: one more than that of the record before it, counted
modulo 65536 (R164). -/
def recordNumber (count : Nat) : Nat := count % 65536

/-- A record held by the log. `count` is the model's own: the records appended before it since power-on (DEDUCED,
notes/assumptions/14.md). -/
structure Held where
  count : Nat
  record : Record
  deriving DecidableEq, Repr

/-- The number of a record (R164). -/
def Held.number (h : Held) : Nat := recordNumber h.count

/-- A pager of a CALL with its flood mark (R37, R141). -/
structure CallPager where
  pager : Nat
  flood : Bool
  deriving DecidableEq, Repr

/-- Body of a CALL (R37, R141). `unanswered` is its state, CALLING or UNANSWERED. -/
structure CallBody where
  serial : Nat
  seq : Nat
  cls : Nat
  level : Nat
  repeats : Nat
  unanswered : Bool
  kind : SourceKind
  group : Nat
  msg : Nat
  input : Nat
  pagers : List CallPager
  deriving DecidableEq, Repr

/-- Body of a SETTLE (R142). -/
structure SettleBody where
  serial : Nat
  kind : SettleKind
  responder : Option Nat
  deriving DecidableEq, Repr

/-- One claim entry of a CLAIM (R140). -/
structure ClaimEntry where
  pager : Nat
  score : Nat
  deriving DecidableEq, Repr

/-- One duty entry of a DUTY, and of the owed duty list (R61, R140). `on` is duty ON. -/
structure DutyEntry where
  pager : Nat
  on : Bool
  deriving DecidableEq, Repr

/-- An office query (R143). -/
inductive Query
  | history (count : Nat)
  | incidents
  | release
  | cancel (serial : Nat)
  deriving DecidableEq, Repr

/-- An incident summary of a STATE (R24, R144). -/
structure Summary where
  serial : Nat
  state : IncidentState
  level : Nat
  cls : Nat
  kind : SourceKind
  input : Nat
  responder : Option Nat
  deriving DecidableEq, Repr

/-- The six counters of a STATE (R144, R176). -/
structure Counters where
  checkFaults : Nat
  framingAborts : Nat
  collisions : Nat
  drops : Nat
  refusedPages : Nat
  partialReturns : Nat
  deriving DecidableEq, Repr

/-- Body of a burst, by its kind (R140 to R144). -/
inductive Body
  | claim (entries : List ClaimEntry)
  | call (body : CallBody)
  | answer (key : AnswerKey)
  | settle (body : SettleBody)
  | duty (entries : List DutyEntry)
  | zone (dark : Bool)
  | query (q : Query)
  | log (records : List Record)
  | state (summaries : List Summary) (counters : Counters)
  deriving DecidableEq, Repr

/-- A burst in the transmit queue: what its producer gave it and its failed attempts (R117). An absent addressee is ALL. The
entry count is that of the body. -/
structure Queued where
  body : Body
  cls : LineClass
  addressee : Option Nat
  attempts : Nat
  deriving DecidableEq, Repr

/-- A burst as a receiver reads it whole (R137). An absent addressee is ALL. -/
structure Burst where
  lineClass : LineClass
  sender : Nat
  dark : Bool
  historyHigh : Bool
  openIncidents : Nat
  addressee : Option Nat
  body : Body
  deriving DecidableEq, Repr

/-! ### Incident Engine -/

/-- A pager of a call list, marked CALLED or DECLINED (R2). -/
structure Called where
  pager : Nat
  declined : Bool
  deriving DecidableEq, Repr

/-- An incident record (R2). `window` is the moment the window expires, `lastRefresh` the moment of the latest refresh. -/
structure Incident where
  serial : Nat
  input : Nat
  kind : SourceKind
  cls : Nat
  group : Nat
  msg : Nat
  state : IncidentState
  level : Nat
  calls : List Called
  pageSeq : Option Nat
  window : Option Nat
  responder : Option Nat
  done : Bool
  restored : Bool
  settleOwed : Option SettleKind
  callOwed : Bool
  refreshDue : Bool
  lastRefresh : Option Nat
  deriving DecidableEq, Repr

/-- One level of a level plan (R26). The window is in seconds. -/
structure LevelPlan where
  rank : Rank
  scope : Scope
  window : Nat
  repeats : Nat
  flood : Bool
  deriving DecidableEq, Repr

/-- The Incident Engine (R1 to R44). `pend` holds the 48 pending-raise marks, that of input n and kind k at place 3n + k (ALARM 0,
WIRING 1, CHATTER 2); a set mark carries its restored note (R8). `plans` holds the levels of classes 1 to 4. -/
structure Engine where
  table : List (Option Incident)
  serialCounter : Nat
  seqCounter : Nat
  pend : List (Option Bool)
  plans : List (List LevelPlan)
  deriving DecidableEq, Repr

/-! ### Presence Unit -/

/-- A pager record of the roster (R45). `group` is absent for a record of no crew group (R189); `duty` is ON. -/
structure PagerRecord where
  inUse : Bool
  group : Option Nat
  rank : Rank
  duty : Bool
  score : Nat
  claim : Nat
  claimant : Option Nat
  announced : Nat
  belowOwed : Bool
  deriving DecidableEq, Repr

/-- The Presence Unit (R45 to R66). -/
structure Presence where
  roster : List PagerRecord
  pointer : Nat
  owedDuty : List DutyEntry
  agingAt : Option Nat
  claimAt : Option Nat
  deriving DecidableEq, Repr

/-! ### Relay Unit -/

/-- The settle note of a page list entry (R67). -/
inductive SettleNote
  | taken (responder : Nat)
  | withdrawn
  | cancelled
  deriving DecidableEq, Repr

/-- The key of a page list entry: owner, serial, pager (R67). -/
structure PageKey where
  owner : Nat
  serial : Nat
  pager : Nat
  deriving DecidableEq, Repr

/-- A page list entry (R67). Its arrival order is its place in the list. `updated` is the model's own: a newer CALL has updated the entry
since it went on the air, so that it keeps that CALL's repeats to the end of the cycle (R72, R103; DEDUCED,
notes/assumptions/24.md). -/
structure PageEntry where
  key : PageKey
  seq : Nat
  cls : Nat
  level : Nat
  msg : Nat
  kind : PageKind
  repeats : Nat
  state : PageState
  spentLeft : Nat
  note : Option SettleNote
  updated : Bool
  deriving DecidableEq, Repr

/-- An answer list entry (R86). `timer` is the moment its repeat timer expires. -/
structure AnswerEntry where
  key : AnswerKey
  sendsLeft : Nat
  timer : Nat
  deriving DecidableEq, Repr

/-- The Relay Unit (R67 to R89). -/
structure Relay where
  pages : List PageEntry
  answers : List AnswerEntry
  refused : Nat
  deriving DecidableEq, Repr

/-! ### Zone Cycle Unit -/

/-- A planned page frame with the key and page sequence of the entry it was built from (R92). -/
structure PageFrame where
  kind : PageKind
  channel : Nat
  station : Nat
  key : PageKey
  msg : Nat
  cls : Nat
  level : Nat
  seq : Nat
  deriving DecidableEq, Repr

/-- A beacon frame (R92). -/
structure Beacon where
  channel : Nat
  station : Nat
  cycle : Nat
  deriving DecidableEq, Repr

/-- A frame handover: the frame's bytes and how many the modem has taken (R100). -/
structure Handover where
  bytes : List Byte
  taken : Nat
  deriving DecidableEq, Repr

/-- The return assembler (R109). -/
inductive Assembler
  | idle
  | assembling (bytes : List Byte)
  | resync
  deriving DecidableEq, Repr

/-- The Zone Cycle Unit (R90 to R114). `plan` holds the page slots by slot number; place 0 stays empty, for slot 0 holds
`beacon`. -/
structure Zone where
  plan : List (Option PageFrame)
  beacon : Option Beacon
  onAir : Option Half
  slot : Nat
  slotStart : Nat
  slotAt : Option Nat
  cycle : Nat
  dark : Bool
  lateCount : Nat
  beaconCount : Nat
  zoneOwed : Bool
  handover : Option Handover
  assembler : Assembler
  inFullUntil : Option Nat
  gapAt : Option Nat
  partialReturns : Nat
  deriving DecidableEq, Repr

/-! ### Line Controller -/

/-- A burst in transmission: its bytes and the moment its start mark began (R117, R124). -/
structure Sending where
  bytes : List Byte
  startAt : Nat
  deriving DecidableEq, Repr

/-- The receive assembler (R116, R128), as it stands between two bit times. `run` counts the driven bit times of the present run,
0 while the line is released; `frame` holds the data bit times of the open byte frame, true for driven; `reception` holds the bytes
of the reception in progress. The quiet is counted from `quietFrom`: the end of the last byte frame's stop bit position, or the
release that ended the last start mark. `readTo` is the moment up to which the line has been read (DESIGN CHOICE,
notes/assumptions/16.md). -/
structure Reader where
  run : Nat
  frame : Option (List Bool)
  reception : Option (List Byte)
  quietFrom : Nat
  readTo : Nat
  deriving DecidableEq, Repr

/-- The Line Controller (R115 to R136). -/
structure Line where
  queue : List Queued
  sending : Option Sending
  reader : Reader
  lastSender : Option Nat
  checkFaults : Nat
  framingAborts : Nat
  collisions : Nat
  drops : Nat
  hold : Bool
  degraded : Bool
  deriving DecidableEq, Repr

/-! ### Input Scanner -/

/-- An input record (R146), with the values the Incident Engine reads from the input map (R5). -/
structure InputRecord where
  mode : InputMode
  lockable : Bool
  cls : Nat
  group : Nat
  msg : Nat
  candidate : Option Condition
  run : Nat
  condition : Condition
  chatterCount : Nat
  inChatter : Bool
  holdAlarm : Bool
  holdWiring : Bool
  holdChatter : Bool
  deriving DecidableEq, Repr

/-- The Input Scanner (R146 to R161). `lockout` is asserted. -/
structure Scanner where
  inputs : List InputRecord
  lockout : Bool
  lockCandidate : Option Bool
  lockRun : Nat
  debounce : Nat
  threshold : Nat
  scanAt : Option Nat
  windowAt : Option Nat
  deriving DecidableEq, Repr

/-! ### History Log, Office Service, Panel Driver, Start Loader -/

/-- The History Log with the seconds clock (R162 to R170). `appended` is the model's own count of the records appended since power-on
(notes/assumptions/14.md); `secondAt` is the moment of the next whole second. -/
structure Log where
  records : List Held
  appended : Nat
  mode : Option LogMode
  watermark : Option Nat
  frozen : Bool
  lost : Nat
  seconds : Nat
  secondAt : Nat
  deriving DecidableEq, Repr

/-- The number of the next record appended (R164). -/
def Log.next (l : Log) : Nat := recordNumber l.appended

/-- A history drain in progress (R171): the reply addressee, and the records at which the cursor and the end stand, each by its count
(`Held.count`; DEDUCED, notes/assumptions/14.md). -/
structure Drain where
  addressee : Nat
  cursorAt : Nat
  stopAt : Nat
  deriving DecidableEq, Repr

/-- The drain cursor: the number of the next record to copy (R171). -/
def Drain.cursor (d : Drain) : Nat := recordNumber d.cursorAt

/-- The drain end: the number one past the last record the drain may send (R171). -/
def Drain.stop (d : Drain) : Nat := recordNumber d.stopAt

/-- The Office Service: IDLE when no drain is held, REPLYING otherwise (R171). -/
structure Office where
  drain : Option Drain
  deriving DecidableEq, Repr

/-- The Panel Driver (R177 to R181). `segments` is what the present share drives on SEG0 (bit 0) to SEG31. -/
structure Panel where
  commons : Nat
  frameStart : Nat
  share : Nat
  segments : BitVec 32
  flash : Bool
  flashAt : Option Nat
  deriving DecidableEq, Repr

/-- The load state (R183). LOADING is one of three: held by an asserted RESTART input (R185), waiting for the memory's
supply, or reading (R184), each timed one with its end. -/
inductive LoadState
  | held
  | waiting (stop : Nat)
  | reading (stop : Nat)
  | configured
  | unconfigured
  deriving DecidableEq, Repr

/-- The Start Loader (R183 to R191). `afterRestart`: this load follows a restart and not a power-on alone (R170). -/
structure Loader where
  load : LoadState
  restartPin : Bool
  afterRestart : Bool
  deriving DecidableEq, Repr

/-- The station number and the zone channel (R186, R190). -/
structure Identity where
  station : Nat
  channel : Nat
  deriving DecidableEq, Repr

end Sys2Proof.Machine
end

