-- ==== Sys2Proof/Config.lean ====
section
/-! DEFINITION. What the spec leaves to the making of the part. No value of it is left free: no command of
the table has a result the spec does not state. -/

namespace Sys2Proof.Config

/-- Microseconds that one idle step lets pass. R31 asks for steps finer than a millisecond
(DESIGN CHOICE: one microsecond, notes/assumptions/2.md). -/
def tickMicros : Nat := 1

end Sys2Proof.Config
end

