-- ==== Sys2Proof/Machine/Timing.lean ====
section
/-! DEFINITION. Every time and every fixed limit the spec states. Times are in microseconds of the station's timebase. -/

namespace Sys2Proof.Machine

/-- One bit time on the plant line, 16 us (R115). -/
def bitTime : Nat := 16
/-- A start mark lasts 24 bit times (R115, R116). -/
def startMarkBits : Nat := 24
/-- The quiet begins after 20 released bit times (R116). -/
def quietBits : Nat := 20
/-- A reception ends when 5 released bit times have followed a stop bit position (R128). -/
def receptionEndBits : Nat := 5
/-- A slot of the zone cycle, 80 ms (R90). -/
def slotTime : Nat := 80000
/-- The first byte of a frame must be taken by 10 ms (R101). -/
def firstByteTime : Nat := 10000
/-- The whole frame must be taken by 70 ms (R101). -/
def wholeFrameTime : Nat := 70000
/-- The gap timer, 5 ms (R109). -/
def gapTime : Nat := 5000
/-- IN-FULL stays high for 50 us (R109). -/
def inFullTime : Nat := 50
/-- The aging timer, 4 s (R49). -/
def agingPeriod : Nat := 4000000
/-- The claim timer, 5 s (R57). -/
def claimPeriod : Nat := 5000000
/-- The scan timer, 20 ms (R149). -/
def scanPeriod : Nat := 20000
/-- The chatter window timer, 60 s (R154). -/
def chatterWindow : Nat := 60000000
/-- The refresh limit, 5 s (R41, R43). -/
def refreshLimit : Nat := 5000000
/-- The repeat timer of an answer list entry, 1 s (R86). -/
def answerRepeat : Nat := 1000000
/-- One second (R31, R162). -/
def second : Nat := 1000000
/-- The flash phase turns over every 500 ms (R178). -/
def flashPeriod : Nat := 500000
/-- A frame of the panel, 15.625 ms (R177). -/
def panelFrame : Nat := 15625
/-- The wait for the memory's supply, 20 ms (R184). -/
def loadWait : Nat := 20000
/-- Command, address and image: 2192 bits of 4 us (R184). -/
def loadRead : Nat := 8768

/-- Entries of the incident table (R1). -/
def tableSize : Nat := 16
/-- Pagers a call list holds at most (R28). -/
def callListMax : Nat := 8
/-- Bursts the transmit queue holds at most (R117). -/
def queueMax : Nat := 8
/-- Entries the page list holds at most (R67). -/
def pageListMax : Nat := 24
/-- Entries the answer list holds at most (R86). -/
def answerListMax : Nat := 4
/-- Entries the owed duty list holds at most (R61), and entries of one CLAIM (R57). -/
def dutyListMax : Nat := 8
/-- Records the History Log holds at most (R164). -/
def logMax : Nat := 128
/-- Records one LOG burst carries at most (R174). -/
def logBurstMax : Nat := 4
/-- The floor: a score below it is not presence (R50, R55). -/
def floorScore : Nat := 24
/-- The margin of the route test (R55). -/
def marginScore : Nat := 32
/-- Cycle ends a SPENT entry lingers (R81, R82). -/
def spentLinger : Nat := 8
/-- Failed attempts at which a burst is dropped (R127). -/
def attemptMax : Nat := 16
/-- The largest value of the 16-bit counters, where they saturate (R74, R110, R134). -/
def counterMax : Nat := 65535
/-- The largest value of the seconds clock (R162). -/
def secondsMax : Nat := 4294967295
/-- The largest lost count (R166). -/
def lostMax : Nat := 255
/-- The largest chatter counter (R153). -/
def chatterMax : Nat := 31

/-- A counter raised by one that saturates at `top`. -/
def raised (top n : Nat) : Nat := min (n + 1) top

end Sys2Proof.Machine
end

