-- ==== Sys2Proof/Machine/StartValues.lean ====
section
/-! DEFINITION. The values each block takes at a start (R191). Values the load sets, for which the spec gives none
before the load ends, are DESIGN CHOICE (notes/assumptions/4.md). -/

namespace Sys2Proof.Machine

/-- R4: every entry FREE, both counters 0, every pending-raise mark clear. -/
def engineStart : Engine where
  table := List.replicate tableSize none
  serialCounter := 0
  seqCounter := 0
  pend := List.replicate 48 none
  plans := List.replicate 4 []

/-- R46: score, claim and announcement 0; the image's values are not yet loaded. -/
def pagerStart : PagerRecord where
  inUse := false
  group := none
  rank := .crew
  duty := false
  score := 0
  claim := 0
  claimant := none
  announced := 0
  belowOwed := false

/-- R46: claim pointer 0, owed duty list empty, both timers stopped. -/
def presenceStart : Presence where
  roster := List.replicate 64 pagerStart
  pointer := 0
  owedDuty := []
  agingAt := none
  claimAt := none

/-- R69: page list and answer list empty, refused-page counter 0. -/
def relayStart : Relay where
  pages := []
  answers := []
  refused := 0

/-- R93. -/
def zoneStart : Zone where
  plan := List.replicate 32 none
  beacon := none
  onAir := none
  slot := 0
  slotStart := 0
  slotAt := none
  cycle := 0
  dark := false
  lateCount := 0
  beaconCount := 0
  zoneOwed := false
  handover := none
  assembler := .idle
  inFullUntil := none
  gapAt := none
  partialReturns := 0

/-- R135: no reception in progress, no byte frame open; the quiet gap is counted from `now`. -/
def readerStart (now : Nat) : Reader where
  run := 0
  frame := none
  reception := none
  quietFrom := now
  readTo := now

/-- R135. -/
def lineStart : Line where
  queue := []
  sending := none
  reader := readerStart 0
  lastSender := none
  checkFaults := 0
  framingAborts := 0
  collisions := 0
  drops := 0
  hold := false
  degraded := false

/-- R148: candidate absent, run count 0, NORMAL, out of CHATTER, no cancel hold; the input map is not yet loaded. -/
def inputStart : InputRecord where
  mode := .unused
  lockable := false
  cls := 1
  group := 0
  msg := 0
  candidate := none
  run := 0
  condition := .normal
  chatterCount := 0
  inChatter := false
  holdAlarm := false
  holdWiring := false
  holdChatter := false

/-- R148: LOCKOUT released with its candidate absent, both timers stopped. -/
def scannerStart : Scanner where
  inputs := List.replicate 16 inputStart
  lockout := false
  lockCandidate := none
  lockRun := 0
  debounce := 1
  threshold := 4
  scanAt := none
  windowAt := none

/-- R169, power-on column: no record, numbering from 0, mode and watermark unset, the clock at 0. -/
def logPowerOn : Log where
  records := []
  appended := 0
  mode := none
  watermark := none
  frozen := false
  lost := 0
  seconds := 0
  secondAt := second

/-- R171: IDLE. -/
def officeStart : Office where
  drain := none

/-- R181: a loading frame begins at `now`; COM1 and SEG16 alone are driven; the flash phase does not run. -/
def panelStart (now : Nat) : Panel where
  commons := 1
  frameStart := now
  share := 0
  segments := BitVec.ofNat 32 (2 ^ 16)
  flash := true
  flashAt := none

/-- R186, R190: no station number and no zone channel is held before a load ends CONFIGURED. -/
def identityStart : Identity where
  station := 0
  channel := 0

/-- R183 to R185: LOADING; the load begins at `now`, or waits for the release of an asserted RESTART input. -/
def loaderStart (now : Nat) (restartAsserted afterRestart : Bool) : Loader where
  load := if restartAsserted then .held else .waiting (now + loadWait)
  restartPin := restartAsserted
  afterRestart := afterRestart

end Sys2Proof.Machine
end

