-- ==== Sys2Proof/Machine/State.lean ====
section
/-! DEFINITION. The state of the station, the reasons a step can stop, and the state right after reset. -/

namespace Sys2Proof.Machine

/-- The whole station: the timebase in microseconds since power-on, the blocks of 0-2, and the commands that wait, first in,
first out. -/
structure State where
  now : Nat
  loader : Loader
  ident : Identity
  engine : Engine
  presence : Presence
  relay : Relay
  zone : Zone
  line : Line
  scanner : Scanner
  log : Log
  office : Office
  panel : Panel
  pending : List Instr
  deriving DecidableEq, Repr

/-- No constructor: the spec names no event that stops the station. A failed load (R187), a failed reception (R130), a late
slot (R104) and a refused offer (R118) are all next states. -/
inductive Fault
  deriving DecidableEq, Repr

/-- Why a command has no meaning here. -/
inductive Refusal
  /-- Raised by an arm of `exec` whose command is not modelled; safe. No arm raises it. -/
  | notModelled (mnemonic : String)
  deriving DecidableEq, Repr

/-- The station at a power-on with the RESTART input at the level given, the commands in `queue` still waiting (R183, R191). -/
def powerOnState (restartAsserted : Bool) (queue : List Instr) : State where
  now := 0
  loader := loaderStart 0 restartAsserted false
  ident := identityStart
  engine := engineStart
  presence := presenceStart
  relay := relayStart
  zone := zoneStart
  line := lineStart
  scanner := scannerStart
  log := logPowerOn
  office := officeStart
  panel := panelStart 0
  pending := queue

/-- The station right after reset: power has been applied with the RESTART input released, and it is LOADING (R183, R191). -/
def State.reset : State := powerOnState false []

end Sys2Proof.Machine
end

