-- ==== Sys2Proof/Machine/Operands.lean ====
section
/-! DEFINITION. The byte formats of chapter 12 and the tests of chapter 7: what the bytes a command brings mean, and the bytes
the station itself sends. -/

namespace Sys2Proof.Machine

/-! ### Common coding (R192) -/

/-- A whole number in one byte. -/
def byteOf (n : Nat) : Byte := BitVec.ofNat 8 n

/-- An optional field: absent is 0FFH (R192). -/
def optByte : Option Nat → Byte
  | none => 0xFF
  | some n => byteOf n

/-- A two-byte field, high byte first (R192). -/
def twoBytes (n : Nat) : List Byte := [byteOf (n / 256), byteOf (n % 256)]

/-- A four-byte field, high byte first (R192). -/
def fourBytes (n : Nat) : List Byte :=
  [byteOf (n / 16777216), byteOf (n / 65536), byteOf (n / 256), byteOf n]

/-- A flag at the place of value `v`. -/
def flagAt (b : Bool) (v : Nat) : Nat := if b then v else 0

/-- One data bit enters the check register (R192). -/
def crcBit (reg : CheckWord) (data : Bool) : CheckWord :=
  if reg.msb != data then (reg <<< 1) ^^^ 0x1021 else reg <<< 1

/-- One byte enters the check register, highest bit first (R192). -/
def crcByte (reg : CheckWord) (b : Byte) : CheckWord :=
  [7, 6, 5, 4, 3, 2, 1, 0].foldl (fun r i => crcBit r (b.getLsbD i)) reg

/-- The check word over a row of bytes: the register starts at 0FFFFH (R192). -/
def checkWord (bytes : List Byte) : CheckWord := bytes.foldl crcByte 0xFFFF

/-- A row of bytes with its check word behind it, high byte first (R192). -/
def withCheck (bytes : List Byte) : List Byte := bytes ++ twoBytes (checkWord bytes).toNat

/-! ### Codes (R192) -/

/-- The nine burst kinds (R137). -/
inductive BurstKind
  | claim | call | answer | settle | duty | zone | query | log | state
  deriving DecidableEq, Repr

def Body.burstKind : Body → BurstKind
  | .claim _ => .claim
  | .call _ => .call
  | .answer _ => .answer
  | .settle _ => .settle
  | .duty _ => .duty
  | .zone _ => .zone
  | .query _ => .query
  | .log _ => .log
  | .state _ _ => .state

def burstKindCode : BurstKind → Nat
  | .claim => 1
  | .call => 2
  | .answer => 3
  | .settle => 4
  | .duty => 5
  | .zone => 6
  | .query => 7
  | .log => 8
  | .state => 9

def burstKindOf : Nat → Option BurstKind
  | 1 => some .claim
  | 2 => some .call
  | 3 => some .answer
  | 4 => some .settle
  | 5 => some .duty
  | 6 => some .zone
  | 7 => some .query
  | 8 => some .log
  | 9 => some .state
  | _ => none

def sourceKindCode : SourceKind → Nat
  | .alarm => 0
  | .wiring => 1
  | .chatter => 2

def sourceKindOf : Nat → Option SourceKind
  | 0 => some .alarm
  | 1 => some .wiring
  | 2 => some .chatter
  | _ => none

def answerKindCode : AnswerKind → Nat
  | .accept => 1
  | .decline => 2
  | .done => 3

def answerKindOf : Nat → Option AnswerKind
  | 1 => some .accept
  | 2 => some .decline
  | 3 => some .done
  | _ => none

def settleKindCode : SettleKind → Nat
  | .taken => 1
  | .closed => 2
  | .withdrawn => 3
  | .cancelled => 4

def settleKindOf : Nat → Option SettleKind
  | 1 => some .taken
  | 2 => some .closed
  | 3 => some .withdrawn
  | 4 => some .cancelled
  | _ => none

def incidentStateCode : IncidentState → Nat
  | .calling => 0
  | .unanswered => 1
  | .taken => 2
  | .closing => 3

/-- The four codes of two bits (R192). -/
def incidentStateOf (n : Nat) : IncidentState :=
  if n = 0 then .calling else if n = 1 then .unanswered else if n = 2 then .taken else .closing

def tagCode : Tag → Nat
  | .raised => 1
  | .level => 2
  | .taken => 3
  | .declined => 4
  | .done => 5
  | .closed => 6
  | .withdrawn => 7
  | .cancelled => 8
  | .unanswered => 9
  | .overflow => 10
  | .zoneDark => 11
  | .zoneLive => 12
  | .lineDrop => 13
  | .lineHold => 14
  | .restart => 15
  | .lost => 16

def tagOf : Nat → Option Tag
  | 1 => some .raised
  | 2 => some .level
  | 3 => some .taken
  | 4 => some .declined
  | 5 => some .done
  | 6 => some .closed
  | 7 => some .withdrawn
  | 8 => some .cancelled
  | 9 => some .unanswered
  | 10 => some .overflow
  | 11 => some .zoneDark
  | 12 => some .zoneLive
  | 13 => some .lineDrop
  | 14 => some .lineHold
  | 15 => some .restart
  | 16 => some .lost
  | _ => none

/-- The tags whose serial is present (R163). -/
def Tag.hasSerial : Tag → Bool
  | .raised | .level | .taken | .declined | .done | .closed | .withdrawn | .cancelled | .unanswered => true
  | _ => false

/-- The tags whose pager may be present (R163). -/
def Tag.hasPager : Tag → Bool
  | .taken | .declined | .done | .closed | .withdrawn | .cancelled => true
  | _ => false

/-- The tags whose detail is present (R163). -/
def Tag.hasDetail : Tag → Bool
  | .raised | .level | .unanswered | .overflow | .lost => true
  | _ => false

/-! ### Bursts as bytes (R192) -/

def encodeClaimEntry (e : ClaimEntry) : List Byte := [byteOf e.pager, byteOf e.score]

def encodeDutyEntry (e : DutyEntry) : List Byte := [byteOf e.pager, byteOf (flagAt e.on 1)]

def encodeCallPager (p : CallPager) : Byte := byteOf (flagAt p.flood 128 + p.pager)

def encodeCall (c : CallBody) : List Byte :=
  [byteOf c.serial, byteOf c.seq, byteOf (c.cls * 16 + c.level),
   byteOf (c.repeats * 16 + flagAt c.unanswered 4 + sourceKindCode c.kind),
   byteOf c.group, byteOf c.msg, byteOf c.input] ++ c.pagers.map encodeCallPager

def encodeAnswer (k : AnswerKey) : List Byte :=
  [byteOf k.owner, byteOf k.serial, byteOf k.pager, byteOf (answerKindCode k.kind)]

def encodeSettle (b : SettleBody) : List Byte :=
  [byteOf b.serial, byteOf (settleKindCode b.kind), optByte b.responder]

/-- The fields a query does not carry are coded as absent (R143, R192). -/
def encodeQuery : Query → List Byte
  | .history n => [1, byteOf n, 0xFF]
  | .incidents => [2, 0xFF, 0xFF]
  | .release => [3, 0xFF, 0xFF]
  | .cancel s => [4, 0xFF, byteOf s]

def encodeRecord (r : Record) : List Byte :=
  byteOf (tagCode r.tag) :: fourBytes r.time ++ [optByte r.serial, optByte r.pager, optByte r.detail]

def encodeSummary (m : Summary) : List Byte :=
  [byteOf m.serial, byteOf (incidentStateCode m.state * 64 + m.level * 16 + m.cls),
   byteOf (sourceKindCode m.kind * 16 + m.input), optByte m.responder]

def encodeCounters (c : Counters) : List Byte :=
  twoBytes c.checkFaults ++ twoBytes c.framingAborts ++ twoBytes c.collisions ++ twoBytes c.drops ++
    twoBytes c.refusedPages ++ twoBytes c.partialReturns

def encodeBody : Body → List Byte
  | .claim es => es.flatMap encodeClaimEntry
  | .call c => encodeCall c
  | .answer k => encodeAnswer k
  | .settle b => encodeSettle b
  | .duty es => es.flatMap encodeDutyEntry
  | .zone dark => [byteOf (flagAt dark 1)]
  | .query q => encodeQuery q
  | .log rs => rs.flatMap encodeRecord
  | .state ms c => ms.flatMap encodeSummary ++ encodeCounters c

/-- The entry count of a body (R139). -/
def Body.entryCount : Body → Nat
  | .claim es => es.length
  | .call c => c.pagers.length
  | .duty es => es.length
  | .log rs => rs.length
  | .state ms _ => ms.length
  | _ => 0

def lineClassCode : LineClass → Nat
  | .class0 => 0
  | .class1 => 1

/-- The six bytes of the header, the total length taken from the body (R124, R137, R192). -/
def encodeHeader (b : Burst) : List Byte :=
  [byteOf (burstKindCode b.body.burstKind), byteOf (lineClassCode b.lineClass * 64 + b.sender),
   byteOf (flagAt b.dark 128 + flagAt b.historyHigh 64 + b.openIncidents), optByte b.addressee,
   byteOf b.body.entryCount, byteOf (6 + (encodeBody b.body).length + 2)]

/-- A burst as the bytes on the line: header, body, check word (R115, R192). -/
def encodeBurst (b : Burst) : List Byte := withCheck (encodeHeader b ++ encodeBody b.body)

/-! ### Reading a body (R139 to R144) -/

/-- Fixed part, entry size, least and greatest entry count of a kind (R139). -/
def kindShape : BurstKind → Nat × Nat × Nat × Nat
  | .claim => (0, 2, 1, 8)
  | .call => (7, 1, 1, 8)
  | .answer => (4, 0, 0, 0)
  | .settle => (3, 0, 0, 0)
  | .duty => (0, 2, 1, 8)
  | .zone => (1, 0, 0, 0)
  | .query => (3, 0, 0, 0)
  | .log => (0, 8, 1, 4)
  | .state => (12, 4, 0, 16)

/-- The entry count lies in the kind's range and the total length is that of kind and count (R139). -/
def shapeFits (k : BurstKind) (count total : Nat) : Bool :=
  let (fixed, entry, lo, hi) := kindShape k
  decide (lo ≤ count) && decide (count ≤ hi) && decide (total = 6 + fixed + count * entry + 2)

/-- R140. -/
def readClaimEntries : List Byte → Option (List ClaimEntry)
  | [] => some []
  | [_] => none
  | p :: v :: rest =>
    if p.toNat ≤ 63 ∧ v.toNat ≤ 240 then (readClaimEntries rest).map (⟨p.toNat, v.toNat⟩ :: ·) else none

/-- R140: a duty is 0 OFF or 1 ON. -/
def readDutyEntries : List Byte → Option (List DutyEntry)
  | [] => some []
  | [_] => none
  | p :: v :: rest =>
    if p.toNat ≤ 63 ∧ v.toNat ≤ 1 then (readDutyEntries rest).map (⟨p.toNat, v.toNat == 1⟩ :: ·) else none

/-- R141: bit 7 is the flood mark, bits 6 to 0 the pager. -/
def readCallPagers : List Byte → Option (List CallPager)
  | [] => some []
  | b :: rest =>
    if b.toNat % 128 ≤ 63 then (readCallPagers rest).map (⟨b.toNat % 128, decide (128 ≤ b.toNat)⟩ :: ·) else none

/-- R141. -/
def readCall : List Byte → Option CallBody
  | s :: q :: cl :: rs :: g :: m :: i :: ps =>
    match sourceKindOf (rs.toNat % 4), readCallPagers ps with
    | some k, some pagers =>
      if 1 ≤ cl.toNat / 16 ∧ cl.toNat / 16 ≤ 4 ∧ cl.toNat % 16 ≤ 3 ∧ 1 ≤ rs.toNat / 16 ∧ rs.toNat / 16 ≤ 8 ∧
          rs.toNat / 4 % 4 ≤ 1 ∧ g.toNat ≤ 7 ∧ i.toNat ≤ 15 then
        some { serial := s.toNat, seq := q.toNat, cls := cl.toNat / 16, level := cl.toNat % 16,
               repeats := rs.toNat / 16, unanswered := rs.toNat / 4 % 4 == 1, kind := k, group := g.toNat,
               msg := m.toNat, input := i.toNat, pagers := pagers }
      else none
    | _, _ => none
  | _ => none

/-- R142. -/
def readAnswer : List Byte → Option AnswerKey
  | [o, s, p, k] =>
    match answerKindOf k.toNat with
    | some kind => if o.toNat ≤ 31 ∧ p.toNat ≤ 63 then some ⟨o.toNat, s.toNat, p.toNat, kind⟩ else none
    | none => none
  | _ => none

/-- An optional pager: 0FFH absent, above 63 out of range (R142, R144, R192). -/
def readOptPager (b : Byte) : Option (Option Nat) :=
  if b.toNat = 255 then some none else if b.toNat ≤ 63 then some (some b.toNat) else none

/-- R142: a TAKEN without a responder does not fit. -/
def readSettle : List Byte → Option SettleBody
  | [s, k, r] =>
    match settleKindOf k.toNat, readOptPager r with
    | some kind, some responder =>
      if kind = .taken ∧ responder = none then none else some ⟨s.toNat, kind, responder⟩
    | _, _ => none
  | _ => none

/-- R142. -/
def readZone : List Byte → Option Bool
  | [z] => if z.toNat ≤ 1 then some (z.toNat == 1) else none
  | _ => none

/-- R143: a HISTORY count is 1 to 32; fields not read hold any coding. -/
def readQuery : List Byte → Option Query
  | [k, c, s] =>
    match k.toNat with
    | 1 => if 1 ≤ c.toNat ∧ c.toNat ≤ 32 then some (.history c.toNat) else none
    | 2 => some .incidents
    | 3 => some .release
    | 4 => some (.cancel s.toNat)
    | _ => none
  | _ => none

/-- A byte of an optional field that another field makes present or absent: absent, it is 0FFH (R192; DEDUCED,
notes/assumptions/21.md). -/
def optionalFits (present : Bool) (b : Byte) : Bool := present || b == 0xFF

/-- R144, R192: the tag sets which fields are present. A byte other than 0FFH in an absent field is a code without a meaning and fails
the burst, as does a pager field above 63; 0FFH in a pager field is absent under every tag. -/
def readRecord (t a b c d s p x : Byte) : Option Record :=
  match tagOf t.toNat, readOptPager p with
  | some tag, some pager =>
    if optionalFits tag.hasSerial s && optionalFits tag.hasPager p && optionalFits tag.hasDetail x then some
      { tag := tag
        time := a.toNat * 16777216 + b.toNat * 65536 + c.toNat * 256 + d.toNat
        serial := if tag.hasSerial then some s.toNat else none
        pager := pager
        detail := if tag.hasDetail then some x.toNat else none }
    else none
  | _, _ => none

/-- R144. -/
def readRecords : List Byte → Option (List Record)
  | [] => some []
  | t :: a :: b :: c :: d :: s :: p :: x :: rest =>
    match readRecord t a b c d s p x, readRecords rest with
    | some r, some rs => some (r :: rs)
    | _, _ => none
  | _ => none

/-- R144. -/
def readSummary (s a b r : Byte) : Option Summary :=
  match sourceKindOf (b.toNat / 16), readOptPager r with
  | some kind, some responder =>
    if 1 ≤ a.toNat % 16 ∧ a.toNat % 16 ≤ 4 then
      some { serial := s.toNat, state := incidentStateOf (a.toNat / 64), level := a.toNat / 16 % 4,
             cls := a.toNat % 16, kind := kind, input := b.toNat % 16, responder := responder }
    else none
  | _, _ => none

/-- R144: so many summaries, then the counter part. -/
def readState : Nat → List Byte → Option (List Summary × Counters)
  | n + 1, s :: a :: b :: r :: rest =>
    match readSummary s a b r, readState n rest with
    | some m, some (ms, c) => some (m :: ms, c)
    | _, _ => none
  | 0, [a, b, c, d, e, f, g, h, i, j, k, l] =>
    some ([], { checkFaults := a.toNat * 256 + b.toNat, framingAborts := c.toNat * 256 + d.toNat,
                collisions := e.toNat * 256 + f.toNat, drops := g.toNat * 256 + h.toNat,
                refusedPages := i.toNat * 256 + j.toNat, partialReturns := k.toNat * 256 + l.toNat })
  | _, _ => none

/-- The body of a kind with its entry count, when every field lies in its range (R140 to R144). -/
def readBody (k : BurstKind) (count : Nat) (bytes : List Byte) : Option Body :=
  match k with
  | .claim => (readClaimEntries bytes).map .claim
  | .call => (readCall bytes).map .call
  | .answer => (readAnswer bytes).map .answer
  | .settle => (readSettle bytes).map .settle
  | .duty => (readDutyEntries bytes).map .duty
  | .zone => (readZone bytes).map .zone
  | .query => (readQuery bytes).map .query
  | .log => (readRecords bytes).map .log
  | .state => (readState count bytes).map fun (ms, c) => .state ms c

/-! ### Judging a reception (R130) -/

/-- The failures of R130, in the order of its table. Each is a check fault. -/
inductive RxFailure
  | truncated | badLength | badCheck | badKind | badBody
  deriving DecidableEq, Repr

/-- What the Line Controller makes of a reception that ended by a gap (R130). -/
inductive Judgement
  | valid (burst : Burst)
  | failed (why : RxFailure)
  deriving DecidableEq, Repr

/-- Line class of a header: 2 and 3 fail (R138, R192). -/
def lineClassOf : Nat → Option LineClass
  | 0 => some .class0
  | 1 => some .class1
  | _ => none

/-- Addressee of a header: 0 to 31, or 0FFH for ALL (R138, R192). -/
def addresseeOf (n : Nat) : Option (Option Nat) :=
  if n = 255 then some none else if n ≤ 31 then some (some n) else none

/-- The header fields of a burst of a known kind against their ranges, and its body (R138, R139). -/
def readBurst (k : BurstKind) (b1 b2 b3 count total : Nat) (body : List Byte) : Option Burst :=
  match lineClassOf (b1 / 64), addresseeOf b3, readBody k count body with
  | some lc, some addr, some bd =>
    if b1 % 64 ≤ 31 ∧ b2 % 64 ≤ 16 ∧ shapeFits k count total then
      some { lineClass := lc, sender := b1 % 64, dark := decide (128 ≤ b2), historyHigh := b2 / 64 % 2 == 1,
             openIncidents := b2 % 64, addressee := addr, body := bd }
    else none
  | _, _, _ => none

/-- Judging a reception that ended by a gap (R130): its bytes are a valid burst, or fail. -/
def judge (bytes : List Byte) : Judgement :=
  let at' (i : Nat) : Nat := (bytes.getD i 0).toNat
  let total := at' 5
  if bytes.length < 6 ∨ bytes.length < total then .failed .truncated
  else if total < 9 ∨ 84 < total ∨ total < bytes.length then .failed .badLength
  else if twoBytes (checkWord (bytes.take (total - 2))).toNat ≠ bytes.drop (total - 2) then .failed .badCheck
  else match burstKindOf (at' 0) with
    | none => .failed .badKind
    | some k =>
      match readBurst k (at' 1) (at' 2) (at' 3) (at' 4) total ((bytes.take (total - 2)).drop 6) with
      | some b => .valid b
      | none => .failed .badBody

/-! ### Radio port (R193) -/

/-- The twelve bytes of a beacon (R92, R193). -/
def beaconBytes (b : Beacon) : List Byte :=
  withCheck [1, byteOf b.channel, byteOf b.station, byteOf b.cycle, 0xFF, 0xFF, 0xFF, 0xFF, 0xFF, 0xFF]

/-- The twelve bytes of a PAGE or STANDDOWN frame (R92, R193). -/
def pageFrameBytes (f : PageFrame) : List Byte :=
  withCheck [match f.kind with | .page => 2 | .standdown => 3, byteOf f.channel, byteOf f.station, 0xFF,
    byteOf f.key.pager, byteOf f.key.owner, byteOf f.key.serial, byteOf f.msg, byteOf f.cls, byteOf f.level]

/-- The kinds of a return word (R113). -/
inductive ReturnKind
  | checkin
  | answer (kind : AnswerKind)
  | sign (on : Bool)
  deriving DecidableEq, Repr

/-- A return word in its fields (R112, R193). `owner` is absent for 0FFH and for a number above 31. -/
structure ReturnWord where
  bad : Bool
  pager : Nat
  kind : Option ReturnKind
  grade : Nat
  owner : Option Nat
  serial : Nat
  deriving DecidableEq, Repr

def returnKindOf : Nat → Option ReturnKind
  | 0 => some .checkin
  | 1 => some (.answer .accept)
  | 2 => some (.answer .decline)
  | 3 => some (.answer .done)
  | 4 => some (.sign true)
  | 5 => some (.sign false)
  | _ => none

/-- Decoding the four bytes of a return word (R193). -/
def readReturnWord (a b c d : Byte) : ReturnWord where
  bad := decide (128 ≤ a.toNat)
  pager := a.toNat % 128
  kind := returnKindOf (b.toNat / 16)
  grade := b.toNat % 16
  owner := if c.toNat ≤ 31 then some c.toNat else none
  serial := d.toNat

/-! ### Configuration image (R186, R188, R189, 12-3) -/

/-- The 271 bytes a load reads (R184, R186). -/
abbrev Image := Vector Byte 271

/-- A value below the range becomes its lowest, one above it its highest (R188). -/
def clamp (lo hi n : Nat) : Nat := max lo (min n hi)

/-- Byte `i` of the image as a number. -/
def imgByte (img : Image) (i : Nat) : Nat := (img.toList.getD i 0).toNat

/-- The check of R186 on the image as read: true when the load fails. -/
def imageFails (img : Image) : Bool :=
  decide (imgByte img 0 * 256 + imgByte img 1 ≠ 271) ||
  decide (((img.toList.drop 4).foldl (fun n b => n + b.toNat) 0) % 65536 ≠ imgByte img 2 * 256 + imgByte img 3) ||
  decide (31 < imgByte img 4) || decide (15 < imgByte img 5)

/-- A rank code; above 3 it becomes MANAGER (R188). -/
def rankOf (n : Nat) : Rank :=
  if n = 0 then .crew else if n = 1 then .lead else if n = 2 then .supervisor else .manager

/-- A history mode code; one that is none of the three becomes ROLL (R189). -/
def logModeOf (n : Nat) : LogMode :=
  if n = 0 then .stop else if n = 2 then .rollFreeze else .roll

/-- Level `l` of class `c` (12-3), clamped by R188. -/
def imageLevel (img : Image) (c l : Nat) : LevelPlan :=
  let at' := 12 + 17 * (c - 1) + 4 * l
  { rank := rankOf (imgByte img at')
    scope := if imgByte img (at' + 3) / 64 % 2 = 1 then .plant else .group
    window := clamp 10 600 (imgByte img (at' + 1) * 256 + imgByte img (at' + 2))
    repeats := clamp 1 8 (imgByte img (at' + 3) % 16)
    flood := decide (128 ≤ imgByte img (at' + 3)) }

/-- The level plan of class `c`: the levels beyond its clamped level count are not read (R188). -/
def imagePlan (img : Image) (c : Nat) : List LevelPlan :=
  (List.range (clamp 1 4 (imgByte img (11 + 17 * (c - 1))))).map (imageLevel img c)

/-- Roster record of pager `p` (12-3); a group above 7 makes it not in use and of no group (R189). -/
def imagePager (img : Image) (p : Nat) : PagerRecord :=
  let group := imgByte img (80 + 2 * p) / 16
  { pagerStart with
    inUse := decide (128 ≤ imgByte img (79 + 2 * p)) && decide (group ≤ 7)
    group := if group ≤ 7 then some group else none
    rank := rankOf (imgByte img (80 + 2 * p) % 16)
    duty := imgByte img (79 + 2 * p) % 2 == 1 }

/-- Mode of input `n` after steps 3 and 4 of R189. -/
def imageModeAlone (img : Image) (n : Nat) : InputMode :=
  if 7 < imgByte img (209 + 4 * n) then .unused
  else match imgByte img (207 + 4 * n) % 16 with
    | 1 => .contact
    | 2 => if 8 ≤ n then .unused else .supervised
    | _ => .unused

/-- Mode of input `n` after the pairing of R189 step 5. -/
def imageMode (img : Image) (n : Nat) : InputMode :=
  if 8 ≤ n ∧ imageModeAlone img (n - 8) = .supervised then .unused else imageModeAlone img n

/-- Input record `n` at the end of a load (12-3, R148, R188, R189). -/
def imageInput (img : Image) (n : Nat) : InputRecord :=
  { inputStart with
    mode := imageMode img n
    lockable := decide (128 ≤ imgByte img (207 + 4 * n))
    cls := clamp 1 4 (imgByte img (208 + 4 * n))
    group := imgByte img (209 + 4 * n)
    msg := imgByte img (210 + 4 * n) }

/-! ### The line and the memory port as waveforms (R115, R184) -/

/-- One byte on the line, true for driven: a start bit, 8 data bits lowest first each driven for a 0, a stop bit released (R115). -/
def byteWave (b : Byte) : List Bool :=
  true :: ([0, 1, 2, 3, 4, 5, 6, 7].map fun i => !b.getLsbD i) ++ [false]

/-- A burst on the line bit time by bit time, true for driven (R115). -/
def burstWave (bytes : List Byte) : List Bool :=
  List.replicate startMarkBits true ++ [false] ++ bytes.flatMap byteWave

/-- Bit times a burst of `n` bytes holds the line (R115). -/
def burstBits (n : Nat) : Nat := 25 + 10 * n

/-- The read command 03H and the address 0000H as shifted out on MDO, highest bit first (R184). -/
def readCommandBits : List Bool :=
  ([3, 0, 0] : List Byte).flatMap fun b => [7, 6, 5, 4, 3, 2, 1, 0].map fun i => b.getLsbD i

/-- MCLK in microsecond `t` of the read: 250 kHz; a bit begins at a falling edge, for MDO changes there, and the rising edge stands in
its middle (R184; DEDUCED, notes/assumptions/13.md). -/
def mclkAt (t : Nat) : Bool := decide (2 ≤ t % 4)

/-- The station samples MDI on each rising edge of MCLK (R184): the levels sampled from microsecond `t` of the read on. -/
def mdiSamples : Nat → List Bool → List Bool
  | _, [] => []
  | t, level :: rest => if mclkAt t && !mclkAt (t - 1) then level :: mdiSamples (t + 1) rest else mdiSamples (t + 1) rest

/-- Bits shifted in, the highest first (R184). -/
def shiftIn (bits : List Bool) : Nat := bits.foldl (fun n b => 2 * n + flagAt b 1) 0

/-- So many bytes, each of eight bits shifted in (R184). -/
def bytesIn : Nat → List Bool → List Byte
  | 0, _ => []
  | n + 1, bits => byteOf (shiftIn (bits.take 8)) :: bytesIn n (bits.drop 8)

theorem bytesIn_length : ∀ (n : Nat) (bits : List Bool), (bytesIn n bits).length = n
  | 0, _ => rfl
  | n + 1, bits => by rw [bytesIn, List.length_cons, bytesIn_length n]

/-- The image as a read shifts it in: the bits sampled after the read command and the address (R184). -/
def imageRead (mdi : MdiLevels) : Image :=
  ⟨(bytesIn 271 ((mdiSamples 0 mdi.toList).drop readCommandBits.length)).toArray, bytesIn_length ..⟩

end Sys2Proof.Machine
end

