-- ==== Sys2Proof/Machine/Flags.lean ====
section
/-! DEFINITION. What the spec derives from the state at every moment: conditions, header status and the outputs. -/

namespace Sys2Proof.Machine

/-- The load ended CONFIGURED (R183). -/
def State.configured (s : State) : Bool := s.loader.load == .configured

/-- LOADING: held, waiting or reading (R183 to R185). -/
def State.loading (s : State) : Bool := !s.configured && !(s.loader.load == .unconfigured)

/-- The count of entries that are not FREE (R1). -/
def State.openCount (s : State) : Nat := (s.engine.table.filter (·.isSome)).length

/-- The ALARM condition: an incident is UNANSWERED or a pending-raise mark is set (R23). -/
def State.alarmCondition (s : State) : Bool :=
  (s.engine.table.any fun e => e.any (·.state == .unanswered)) || s.engine.pend.any (·.isSome)

/-- The ALARM output (R182). -/
def State.alarmOutput (s : State) : Bool := s.alarmCondition || !s.configured || s.line.hold

/-- History-high: as many records as the watermark or more; clear while none is set (R168, R169). -/
def Log.high (l : Log) : Bool := l.watermark.any fun w => decide (w ≤ l.records.length)

/-- The FRAME line (R100). -/
def State.framePin (s : State) : Bool := s.zone.handover.isSome

/-- The OUT-FULL line: a frame byte stands on the data lines (R100). -/
def State.outFullPin (s : State) : Bool := s.zone.handover.isSome

/-- The byte the station drives on the data lines; it drives them only while OUT-FULL is high (R100, R193). -/
def State.dataLines (s : State) : Option Byte := s.zone.handover.map fun h => h.bytes.getD h.taken 0

/-- The IN-FULL line (R109). -/
def State.inFullPin (s : State) : Bool := s.zone.inFullUntil.isSome

/-- The line drive output, true for driven: the bit time of the burst in transmission (R115, R124). -/
def State.lineDrive (s : State) : Bool :=
  match s.line.sending with
  | none => false
  | some x => (burstWave x.bytes).getD ((s.now - x.startAt) / bitTime) false

/-- The MSEL line: asserted while the image is read (R184). -/
def State.mselPin (s : State) : Bool :=
  match s.loader.load with
  | .reading _ => true
  | _ => false

/-- The microseconds since the read began (R184); absent outside it. -/
def State.readTime (s : State) : Option Nat :=
  match s.loader.load with
  | .reading stop => some (s.now - (stop - loadRead))
  | _ => none

/-- The MCLK line: it runs while the image is read and is low otherwise (R184). -/
def State.mclkPin (s : State) : Bool := s.readTime.any mclkAt

/-- The MDO line: the read command and the address, then low; it is low outside the read too (R184; DESIGN CHOICE,
notes/assumptions/13.md). -/
def State.mdoPin (s : State) : Bool := s.readTime.any fun t => readCommandBits.getD (t / 4) false

/-- The common line driven in the present share; COM1 alone until the load ends CONFIGURED (R178, R181). -/
def State.drivenCommon (s : State) : Nat := if s.configured then s.panel.share else 1

end Sys2Proof.Machine
end

