-- ==== Sys2Proof/Machine/Ops.lean ====
section
/-! DEFINITION. The named operations every block shares: updating one block, the timebase, appending a history record, and
offering a burst to the transmit queue. -/

namespace Sys2Proof.Machine

/-! ### One block at a time -/

def State.withNow (s : State) (x : Nat) : State := { s with now := x }
def State.withLoader (s : State) (x : Loader) : State := { s with loader := x }
def State.withIdent (s : State) (x : Identity) : State := { s with ident := x }
def State.withEngine (s : State) (x : Engine) : State := { s with engine := x }
def State.withPresence (s : State) (x : Presence) : State := { s with presence := x }
def State.withRelay (s : State) (x : Relay) : State := { s with relay := x }
def State.withZone (s : State) (x : Zone) : State := { s with zone := x }
def State.withLine (s : State) (x : Line) : State := { s with line := x }
def State.withScanner (s : State) (x : Scanner) : State := { s with scanner := x }
def State.withLog (s : State) (x : Log) : State := { s with log := x }
def State.withOffice (s : State) (x : Office) : State := { s with office := x }
def State.withPanel (s : State) (x : Panel) : State := { s with panel := x }
def State.withPending (s : State) (x : List Instr) : State := { s with pending := x }

/-! ### The timebase -/

/-- The timebase stands at `t` at the earliest: the event of a timer is taken at its moment of expiry or later
(DESIGN CHOICE, notes/assumptions/2.md). -/
def State.reach (s : State) (t : Nat) : State := s.withNow (max s.now t)

/-- How many shares a frame of the panel has: the configured commons, one in the loading frame (R177, R181). -/
def State.shares (s : State) : Nat := if s.configured then s.panel.commons else 1

/-- The moment the next share of the panel starts (R177; a share that is no whole number of microseconds starts at the
microsecond before, DESIGN CHOICE, notes/assumptions/11.md). -/
def State.nextShareAt (s : State) : Nat :=
  if s.panel.share + 1 < s.shares then s.panel.frameStart + panelFrame * (s.panel.share + 1) / s.shares
  else s.panel.frameStart + panelFrame

/-- The deadline of a frame handover that comes next (R101). -/
def Zone.deadline (z : Zone) : Option Nat :=
  z.handover.map fun h => z.slotStart + (if h.taken = 0 then firstByteTime else wholeFrameTime)

/-- The end of an incident's refresh limit, while a refresh waits for it (R43). -/
def Incident.limitEnd (i : Incident) : Option Nat :=
  if i.refreshDue then i.lastRefresh.map (· + refreshLimit) else none

/-- The moments at which the station's running timers expire. -/
def State.timers (s : State) : List Nat :=
  [s.log.secondAt, s.nextShareAt] ++ s.zone.deadline.toList ++ s.zone.slotAt.toList ++ s.zone.gapAt.toList ++ s.zone.inFullUntil.toList ++
  s.presence.agingAt.toList ++ s.presence.claimAt.toList ++ s.scanner.scanAt.toList ++ s.scanner.windowAt.toList ++
  s.panel.flashAt.toList ++ s.relay.answers.map (·.timer) ++
  s.engine.table.filterMap (fun e => e.bind (·.window)) ++ s.engine.table.filterMap (fun e => e.bind (·.limitEnd)) ++
  (match s.loader.load with | .waiting t => [t] | .reading t => [t] | _ => [])

/-- Some running timer is due. -/
def State.timerDue (s : State) : Bool := s.timers.any fun t => decide (t ≤ s.now)

/-- What a step does on an empty queue: time passes, unless a due timer's event waits to be taken (DESIGN CHOICE,
notes/assumptions/2.md). -/
def State.idle (s : State) : State := if s.timerDue then s else s.withNow (s.now + Config.tickMicros)

/-! ### History records (R163 to R167) -/

/-- The log will take a record by the table of R164. -/
def Log.takes (l : Log) : Bool :=
  decide (l.records.length < logMax) || l.mode == some .roll || (l.mode == some .rollFreeze && !l.frozen)

/-- A record added at the end, with the next number; a full log loses its oldest (R164). -/
def Log.add (l : Log) (r : Record) : Log :=
  { l with
    records := (if l.records.length < logMax then l.records else l.records.drop 1) ++ [⟨l.appended, r⟩]
    appended := l.appended + 1 }

/-- The LOST record the log owes comes first, when it will take a record (R166). -/
def Log.payLost (l : Log) : Log :=
  if 0 < l.lost ∧ l.takes = true then
    { l.add ⟨.lost, l.seconds, none, none, some l.lost⟩ with lost := 0 }
  else l

/-- The record handed to the log, by the table of R164. `freezes` marks a RAISED record of class 1 (R167). -/
def Log.take (l : Log) (r : Record) (freezes : Bool) : Log :=
  if l.takes then
    if freezes && l.mode == some .rollFreeze then { l.add r with frozen := true } else l.add r
  else { l with lost := raised lostMax l.lost }

/-- Appending a record (R163, R164, R166, R167). While the mode is unset no record is appended (R169). -/
def Log.append (l : Log) (tag : Tag) (serial pager detail : Option Nat) (freezes : Bool) : Log :=
  if l.mode = none then l else l.payLost.take ⟨tag, l.seconds, serial, pager, detail⟩ freezes

/-- A block appends a record (R164). -/
def State.append (s : State) (tag : Tag) (serial pager detail : Option Nat) : State :=
  s.withLog (s.log.append tag serial pager detail false)

/-! ### The transmit queue (R117 to R120) -/

/-- The LOG burst of the drain is lost: the drain ends (R120, R175). -/
def State.logLost (s : State) : State := s.withOffice { s.office with drain := none }

/-- Reporting a burst LOST to the Office Service, when it is a LOG (R120). -/
def State.reportLost (s : State) (b : Queued) : State :=
  match b.body with
  | .log _ => s.logLost
  | _ => s

/-- The bursts behind the head when the head is in transmission, else all (R118). -/
def Line.free (l : Line) : List Queued := if l.sending.isSome then l.queue.drop 1 else l.queue

/-- A class 0 burst goes after the last class 0 burst (R118). -/
def placeUrgent (b : Queued) (q : List Queued) : List Queued :=
  q.takeWhile (·.cls == .class0) ++ b :: q.dropWhile (·.cls == .class0)

/-- An accepted burst takes its place (R117, R118). -/
def Line.place (l : Line) (b : Queued) : Line :=
  match b.cls with
  | .class1 => { l with queue := l.queue ++ [b] }
  | .class0 =>
    if l.sending.isSome then { l with queue := l.queue.take 1 ++ placeUrgent b (l.queue.drop 1) }
    else { l with queue := placeUrgent b l.queue }

/-- The newest class 1 burst not in transmission (R118). -/
def Line.evictable (l : Line) : Option Queued :=
  match l.free.getLast? with
  | some b => if b.cls = .class1 then some b else none
  | none => none

/-- Offering a burst to the transmit queue: the state after it, and whether it was accepted (R118, R119). -/
def State.offer (s : State) (body : Body) (cls : LineClass) (addressee : Option Nat) : State × Bool :=
  let b : Queued := { body := body, cls := cls, addressee := addressee, attempts := 0 }
  if s.line.hold then (s.reportLost b, true)
  else if s.line.queue.length < queueMax then (s.withLine (s.line.place b), true)
  else match cls, s.line.evictable with
    | .class0, some out =>
      ((s.withLine ({ s.line with queue := s.line.queue.dropLast }.place b)).reportLost out, true)
    | _, _ => (s, false)

/-! ### Reading and writing one record -/

/-- The incident in an entry of the table; absent for a FREE entry (R1). -/
def State.incident? (s : State) (e : Nat) : Option Incident := (s.engine.table[e]?).join

/-- Entry `e` of the incident table becomes `i`; absent frees it (R1). -/
def State.setEntry (s : State) (e : Nat) (i : Option Incident) : State :=
  s.withEngine { s.engine with table := s.engine.table.set e i }

/-- The incident of entry `e`, changed (R2). -/
def State.modifyIncident (s : State) (e : Nat) (f : Incident → Incident) : State :=
  match s.incident? e with
  | none => s
  | some i => s.setEntry e (some (f i))

/-- The roster record of a pager (R45). -/
def State.pager (s : State) (p : Nat) : PagerRecord := s.presence.roster.getD p pagerStart

/-- The roster record of a pager, changed (R45). -/
def State.modifyPager (s : State) (p : Nat) (f : PagerRecord → PagerRecord) : State :=
  s.withPresence { s.presence with roster := s.presence.roster.modify p f }

/-- The record of an input (R146). -/
def State.input (s : State) (n : Nat) : InputRecord := s.scanner.inputs.getD n inputStart

/-- The record of an input, changed (R146). -/
def State.modifyInput (s : State) (n : Nat) (f : InputRecord → InputRecord) : State :=
  s.withScanner { s.scanner with inputs := s.scanner.inputs.modify n f }

end Sys2Proof.Machine
end

