-- ==== Sys2Proof/Machine/Planner.lean ====
section
/-! DEFINITION. Planning the cycle (R91 to R98): home slots, halves, ranks, filling a half and amending it. -/

namespace Sys2Proof.Machine

/-- The home slot of a pager (R91). -/
def homeSlot (p : Nat) : Nat := 1 + p % 31

/-- The half a slot lies in (R91). -/
def halfOf (slot : Nat) : Half := if slot < 16 then .a else .b

/-- The page slots of a half (R91). -/
def pageSlots : Half → List Nat
  | .a => (List.range 15).map (· + 1)
  | .b => (List.range 16).map (· + 16)

/-- The half that is being planned; none before the slot timer starts (R91, R93). -/
def Zone.offAir (z : Zone) : Option Half :=
  z.onAir.map fun h => match h with | .a => .b | .b => .a

/-- Slot `slot` may be amended: it lies in the off-air half (R91, R96). -/
def Zone.amendable (z : Zone) (slot : Nat) : Bool := z.offAir == some (halfOf slot)

/-- The page list entry of a key (R67). -/
def Relay.find (r : Relay) (k : PageKey) : Option PageEntry := r.pages.find? (·.key == k)

def State.setPages (s : State) (ps : List PageEntry) : State := s.withRelay { s.relay with pages := ps }

def State.setPlan (s : State) (pl : List (Option PageFrame)) : State := s.withZone { s.zone with plan := pl }

/-- The entry of a key, changed (R67: an update keeps its arrival order). -/
def updateKey (k : PageKey) (f : PageEntry → PageEntry) (ps : List PageEntry) : List PageEntry :=
  ps.map fun e => if e.key = k then f e else e

/-- Rank by class and kind: the lower class first, then a stand-down before a page (R94). -/
def rankClass (e : PageEntry) : Nat × Nat :=
  (e.cls, match e.kind with | .standdown => 0 | .page => 1)

/-- Entry `a` at place `i` ranks before entry `b` at place `j` (R94). -/
def outranks (a : PageEntry) (i : Nat) (b : PageEntry) (j : Nat) : Bool :=
  let (ca, ka) := rankClass a
  let (cb, kb) := rankClass b
  decide (ca < cb) || (ca == cb && (decide (ka < kb) || (ka == kb && decide (i < j))))

/-- An entry is a candidate for a page slot (R94). -/
def candidate (dark : Bool) (slot : Nat) (e : PageEntry) : Bool :=
  !dark && homeSlot e.key.pager == slot && e.state == .waiting && decide (0 < e.repeats)

/-- The better of the best so far and one more entry with its place (R94). -/
def betterOf (best : Option (PageEntry × Nat)) (x : PageEntry × Nat) : Option (PageEntry × Nat) :=
  match best with
  | none => some x
  | some b => if outranks x.1 x.2 b.1 b.2 then some x else some b

/-- The highest-ranked candidate for a slot (R95). -/
def bestCandidate (dark : Bool) (slot : Nat) (ps : List PageEntry) : Option PageEntry :=
  (((ps.zipIdx.filter fun x => candidate dark slot x.1).foldl betterOf none)).map (·.1)

/-- The frame built from an entry as it stands (R92). -/
def buildFrame (id : Identity) (e : PageEntry) : PageFrame where
  kind := e.kind
  channel := id.channel
  station := id.station
  key := e.key
  msg := e.msg
  cls := e.cls
  level := e.level
  seq := e.seq

/-- An entry is placed in a slot and becomes PLACED (R95, R96). -/
def State.placeIn (s : State) (slot : Nat) (e : PageEntry) : State :=
  (s.setPages (updateKey e.key (fun x => { x with state := .placed }) s.relay.pages)).setPlan
    (s.zone.plan.set slot (some (buildFrame s.ident e)))

/-- The choice of R95 for an empty slot. -/
def State.fillSlot (s : State) (slot : Nat) : State :=
  match bestCandidate s.zone.dark slot s.relay.pages with
  | none => s
  | some e => s.placeIn slot e

def State.emptySlot (s : State) (slot : Nat) : State := s.setPlan (s.zone.plan.set slot none)

/-- Filling a half: every page slot is emptied, then each takes its highest-ranked candidate (R95). -/
def State.fillHalf (s : State) (h : Half) : State :=
  (pageSlots h).foldl State.fillSlot ((pageSlots h).foldl State.emptySlot s)

/-- The slot's entry has left it: the slot is emptied and filled again (R97). -/
def State.planRefill (s : State) (slot : Nat) : State :=
  if s.zone.amendable slot then (s.emptySlot slot).fillSlot slot else s

/-- The entry that holds a slot, with its place in the list. -/
def slotHolder (ps : List PageEntry) (f : PageFrame) : Option (PageEntry × Nat) :=
  ps.zipIdx.find? fun x => x.1.key == f.key && x.1.state == .placed

/-- The planner takes the report of an entry that became WAITING (R96). -/
def State.planAmend (s : State) (k : PageKey) : State :=
  match s.relay.pages.zipIdx.find? (·.1.key == k) with
  | none => s
  | some (e, i) =>
    let slot := homeSlot k.pager
    if s.zone.amendable slot && candidate s.zone.dark slot e then
      match ((s.zone.plan[slot]?).join).bind (slotHolder s.relay.pages) with
      | none => s.placeIn slot e
      | some (h, j) =>
        if outranks e i h j then
          (s.setPages (updateKey h.key (fun x => { x with state := .waiting }) s.relay.pages)).placeIn slot e
        else s
    else s

/-- The PLACED entries of a half go on the air (R98, R99), no CALL having updated them there. -/
def goOnAir (h : Half) (ps : List PageEntry) : List PageEntry :=
  ps.map fun e => if e.state = .placed ∧ halfOf (homeSlot e.key.pager) = h then { e with state := .onAir, updated := false } else e

end Sys2Proof.Machine
end

