-- ==== Sys2Proof/Machine/Relay.lean ====
section
/-! DEFINITION. The Relay Unit (chapter 4): taking CALLs, applying SETTLEs, the cycle end, and the answers for other owners. -/

namespace Sys2Proof.Machine

/-! ### Changing entries with their reports to the planner (R68) -/

/-- An entry is changed. A PLACED entry that leaves its slot has it refilled (R97); an entry that becomes WAITING is
reported (R96). -/
def State.changePage (s : State) (k : PageKey) (f : PageEntry → PageEntry) : State :=
  match s.relay.find k with
  | none => s
  | some old =>
    let s' := s.setPages (updateKey k f s.relay.pages)
    if old.state = .placed ∧ (f old).state ≠ .placed then s'.planRefill (homeSlot k.pager)
    else if (f old).state = .waiting then s'.planAmend k
    else s'

/-- An entry is removed; a PLACED entry's slot is refilled (R97). -/
def State.removePage (s : State) (k : PageKey) : State :=
  match s.relay.find k with
  | none => s
  | some old =>
    let s' := s.setPages (s.relay.pages.filter (·.key ≠ k))
    if old.state = .placed then s'.planRefill (homeSlot k.pager) else s'

/-- Making room in a full list (R74): the earliest SPENT entry, else the latest WAITING entry of a greater class number;
none when the new entry is refused. -/
def roomVictim (cls : Nat) (ps : List PageEntry) : Option PageEntry :=
  match ps.find? (·.state == .spent) with
  | some e => some e
  | none => ps.reverse.find? fun e => e.state == .waiting && decide (cls < e.cls)

/-- An entry joins the end of the list and is reported to the planner (R67, R96). -/
def State.addPage (s : State) (e : PageEntry) : State := (s.setPages (s.relay.pages ++ [e])).planAmend e.key

/-- An entry is created, in a full list as R74 decides. -/
def State.createPage (s : State) (e : PageEntry) : State :=
  if s.relay.pages.length < pageListMax then s.addPage e
  else match roomVictim e.cls s.relay.pages with
    | some v => (s.setPages (s.relay.pages.filter (·.key ≠ v.key))).addPage e
    | none => s.withRelay { s.relay with refused := raised counterMax s.relay.refused }

/-! ### The route test (R55) -/

/-- The route test of this station for a pager: true for TAKE (R55). -/
def State.routeTest (s : State) (p : Nat) : Bool :=
  !s.zone.dark && decide (floorScore ≤ (s.pager p).score) && decide ((s.pager p).claim ≤ (s.pager p).score + marginScore)

/-! ### Taking a CALL (R70 to R73) -/

/-- The CALL is newer than an entry of its key (R71). -/
def callNewer (c : CallBody) (e : PageEntry) : Bool :=
  let d := (c.seq + 256 - e.seq) % 256
  (decide (1 ≤ d) && decide (d ≤ 127)) || c.cls != e.cls || c.msg != e.msg || decide (c.level < e.level)

/-- The entry a CALL makes for a pager (R72). -/
def pageOf (k : PageKey) (c : CallBody) : PageEntry where
  key := k
  seq := c.seq
  cls := c.cls
  level := c.level
  msg := c.msg
  kind := .page
  repeats := c.repeats
  state := .waiting
  spentLeft := 0
  note := none
  updated := false

/-- WAITING, except in ON AIR, where the entry stays ON AIR (R72, R76, R77, R84). -/
def waitingUnlessOnAir (st : PageState) : PageState := if st = .onAir then .onAir else .waiting

/-- A newer CALL takes an entry over; on the air, the airing of its frame counts no longer (R72, R103). -/
def renewPage (c : CallBody) (e : PageEntry) : PageEntry :=
  { pageOf e.key c with state := waitingUnlessOnAir e.state, updated := e.state == .onAir }

/-- A newer CALL passes an entry: it is removed, or leaves the air at the cycle end (R73). -/
def State.passPage (s : State) (c : CallBody) (e : PageEntry) : State :=
  if e.state = .onAir then s.changePage e.key fun x => { x with seq := c.seq, repeats := 0 }
  else s.removePage e.key

/-- One pager of a CALL (R71 to R73). -/
def State.takePager (owner : Nat) (c : CallBody) (s : State) (p : CallPager) : State :=
  let k : PageKey := ⟨owner, c.serial, p.pager⟩
  if p.flood || s.routeTest p.pager then
    match s.relay.find k with
    | none => s.createPage (pageOf k c)
    | some e => if callNewer c e then s.changePage k (renewPage c) else s
  else
    match s.relay.find k with
    | none => s
    | some e => if callNewer c e then s.passPage c e else s

/-- The pagers of a CALL, each at its first place only (R70). -/
def firstPlaces : List Nat → List CallPager → List CallPager
  | _, [] => []
  | seen, p :: rest =>
    if seen.contains p.pager then firstPlaces seen rest else p :: firstPlaces (p.pager :: seen) rest

/-- The entries of the incident that a newer CALL does not name (R73). -/
def unnamedPages (owner : Nat) (c : CallBody) (ps : List PageEntry) : List PageEntry :=
  ps.filter fun e => e.key.owner == owner && e.key.serial == c.serial && e.kind == .page &&
    !(c.pagers.any (·.pager == e.key.pager)) && callNewer c e

/-- The Relay Unit takes a CALL (R70). -/
def State.takeCall (s : State) (owner : Nat) (c : CallBody) : State :=
  let s1 := (firstPlaces [] c.pagers).foldl (State.takePager owner c) s
  (unnamedPages owner c s1.relay.pages).foldl (fun s e => s.passPage c e) s1

/-! ### Applying a SETTLE (R75 to R78) -/

/-- The entry becomes a stand-down of one repeat (R76, R77, R84). -/
def standDown (note : SettleNote) (e : PageEntry) : PageEntry :=
  { e with kind := .standdown, repeats := 1, spentLeft := 0, note := some note, state := waitingUnlessOnAir e.state }

/-- A SETTLE TAKEN naming responder `r`, on one entry (R76). -/
def settleTaken (r : Nat) (e : PageEntry) : PageEntry :=
  if e.key.pager = r then { e with repeats := 0, spentLeft := spentLinger, state := .spent, note := some (.taken r) }
  else standDown (.taken r) e

/-- A SETTLE on the entry of one key (R76 to R78). A TAKEN without a responder does not fit its kind (R142). -/
def State.settlePage (b : SettleBody) (s : State) (k : PageKey) : State :=
  match b.kind, b.responder with
  | .taken, some r => s.changePage k (settleTaken r)
  | .taken, none => s
  | .withdrawn, _ => s.changePage k (standDown .withdrawn)
  | .cancelled, _ => s.changePage k (standDown .cancelled)
  | .closed, _ => s.removePage k

/-- The keys of the entries of one incident, in list order. -/
def incidentKeys (owner serial : Nat) (ps : List PageEntry) : List PageKey :=
  (ps.filter fun e => e.key.owner == owner && e.key.serial == serial).map (·.key)

/-- A SETTLE ends every answer list entry of its incident (R87). -/
def State.endAnswers (s : State) (owner serial : Nat) : State :=
  s.withRelay { s.relay with answers := s.relay.answers.filter fun a => !(a.key.owner == owner && a.key.serial == serial) }

/-- The Relay Unit applies a SETTLE (R75). -/
def State.applySettle (s : State) (owner : Nat) (b : SettleBody) : State :=
  ((incidentKeys owner b.serial s.relay.pages).foldl (State.settlePage b) s).endAnswers owner b.serial

/-! ### The end of a cycle (R81) -/

/-- What the cycle end makes of one entry; absent is removal (R81). -/
def cycleEndPage (e : PageEntry) : Option PageEntry :=
  match e.state with
  | .onAir | .waiting =>
    if 0 < e.repeats then some { e with state := .waiting }
    else match e.kind with
      | .page => some { e with state := .spent, spentLeft := spentLinger }
      | .standdown => none
  | .answered => none
  | .spent => if 1 < e.spentLeft then some { e with spentLeft := e.spentLeft - 1 } else none
  | .placed => some e

/-- The Relay Unit takes the cycle end (R81). -/
def State.relayCycleEnd (s : State) : State := s.setPages (s.relay.pages.filterMap cycleEndPage)

/-- The zone has gone DARK: every PLACED and ON AIR entry returns to WAITING with its count unchanged (R80, R105). -/
def State.relayDark (s : State) : State :=
  s.setPages (s.relay.pages.map fun e =>
    if e.state = .placed ∨ e.state = .onAir then { e with state := .waiting } else e)

/-! ### Answers for other owners (R83 to R87) -/

/-- Offering the ANSWER burst of an answer list entry (R85). -/
def State.offerAnswer (s : State) (k : AnswerKey) : State := (s.offer (.answer k) .class0 (some k.owner)).1

/-- Placing an answer list entry; the oldest of four is dropped first (R86). -/
def State.placeAnswer (s : State) (k : AnswerKey) : State :=
  let as := s.relay.answers
  let kept := if as.length < answerListMax then as else as.drop 1
  s.withRelay { s.relay with answers := kept ++ [{ key := k, sendsLeft := 3, timer := s.now + answerRepeat }] }

/-- A relayed answer marks its PAGE entry ANSWERED; it owes no more airings (R85; DEDUCED, notes/assumptions/12.md). -/
def markAnswered (e : PageEntry) : PageEntry :=
  if e.kind = .page then { e with state := .answered, repeats := 0 } else e

/-- Relaying an answer (R85). `fromResponder`: it comes from the responder of a settled incident. -/
def State.relayOn (s : State) (k : AnswerKey) (fromResponder : Bool) : State :=
  if s.relay.answers.any (·.key == k) then s
  else
    let pk : PageKey := ⟨k.owner, k.serial, k.pager⟩
    let s1 := match s.relay.find pk with
      | some e => if fromResponder || e.kind == PageKind.standdown then s else s.changePage pk markAnswered
      | none => s
    (s1.placeAnswer k).offerAnswer k

/-- The settle note the entries of an incident carry (R83). -/
def settleNoteOf (owner serial : Nat) (ps : List PageEntry) : Option SettleNote :=
  (ps.filter fun e => e.key.owner == owner && e.key.serial == serial).findSome? (·.note)

/-- The entry of an incident with the latest arrival (R84). -/
def latestOf (owner serial : Nat) (ps : List PageEntry) : Option PageEntry :=
  (ps.filter fun e => e.key.owner == owner && e.key.serial == serial).getLast?

/-- A late ACCEPT for an incident held as settled is answered with a stand-down (R84). A created entry takes the settle note of
the entry with the latest arrival, as the other values. -/
def State.lateAccept (s : State) (k : PageKey) (note : SettleNote) : State :=
  match s.relay.find k with
  | some _ => s.changePage k (standDown note)
  | none =>
    match latestOf k.owner k.serial s.relay.pages with
    | none => s
    | some e =>
      s.createPage { e with key := k, kind := .standdown, repeats := 1, state := .waiting, spentLeft := 0, updated := false }

/-- The Relay Unit takes an answer for another owner (R83). -/
def State.answerForOther (s : State) (k : AnswerKey) : State :=
  match settleNoteOf k.owner k.serial s.relay.pages with
  | none => s.relayOn k false
  | some (.taken r) =>
    if k.pager = r then (if k.kind = .done then s.relayOn k true else s)
    else if k.kind = .accept then s.lateAccept ⟨k.owner, k.serial, k.pager⟩ (.taken r) else s
  | some note => if k.kind = .accept then s.lateAccept ⟨k.owner, k.serial, k.pager⟩ note else s

/-- The repeat timer of an answer list entry expires (R87): the ANSWER is offered again and the sends left go down. -/
def State.repeatAnswer (s : State) (k : AnswerKey) : State :=
  match s.relay.answers.find? (·.key == k) with
  | none => s
  | some a =>
    let s0 := s.reach a.timer
    let step (x : AnswerEntry) : Option AnswerEntry :=
      if x.key = k then
        (if 1 < x.sendsLeft then some { x with sendsLeft := x.sendsLeft - 1, timer := x.timer + answerRepeat } else none)
      else some x
    (s0.withRelay { s0.relay with answers := s0.relay.answers.filterMap step }).offerAnswer k

/-- ANSWER_REPEAT_TIMER (R87). -/
def execAnswerRepeatTimer (key : AnswerKey) (s : State) : Host.Outcome State Fault Refusal := .next (s.repeatAnswer key)

end Sys2Proof.Machine
end

