-- ==== Sys2Proof/Machine/Calling.lean ====
section
/-! DEFINITION. Escalation and calling (chapter 2): selections, entering levels, UNANSWERED, CALLs, refresh. -/

namespace Sys2Proof.Machine

/-! ### Level plans (R26) -/

/-- A level of no plan; it is read by no incident of a CONFIGURED station. -/
def blankLevel : LevelPlan where
  rank := .crew
  scope := .group
  window := 10
  repeats := 1
  flood := false

/-- The levels of a priority class (R26). -/
def State.levels (s : State) (cls : Nat) : List LevelPlan := s.engine.plans.getD (cls - 1) []

/-- One level of a class. -/
def State.levelPlan (s : State) (cls l : Nat) : LevelPlan := (s.levels cls).getD l blankLevel

/-- The last level of a class (R26). -/
def State.lastLevel (s : State) (cls : Nat) : Nat := (s.levels cls).length - 1

/-- Line class of an incident's CALLs and SETTLEs (R13, R39). -/
def lineClassFor (cls : Nat) : LineClass := if cls ≤ 2 then .class0 else .class1

/-! ### Selection (R28) -/

/-- The pager is in the call list (R28). -/
def Incident.inList (i : Incident) (p : Nat) : Bool := i.calls.any (·.pager == p)

/-- Some pager of the call list is marked CALLED (R29, R30). -/
def Incident.someCalled (i : Incident) : Bool := i.calls.any fun c => !c.declined

/-- A pager is selected for a level of an incident (R28). -/
def selects (i : Incident) (lv : LevelPlan) (p : Nat) (r : PagerRecord) : Bool :=
  r.inUse && r.rank == lv.rank && (lv.scope == .plant || r.group == some i.group) && r.duty && !i.inList p

/-- The pagers a selection selects, in rising number order (R28). -/
def selected (roster : List PagerRecord) (i : Incident) (lv : LevelPlan) : List Nat :=
  (roster.zipIdx.filter fun x => selects i lv x.2 x.1).map (·.2)

/-- A selection: the selected pagers join the end of the call list, marked CALLED, while it holds fewer than 8 (R28). -/
def runSelection (roster : List PagerRecord) (i : Incident) (lv : LevelPlan) : Incident :=
  { i with calls := i.calls ++ ((selected roster i lv).take (callListMax - i.calls.length)).map fun p => ⟨p, false⟩ }

/-! ### The CALL (R37 to R40) -/

/-- The flood mark of a pager in a CALL (R38). -/
def State.floodMark (s : State) (i : Incident) (p : Nat) : Bool :=
  (s.levelPlan i.cls i.level).flood || i.state == .unanswered ||
    (decide ((s.pager p).score < floorScore) && decide ((s.pager p).claim < floorScore))

/-- The CALL of an incident, built from its record, the level plan and the roster (R37, R38). -/
def State.buildCall (s : State) (i : Incident) : CallBody where
  serial := i.serial
  seq := i.pageSeq.getD 0
  cls := i.cls
  level := i.level
  repeats := (s.levelPlan i.cls i.level).repeats
  unanswered := i.state == .unanswered
  kind := i.kind
  group := i.group
  msg := i.msg
  input := i.input
  pagers := (i.calls.filter fun c => !c.declined).map fun c => ⟨c.pager, s.floodMark i c.pager⟩

/-- Offering the CALL of an incident; an accepted one reaches the own Relay Unit (R39, R40). -/
def State.offerCall (s : State) (e : Nat) : State :=
  match s.incident? e with
  | none => s
  | some i =>
    let c := s.buildCall i
    let r := s.offer (.call c) (lineClassFor i.cls) none
    if r.2 then (r.1.setEntry e (some { i with callOwed := false })).takeCall s.ident.station c
    else r.1.setEntry e (some { i with callOwed := true })

/-- The next page sequence is taken: the station's counter for a first CALL, else one more than the incident's own (R27). -/
def State.takeSequence (s : State) (e : Nat) : State :=
  match s.incident? e with
  | none => s
  | some i =>
    match i.pageSeq with
    | some q => s.setEntry e (some { i with pageSeq := some ((q + 1) % 256) })
    | none =>
      let s' := s.setEntry e (some { i with pageSeq := some s.engine.seqCounter })
      s'.withEngine { s'.engine with seqCounter := (s.engine.seqCounter + 1) % 256 }

/-- Issuing a CALL: it is built with a new sequence and offered, and the refresh due mark is cleared (R27, R39, R42). -/
def State.issueCall (s : State) (e : Nat) : State :=
  ((s.takeSequence e).modifyIncident e fun i => { i with refreshDue := false }).offerCall e

/-! ### Entering levels (R29, R30, R35, R36) -/

/-- Steps 2 to 6 of the UNANSWERED entry (R35, R36). -/
def State.unansweredEntry (s : State) (e : Nat) : State :=
  match s.incident? e with
  | none => s
  | some i =>
    let recalled : Incident := { i with calls := i.calls.map fun c => { c with declined := false } }
    let chosen := (s.levels i.cls).foldl (runSelection s.presence.roster) recalled
    let window := s.now + second * (s.levelPlan i.cls (s.lastLevel i.cls)).window
    let s1 := (s.setEntry e (some { chosen with window := some window })).append .unanswered (some i.serial) none
      (some chosen.calls.length)
    if chosen.calls.isEmpty then s1 else s1.issueCall e

/-- Entering UNANSWERED from CALLING at the last level (R35). -/
def State.enterUnanswered (s : State) (e : Nat) : State :=
  (s.modifyIncident e fun i => { i with state := .unanswered }).unansweredEntry e

/-- Entering level `l` and, while levels are empty, the levels after it; `rest` holds level `l` and those after it (R29,
R30). With no level left the incident enters UNANSWERED. The whole chain of steps is one command, so its records carry one value of
the clock (DESIGN CHOICE, notes/assumptions/22.md). -/
def State.enterLevels (e : Nat) : List LevelPlan → Nat → State → State
  | [], _, s => s.enterUnanswered e
  | lv :: rest, l, s =>
    match s.incident? e with
    | none => s
    | some i =>
      let chosen := runSelection s.presence.roster { i with level := l, window := none } lv
      if chosen.someCalled then
        ((((s.setEntry e (some chosen)).modifyIncident e fun i => { i with window := some (s.now + second * lv.window) }).append
          .level (some i.serial) none (some l)).issueCall e)
      else State.enterLevels e rest (l + 1)
        ((s.setEntry e (some chosen)).append .level (some i.serial) none (some (l + 4)))

/-- A step of an incident (R30). -/
def State.stepIncident (s : State) (e : Nat) : State :=
  match s.incident? e with
  | none => s
  | some i =>
    match i.state with
    | .calling => State.enterLevels e ((s.levels i.cls).drop (i.level + 1)) (i.level + 1) s
    | .unanswered => s.unansweredEntry e
    | .taken => s
    | .closing => s

/-! ### Refresh (R41 to R43) -/

/-- The incident is in CALLING or UNANSWERED. -/
def Incident.stillCalling (i : Incident) : Bool := i.state == .calling || i.state == .unanswered

/-- A refresh CALL (R42). -/
def State.refresh (s : State) (e : Nat) : State :=
  (s.modifyIncident e fun i => { i with lastRefresh := some s.now }).issueCall e

/-- A claim change report for a pager, in one incident (R41). -/
def State.reportIn (p : Nat) (s : State) (e : Nat) : State :=
  match s.incident? e with
  | none => s
  | some i =>
    if i.stillCalling && i.inList p then
      if i.lastRefresh.all fun t => decide (t + refreshLimit ≤ s.now) then s.refresh e
      else s.setEntry e (some { i with refreshDue := true })
    else s

/-- The Incident Engine takes a claim change report, in entry order (R41). -/
def State.reportClaim (s : State) (p : Nat) : State := (List.range tableSize).foldl (State.reportIn p) s

end Sys2Proof.Machine
end

