-- ==== Sys2Proof/Machine/Incidents.lean ====
section
/-! DEFINITION. Incidents (chapter 1): opening, pending raises, answers, restores, cancels, closing, and the bursts owed at slot
boundaries; the commands WINDOW_EXPIRY and REFRESH_LIMIT_END. -/

namespace Sys2Proof.Machine

/-! ### Opening (R3, R5) -/

/-- The lowest-numbered FREE entry (R1). -/
def lowestFree (table : List (Option Incident)) : Option Nat := table.findIdx? (·.isNone)

/-- An open incident holds this serial (R3). -/
def holdsSerial (table : List (Option Incident)) (n : Nat) : Bool := table.any fun e => e.any (·.serial == n)

/-- The first serial from the counter on that no open incident holds (R3). -/
def freshSerial (table : List (Option Incident)) (counter : Nat) : Nat :=
  (((List.range 256).map fun i => (counter + i) % 256).find? fun n => !holdsSerial table n).getD counter

/-- The entry and record of the open incident with a source (R1). -/
def findSource (table : List (Option Incident)) (n : Nat) (k : SourceKind) : Option (Nat × Incident) :=
  match table.findIdx? fun e => e.any fun i => i.input == n && i.kind == k with
  | none => none
  | some e => ((table[e]?).join).map fun i => (e, i)

/-- The entry of the open incident with a serial (R11). -/
def findSerial (table : List (Option Incident)) (serial : Nat) : Option Nat :=
  table.findIdx? fun e => e.any (·.serial == serial)

/-- The priority class of a source (R5, R8). -/
def State.sourceClass (s : State) (n : Nat) : SourceKind → Nat
  | .alarm => (s.input n).cls
  | .wiring => 3
  | .chatter => 3

/-- The message code of a source (R5). -/
def State.sourceMsg (s : State) (n : Nat) : SourceKind → Nat
  | .alarm => (s.input n).msg
  | .wiring => 254
  | .chatter => 255

/-- The record of a new incident (R5, R9). -/
def State.newIncident (s : State) (n : Nat) (k : SourceKind) (restored : Bool) : Incident where
  serial := freshSerial s.engine.table s.engine.serialCounter
  input := n
  kind := k
  cls := s.sourceClass n k
  group := (s.input n).group
  msg := s.sourceMsg n k
  state := .calling
  level := 0
  calls := []
  pageSeq := none
  window := none
  responder := none
  done := false
  restored := restored
  settleOwed := none
  callOwed := false
  refreshDue := false
  lastRefresh := none

/-- An incident opens in entry `e` (R3, R5): its RAISED record, then level 0. -/
def State.openIncident (s : State) (e n : Nat) (k : SourceKind) (restored : Bool) : State :=
  let i := s.newIncident n k restored
  let s1 := s.withEngine { s.engine with table := s.engine.table.set e (some i), serialCounter := (i.serial + 1) % 256 }
  let s2 := s1.withLog (s1.log.append .raised (some i.serial) none (some n) (i.cls == 1))
  State.enterLevels e (s2.levels i.cls) 0 s2

/-! ### Pending raises (R6 to R9) -/

/-- The place of the mark of an input and kind. -/
def markPlace (n : Nat) (k : SourceKind) : Nat := 3 * n + sourceKindCode k

/-- The pending-raise mark of a source: absent is clear (R8). -/
def State.mark (s : State) (n : Nat) (k : SourceKind) : Option Bool := (s.engine.pend[markPlace n k]?).join

def State.setMark (s : State) (n : Nat) (k : SourceKind) (m : Option Bool) : State :=
  s.withEngine { s.engine with pend := s.engine.pend.set (markPlace n k) m }

/-- A raise pends: the mark is set with its restored note clear and an OVERFLOW record is appended (R6, R7). -/
def State.pendRaise (s : State) (n : Nat) (k : SourceKind) : State :=
  (s.setMark n k (some false)).append .overflow none none (some n)

/-- The source kind at a place of the marks. -/
def placeKind (i : Nat) : SourceKind := if i % 3 = 0 then .alarm else if i % 3 = 1 then .wiring else .chatter

/-- The pending raises that may open: their place, with their restored note (R9). -/
def State.openable (s : State) : List (Nat × Bool) :=
  s.engine.pend.zipIdx.filterMap fun (m, i) =>
    match m with
    | some note => if (findSource s.engine.table (i / 3) (placeKind i)).isNone then some (i, note) else none
    | none => none

/-- The better of the best so far and one more: the lower class, then the earlier place, which is the lower input and then
the order ALARM, WIRING, CHATTER (R9). -/
def State.betterMark (s : State) (best : Option (Nat × Bool)) (x : Nat × Bool) : Option (Nat × Bool) :=
  match best with
  | none => some x
  | some b =>
    if s.sourceClass (x.1 / 3) (placeKind x.1) < s.sourceClass (b.1 / 3) (placeKind b.1) then some x else some b

/-- The best pending raise that may open (R9). -/
def State.bestMark (s : State) : Option (Nat × Bool) := s.openable.foldl s.betterMark none

/-- Opening pending raises one after another, best first (R9); at most as many as there are marks. -/
def State.openPending : Nat → State → State
  | 0, s => s
  | fuel + 1, s =>
    match lowestFree s.engine.table, s.bestMark with
    | some e, some (i, note) =>
      State.openPending fuel ((s.setMark (i / 3) (placeKind i) none).openIncident e (i / 3) (placeKind i) note)
    | _, _ => s

/-! ### SETTLEs and closing (R13, R18, R19) -/

/-- The record tag of a closing kind (R19). -/
def settleTag : SettleKind → Tag
  | .taken => .taken
  | .closed => .closed
  | .withdrawn => .withdrawn
  | .cancelled => .cancelled

/-- The SETTLE an incident offers (R13, R18). -/
def Incident.settle (i : Incident) (k : SettleKind) : SettleBody := ⟨i.serial, k, i.responder⟩

/-- Offering the SETTLE TAKEN of an incident (R13). -/
def State.offerTaken (s : State) (e : Nat) : State :=
  match s.incident? e with
  | none => s
  | some i =>
    let r := s.offer (.settle (i.settle .taken)) (lineClassFor i.cls) none
    if r.2 then (r.1.setEntry e (some { i with settleOwed := none })).applySettle s.ident.station (i.settle .taken)
    else r.1.setEntry e (some { i with settleOwed := some .taken })

/-- The closing SETTLE has been accepted (R19): the entry is freed, the closing record appended, the own Relay Unit told,
pending raises opened. -/
def State.freeEntry (s : State) (e : Nat) (i : Incident) (k : SettleKind) : State :=
  State.openPending 48
    (((s.setEntry e none).append (settleTag k) (some i.serial) i.responder none).applySettle s.ident.station (i.settle k))

/-- Offering the closing SETTLE of an incident in CLOSING (R18, R20). -/
def State.offerClosing (s : State) (e : Nat) : State :=
  match s.incident? e with
  | none => s
  | some i =>
    match i.settleOwed with
    | none => s
    | some k =>
      let r := s.offer (.settle (i.settle k)) (lineClassFor i.cls) none
      if r.2 then r.1.freeEntry e i k else r.1

/-- Entering CLOSING (R18). -/
def State.enterClosing (s : State) (e : Nat) (k : SettleKind) : State :=
  (s.modifyIncident e fun i =>
    { i with state := .closing, window := none, callOwed := false, refreshDue := false, settleOwed := some k }).offerClosing e

/-! ### Raises and restores (R5 to R8, R16) -/

/-- The Incident Engine takes a raise (R5 to R8). -/
def State.raise (s : State) (n : Nat) (k : SourceKind) : State :=
  match findSource s.engine.table n k with
  | some (e, i) =>
    if i.state = .closing then
      match s.mark n k with
      | some _ => s.setMark n k (some false)
      | none => s.pendRaise n k
    else s.setEntry e (some { i with restored := false })
  | none =>
    match s.mark n k with
    | some _ => s.setMark n k (some false)
    | none =>
      match lowestFree s.engine.table with
      | some e => s.openIncident e n k false
      | none => s.pendRaise n k

/-- A restore on the pending-raise mark of its source (R8). -/
def State.restoreMark (s : State) (n : Nat) (k : SourceKind) : State :=
  match s.mark n k with
  | none => s
  | some _ => if s.sourceClass n k ≤ 2 then s.setMark n k (some true) else s.setMark n k none

/-- The Incident Engine takes a restore (R8, R16). -/
def State.restore (s : State) (n : Nat) (k : SourceKind) : State :=
  match findSource s.engine.table n k with
  | none => s.restoreMark n k
  | some (e, i) =>
    match i.state with
    | .closing => s.restoreMark n k
    | .taken =>
      let s1 := s.setEntry e (some { i with restored := true })
      if i.done then s1.enterClosing e .closed else s1
    | _ =>
      let s1 := s.setEntry e (some { i with restored := true })
      if i.cls ≤ 2 then s1 else s1.enterClosing e .withdrawn

/-! ### Answers and cancels (R11 to R17) -/

/-- An ACCEPT (R12). -/
def State.accept (s : State) (e p : Nat) : State :=
  match s.incident? e with
  | none => s
  | some i =>
    if i.stillCalling && i.inList p then
      ((s.setEntry e (some { i with state := .taken, responder := some p, window := none, callOwed := false, refreshDue := false })).append
        .taken (some i.serial) (some p) none).offerTaken e
    else s

/-- A DECLINE (R14). -/
def State.decline (s : State) (e p : Nat) : State :=
  match s.incident? e with
  | none => s
  | some i =>
    if i.stillCalling && i.calls.any (fun c => c.pager == p && !c.declined) then
      let i' : Incident := { i with calls := i.calls.map fun c => if c.pager = p then { c with declined := true } else c }
      let s1 := (s.setEntry e (some i')).append .declined (some i.serial) (some p) none
      if i'.someCalled then s1 else s1.stepIncident e
    else s

/-- A DONE (R15). -/
def State.doneBy (s : State) (e p : Nat) : State :=
  match s.incident? e with
  | none => s
  | some i =>
    if i.state = .taken ∧ i.responder = some p ∧ i.done = false then
      let s1 := (s.setEntry e (some { i with done := true })).append .done (some i.serial) (some p) none
      if i.restored then s1.enterClosing e .closed else s1
    else s

/-- The Incident Engine takes an answer (R11). One for another owner or of no open incident is discarded. -/
def State.takeAnswer (s : State) (k : AnswerKey) : State :=
  if k.owner = s.ident.station then
    match findSerial s.engine.table k.serial with
    | none => s
    | some e =>
      match k.kind with
      | .accept => s.accept e k.pager
      | .decline => s.decline e k.pager
      | .done => s.doneBy e k.pager
  else s

/-- The Input Scanner sets the cancel hold of a source that is still in the state that raised it (R159). -/
def setCancelHold (k : SourceKind) (r : InputRecord) : InputRecord :=
  match k with
  | .alarm => if r.condition = .active then { r with holdAlarm := true } else r
  | .wiring => if r.condition = .short ∨ r.condition = .opened then { r with holdWiring := true } else r
  | .chatter => if r.inChatter then { r with holdChatter := true } else r

/-- A CANCEL for a serial (R17). -/
def State.cancel (s : State) (serial : Nat) : State :=
  match findSerial s.engine.table serial with
  | none => s
  | some e =>
    match s.incident? e with
    | none => s
    | some i =>
      if i.state = .closing then s
      else (s.modifyInput i.input (setCancelHold i.kind)).enterClosing e .cancelled

/-! ### Slot boundaries (R20) -/

/-- The owed SETTLE of one entry is offered again (R20). -/
def State.reofferSettle (s : State) (e : Nat) : State :=
  match s.incident? e with
  | none => s
  | some i =>
    match i.state with
    | .closing => s.offerClosing e
    | .taken => if i.settleOwed = some .taken then s.offerTaken e else s
    | _ => s

/-- The owed CALL of one entry is offered again, built anew (R20, R40). -/
def State.reofferCall (s : State) (e : Nat) : State :=
  match s.incident? e with
  | none => s
  | some i => if i.callOwed then s.offerCall e else s

/-- The Incident Engine takes a slot boundary: the owed SETTLEs, then the owed CALLs, by entry number (R20). -/
def State.engineBoundary (s : State) : State :=
  (List.range tableSize).foldl State.reofferCall ((List.range tableSize).foldl State.reofferSettle s)

/-! ### Timers of an incident -/

/-- The window of an incident expires (R32). -/
def State.windowExpires (s : State) (e : Nat) : State :=
  match s.incident? e with
  | none => s
  | some i =>
    match i.window with
    | none => s
    | some t => ((s.reach t).modifyIncident e fun i => { i with window := none }).stepIncident e

/-- The refresh limit of an incident ends, 5 s after its last refresh: a refresh that is due is issued (R43). -/
def State.refreshLimitEnds (s : State) (e : Nat) : State :=
  match s.incident? e with
  | none => s
  | some i =>
    match i.lastRefresh with
    | none => s
    | some t =>
      let s1 := s.reach (t + refreshLimit)
      if i.stillCalling && i.refreshDue then s1.refresh e else s1

/-- WINDOW_EXPIRY (R32). -/
def execWindowExpiry (entry : Fin 16) (s : State) : Host.Outcome State Fault Refusal := .next (s.windowExpires entry.val)

/-- REFRESH_LIMIT_END (R43). -/
def execRefreshLimitEnd (entry : Fin 16) (s : State) : Host.Outcome State Fault Refusal :=
  .next (s.refreshLimitEnds entry.val)

end Sys2Proof.Machine
end

