-- ==== Sys2Proof/Machine/Office.lean ====
section
/-! DEFINITION. The seconds clock and the Office Service (chapter 9): drains, LOG bursts, incident listings, releases; the command
SECONDS_CLOCK_TICK. -/

namespace Sys2Proof.Machine

/-- The records of the drain's next LOG: from the cursor up to the drain end, oldest first, at most 4 (R174). The order of the numbering
(R173) is that of the counts, however long a LOG waits (R175; DEDUCED, notes/assumptions/14.md). -/
def drainRecords (d : Drain) (records : List Held) : List Held :=
  (records.filter fun h => decide (d.cursorAt ≤ h.count) && decide (h.count < d.stopAt)).take logBurstMax

/-- Building and offering the next LOG burst of the drain; with no record left the drain ends (R174, R175). -/
def State.nextLog (s : State) : State :=
  match s.office.drain with
  | none => s
  | some d =>
    let rs := drainRecords d s.log.records
    match rs.getLast? with
    | none => s.logLost
    | some last =>
      let s1 := s.withOffice { s.office with drain := some { d with cursorAt := last.count + 1 } }
      let r := s1.offer (.log (rs.map (·.record))) .class1 (some d.addressee)
      if r.2 then r.1 else r.1.logLost

/-- A HISTORY query (R171, R173): a drain begins in IDLE, when a record is held. -/
def State.history (s : State) (sender count : Nat) : State :=
  match s.office.drain with
  | some _ => s
  | none =>
    match s.log.records.head? with
    | none => s
    | some oldest =>
      let n := min count s.log.records.length
      (s.withOffice { s.office with
        drain := some { addressee := sender, cursorAt := oldest.count, stopAt := oldest.count + n } }).nextLog

/-- A LOG burst has been sent whole: the records before the cursor leave the log, and the next LOG is built (R175). -/
def State.logSent (s : State) : State :=
  match s.office.drain with
  | none => s
  | some d =>
    (s.withLog { s.log with records := s.log.records.filter fun h => decide (d.cursorAt ≤ h.count) }).nextLog

/-- The summary of an incident (R24). -/
def Incident.summary (i : Incident) : Summary where
  serial := i.serial
  state := i.state
  level := i.level
  cls := i.cls
  kind := i.kind
  input := i.input
  responder := i.responder

/-- The six counters of a STATE as they stand (R134, R176). -/
def State.counters (s : State) : Counters where
  checkFaults := s.line.checkFaults
  framingAborts := s.line.framingAborts
  collisions := s.line.collisions
  drops := s.line.drops
  refusedPages := s.relay.refused
  partialReturns := s.zone.partialReturns

/-- The incident summaries in entry order (R24, R176). -/
def State.summaries (s : State) : List Summary := s.engine.table.filterMap fun e => e.map (·.summary)

/-- An INCIDENTS query (R176): one STATE burst is offered. -/
def State.listing (s : State) (sender : Nat) : State :=
  (s.offer (.state s.summaries s.counters) .class1 (some sender)).1

/-- A RELEASE query (R172). -/
def State.release (s : State) : State := s.withLog { s.log with frozen := false }

/-- The Office Service takes a query (R171). -/
def State.takeQuery (s : State) (sender : Nat) : Query → State
  | .history n => s.history sender n
  | .incidents => s.listing sender
  | .release => s.release
  | .cancel serial => s.cancel serial

/-- A further whole second has passed (R162). -/
def State.secondPasses (s : State) : State :=
  let s1 := s.reach s.log.secondAt
  s1.withLog { s1.log with seconds := raised secondsMax s1.log.seconds, secondAt := s1.log.secondAt + second }

/-- SECONDS_CLOCK_TICK (R162). -/
def execSecondsClockTick (s : State) : Host.Outcome State Fault Refusal := .next s.secondPasses

end Sys2Proof.Machine
end

