-- ==== Sys2Proof/Machine/Receiver.lean ====
section
/-! DEFINITION. The receive assembler (R116, R128, R129): what it makes of the line bit time by bit time. -/

namespace Sys2Proof.Machine

/-- The byte of a frame from its 8 data bit times, true for driven: the lowest bit first, driven for a 0 (R115, R116). -/
def frameByte (bits : List Bool) : Byte := byteOf (bits.foldr (fun driven n => (if driven then 0 else 1) + 2 * n) 0)

/-- What the assembler reports to the Line Controller. -/
inductive Heard
  /-- A start mark heard with fewer than 6 bytes read ended a reception (R129). -/
  | aborted
  /-- A reception failed by length at its sixth byte (R128). -/
  | badLength
  /-- A reception ended by a gap, with these bytes (R128). -/
  | ended (bytes : List Byte)
  deriving DecidableEq, Repr

/-- How many bytes the reception in progress holds. -/
def Reader.held (r : Reader) : Nat := (r.reception.getD []).length

/-- The line has been read into a driven run, an open byte frame or a reception whose gap has not come: its next bit time is that
at `readTo`. -/
def Reader.busy (r : Reader) : Bool := decide (0 < r.run) || r.frame.isSome || decide (0 < r.held)

/-- A byte has been framed: it joins the reception in progress, and none when none is. At the sixth byte a total length below 9 or
above 84 fails the reception (R128). -/
def Reader.add (r : Reader) (b : Byte) : Reader × Option Heard :=
  match r.reception with
  | none => (r, none)
  | some got =>
    if got.length = 5 ∧ (b.toNat < 9 ∨ 84 < b.toNat) then ({ r with reception := none }, some .badLength)
    else ({ r with reception := some (got ++ [b]) }, none)

/-- A released bit time with no frame open: the fifth since a stop bit position ends a reception that holds a byte (R128). -/
def Reader.gap (r : Reader) : Reader × Option Heard :=
  match r.reception with
  | some (b :: rest) =>
    if r.quietFrom + bitTime * receptionEndBits ≤ r.readTo then ({ r with reception := none }, some (.ended (b :: rest))) else (r, none)
  | _ => (r, none)

/-- A start mark is heard: the bit time read is the first released one after 24 driven ones or more, and no reception holds 6 bytes,
which would take the mark as noise (R116, R129). -/
def Reader.marks (r : Reader) (driven : Bool) : Bool := !driven && decide (startMarkBits ≤ r.run) && decide (r.held < 6)

/-- One bit time of the line is read (R116). A mark heard closes the byte frame that its own run left open (DEDUCED,
notes/assumptions/9.md); a byte is framed at the end of its stop bit position. -/
def Reader.bit (r : Reader) (driven : Bool) : Reader × Option Heard :=
  let r1 : Reader := { r with run := if driven then r.run + 1 else 0, readTo := r.readTo + bitTime }
  if r.marks driven then
    ({ r1 with reception := some [], frame := none, quietFrom := r.readTo }, if r.reception.isSome then some .aborted else none)
  else match r.frame with
    | none => if driven then ({ r1 with frame := some [] }, none) else r1.gap
    | some bits =>
      if bits.length < 8 then ({ r1 with frame := some (bits ++ [driven]) }, none)
      else Reader.add { r1 with frame := none, quietFrom := r1.readTo } (frameByte bits)

/-- The bit times of the line are read one after another, with what is reported, in order. -/
def Reader.read : Reader → List Bool → Reader × List Heard
  | r, [] => (r, [])
  | r, driven :: rest =>
    let x := r.bit driven
    let y := x.1.read rest
    (y.1, x.2.toList ++ y.2)

/-- The moment of the first bit time told: bits go on where a busy assembler stopped; an idle one has read the line released up to
them (DESIGN CHOICE, notes/assumptions/16.md). -/
def Reader.resume (r : Reader) (now bits : Nat) : Reader :=
  if r.busy then r else { r with readTo := max r.readTo (now - bitTime * bits) }

/-- The assembler after an attempt that began at `startAt` and ended by a collision in bit time `bit`: it has read the attempt as
sent, with that bit time the other way, and is in a reception, whose bytes are those framed since the mark's release (R125 step
5; DEDUCED, notes/assumptions/9.md). -/
def attemptReader (quietFrom startAt : Nat) (bytes : List Byte) (bit : Nat) : Reader :=
  let wave := burstWave bytes
  let start : Reader := { run := 0, frame := none, reception := none, quietFrom := quietFrom, readTo := startAt }
  let r := (start.read (wave.take bit ++ [!wave.getD bit false])).1
  { r with reception := some (r.reception.getD []) }

end Sys2Proof.Machine
end

