-- ==== Sys2Proof/Machine/PresenceUnit.lean ====
section
/-! DEFINITION. The Presence Unit (chapter 3): hearings, aging, stored peer claims, announcements, duty, DARK and LIVE; the commands
AGING_TIMER_EXPIRY and CLAIM_TIMER_EXPIRY. -/

namespace Sys2Proof.Machine

/-! ### Scores (R47 to R50) -/

/-- A hearing folds the grade into the score (R47). -/
def heardScore (score grade : Nat) : Nat := (3 * score + 16 * grade + 2) / 4

/-- A value after one aging step (R49). -/
def aged (v : Nat) : Nat := 7 * v / 8

/-- A new own score; one that falls below the floor after an announcement at the floor or above owes an announcement (R50). -/
def setScore (score : Nat) (r : PagerRecord) : PagerRecord :=
  { r with
    score := score
    belowOwed := r.belowOwed || (decide (floorScore ≤ r.score) && decide (score < floorScore) && decide (floorScore ≤ r.announced)) }

/-- The Presence Unit takes a hearing (R47, R48, R64). -/
def State.hearing (s : State) (p grade : Nat) : State :=
  if 64 ≤ p ∨ s.zone.dark = true then s
  else s.modifyPager p fun r => setScore (heardScore r.score grade) r

/-- One record at an aging step (R49, R50). -/
def agePager (r : PagerRecord) : PagerRecord :=
  { setScore (aged r.score) r with
    claim := aged r.claim
    claimant := if aged r.claim = 0 then none else r.claimant }

/-- The pagers whose record a change has left without its claimant, in rising order (R49, R53, R54). -/
def lostClaimants (old new : List PagerRecord) : List Nat :=
  ((old.zip new).zipIdx.filter fun x => x.1.1.claimant.isSome && x.1.2.claimant.isNone).map (·.2)

/-- A new roster, with a report for each claimant lost (R49, R53, R54). -/
def State.changeRoster (s : State) (f : PagerRecord → PagerRecord) : State :=
  let new := s.presence.roster.map f
  (lostClaimants s.presence.roster new).foldl State.reportClaim (s.withPresence { s.presence with roster := new })

/-- The aging timer expires (R49). -/
def State.agingExpires (s : State) : State :=
  match s.presence.agingAt with
  | none => s
  | some t =>
    let s1 := s.reach t
    (s1.withPresence { s1.presence with agingAt := some (t + agingPeriod) }).changeRoster agePager

/-! ### Stored peer claims (R51 to R54) -/

/-- A stored peer claim meets a claim of value `v` from peer `j` (R51). -/
def meetClaim (j v : Nat) (r : PagerRecord) : PagerRecord :=
  if r.claimant = some j then { r with claim := v, claimant := if v = 0 then none else some j }
  else if r.claim < v then { r with claim := v, claimant := some j }
  else r

/-- A change of a stored claim that is reported (R54). -/
def reportable (old new : PagerRecord) : Bool :=
  old.claimant != new.claimant || (decide (old.claim < floorScore) && decide (floorScore ≤ new.claim))

/-- One entry of a CLAIM (R51, R54). -/
def State.takeClaimEntry (j : Nat) (s : State) (c : ClaimEntry) : State :=
  let s1 := s.modifyPager c.pager (meetClaim j c.score)
  if reportable (s.pager c.pager) (meetClaim j c.score (s.pager c.pager)) then s1.reportClaim c.pager else s1

/-- The entries of a CLAIM from a peer, in order (R51, R52). -/
def State.takeClaim (s : State) (j : Nat) (dark : Bool) (entries : List ClaimEntry) : State :=
  if dark then s else entries.foldl (State.takeClaimEntry j) s

/-- One record loses the claim of peer `k` (R53). -/
def dropClaim (k : Nat) (r : PagerRecord) : PagerRecord :=
  if r.claimant = some k then { r with claim := 0, claimant := none } else r

/-- A DARK status from peer `k` clears its stored claims (R53). -/
def State.darkStatus (s : State) (k : Nat) : State := s.changeRoster (dropClaim k)

/-! ### Announcements (R57, R58) -/

/-- The pagers a walk visits, from the claim pointer up and round (R57). -/
def walkOrder (pointer : Nat) : List Nat := (List.range 64).map fun i => (pointer + i) % 64

/-- A walk takes a pager (R57). -/
def takes (r : PagerRecord) : Bool := decide (floorScore ≤ r.score) || r.belowOwed

/-- The entries of a CLAIM built now (R57). -/
def State.buildClaim (s : State) : List ClaimEntry :=
  (((walkOrder s.presence.pointer).filter fun p => takes (s.pager p)).take dutyListMax).map fun p => ⟨p, (s.pager p).score⟩

/-- An accepted CLAIM has announced one pager (R58). -/
def announce (s : State) (c : ClaimEntry) : State :=
  s.modifyPager c.pager fun r => { r with announced := c.score, belowOwed := false }

/-- Building and offering a CLAIM (R57, R58). -/
def State.offerClaim (s : State) : State :=
  let entries := s.buildClaim
  match entries.getLast? with
  | none => s
  | some last =>
    let r := s.offer (.claim entries) .class1 none
    if r.2 then
      let s1 := entries.foldl announce r.1
      s1.withPresence { s1.presence with pointer := (last.pager + 1) % 64 }
    else r.1

/-! ### Duty (R60 to R62) -/

/-- An entry takes its place in the owed duty list (R61). -/
def placeDuty (d : DutyEntry) (l : List DutyEntry) : List DutyEntry :=
  if l.any (·.pager == d.pager) then l.map fun x => if x.pager = d.pager then d else x
  else if l.length < dutyListMax then l ++ [d]
  else l.drop 1 ++ [d]

/-- Offering the owed duty list in a DUTY burst (R61). -/
def State.offerDuty (s : State) : State :=
  let r := s.offer (.duty s.presence.owedDuty) .class1 none
  if r.2 then r.1.withPresence { r.1.presence with owedDuty := [] } else r.1

/-- A duty is set (R60, R62). -/
def State.setDuty (s : State) (d : DutyEntry) : State := s.modifyPager d.pager fun r => { r with duty := d.on }

/-- A SIGNON or SIGNOFF heard here (R60, R61). -/
def State.sign (s : State) (d : DutyEntry) : State :=
  let s1 := s.setDuty d
  (s1.withPresence { s1.presence with owedDuty := placeDuty d s1.presence.owedDuty }).offerDuty

/-- The claim timer expires: the owed duty list, then in LIVE a CLAIM (R57). -/
def State.claimExpires (s : State) : State :=
  match s.presence.claimAt with
  | none => s
  | some t =>
    let s1 := s.reach t
    let s2 := s1.withPresence { s1.presence with claimAt := some (t + claimPeriod) }
    let s3 := if s2.presence.owedDuty.isEmpty then s2 else s2.offerDuty
    if s3.zone.dark then s3 else s3.offerClaim

/-! ### Zone DARK (R63) -/

/-- One record when the own zone goes DARK (R63). -/
def darkPager (r : PagerRecord) : PagerRecord := { r with score := 0, announced := 0, belowOwed := false }

/-- The own zone has gone DARK (R63). -/
def State.presenceDark (s : State) : State := s.withPresence { s.presence with roster := s.presence.roster.map darkPager }

/-- AGING_TIMER_EXPIRY (R49). -/
def execAgingTimerExpiry (s : State) : Host.Outcome State Fault Refusal := .next s.agingExpires

/-- CLAIM_TIMER_EXPIRY (R57). -/
def execClaimTimerExpiry (s : State) : Host.Outcome State Fault Refusal := .next s.claimExpires

end Sys2Proof.Machine
end

