-- ==== Sys2Proof/Machine/ZoneCycle.lean ====
section
/-! DEFINITION. The Zone Cycle Unit (chapter 5): slots and cycles, the frame handover, LIVE and DARK, return words. -/

namespace Sys2Proof.Machine

/-! ### ZONE bursts (R108) -/

/-- Offering a ZONE burst that carries the zone state as it stands (R108). -/
def State.offerZone (s : State) : State :=
  let r := s.offer (.zone s.zone.dark) .class0 none
  r.1.withZone { r.1.zone with zoneOwed := !r.2 }

/-- The owed ZONE burst at a slot boundary (R108). -/
def State.reofferZone (s : State) : State := if s.zone.zoneOwed then s.offerZone else s

/-! ### LIVE and DARK (R104 to R107) -/

/-- The page slots of the off-air half are emptied (R105). -/
def State.emptyOffAir (s : State) : State :=
  match s.zone.offAir with
  | none => s
  | some h => (pageSlots h).foldl State.emptySlot s

/-- The zone goes DARK (R105). -/
def State.goDark (s : State) : State :=
  let s1 := s.withZone { s.zone with dark := true, lateCount := 0, beaconCount := 0 }
  ((((s1.append .zoneDark none none none).presenceDark).offerZone).relayDark).emptyOffAir

/-- The zone returns to LIVE (R107). -/
def State.goLive (s : State) : State :=
  let s1 := s.withZone { s.zone with dark := false, lateCount := 0, beaconCount := 0 }
  ((s1.append .zoneLive none none none).offerZone).fillHalf .b

/-- The frame of the present slot is not offered further: FRAME and OUT-FULL fall (R100, R101). -/
def State.dropFrame (s : State) : State := s.withZone { s.zone with handover := none }

/-- The present slot is late (R101, R104, R107). -/
def State.slotLate (s : State) : State :=
  let s1 := s.dropFrame
  if s1.zone.dark then s1.withZone { s1.zone with beaconCount := 0 }
  else if s1.zone.lateCount < 2 then s1.withZone { s1.zone with lateCount := s1.zone.lateCount + 1 }
  else s1.goDark

/-- The airing of a frame lowers the count of its entry by R103's four conditions, but not of one that a newer CALL has updated on the
air, whatever its sequence: that one keeps the CALL's full repeats (R72, R103; DEDUCED, notes/assumptions/24.md). -/
def countAiring (f : PageFrame) (e : PageEntry) : PageEntry :=
  if e.key = f.key ∧ e.state = .onAir ∧ e.kind = f.kind ∧ e.seq = f.seq ∧ e.updated = false then { e with repeats := e.repeats - 1 }
  else e

/-- An on-time page slot in the page list (R103). -/
def State.countSlot (s : State) : State :=
  match (s.zone.plan[s.zone.slot]?).join with
  | none => s
  | some f => s.setPages (s.relay.pages.map (countAiring f))

/-- The present slot is on time (R101, R103, R104, R107). -/
def State.slotOnTime (s : State) : State :=
  let s1 := s.dropFrame
  let s2 := if s1.zone.slot = 0 then s1 else s1.countSlot
  if s2.zone.dark then
    (if s2.zone.slot ≠ 0 then s2
     else if s2.zone.beaconCount = 0 then s2.withZone { s2.zone with beaconCount := 1 }
     else s2.goLive)
  else s2.withZone { s2.zone with lateCount := 0 }

/-! ### The frame handover (R100, R101) -/

/-- The frame the present slot offers, as bytes: the beacon in slot 0; a page slot's frame unless it is passed over, which it
is while the zone is DARK (R100, R102). -/
def State.slotFrame (s : State) : Option (List Byte) :=
  if s.zone.slot = 0 then s.zone.beacon.map beaconBytes
  else if s.zone.dark then none
  else ((s.zone.plan[s.zone.slot]?).join).map pageFrameBytes

/-- The handover of the present slot's frame begins (R100). -/
def State.startHandover (s : State) : State :=
  s.withZone { s.zone with handover := s.slotFrame.map fun bytes => { bytes := bytes, taken := 0 } }

/-- The modem takes the byte on the data lines (R100, R101). -/
def State.byteTaken (s : State) : State :=
  match s.zone.handover with
  | none => s
  | some h =>
    if h.taken + 1 < h.bytes.length then s.withZone { s.zone with handover := some { h with taken := h.taken + 1 } }
    else s.slotOnTime

/-- 10 ms of the slot have passed (R101). -/
def State.firstByteDue (s : State) : State :=
  match s.zone.handover with
  | none => s
  | some h => if h.taken = 0 then (s.reach (s.zone.slotStart + firstByteTime)).slotLate else s

/-- 70 ms of the slot have passed (R101). -/
def State.wholeFrameDue (s : State) : State :=
  match s.zone.handover with
  | none => s
  | some _ => (s.reach (s.zone.slotStart + wholeFrameTime)).slotLate

/-! ### Slots and cycles (R90, R98, R99) -/

/-- A half begins its first slot: it is on air, and its PLACED entries go on the air (R91, R98, R99). -/
def State.halfOnAir (s : State) (h : Half) : State :=
  (s.withZone { s.zone with onAir := some h }).setPages (goOnAir h s.relay.pages)

/-- The beacon of slot 0 (R92). -/
def State.buildBeacon (s : State) : State :=
  s.withZone { s.zone with beacon := some ⟨s.ident.channel, s.ident.station, s.zone.cycle⟩ }

/-- Slot 0 starts: half A is on air, the beacon is built, half B is filled (R99 steps 4 and 5). -/
def State.startSlotZero (s : State) : State :=
  (((s.withZone { s.zone with slot := 0 }).halfOnAir .a).buildBeacon).fillHalf .b

/-- The end of slot 31 (R99 steps 1 to 3): half A is locked, the cycle count advances, the Relay Unit takes the cycle end. -/
def State.endCycle (s : State) : State :=
  (s.withZone { s.zone with cycle := (s.zone.cycle + 1) % 256 }).relayCycleEnd

/-- The next slot starts (R90, R98, R99). -/
def State.nextSlot (s : State) : State :=
  if s.zone.slot = 31 then s.endCycle.startSlotZero
  else
    let s1 := s.withZone { s.zone with slot := s.zone.slot + 1 }
    if s1.zone.slot = 16 then (s1.halfOnAir .b).fillHalf .a else s1

/-- A slot boundary (R90). A frame still in the port has passed its 70 ms deadline (R101) and is late first (DEDUCED,
notes/assumptions/8.md). The slot's frame is offered, then the boundary is handed to the Incident Engine and to the owed ZONE
burst (R20, R108). -/
def State.boundary (s : State) : State :=
  match s.zone.slotAt with
  | none => s
  | some t =>
    let s1 := s.wholeFrameDue.reach t
    let s2 := s1.withZone { s1.zone with slotStart := t, slotAt := some (t + slotTime) }
    s2.nextSlot.startHandover.engineBoundary.reofferZone

/-! ### Return words (R109 to R113) -/

/-- A word is routed by its kind (R113). -/
def State.routeWord (s : State) (w : ReturnWord) : State :=
  match w.kind with
  | none => s
  | some .checkin => s
  | some (.sign on) => s.sign ⟨w.pager, on⟩
  | some (.answer k) =>
    match w.owner with
    | none => s
    | some o =>
      if o = s.ident.station then s.takeAnswer ⟨o, w.serial, w.pager, k⟩ else s.answerForOther ⟨o, w.serial, w.pager, k⟩

/-- A complete return word (R112). -/
def State.takeWord (s : State) (w : ReturnWord) : State :=
  if w.bad || w.kind.isNone || decide (64 ≤ w.pager) then s
  else (s.hearing w.pager w.grade).routeWord w

/-- The assembler after a byte, with its gap timer (R109). -/
def State.setAssembler (s : State) (a : Assembler) (gapAt : Option Nat) : State :=
  s.withZone { s.zone with assembler := a, gapAt := gapAt }

/-- A partial return word is counted (R110, R111). -/
def State.countPartial (s : State) : State :=
  s.withZone { s.zone with partialReturns := raised counterMax s.zone.partialReturns }

/-- A byte is latched (R109). -/
def State.latch (s : State) (b : Byte) : State :=
  let s1 := s.withZone { s.zone with inFullUntil := some (s.now + inFullTime) }
  let gap := some (s.now + gapTime)
  match s1.zone.assembler with
  | .idle => s1.setAssembler (.assembling [b]) gap
  | .assembling [x, y, z] => (s1.setAssembler .idle none).takeWord (readReturnWord x y z b)
  | .assembling bytes => s1.setAssembler (.assembling (bytes ++ [b])) gap
  | .resync => s1.setAssembler .resync gap

/-- A strobe is refused (R111). -/
def State.refuseStrobe (s : State) : State :=
  let s1 := if s.zone.assembler = .resync then s else s.countPartial
  s1.setAssembler .resync (some (s.now + gapTime))

/-- The modem strobes a return byte (R109, R111). Until the load ends CONFIGURED nothing is latched (R93). -/
def State.strobe (s : State) (b : Byte) : State :=
  if s.configured then
    if s.outFullPin || s.inFullPin then s.refuseStrobe else s.latch b
  else s

/-- The gap timer expires (R110). -/
def State.gapExpires (s : State) : State :=
  match s.zone.gapAt with
  | none => s
  | some t =>
    let s1 := s.reach t
    let s2 := match s1.zone.assembler with
      | .assembling _ => s1.countPartial
      | _ => s1
    s2.setAssembler .idle none

/-- IN-FULL falls (R109). -/
def State.inFullEnds (s : State) : State :=
  match s.zone.inFullUntil with
  | none => s
  | some t => (s.reach t).withZone { s.zone with inFullUntil := none }

/-- SLOT_BOUNDARY (R90). -/
def execSlotBoundary (s : State) : Host.Outcome State Fault Refusal := .next s.boundary

/-- OUT_TAKEN (R100). -/
def execOutTaken (s : State) : Host.Outcome State Fault Refusal := .next s.byteTaken

/-- FIRST_BYTE_DEADLINE (R101). -/
def execFirstByteDeadline (s : State) : Host.Outcome State Fault Refusal := .next s.firstByteDue

/-- WHOLE_FRAME_DEADLINE (R101). -/
def execWholeFrameDeadline (s : State) : Host.Outcome State Fault Refusal := .next s.wholeFrameDue

/-- IN_STROBE (R109). -/
def execInStrobe (byte : Byte) (s : State) : Host.Outcome State Fault Refusal := .next (s.strobe byte)

/-- IN_FULL_END (R109). -/
def execInFullEnd (s : State) : Host.Outcome State Fault Refusal := .next s.inFullEnds

/-- GAP_TIMER_EXPIRY (R110). -/
def execGapTimerExpiry (s : State) : Host.Outcome State Fault Refusal := .next s.gapExpires

end Sys2Proof.Machine
end

