-- ==== Sys2Proof/Machine/PlantLine.lean ====
section
/-! DEFINITION. The Line Controller (chapter 6): gaining the line, sending, collisions, receptions, LINE HOLD, and handing a valid
burst to the block that takes it (R131, R145). -/

namespace Sys2Proof.Machine

/-! ### Gaining the line (R121 to R124) -/

/-- The place r of a station after the last sender (R122). -/
def turn (station : Nat) (last : Option Nat) : Nat :=
  match last with
  | none => station
  | some l => (station + 64 - l - 1) % 32

/-- The holdoff of a burst, in bit times (R122). -/
def holdoff (station : Nat) (last : Option Nat) (cls : LineClass) : Nat :=
  8 * turn station last + (match cls with | .class0 => 0 | .class1 => 256)

/-- The head burst with its header completed from the state (R124). -/
def State.completed (s : State) (b : Queued) : Burst where
  lineClass := b.cls
  sender := s.ident.station
  dark := s.zone.dark
  historyHigh := s.log.high
  openIncidents := s.openCount
  addressee := b.addressee
  body := b.body

/-- The moment the quiet begins while the line stays released: 20 bit times from where its count starts (R116). -/
def Reader.quietAt (r : Reader) : Nat := r.quietFrom + bitTime * quietBits

/-- The burst at the head begins (R122, R124): the line is released, no byte frame is open, and the timebase stands at the end of
quiet and holdoff at the earliest. A reception whose mark no byte followed is given up (DESIGN CHOICE,
notes/assumptions/10.md). -/
def State.begin (s : State) : State :=
  match s.line.queue with
  | [] => s
  | b :: _ =>
    if s.configured && !s.line.hold && s.line.sending.isNone && !s.line.reader.busy then
      let s1 := s.reach (s.line.reader.quietAt + bitTime * holdoff s.ident.station s.line.lastSender b.cls)
      s1.withLine { s1.line with
        sending := some { bytes := encodeBurst (s1.completed b), startAt := s1.now }
        reader := { s1.line.reader with reception := none } }
    else s

/-! ### The end of an attempt (R125 to R127) -/

/-- A burst has been sent whole (R126); a LOG is reported SENT (R120). -/
def State.sentWhole (s : State) : State :=
  match s.line.sending, s.line.queue with
  | some x, b :: rest =>
    let s1 := s.reach (x.startAt + bitTime * burstBits x.bytes.length)
    let s2 := s1.withLine { s1.line with
      queue := rest, sending := none, lastSender := some s1.ident.station, degraded := false
      reader := readerStart s1.now }
    match b.body with
    | .log _ => s2.logSent
    | _ => s2
  | _, _ => s

/-- A burst whose attempt has failed takes its place: a class 1 burst goes behind the class 0 bursts, first of its class (R117). -/
def requeue (b : Queued) (rest : List Queued) : List Queued :=
  match b.cls with
  | .class0 => b :: rest
  | .class1 => placeUrgent b rest

/-- A collision in a bit time of the attempt (R125, R127): the station releases, counts, and reads on as a reception. It is taken at
the end of that bit time, by when its readback is known (DESIGN CHOICE, notes/assumptions/23.md). -/
def State.collide (s : State) (bit : Nat) : State :=
  match s.line.sending, s.line.queue with
  | some x, b :: rest =>
    if bit < burstBits x.bytes.length then
      let s1 := s.reach (x.startAt + bitTime * (bit + 1))
      let l : Line := { s1.line with
        sending := none, collisions := raised counterMax s1.line.collisions, lastSender := none
        reader := attemptReader s1.line.reader.quietFrom x.startAt x.bytes bit }
      if b.attempts + 1 < attemptMax then
        s1.withLine { l with queue := requeue { b with attempts := b.attempts + 1 } rest }
      else
        ((s1.withLine { l with queue := rest, drops := raised counterMax l.drops, degraded := true }).append
          .lineDrop none none none).reportLost b
    else s
  | _, _ => s

/-! ### Failed receptions (R129, R130) -/

/-- The station reads the line and is not sending: CONFIGURED, no burst in transmission (R116, R124, R135). What it reads of its own
burst is not judged, and is gone over again when a collision ends the attempt (R125). -/
def State.listens (s : State) : Bool := s.configured && s.line.sending.isNone

/-- A failed reception: the check-fault counter rises, the last sender becomes none, the burst goes to no block (R130). -/
def State.checkFault (s : State) : State :=
  s.withLine { s.line with checkFaults := raised counterMax s.line.checkFaults, lastSender := none }

/-- A reception aborted by a start mark: the framing-abort counter rises, the last sender becomes none (R129). -/
def State.framingAbort (s : State) : State :=
  s.withLine { s.line with framingAborts := raised counterMax s.line.framingAborts, lastSender := none }

/-! ### Handing a valid burst on (R131, R132, R145) -/

/-- The station enters LINE HOLD; one already in it stays as it is (R132, R133). -/
def State.enterHold (s : State) : State :=
  if s.line.hold then s
  else
    ((s.line.queue.foldl State.reportLost s).withLine { s.line with hold := true, queue := [] }).append .lineHold none none none

/-- A burst addressed to ALL or to this station (R131). -/
def State.addressed (s : State) (b : Burst) : Bool := b.addressee.all (· == s.ident.station)

/-- The block that takes the body of a burst from a peer takes it (R131 step 4, R145). -/
def State.deliver (s : State) (b : Burst) : State :=
  match b.body with
  | .claim entries => s.takeClaim b.sender b.dark entries
  | .call c => if s.addressed b then s.takeCall b.sender c else s
  | .answer k => if s.addressed b then s.takeAnswer k else s
  | .settle x => if s.addressed b then s.applySettle b.sender x else s
  | .duty entries => if s.addressed b then entries.foldl State.setDuty s else s
  | .zone dark => if s.addressed b && dark then s.darkStatus b.sender else s
  | .query q => if b.addressee = some s.ident.station then s.takeQuery b.sender q else s
  | .log _ => s
  | .state _ _ => s

/-- A valid reception is handed on (R131). -/
def State.handOn (s : State) (b : Burst) : State :=
  let s1 := s.withLine { s.line with lastSender := some b.sender }
  if b.sender = s1.ident.station then s1.enterHold
  else (if b.dark then s1.darkStatus b.sender else s1).deliver b

/-- What the judgement of a reception brings (R130, R131). -/
def State.judged (s : State) : Judgement → State
  | .valid b => s.handOn b
  | .failed _ => s.checkFault

/-! ### Reading the line (R116, R123, R128 to R130) -/

/-- The Line Controller takes what the receive assembler reports. -/
def State.heard (s : State) : Heard → State
  | .aborted => s.framingAbort
  | .badLength => s.checkFault
  | .ended bytes => s.judged (judge bytes)

/-- The station reads `line` bit time by bit time; the timebase stands at the end of the last one at the earliest. -/
def State.hear (s : State) (line : List Bool) : State :=
  if s.listens then
    let x := (s.line.reader.resume s.now line.length).read line
    let s1 := s.reach x.1.readTo
    x.2.foldl State.heard (s1.withLine { s1.line with reader := x.1 })
  else s

/-- BEGIN_BURST (R122). -/
def execBeginBurst (s : State) : Host.Outcome State Fault Refusal := .next s.begin

/-- COLLISION (R125). -/
def execCollision (bitTime : Nat) (s : State) : Host.Outcome State Fault Refusal := .next (s.collide bitTime)

/-- BURST_SENT_WHOLE (R126). -/
def execBurstSentWhole (s : State) : Host.Outcome State Fault Refusal := .next s.sentWhole

/-- START_MARK_HEARD (R128): the line up to the release of the mark. -/
def execStartMarkHeard (line : List Bool) (s : State) : Host.Outcome State Fault Refusal := .next (s.hear line)

/-- LINE_NOISE (R123): a driven run too short for a mark, and the byte frames it opens. -/
def execLineNoise (line : List Bool) (s : State) : Host.Outcome State Fault Refusal := .next (s.hear line)

/-- RECEPTION_FAILS_BY_LENGTH (R128): the line up to the sixth byte. -/
def execReceptionFailsByLength (line : List Bool) (s : State) : Host.Outcome State Fault Refusal := .next (s.hear line)

/-- RECEPTION_FAILED (R130): the line up to the gap that ends the reception. -/
def execReceptionFailed (line : List Bool) (s : State) : Host.Outcome State Fault Refusal := .next (s.hear line)

/-- RECEIVE_CLAIM (R52): the line up to the gap that ends the reception; its bytes decide what is taken. -/
def execReceiveClaim (line : List Bool) (s : State) : Host.Outcome State Fault Refusal := .next (s.hear line)

/-- RECEIVE_CALL (R70): the line up to the gap that ends the reception; its bytes decide what is taken. -/
def execReceiveCall (line : List Bool) (s : State) : Host.Outcome State Fault Refusal := .next (s.hear line)

/-- RECEIVE_ANSWER (R11): the line up to the gap that ends the reception; its bytes decide what is taken. -/
def execReceiveAnswer (line : List Bool) (s : State) : Host.Outcome State Fault Refusal := .next (s.hear line)

/-- RECEIVE_SETTLE (R75): the line up to the gap that ends the reception; its bytes decide what is taken. -/
def execReceiveSettle (line : List Bool) (s : State) : Host.Outcome State Fault Refusal := .next (s.hear line)

/-- RECEIVE_DUTY (R62): the line up to the gap that ends the reception; its bytes decide what is taken. -/
def execReceiveDuty (line : List Bool) (s : State) : Host.Outcome State Fault Refusal := .next (s.hear line)

/-- RECEIVE_ZONE (R145): the line up to the gap that ends the reception; its bytes decide what is taken. -/
def execReceiveZone (line : List Bool) (s : State) : Host.Outcome State Fault Refusal := .next (s.hear line)

/-- RECEIVE_LOG (R145): the line up to the gap that ends the reception; its bytes decide what is taken. -/
def execReceiveLog (line : List Bool) (s : State) : Host.Outcome State Fault Refusal := .next (s.hear line)

/-- RECEIVE_STATE (R145): the line up to the gap that ends the reception; its bytes decide what is taken. -/
def execReceiveState (line : List Bool) (s : State) : Host.Outcome State Fault Refusal := .next (s.hear line)

/-- QUERY_HISTORY (R173): the line up to the gap that ends the reception; its bytes decide what is taken. -/
def execQueryHistory (line : List Bool) (s : State) : Host.Outcome State Fault Refusal := .next (s.hear line)

/-- QUERY_INCIDENTS (R176): the line up to the gap that ends the reception; its bytes decide what is taken. -/
def execQueryIncidents (line : List Bool) (s : State) : Host.Outcome State Fault Refusal := .next (s.hear line)

/-- QUERY_RELEASE (R172): the line up to the gap that ends the reception; its bytes decide what is taken. -/
def execQueryRelease (line : List Bool) (s : State) : Host.Outcome State Fault Refusal := .next (s.hear line)

/-- QUERY_CANCEL (R17): the line up to the gap that ends the reception; its bytes decide what is taken. -/
def execQueryCancel (line : List Bool) (s : State) : Host.Outcome State Fault Refusal := .next (s.hear line)

end Sys2Proof.Machine
end

