-- ==== Sys2Proof/Machine/FieldInputs.lean ====
section
/-! DEFINITION. The Input Scanner (chapter 8): bands and conditions, debounce, chatter, LOCKOUT, reports; the commands SCAN and
CHATTER_WINDOW_END. -/

namespace Sys2Proof.Machine

/-! ### Conditions (R147) -/

/-- The raw condition of a band in a mode; an UNUSED input is not read (R147). -/
def readBand (m : InputMode) (b : Band) : Option Condition :=
  match m with
  | .unused => none
  | .contact => some (if b.val ≤ 1 then .normal else .active)
  | .supervised => some (if b.val = 0 then .short else if b.val = 1 then .normal else if b.val = 2 then .active else .opened)

/-- SHORT or OPEN (R147). -/
def Condition.faulted (c : Condition) : Bool := c == .short || c == .opened

/-- The input is in CONTACT or SUPERVISED mode. -/
def InputRecord.used (r : InputRecord) : Bool := r.mode != .unused

/-! ### Debounce (R150, R151) -/

/-- One reading against a debounced value: the candidate and run count after it, and the change it accepts (R150). -/
def debounce {α : Type} [DecidableEq α] (count : Nat) (current : α) (candidate : Option α) (run : Nat) (raw : α) :
    Option α × Nat × Option α :=
  if raw = current then (none, 0, none)
  else
    let run' := if candidate = some raw then run + 1 else 1
    if count ≤ run' then (none, 0, some raw) else (some raw, run', none)

/-! ### Reports (R152) -/

/-- The cancel hold of a kind (R146). -/
def InputRecord.holdOf (r : InputRecord) : SourceKind → Bool
  | .alarm => r.holdAlarm
  | .wiring => r.holdWiring
  | .chatter => r.holdChatter

/-- A raise is suppressed (R152). -/
def State.raiseSuppressed (s : State) (n : Nat) (k : SourceKind) : Bool :=
  let r := s.input n
  (k != .chatter && r.inChatter) || (r.lockable && s.scanner.lockout) || r.holdOf k

/-- A restore is suppressed (R152). -/
def State.restoreSuppressed (s : State) (n : Nat) (k : SourceKind) : Bool := k != .chatter && (s.input n).inChatter

/-- A raise is reported, unless it is suppressed (R152). -/
def State.reportRaise (s : State) (n : Nat) (k : SourceKind) : State := if s.raiseSuppressed n k then s else s.raise n k

/-- A restore is reported, unless it is suppressed (R152). -/
def State.reportRestore (s : State) (n : Nat) (k : SourceKind) : State :=
  if s.restoreSuppressed n k then s else s.restore n k

/-- The WIRING report of a change (R152). -/
def State.reportWiring (s : State) (n : Nat) (old new : Condition) : State :=
  if new.faulted && !old.faulted then s.reportRaise n .wiring
  else if !new.faulted && old.faulted then s.reportRestore n .wiring
  else s

/-- The ALARM report of a change (R152). -/
def State.reportAlarm (s : State) (n : Nat) (old new : Condition) : State :=
  if new = .active ∧ old ≠ .active then s.reportRaise n .alarm
  else if new ≠ .active ∧ old = .active then s.reportRestore n .alarm
  else s

/-! ### An accepted change (R150, R152, R153, R160) -/

/-- The record after an accepted change, before its reports: the debounced condition, the cancel holds it clears, and its
count (R150, R153, R160). -/
def acceptChange (new : Condition) (r : InputRecord) : InputRecord :=
  { r with
    condition := new
    holdAlarm := r.holdAlarm && new == .active
    holdWiring := r.holdWiring && new.faulted
    chatterCount := raised chatterMax r.chatterCount }

/-- The input enters CHATTER when its counter has reached the threshold (R153). -/
def State.enterChatter (s : State) (n : Nat) : State :=
  let r := s.input n
  if !r.inChatter && decide (s.scanner.threshold ≤ r.chatterCount) then
    (s.modifyInput n fun r => { r with inChatter := true, chatterCount := 0 }).reportRaise n .chatter
  else s

/-- A change of a used input is accepted (R150, R152, R153). -/
def State.changeAccepted (s : State) (n : Nat) (old new : Condition) : State :=
  (((s.modifyInput n (acceptChange new)).enterChatter n).reportWiring n old new).reportAlarm n old new

/-- One input is read and debounced (R149, R150). -/
def State.scanInput (s : State) (x : Band × Nat) : State :=
  let r := s.input x.2
  match readBand r.mode x.1 with
  | none => s
  | some raw =>
    let d := debounce s.scanner.debounce r.condition r.candidate r.run raw
    let s1 := s.modifyInput x.2 fun r => { r with candidate := d.1, run := d.2.1 }
    match d.2.2 with
    | none => s1
    | some new => s1.changeAccepted x.2 r.condition new

/-! ### LOCKOUT (R151, R157, R158) -/

/-- The kind's state stands at the input, so that the release considers it (R158). -/
def InputRecord.stands (r : InputRecord) : SourceKind → Bool
  | .chatter => r.inChatter
  | .wiring => !r.inChatter && r.condition.faulted
  | .alarm => !r.inChatter && r.condition == .active

/-- The release of LOCKOUT for one input and kind: a raise, unless an incident of the source is open and not in CLOSING
(R158). -/
def State.releaseKind (n : Nat) (s : State) (k : SourceKind) : State :=
  if (s.input n).stands k then
    match findSource s.engine.table n k with
    | some (_, i) => if i.state = .closing then s.reportRaise n k else s
    | none => s.reportRaise n k
  else s

/-- The release of LOCKOUT for one input: CHATTER, WIRING, ALARM (R158). -/
def State.releaseInput (s : State) (n : Nat) : State :=
  let r := s.input n
  if r.lockable && r.used then [SourceKind.chatter, .wiring, .alarm].foldl (State.releaseKind n) s else s

/-- The LOCKOUT level is read and debounced; a release makes its reports (R149, R151, R158). -/
def State.scanLockout (s : State) (level : Bool) : State :=
  let c := s.scanner
  let d := debounce c.debounce c.lockout c.lockCandidate c.lockRun level
  match d.2.2 with
  | none => s.withScanner { c with lockCandidate := d.1, lockRun := d.2.1 }
  | some new =>
    let s1 := s.withScanner { c with lockCandidate := d.1, lockRun := d.2.1, lockout := new }
    if new then s1 else (List.range 16).foldl State.releaseInput s1

/-- One scan (R149). -/
def State.scanOnce (s : State) (lockout : Bool) (bands : Vector Band 16) : State :=
  match s.scanner.scanAt with
  | none => s
  | some t =>
    let s1 := s.reach t
    let s2 := s1.withScanner { s1.scanner with scanAt := some (t + scanPeriod) }
    bands.toList.zipIdx.foldl State.scanInput (s2.scanLockout lockout)

/-! ### Chatter windows (R154, R155, R160) -/

/-- The present condition of an input reported as if it had just been reached (R155). -/
def State.reportPresent (s : State) (n : Nat) : State :=
  let r := s.input n
  let s1 := if r.mode = .supervised then (if r.condition.faulted then s.reportRaise n .wiring else s.reportRestore n .wiring) else s
  if r.condition = .active then s1.reportRaise n .alarm else s1.reportRestore n .alarm

/-- A used input at a window end: a quiet one leaves CHATTER (R154, R155). -/
def State.leaveChatter (s : State) (n : Nat) : State :=
  let r := s.input n
  if r.used && r.inChatter && r.chatterCount == 0 then
    (((s.modifyInput n fun r => { r with inChatter := false, holdChatter := false }).reportRestore n .chatter).reportPresent n)
  else s

/-- A chatter window ends (R154). -/
def State.windowEnds (s : State) : State :=
  match s.scanner.windowAt with
  | none => s
  | some t =>
    let s1 := s.reach t
    let s2 := s1.withScanner { s1.scanner with windowAt := some (t + chatterWindow) }
    let s3 := (List.range 16).foldl State.leaveChatter s2
    s3.withScanner { s3.scanner with inputs := s3.scanner.inputs.map fun r => { r with chatterCount := 0 } }

/-- SCAN (R149). -/
def execScan (lockout : Bool) (bands : Vector Band 16) (s : State) : Host.Outcome State Fault Refusal :=
  .next (s.scanOnce lockout bands)

/-- CHATTER_WINDOW_END (R154). -/
def execChatterWindowEnd (s : State) : Host.Outcome State Fault Refusal := .next s.windowEnds

end Sys2Proof.Machine
end

