-- ==== Sys2Proof/Machine/PanelDriver.lean ====
section
/-! DEFINITION. The Panel Driver (chapter 10): what each point shows, the shares and the flash phase; the commands FLASH_PHASE_TURN and
PANEL_SHARE_START. -/

namespace Sys2Proof.Machine

/-- How a point shows (R178). -/
inductive Lamp
  | dark | steady | flashing
  deriving DecidableEq, Repr

/-- A point that is lit steady while a condition holds. -/
def steadyWhile (b : Bool) : Lamp := if b then .steady else .dark

/-- Point `e`, for an entry of the incident table (R179). -/
def State.entryPoint (s : State) (e : Nat) : Lamp :=
  match s.incident? e with
  | none => .dark
  | some i =>
    match i.state with
    | .calling => .steady
    | .unanswered => .flashing
    | .taken => .dark
    | .closing => .dark

/-- Point 16 + e (R179). -/
def State.takenPoint (s : State) (e : Nat) : Lamp := steadyWhile ((s.incident? e).any (·.state == .taken))

/-- Point 32 + n, for an input (R179). Where both hold the point flashes (R178). -/
def State.inputPoint (s : State) (n : Nat) : Lamp :=
  let r := s.input n
  if !r.used then .dark
  else if r.inChatter || r.condition.faulted then .flashing
  else steadyWhile (r.condition == .active)

/-- Points 48 to 55, the station (R180). -/
def State.stationPoint (s : State) (i : Nat) : Lamp :=
  steadyWhile (match i with
    | 0 => s.loader.load == .unconfigured
    | 1 => s.line.hold
    | 2 => s.line.degraded
    | 3 => s.zone.dark
    | 4 => s.log.high
    | 5 => s.log.frozen
    | 6 => s.scanner.lockout
    | _ => s.alarmOutput)

/-- Point 56 + g, for a crew group (R180). -/
def State.groupPoint (s : State) (g : Nat) : Lamp :=
  steadyWhile (s.presence.roster.any fun r => r.group == some g && r.duty && decide (floorScore ≤ r.score))

/-- Point 64 + p, for a pager (R180). -/
def State.pagerPoint (s : State) (p : Nat) : Lamp :=
  let r := s.pager p
  if r.score < floorScore then .dark else if r.duty then .flashing else .steady

/-- Point `i` of a CONFIGURED station (R179, R180). -/
def State.point (s : State) (i : Nat) : Lamp :=
  if i < 16 then s.entryPoint i
  else if i < 32 then s.takenPoint (i - 16)
  else if i < 48 then s.inputPoint (i - 32)
  else if i < 56 then s.stationPoint (i - 48)
  else if i < 64 then s.groupPoint (i - 56)
  else s.pagerPoint (i - 64)

/-- A point is lit in a share that starts now (R178). -/
def State.lit (s : State) (i : Nat) : Bool :=
  match s.point i with
  | .dark => false
  | .steady => true
  | .flashing => s.panel.flash

/-- The segments a share of a common drives: SEG j for point 32 c + j; SEG16 alone until the load ends CONFIGURED (R177,
R178, R181). -/
def State.shareSegments (s : State) (common : Nat) : BitVec 32 :=
  if s.configured then
    BitVec.ofNat 32 ((List.range 32).foldl (fun n j => n + flagAt (s.lit (32 * common + j)) (2 ^ j)) 0)
  else BitVec.ofNat 32 (2 ^ 16)

/-- A common's share starts: its points are read (R178). -/
def State.readShare (s : State) : State := s.withPanel { s.panel with segments := s.shareSegments s.panel.share }

/-- The next share starts, or the next frame with its first share (R177, R178). -/
def State.nextShare (s : State) : State :=
  let s1 := s.reach s.nextShareAt
  if s.panel.share + 1 < s.shares then (s1.withPanel { s1.panel with share := s1.panel.share + 1 }).readShare
  else (s1.withPanel { s1.panel with share := 0, frameStart := s1.panel.frameStart + panelFrame }).readShare

/-- The flash phase turns over (R178). -/
def State.flashTurns (s : State) : State :=
  match s.panel.flashAt with
  | none => s
  | some t =>
    let s1 := s.reach t
    s1.withPanel { s1.panel with flash := !s1.panel.flash, flashAt := some (t + flashPeriod) }

/-- FLASH_PHASE_TURN (R178). -/
def execFlashPhaseTurn (s : State) : Host.Outcome State Fault Refusal := .next s.flashTurns

/-- PANEL_SHARE_START (R178). -/
def execPanelShareStart (s : State) : Host.Outcome State Fault Refusal := .next s.nextShare

end Sys2Proof.Machine
end

