-- ==== Sys2Proof/Machine/Start.lean ====
section
/-! DEFINITION. The Start Loader (chapter 11): power-on, restart, the load and what its end hands to the blocks. -/

namespace Sys2Proof.Machine

/-- The station at a restart: every block at its start values, the timebase, the log and the clock kept (R169, R183, R191). The
load waits for the release of RESTART (R185). -/
def State.restarted (s : State) : State where
  now := s.now
  loader := loaderStart s.now true true
  ident := identityStart
  engine := engineStart
  presence := presenceStart
  relay := relayStart
  zone := zoneStart
  line := lineStart
  scanner := scannerStart
  log := s.log
  office := officeStart
  panel := panelStart s.now
  pending := s.pending

/-- The RESTART input goes from released to asserted (R183); one already asserted cannot. -/
def State.restartAsserted (s : State) : State := if s.loader.restartPin then s else s.restarted

/-- The RESTART input is released: a load held by it begins with its full wait (R185). -/
def State.restartReleased (s : State) : State :=
  if s.loader.restartPin then
    s.withLoader { s.loader with
      restartPin := false
      load := match s.loader.load with
        | .held => .waiting (s.now + loadWait)
        | l => l }
  else s

/-- The wait for the memory's supply ends and the read begins (R184). -/
def State.waitEnds (s : State) : State :=
  match s.loader.load with
  | .waiting t => (s.reach t).withLoader { s.loader with load := .reading (t + loadRead) }
  | _ => s

/-- The History Log takes mode and watermark, and after a restart appends its RESTART record (R165, R170). -/
def Log.loaded (l : Log) (mode : LogMode) (watermark : Nat) (afterRestart : Bool) : Log :=
  let l1 : Log := { l with mode := some mode, watermark := some watermark }
  if afterRestart then l1.append .restart none none none false else l1

/-- The values of the image are handed to their blocks and their timers start (R188 to R190). -/
def State.takeImage (s : State) (img : Image) : State :=
  { s with
    loader := { s.loader with load := .configured }
    ident := ⟨imgByte img 4, imgByte img 5⟩
    engine := { s.engine with plans := [1, 2, 3, 4].map (imagePlan img) }
    presence := { s.presence with
      roster := (List.range 64).map (imagePager img)
      agingAt := some (s.now + agingPeriod), claimAt := some (s.now + claimPeriod) }
    zone := { s.zone with slotStart := s.now, slotAt := some (s.now + slotTime) }
    line := { s.line with reader := readerStart s.now }
    scanner := { s.scanner with
      inputs := (List.range 16).map (imageInput img)
      debounce := clamp 1 15 (imgByte img 8), threshold := clamp 4 31 (imgByte img 9)
      scanAt := some s.now, windowAt := some (s.now + chatterWindow) }
    log := s.log.loaded (logModeOf (imgByte img 10)) (clamp 16 128 (imgByte img 7)) s.loader.afterRestart
    panel := { s.panel with
      commons := clamp 1 4 (imgByte img 6), frameStart := s.now, share := 0
      flash := true, flashAt := some (s.now + flashPeriod) } }

/-- The end of a load whose checks hold (R190): the values are taken, the first slot 0 begins with its boundary, the panel
begins a frame. The first scan is due at this moment and is taken by its own command (DEDUCED, notes/assumptions/8.md). -/
def State.loadConfigured (s : State) (img : Image) : State :=
  (s.takeImage img).startSlotZero.startHandover.engineBoundary.reofferZone.readShare

/-- The read of the image ends (R186, R187, R190). -/
def State.readEnds (s : State) (img : Image) : State :=
  match s.loader.load with
  | .reading t =>
    let s1 := s.reach t
    if imageFails img then s1.withLoader { s1.loader with load := .unconfigured } else s1.loadConfigured img
  | _ => s

/-- POWER_ON (R183, R185). -/
def execPowerOn (restartAsserted : Bool) (s : State) : Host.Outcome State Fault Refusal :=
  .next (powerOnState restartAsserted s.pending)

/-- RESTART (R183). -/
def execRestart (s : State) : Host.Outcome State Fault Refusal := .next s.restartAsserted

/-- RESTART_RELEASE (R185). -/
def execRestartRelease (s : State) : Host.Outcome State Fault Refusal := .next s.restartReleased

/-- LOAD_WAIT_END (R184). -/
def execLoadWaitEnd (s : State) : Host.Outcome State Fault Refusal := .next s.waitEnds

/-- LOAD_READ_END: the image is what was sampled from MDI (R184, R186). -/
def execLoadReadEnd (mdi : MdiLevels) (s : State) : Host.Outcome State Fault Refusal := .next (s.readEnds (imageRead mdi))

end Sys2Proof.Machine
end

