-- ==== Sys2Proof/Machine/Dispatch.lean ====
section
/-! DEFINITION. The meaning of each command, one arm per constructor of Instr. -/

namespace Sys2Proof.Machine

def exec (i : Instr) (s : State) : Host.Outcome State Fault Refusal :=
  match i with
  | .powerOn restartAsserted => Sys2Proof.Machine.execPowerOn restartAsserted s
  | .restart => Sys2Proof.Machine.execRestart s
  | .restartRelease => Sys2Proof.Machine.execRestartRelease s
  | .loadWaitEnd => Sys2Proof.Machine.execLoadWaitEnd s
  | .loadReadEnd mdi => Sys2Proof.Machine.execLoadReadEnd mdi s
  | .slotBoundary => Sys2Proof.Machine.execSlotBoundary s
  | .outTaken => Sys2Proof.Machine.execOutTaken s
  | .firstByteDeadline => Sys2Proof.Machine.execFirstByteDeadline s
  | .wholeFrameDeadline => Sys2Proof.Machine.execWholeFrameDeadline s
  | .inStrobe byte => Sys2Proof.Machine.execInStrobe byte s
  | .inFullEnd => Sys2Proof.Machine.execInFullEnd s
  | .gapTimerExpiry => Sys2Proof.Machine.execGapTimerExpiry s
  | .agingTimerExpiry => Sys2Proof.Machine.execAgingTimerExpiry s
  | .claimTimerExpiry => Sys2Proof.Machine.execClaimTimerExpiry s
  | .scan lockout bands => Sys2Proof.Machine.execScan lockout bands s
  | .chatterWindowEnd => Sys2Proof.Machine.execChatterWindowEnd s
  | .secondsClockTick => Sys2Proof.Machine.execSecondsClockTick s
  | .flashPhaseTurn => Sys2Proof.Machine.execFlashPhaseTurn s
  | .panelShareStart => Sys2Proof.Machine.execPanelShareStart s
  | .windowExpiry entry => Sys2Proof.Machine.execWindowExpiry entry s
  | .refreshLimitEnd entry => Sys2Proof.Machine.execRefreshLimitEnd entry s
  | .answerRepeatTimer key => Sys2Proof.Machine.execAnswerRepeatTimer key s
  | .beginBurst => Sys2Proof.Machine.execBeginBurst s
  | .collision bitTime => Sys2Proof.Machine.execCollision bitTime s
  | .burstSentWhole => Sys2Proof.Machine.execBurstSentWhole s
  | .startMarkHeard line => Sys2Proof.Machine.execStartMarkHeard line s
  | .receptionFailed line => Sys2Proof.Machine.execReceptionFailed line s
  | .receiveClaim line => Sys2Proof.Machine.execReceiveClaim line s
  | .receiveCall line => Sys2Proof.Machine.execReceiveCall line s
  | .receiveAnswer line => Sys2Proof.Machine.execReceiveAnswer line s
  | .receiveSettle line => Sys2Proof.Machine.execReceiveSettle line s
  | .receiveDuty line => Sys2Proof.Machine.execReceiveDuty line s
  | .receiveZone line => Sys2Proof.Machine.execReceiveZone line s
  | .receiveLog line => Sys2Proof.Machine.execReceiveLog line s
  | .receiveState line => Sys2Proof.Machine.execReceiveState line s
  | .queryHistory line => Sys2Proof.Machine.execQueryHistory line s
  | .queryIncidents line => Sys2Proof.Machine.execQueryIncidents line s
  | .queryRelease line => Sys2Proof.Machine.execQueryRelease line s
  | .queryCancel line => Sys2Proof.Machine.execQueryCancel line s
  | .lineNoise line => Sys2Proof.Machine.execLineNoise line s
  | .receptionFailsByLength line => Sys2Proof.Machine.execReceptionFailsByLength line s

end Sys2Proof.Machine
end

