-- ==== Sys2Proof/Machine/Step.lean ====
section
/-! DEFINITION. One step of the station: the command at the front of the queue, or the timebase. -/

namespace Sys2Proof.Machine

/-- The station with a command put at the front of its queue. -/
def State.enqueueFront (s : State) (c : Instr) : State := s.withPending (c :: s.pending)

/-- The command a word spells goes to the front of the queue; the state is unchanged where the word spells none. -/
def State.withFetchWord (s : State) (nbits w : Nat) : State :=
  match decodeTableWord nbits w with
  | none => s
  | some c => s.enqueueFront c

/-- One step: the command at the front of the queue is taken whole, with the rest of the queue waiting. On an empty queue the
station idles and a microsecond passes (DESIGN CHOICE, notes/assumptions/2.md). -/
def step (s : State) : Host.Outcome State Fault Refusal :=
  match s.pending with
  | [] => .next s.idle
  | c :: rest => exec c (s.withPending rest)

end Sys2Proof.Machine
end

