-- ==== Sys2Proof/Safety.lean ====
section
/-! DEFINITION. What counts as a sound state of the station, block by block, in the terms the statements use. Each predicate is
the bounds and agreements the rules say they keep. -/

namespace Sys2Proof.Machine

/-- R164, R166, R162: at most 128 records, times that never decrease and never pass the clock, the lost count and the clock in their
ranges, the records numbered without a gap from the oldest to the newest, which stands before the next. They are numbered here by the
model's own counts, without end (DEDUCED, notes/assumptions/14.md); their numbers are those modulo 65536. -/
abbrev LogSound (s : State) : Prop :=
  s.log.records.length ≤ logMax ∧ s.log.records.Pairwise (fun a b => a.record.time ≤ b.record.time) ∧
  (∀ h ∈ s.log.records, h.record.time ≤ s.log.seconds) ∧ s.log.lost ≤ lostMax ∧ s.log.seconds ≤ secondsMax ∧
  ∃ first, s.log.appended = first + s.log.records.length ∧ s.log.records.map (·.count) = List.range' first s.log.records.length

/-- The class 0 bursts stand ahead of the class 1 bursts (R117). -/
abbrev UrgentFirst (q : List Queued) : Prop := q.Pairwise fun a b => a.cls = .class1 → b.cls = .class1

/-- R117, R119, R127: at most 8 bursts, class 0 ahead of class 1 except a head in transmission, at most 15 failed attempts; a burst
in transmission stands at the head; in LINE HOLD the queue is empty. -/
abbrev QueueSound (s : State) : Prop :=
  s.line.queue.length ≤ queueMax ∧ UrgentFirst s.line.free ∧ (∀ b ∈ s.line.queue, b.attempts < attemptMax) ∧
  (s.line.sending.isSome = true → s.line.queue ≠ []) ∧ (s.line.hold = true → s.line.queue = [])

/-- R45: 64 records; scores and claims lie in 0 to 240; a claimant is held exactly with a claim above 0 and is never this
station. -/
abbrev PagerSound (station : Nat) (r : PagerRecord) : Prop :=
  r.score ≤ 240 ∧ r.claim ≤ 240 ∧ r.announced ≤ 240 ∧ (r.claimant.isSome = true ↔ 0 < r.claim) ∧ r.claimant ≠ some station

abbrev RosterSound (s : State) : Prop :=
  s.presence.roster.length = 64 ∧ ∀ r ∈ s.presence.roster, PagerSound s.ident.station r

/-- R67: at most 24 entries, one for each key, repeats and spent cycles in 0 to 8. -/
abbrev PagesSound (s : State) : Prop :=
  s.relay.pages.length ≤ pageListMax ∧ (s.relay.pages.map (·.key)).Nodup ∧
  ∀ e ∈ s.relay.pages, e.repeats ≤ 8 ∧ e.spentLeft ≤ spentLinger

/-- R86: at most 4 entries, one for each key, each with 1 to 3 sends left. -/
abbrev AnswersSound (s : State) : Prop :=
  s.relay.answers.length ≤ answerListMax ∧ (s.relay.answers.map (·.key)).Nodup ∧
  ∀ a ∈ s.relay.answers, 1 ≤ a.sendsLeft ∧ a.sendsLeft ≤ 3

/-- R26: every level asks for 1 to 8 repeats. -/
abbrev PlansSound (s : State) : Prop := ∀ p ∈ s.engine.plans, ∀ l ∈ p, 1 ≤ l.repeats ∧ l.repeats ≤ 8

/-- R2, R10: the fields of an open incident lie in their ranges and agree with its state; `last` is the last level of its class. -/
abbrev IncidentSound (last : Nat) (i : Incident) : Prop :=
  i.level ≤ last ∧ i.calls.length ≤ callListMax ∧ (i.calls.map (·.pager)).Nodup ∧
  (i.state = .calling ∨ i.state = .unanswered → i.responder = none ∧ i.window.isSome = true ∧ i.settleOwed = none) ∧
  (i.state = .unanswered → i.level = last) ∧
  (i.state = .taken → (∃ c ∈ i.calls, i.responder = some c.pager) ∧ i.window = none ∧
    (i.settleOwed = none ∨ i.settleOwed = some .taken) ∧ i.callOwed = false ∧ i.refreshDue = false) ∧
  (i.state = .closing → i.window = none ∧ i.callOwed = false ∧ i.refreshDue = false ∧ i.settleOwed ≠ none ∧
    i.settleOwed ≠ some .taken)

/-- The open incidents, in entry order. -/
def State.incidents (s : State) : List Incident := s.engine.table.filterMap id

/-- R1, R2, R10: 16 entries, no serial and no source twice, every record in agreement with its state. -/
abbrev TableSound (s : State) : Prop :=
  s.engine.table.length = tableSize ∧ s.engine.pend.length = 48 ∧ (s.incidents.map (·.serial)).Nodup ∧
  (s.incidents.map fun i => (i.input, i.kind)).Nodup ∧ ∀ i ∈ s.incidents, IncidentSound (s.lastLevel i.cls) i

/-- R90 to R93, R104, R107, R109, R110: slots, counts and the assembler in their ranges; a page slot holds a frame of its own pagers
only. -/
abbrev ZoneSound (s : State) : Prop :=
  s.zone.plan.length = 32 ∧ s.zone.slot < 32 ∧ s.zone.cycle < 256 ∧ s.zone.lateCount ≤ 2 ∧ s.zone.beaconCount ≤ 1 ∧
  s.zone.partialReturns ≤ counterMax ∧
  (∀ slot < 32, ∀ f, s.zone.plan[slot]? = some (some f) → homeSlot f.key.pager = slot)

/-- The counters that saturate (R74, R134) stay in their range. -/
abbrev CountersSound (s : State) : Prop :=
  s.line.checkFaults ≤ counterMax ∧ s.line.framingAborts ≤ counterMax ∧ s.line.collisions ≤ counterMax ∧
  s.line.drops ≤ counterMax ∧ s.relay.refused ≤ counterMax

/-- R25, R46, R69, R93, R135, R148: until a load ends CONFIGURED no block works: no timer but the clock, the panel and the
load runs, no incident is open, no frame, no burst, no reception. -/
abbrev Resting (s : State) : Prop :=
  s.engine.table = engineStart.table ∧ s.engine.pend = engineStart.pend ∧
  s.presence = presenceStart ∧ s.relay = relayStart ∧ s.zone = zoneStart ∧ s.line = lineStart ∧
  s.scanner = scannerStart ∧ s.office = officeStart ∧ s.panel.flashAt = none

/-- A station that is not CONFIGURED rests. -/
abbrev RestsUntilConfigured (s : State) : Prop := s.configured = false → Resting s

/-! ### Start values -/

/-- What power-on and restart alike leave in every block (R4, R46, R69, R93, R135, R148, R171, R181, R182, R184). -/
abbrev StartValues (s : State) : Prop :=
  (s.engine.table = List.replicate 16 none ∧ s.engine.serialCounter = 0 ∧ s.engine.seqCounter = 0 ∧
    s.engine.pend = List.replicate 48 none) ∧
  (s.presence.roster.length = 64 ∧
    (∀ r ∈ s.presence.roster, r.score = 0 ∧ r.claim = 0 ∧ r.claimant = none ∧ r.announced = 0 ∧ r.belowOwed = false) ∧
    s.presence.pointer = 0 ∧ s.presence.owedDuty = [] ∧ s.presence.agingAt = none ∧ s.presence.claimAt = none) ∧
  (s.relay.pages = [] ∧ s.relay.answers = [] ∧ s.relay.refused = 0) ∧
  (s.zone.plan = List.replicate 32 none ∧ s.zone.beacon = none ∧ s.zone.onAir = none ∧ s.zone.slotAt = none ∧ s.zone.cycle = 0 ∧
    s.zone.dark = false ∧ s.zone.lateCount = 0 ∧ s.zone.beaconCount = 0 ∧ s.zone.zoneOwed = false ∧ s.framePin = false ∧
    s.outFullPin = false ∧ s.dataLines = none ∧ s.zone.assembler = .idle ∧ s.inFullPin = false ∧ s.zone.gapAt = none ∧
    s.zone.partialReturns = 0) ∧
  (s.line.queue = [] ∧ s.line.sending = none ∧ s.lineDrive = false ∧ s.line.reader.run = 0 ∧ s.line.reader.frame = none ∧
    s.line.reader.reception = none ∧ s.line.lastSender = none ∧
    s.line.checkFaults = 0 ∧ s.line.framingAborts = 0 ∧ s.line.collisions = 0 ∧ s.line.drops = 0 ∧ s.line.hold = false ∧
    s.line.degraded = false) ∧
  (s.scanner.inputs.length = 16 ∧
    (∀ r ∈ s.scanner.inputs, r.candidate = none ∧ r.run = 0 ∧ r.condition = .normal ∧ r.chatterCount = 0 ∧ r.inChatter = false ∧
      r.holdAlarm = false ∧ r.holdWiring = false ∧ r.holdChatter = false) ∧
    s.scanner.lockout = false ∧ s.scanner.lockCandidate = none ∧ s.scanner.lockRun = 0 ∧ s.scanner.scanAt = none ∧
    s.scanner.windowAt = none) ∧
  s.office.drain = none ∧
  (s.drivenCommon = 1 ∧ s.panel.segments = BitVec.ofNat 32 (2 ^ 16) ∧ s.panel.flashAt = none ∧ s.panel.frameStart = s.now) ∧
  s.loading = true ∧ s.alarmOutput = true ∧ s.mselPin = false ∧ s.mclkPin = false

/-! ### Receptions -/

/-- The commands at which a reception ends by a gap and is judged: one for each kind of burst and office query. -/
def receptionCommands (line : List Bool) : List Instr :=
  [.receptionFailed line, .receiveClaim line, .receiveCall line, .receiveAnswer line, .receiveSettle line,
   .receiveDuty line, .receiveZone line, .receiveLog line, .receiveState line, .queryHistory line,
   .queryIncidents line, .queryRelease line, .queryCancel line]

/-- Every command that tells the station what it reads on the line. -/
def lineCommands (line : List Bool) : List Instr :=
  .startMarkHeard line :: .lineNoise line :: .receptionFailsByLength line :: receptionCommands line

/-- The receive assembler once it has read the bit times told, with what it reports (R116). -/
def State.assembler (s : State) (line : List Bool) : Reader × List Heard := (s.line.reader.resume s.now line.length).read line

/-- The station once its assembler has read the bit times told, before anything reported is taken. -/
def State.afterReading (s : State) (line : List Bool) : State :=
  { s with now := max s.now (s.assembler line).1.readTo, line := { s.line with reader := (s.assembler line).1 } }

/-- The station listens, and in the bit times told one reception ends, by its gap, as the valid burst `b` (R128, R130). -/
def Hears (s : State) (line : List Bool) (b : Burst) : Prop :=
  s.configured = true ∧ s.line.sending = none ∧ ∃ bytes, (s.assembler line).2 = [.ended bytes] ∧ judge bytes = .valid b

/-- The station once the reception of `b` has ended, before `b` reaches any block: the last sender is that of `b` (R121). -/
def State.afterReception (s : State) (line : List Bool) (b : Burst) : State :=
  { s.afterReading line with line := { (s.afterReading line).line with lastSender := some b.sender } }

/-- The header of `b` clears no claim: it is LIVE, or no stored claim is its sender's (R53). -/
def ClearsNone (s : State) (b : Burst) : Prop := b.dark = false ∨ ∀ r ∈ s.presence.roster, r.claimant ≠ some b.sender

/-- The roster once every claim of peer `k` is cleared (R53). -/
def clearClaims (k : Nat) (roster : List PagerRecord) : List PagerRecord :=
  roster.map fun r => if r.claimant = some k then { r with claim := 0, claimant := none } else r

/-! ### Calls -/

/-- The pagers a selection for a level adds to the call list of an incident, marked CALLED: those in use, of the level's rank, of its
scope, on duty and not in the list, in rising order, while the list holds fewer than 8 (R28). -/
def State.newlyCalled (s : State) (i : Incident) (lv : LevelPlan) : List Called :=
  (((List.range 64).filter fun p =>
    (s.pager p).inUse && (s.pager p).rank == lv.rank && (lv.scope == .plant || (s.pager p).group == some i.group) &&
    (s.pager p).duty && !(i.calls.any (·.pager == p))).take (8 - i.calls.length)).map fun p => ⟨p, false⟩

/-- `t` is the state once the SETTLE `x` of an incident of class `cls` has been offered in `s` (R13, R18, R19, R21). It is accepted when
the queue has room or evicts a burst for it, and in LINE HOLD, where it is discarded: the engine notes that as `noted` says, and this
station's own Relay Unit applies the SETTLE. Refused, it is owed, which is `kept`. -/
def SettleOffered (s : State) (x : SettleBody) (cls : Nat) (noted : State → State) (kept t : State) : Prop :=
  let burst : Queued := ⟨.settle x, lineClassFor cls, none, 0⟩
  let applied (u : State) : State := (noted u).applySettle s.ident.station x
  (s.line.hold = true → t = applied s) ∧
  (s.line.hold = false → s.line.queue.length < 8 → t = applied { s with line := s.line.place burst }) ∧
  (∀ out, s.line.hold = false → 8 ≤ s.line.queue.length → cls ≤ 2 → s.line.evictable = some out →
    t = applied (({ s with line := ({ s.line with queue := s.line.queue.dropLast } : Line).place burst } : State).reportLost out)) ∧
  (s.line.hold = false → 8 ≤ s.line.queue.length → 2 < cls ∨ s.line.evictable = none → t = kept)

/-- `t` is the state once the CALL of the incident `i` of entry `e` has been offered in `s` (R39, R40): it is discarded in LINE HOLD,
placed in a queue with room, placed in a full one for an evicted burst, and handed to this station's own Relay Unit each time; or it
is refused, and owed. -/
def CallOffered (s : State) (e : Nat) (i : Incident) (t : State) : Prop :=
  let c := s.buildCall i
  let burst : Queued := ⟨.call c, lineClassFor i.cls, none, 0⟩
  let entry (owed : Bool) : Engine := { s.engine with table := s.engine.table.set e (some { i with callOwed := owed }) }
  (s.line.hold = true → t = ({ s with engine := entry false } : State).takeCall s.ident.station c) ∧
  (s.line.hold = false → s.line.queue.length < 8 →
    t = ({ s with engine := entry false, line := s.line.place burst } : State).takeCall s.ident.station c) ∧
  (∀ out, s.line.hold = false → 8 ≤ s.line.queue.length → i.cls ≤ 2 → s.line.evictable = some out →
    t = (({ s with engine := entry false, line := ({ s.line with queue := s.line.queue.dropLast } : Line).place burst } : State).reportLost
      out).takeCall s.ident.station c) ∧
  (s.line.hold = false → 8 ≤ s.line.queue.length → 2 < i.cls ∨ s.line.evictable = none → t = { s with engine := entry true })

/-- `t` is the state once a CALL of the incident `i` of entry `e` has been issued in `s` (R27, R37, R42): it takes the next page
sequence, the refresh due mark is clear, and the CALL is offered. -/
def CallIssued (s : State) (e : Nat) (i : Incident) (t : State) : Prop :=
  let j : Incident := { i with
    refreshDue := false
    pageSeq := some (match i.pageSeq with | some q => (q + 1) % 256 | none => s.engine.seqCounter) }
  CallOffered { s with engine := { s.engine with
    table := s.engine.table.set e (some j)
    seqCounter := if i.pageSeq = none then (s.engine.seqCounter + 1) % 256 else s.engine.seqCounter } } e j t

/-- `t` is the state once the calling incident `i` of entry `e` has taken, in `s`, a claim change report for a pager of its call list
(R41, R42): 5 s after its last refresh or later, and before its first, it issues a refresh CALL at once; else the refresh is due. -/
def ClaimReported (s : State) (e : Nat) (i : Incident) (t : State) : Prop :=
  if ∀ T, i.lastRefresh = some T → T + 5000000 ≤ s.now then CallIssued s e { i with lastRefresh := some s.now } t
  else t = { s with engine := { s.engine with table := s.engine.table.set e (some { i with refreshDue := true }) } }

/-- Entry `e` holds the only incident in CALLING or UNANSWERED whose call list has pager `p` (R41). -/
def OnlyCaller (s : State) (p e : Nat) (i : Incident) : Prop :=
  s.incident? e = some i ∧ (i.state = .calling ∨ i.state = .unanswered) ∧ (∃ c ∈ i.calls, c.pager = p) ∧
  ∀ e' j, e' ≠ e → s.incident? e' = some j → j.state = .calling ∨ j.state = .unanswered → ∀ c ∈ j.calls, c.pager ≠ p

/-! ### Well-formed bursts (R137 to R144) -/

/-- A record whose fields are present as its tag says and fit their bytes (R163, R192). -/
def Record.wellFormed (r : Record) : Prop :=
  r.time < 4294967296 ∧ (r.serial.isSome = r.tag.hasSerial) ∧ (∀ n ∈ r.serial, n ≤ 255) ∧
  (r.tag.hasPager = false → r.pager = none) ∧ (∀ n ∈ r.pager, n ≤ 63) ∧
  (r.detail.isSome = r.tag.hasDetail) ∧ (∀ n ∈ r.detail, n ≤ 255)

def CallBody.wellFormed (c : CallBody) : Prop :=
  c.serial ≤ 255 ∧ c.seq ≤ 255 ∧ 1 ≤ c.cls ∧ c.cls ≤ 4 ∧ c.level ≤ 3 ∧ 1 ≤ c.repeats ∧ c.repeats ≤ 8 ∧ c.group ≤ 7 ∧
  c.msg ≤ 255 ∧ c.input ≤ 15 ∧ 1 ≤ c.pagers.length ∧ c.pagers.length ≤ 8 ∧ ∀ p ∈ c.pagers, p.pager ≤ 63

def Summary.wellFormed (m : Summary) : Prop :=
  m.serial ≤ 255 ∧ m.level ≤ 3 ∧ 1 ≤ m.cls ∧ m.cls ≤ 4 ∧ m.input ≤ 15 ∧ ∀ p ∈ m.responder, p ≤ 63

def Counters.wellFormed (c : Counters) : Prop :=
  c.checkFaults ≤ 65535 ∧ c.framingAborts ≤ 65535 ∧ c.collisions ≤ 65535 ∧ c.drops ≤ 65535 ∧ c.refusedPages ≤ 65535 ∧
  c.partialReturns ≤ 65535

def Query.wellFormed : Query → Prop
  | .history n => 1 ≤ n ∧ n ≤ 32
  | .incidents => True
  | .release => True
  | .cancel serial => serial ≤ 255

/-- A body that fits its kind (R139 to R144). -/
def Body.wellFormed : Body → Prop
  | .claim es => 1 ≤ es.length ∧ es.length ≤ 8 ∧ ∀ e ∈ es, e.pager ≤ 63 ∧ e.score ≤ 240
  | .call c => c.wellFormed
  | .answer k => k.owner ≤ 31 ∧ k.serial ≤ 255 ∧ k.pager ≤ 63
  | .settle b => b.serial ≤ 255 ∧ (∀ p ∈ b.responder, p ≤ 63) ∧ (b.kind = .taken → b.responder.isSome = true)
  | .duty es => 1 ≤ es.length ∧ es.length ≤ 8 ∧ ∀ e ∈ es, e.pager ≤ 63
  | .zone _ => True
  | .query q => q.wellFormed
  | .log rs => 1 ≤ rs.length ∧ rs.length ≤ 4 ∧ ∀ r ∈ rs, r.wellFormed
  | .state ms c => ms.length ≤ 16 ∧ (∀ m ∈ ms, m.wellFormed) ∧ c.wellFormed

/-- The body of a query whose count holds the coding `x` and whose serial holds `y`, where its kind does not read them (R143, R192). -/
def queryBytes (x y : Byte) : Query → List Byte
  | .history n => [1, byteOf n, y]
  | .incidents => [2, x, y]
  | .release => [3, x, y]
  | .cancel serial => [4, x, byteOf serial]

/-- A burst whose header fields lie in their ranges and whose body fits its kind (R137, R138). -/
def Burst.wellFormed (b : Burst) : Prop :=
  b.sender ≤ 31 ∧ b.openIncidents ≤ 16 ∧ (∀ a ∈ b.addressee, a ≤ 31) ∧ b.body.wellFormed

/-! ### Pages -/

/-- The entry is the same but for its place in the plan: the planner alone moves an entry between WAITING and PLACED (R96,
R97). -/
def PageEntry.upToPlan (e x : PageEntry) : Prop :=
  x = { e with state := x.state } ∧
  (x.state = e.state ∨ (e.state = .waiting ∨ e.state = .placed) ∧ (x.state = .waiting ∨ x.state = .placed))

/-- The same entry, or no entry, but for the plan. -/
def keptUpToPlan : Option PageEntry → Option PageEntry → Prop
  | none, none => True
  | some e, some x => e.upToPlan x
  | _, _ => False

end Sys2Proof.Machine
end

