-- ==== Sys2Proof/Certificates/Slice0/Obligations.lean ====
section
/-! DEFINITION. The statements for the provers, by chapter. `exec c s = .next t` is the completion of a command; a frame is written
`t = { s with … }`, which keeps every field it does not name. -/

section Statements

open Sys2Proof Sys2Proof.Machine

/-! ### The machine -/

/-- DESIGN CHOICE (notes/assumptions/1.md): the queue of waiting commands and that a step takes its front are the model's; 0-5 Events
and 95 What each step holds say that a step is whole. -/
def Obligations.StepRunsTheFrontCommand : Prop :=
  ∀ (s : State) (c : Instr) (rest : List Instr), s.pending = c :: rest → step s = exec c { s with pending := rest }

/-- DESIGN CHOICE (notes/assumptions/2.md): on an empty queue one microsecond passes, unless a timer is due. -/
def Obligations.IdleStepPassesOneMicrosecond : Prop :=
  ∀ s : State, s.pending = [] →
    ((∃ T ∈ s.timers, T ≤ s.now) → step s = .next s) ∧
    ((∀ T ∈ s.timers, s.now < T) → step s = .next { s with now := s.now + 1 })

/-! ### Start (chapter 11) -/

/-- R4, R46, R69, R93, R135, R148, R162, R169 (power-on), R171, R181, R182, R183. That reset finds RESTART released is a DESIGN
CHOICE (notes/assumptions/3.md). -/
def Obligations.ResetHoldsTheStartValues : Prop :=
  StartValues State.reset ∧ State.reset.now = 0 ∧ State.reset.log.records = [] ∧ State.reset.log.next = 0 ∧
  State.reset.log.mode = none ∧ State.reset.log.watermark = none ∧ State.reset.log.frozen = false ∧ State.reset.log.lost = 0 ∧
  State.reset.log.seconds = 0 ∧ State.reset.log.secondAt = 1000000 ∧ State.reset.log.high = false ∧
  State.reset.loader.load = .waiting 20000 ∧ State.reset.loader.afterRestart = false ∧ State.reset.pending = []

/-- R169, R183, R185, R191: power-on, from any state. The log's count of the records appended, 0, is the model's own (DEDUCED,
notes/assumptions/14.md); the next record is numbered 0. -/
def Obligations.PowerOnStartsEveryBlockAnew : Prop :=
  ∀ (restart : Bool) (s : State), ∃ t, exec (.powerOn restart) s = .next t ∧ StartValues t ∧ t.now = 0 ∧
    t.log = { records := [], appended := 0, mode := none, watermark := none, frozen := false, lost := 0, seconds := 0,
              secondAt := 1000000 } ∧
    t.log.next = 0 ∧
    t.loader = { load := if restart then .held else .waiting 20000, restartPin := restart, afterRestart := false } ∧
    t.pending = s.pending

/-- R169, R183, R185, R191: a restart sets every block anew and keeps the log and the clock; RESTART already asserted is no
restart (DESIGN CHOICE, notes/assumptions/6.md, for the second clause). -/
def Obligations.RestartKeepsTheLogAndClock : Prop :=
  ∀ s : State,
    (s.loader.restartPin = false → ∃ t, exec .restart s = .next t ∧ StartValues t ∧ t.now = s.now ∧ t.log = s.log ∧
      t.loader = { load := .held, restartPin := true, afterRestart := true } ∧ t.pending = s.pending) ∧
    (s.loader.restartPin = true → exec .restart s = .next s)

/-- R183, R184, R185, R186, R187: a held load begins at the release with its full wait of 20 ms; the wait ends in the read of 8.768
ms, with MSEL asserted; the image is what MDI shows at the rising edges of MCLK after the command and the address; four checks fail an
image, and a failed load leaves every block at its values. Choices of the model: notes/assumptions/2.md, 13.md. -/
def Obligations.LoadWaitsReadsAndChecks : Prop :=
  ∀ s : State,
    (s.loader.restartPin = true → s.loader.load = .held →
      exec .restartRelease s =
        .next { s with loader := { s.loader with restartPin := false, load := .waiting (s.now + 20000) } }) ∧
    (∀ T, s.loader.load = .waiting T → ∃ t, exec .loadWaitEnd s = .next t ∧
      t = { s with now := max s.now T, loader := { s.loader with load := .reading (T + 8768) } } ∧
      s.mselPin = false ∧ t.mselPin = true) ∧
    -- byte i of the image: the levels of MDI at the rising edges of its eight bits, the highest bit first
    (∀ (mdi : MdiLevels) (i : Nat), i < 271 → imgByte (imageRead mdi) i =
      ((List.range 8).map fun k => if mdi.toList.getD (4 * (24 + 8 * i + k) + 2) false then 2 ^ (7 - k) else 0).sum) ∧
    (∀ (T : Nat) (mdi : MdiLevels), s.loader.load = .reading T → ∃ t, exec (.loadReadEnd mdi) s = .next t ∧
      let img := imageRead mdi
      if imgByte img 0 * 256 + imgByte img 1 ≠ 271 ∨
          ((List.range 267).map fun i => imgByte img (i + 4)).sum % 65536 ≠ imgByte img 2 * 256 + imgByte img 3 ∨
          31 < imgByte img 4 ∨ 15 < imgByte img 5 then
        t = { s with now := max s.now T, loader := { s.loader with load := .unconfigured } }
      else t.loader = { s.loader with load := .configured })

/-- R188, R189, R190, R165, R170, R181: what a load that ends CONFIGURED hands to each block. Choices of the model:
notes/assumptions/2.md, 8.md, 13.md. -/
def Obligations.PassedLoadHandsTheImageOn : Prop :=
  ∀ (s : State) (T : Nat) (mdi : MdiLevels), s.loader.load = .reading T → imageFails (imageRead mdi) = false → Resting s →
    let img := imageRead mdi
    -- the mode of an input from its own record alone (R189)
    let alone (n : Nat) : InputMode :=
      if 7 < imgByte img (209 + 4 * n) then .unused
      else if imgByte img (207 + 4 * n) % 16 = 1 then .contact
      else if imgByte img (207 + 4 * n) % 16 = 2 ∧ n < 8 then .supervised
      else .unused
    ∃ t, exec (.loadReadEnd mdi) s = .next t ∧
    t.now = max s.now T ∧ t.ident = ⟨imgByte img 4, imgByte img 5⟩ ∧ t.pending = s.pending ∧ t.office = s.office ∧
    t.relay = s.relay ∧ t.alarmOutput = false ∧
    -- the level plans (R26, R188)
    (t.engine = { s.engine with plans := t.engine.plans } ∧ t.engine.plans.length = 4 ∧
      ∀ c, 1 ≤ c → c ≤ 4 → (t.levels c).length = max 1 (min (imgByte img (11 + 17 * (c - 1))) 4) ∧
        ∀ l, l < (t.levels c).length →
          let a := 12 + 17 * (c - 1) + 4 * l
          (t.levelPlan c l).rank = rankOf (imgByte img a) ∧
          (t.levelPlan c l).window = max 10 (min (imgByte img (a + 1) * 256 + imgByte img (a + 2)) 600) ∧
          (t.levelPlan c l).repeats = max 1 (min (imgByte img (a + 3) % 16) 8) ∧
          (t.levelPlan c l).scope = (if imgByte img (a + 3) / 64 % 2 = 1 then .plant else .group) ∧
          (t.levelPlan c l).flood = decide (128 ≤ imgByte img (a + 3))) ∧
    -- the roster (R46, R188, R189)
    (t.presence.roster.length = 64 ∧ t.presence.pointer = 0 ∧ t.presence.owedDuty = [] ∧
      t.presence.agingAt = some (t.now + 4000000) ∧ t.presence.claimAt = some (t.now + 5000000) ∧
      ∀ p < 64,
        let group := imgByte img (80 + 2 * p) / 16
        t.pager p =
          { inUse := decide (128 ≤ imgByte img (79 + 2 * p)) && decide (group ≤ 7)
            group := if group ≤ 7 then some group else none
            rank := rankOf (imgByte img (80 + 2 * p) % 16)
            duty := imgByte img (79 + 2 * p) % 2 == 1
            score := 0, claim := 0, claimant := none, announced := 0, belowOwed := false }) ∧
    -- the first slot 0 (R90, R92, R93)
    t.zone = { s.zone with
      onAir := some .a, slot := 0, slotStart := t.now, slotAt := some (t.now + 80000)
      beacon := some ⟨imgByte img 5, imgByte img 4, 0⟩
      handover := some ⟨beaconBytes ⟨imgByte img 5, imgByte img 4, 0⟩, 0⟩ } ∧
    -- the line counts its quiet from here (R135)
    t.line = { s.line with
      reader := { run := 0, frame := none, reception := none, quietFrom := t.now, readTo := t.now } } ∧
    -- the inputs (R146, R148, R188, R189)
    (t.scanner = { s.scanner with
        inputs := t.scanner.inputs, debounce := max 1 (min (imgByte img 8) 15), threshold := max 4 (min (imgByte img 9) 31)
        scanAt := some t.now, windowAt := some (t.now + 60000000) } ∧
      t.scanner.inputs.length = 16 ∧
      ∀ n < 16, t.input n = { inputStart with
        mode := if 8 ≤ n ∧ alone (n - 8) = .supervised then .unused else alone n, lockable := decide (128 ≤ imgByte img (207 + 4 * n))
        cls := max 1 (min (imgByte img (208 + 4 * n)) 4), group := imgByte img (209 + 4 * n)
        msg := imgByte img (210 + 4 * n) }) ∧
    -- the log (R165, R168, R170)
    (let l : Log := { s.log with mode := some (logModeOf (imgByte img 10)), watermark := some (max 16 (min (imgByte img 7) 128)) }
     t.log = if s.loader.afterRestart then l.append .restart none none none false else l) ∧
    -- the panel (R177, R181)
    (t.panel.commons = max 1 (min (imgByte img 6) 4) ∧ t.panel.frameStart = t.now ∧ t.panel.share = 0 ∧ t.panel.flash = true ∧
      t.panel.flashAt = some (t.now + 500000))

/-! ### The zone cycle (chapter 5) -/

/-- R81, R90, R91, R92, R98, R99, R100, R102: a slot boundary with no frame left in the port and nothing owed. At slot 16 half B goes on
the air and half A is filled; at slot 0 the cycle has ended, half A goes on the air and half B is filled. DEDUCED
(notes/assumptions/24.md): the mark `updated`, the model's own, is clear in an entry that goes on the air. Choices of the model:
notes/assumptions/2.md, 8.md. -/
def Obligations.SlotBoundaryStartsTheNextSlot : Prop :=
  ∀ (s : State) (T : Nat), s.zone.slotAt = some T → s.zone.slot < 32 → s.zone.handover = none →
    (∀ i ∈ s.incidents, i.settleOwed = none ∧ i.callOwed = false) → s.zone.zoneOwed = false →
    let airing (h : Half) (pages : List PageEntry) : State :=
      { s with relay := { s.relay with
        pages := pages.map fun e =>
          if e.state = .placed ∧ 1 + e.key.pager % 31 ∈ pageSlots h then { e with state := .onAir, updated := false }
          else e } }
    ∃ t, exec .slotBoundary s = .next t ∧
      t = { s with now := max s.now T, relay := { s.relay with pages := t.relay.pages }, zone := t.zone } ∧
      t.zone = { s.zone with
        slotStart := T, slotAt := some (T + 80000), slot := (s.zone.slot + 1) % 32
        cycle := if s.zone.slot = 31 then (s.zone.cycle + 1) % 256 else s.zone.cycle
        onAir := if s.zone.slot = 31 then some .a else if s.zone.slot = 15 then some .b else s.zone.onAir
        beacon := if s.zone.slot = 31 then some ⟨s.ident.channel, s.ident.station, (s.zone.cycle + 1) % 256⟩ else s.zone.beacon
        handover := t.zone.handover, plan := t.zone.plan } ∧
      t.zone.handover =
        (if t.zone.slot = 0 then t.zone.beacon.map fun b => ⟨beaconBytes b, 0⟩
         else if s.zone.dark then none
         else (t.zone.plan[t.zone.slot]?).join.map fun f => ⟨pageFrameBytes f, 0⟩) ∧
      (s.zone.slot ≠ 31 → s.zone.slot ≠ 15 → t.relay = s.relay ∧ t.zone.plan = s.zone.plan) ∧
      (s.zone.slot = 15 → t.relay = ((airing .b s.relay.pages).fillHalf .a).relay ∧
        t.zone.plan = ((airing .b s.relay.pages).fillHalf .a).zone.plan) ∧
      (s.zone.slot = 31 → t.relay = ((airing .a (s.relay.pages.filterMap cycleEndPage)).fillHalf .b).relay ∧
        t.zone.plan = ((airing .a (s.relay.pages.filterMap cycleEndPage)).fillHalf .b).zone.plan)

/-- R9, R13, R18, R19, R20, R21, R40, R75, R108: a slot boundary offers again what is owed: here one entry owes a SETTLE, or one entry
owes a CALL, or the zone owes a ZONE burst. A SETTLE that is accepted is applied by this station's own Relay Unit. The entry a closing
SETTLE frees is taken by the best pending raise. Choices of the model: notes/assumptions/8.md. -/
def Obligations.SlotBoundaryOffersTheOwedSettle : Prop :=
  ∀ (s : State) (T : Nat), s.zone.slotAt = some T → s.zone.slot < 32 → s.zone.slot ≠ 31 → s.zone.slot ≠ 15 → s.zone.handover = none →
    -- the station in its next slot, before anything owed is offered
    let next : State := { s with
      now := max s.now T
      zone := { s.zone with
        slotStart := T, slotAt := some (T + 80000), slot := s.zone.slot + 1
        handover := if s.zone.dark then none else (s.zone.plan[s.zone.slot + 1]?).join.map fun f => ⟨pageFrameBytes f, 0⟩ } }
    -- an owed SETTLE
    (∀ (e : Nat) (i : Incident), s.zone.zoneOwed = false → s.engine.table.length = 16 → s.incident? e = some i →
      (∀ e' j, e' ≠ e → s.incident? e' = some j → j.settleOwed = none) → (∀ j ∈ s.incidents, j.callOwed = false) →
      (i.state = .taken → i.settleOwed = some .taken → ∃ t, exec .slotBoundary s = .next t ∧
        SettleOffered next ⟨i.serial, .taken, i.responder⟩ i.cls
          (fun u => { u with engine := { u.engine with table := u.engine.table.set e (some { i with settleOwed := none }) } }) next t) ∧
      (∀ k, i.state = .closing → i.settleOwed = some k → (∀ m ∈ s.engine.pend, m = none) → ∃ t, exec .slotBoundary s = .next t ∧
        SettleOffered next ⟨i.serial, k, i.responder⟩ i.cls
          (fun u => { u with
            engine := { u.engine with table := u.engine.table.set e none }
            log := u.log.append (settleTag k) (some i.serial) i.responder none false }) next t) ∧
      -- a full table whose pending raise of input n and kind k ranks before every other that may open
      (∀ k n kind note, s.line.hold = false → s.line.queue.length < 8 → i.state = .closing → i.settleOwed = some k →
        s.engine.pend.length = 48 → n < 16 →
        (∀ e' < 16, s.incident? e' ≠ none) → s.mark n kind = some note →
        let open' (n : Nat) (kind : SourceKind) : Prop := ∃ e' j, e' ≠ e ∧ s.incident? e' = some j ∧ j.input = n ∧ j.kind = kind
        ¬ open' n kind →
        (∀ n' kind', n' < 16 → s.mark n' kind' ≠ none → ¬ open' n' kind' → (n', kind') ≠ (n, kind) →
          s.sourceClass n kind < s.sourceClass n' kind' ∨ (s.sourceClass n kind = s.sourceClass n' kind' ∧
            (n < n' ∨ n = n' ∧ sourceKindCode kind < sourceKindCode kind'))) →
        ∃ t j, exec .slotBoundary s = .next t ∧ t.incident? e = some j ∧ j.input = n ∧ j.kind = kind ∧ j.restored = note ∧
          (j.state = .calling ∨ j.state = .unanswered) ∧ t.engine.pend = s.engine.pend.set (3 * n + sourceKindCode kind) none ∧
          ∀ e' ≠ e, t.incident? e' = s.incident? e')) ∧
    -- an owed CALL
    (∀ (e : Nat) (i : Incident), s.zone.zoneOwed = false → s.engine.table.length = 16 → s.incident? e = some i → i.callOwed = true →
      (∀ j ∈ s.incidents, j.settleOwed = none) → (∀ e' j, e' ≠ e → s.incident? e' = some j → j.callOwed = false) →
      ∃ t, exec .slotBoundary s = .next t ∧ CallOffered next e i t) ∧
    -- an owed ZONE
    (s.zone.zoneOwed = true → (∀ i ∈ s.incidents, i.settleOwed = none ∧ i.callOwed = false) →
      (s.line.hold = true → exec .slotBoundary s = .next { next with zone := { next.zone with zoneOwed := false } }) ∧
      (s.line.hold = false → s.line.queue.length < 8 → exec .slotBoundary s = .next { next with
        zone := { next.zone with zoneOwed := false }, line := s.line.place ⟨.zone s.zone.dark, .class0, none, 0⟩ }) ∧
      (s.line.hold = false → 8 ≤ s.line.queue.length → s.line.evictable = none → exec .slotBoundary s = .next next))

/-- R81: what the end of a cycle makes of every page list entry; the plan then moves entries between WAITING, PLACED and ON AIR
alone. DEDUCED (notes/assumptions/24.md): the mark `updated`, the model's own, is clear in an entry that goes on the air. Choices of
the model: notes/assumptions/8.md. -/
def Obligations.CycleEndTreatsEveryPage : Prop :=
  (∀ e : PageEntry,
    (e.state = .onAir → 0 < e.repeats → cycleEndPage e = some { e with state := .waiting }) ∧
    (e.state = .onAir ∨ e.state = .waiting → e.kind = .page → e.repeats = 0 →
      cycleEndPage e = some { e with state := .spent, spentLeft := 8 }) ∧
    (e.state = .onAir ∨ e.state = .waiting → e.kind = .standdown → e.repeats = 0 → cycleEndPage e = none) ∧
    (e.state = .answered → cycleEndPage e = none) ∧
    (e.state = .spent → 1 < e.spentLeft → cycleEndPage e = some { e with spentLeft := e.spentLeft - 1 }) ∧
    (e.state = .spent → e.spentLeft = 1 → cycleEndPage e = none) ∧
    (e.state = .waiting → 0 < e.repeats → cycleEndPage e = some e) ∧
    (e.state = .placed → cycleEndPage e = some e)) ∧
  ∀ (s : State) (T : Nat), s.zone.slotAt = some T → s.zone.slot = 31 → s.zone.handover = none →
    (∀ i ∈ s.incidents, i.settleOwed = none ∧ i.callOwed = false) → s.zone.zoneOwed = false → (s.relay.pages.map (·.key)).Nodup →
    ∃ t, exec .slotBoundary s = .next t ∧
      List.Forall₂ (fun e x : PageEntry =>
          (x = { e with state := x.state } ∧ (x.state = e.state ∨ (e.state = .waiting ∧ x.state = .placed))) ∨
          (e.state = .placed ∧ x = { e with state := .onAir, updated := false }))
        (s.relay.pages.filterMap cycleEndPage) t.relay.pages

/-- R92, R94, R95: filling a half empties each of its page slots and puts the highest-ranked candidate into it. -/
def Obligations.FilledHalfHoldsTheBestCandidates : Prop :=
  (∀ (a b : PageEntry) (i j : Nat), outranks a i b j = true ↔
    a.cls < b.cls ∨ (a.cls = b.cls ∧ (a.kind = .standdown ∧ b.kind = .page ∨ a.kind = b.kind ∧ i < j))) ∧
  ∀ (s : State) (h : Half) (slot : Nat), (s.relay.pages.map (·.key)).Nodup → s.zone.plan.length = 32 → slot ∈ pageSlots h →
    let mayTake (e : PageEntry) : Prop :=
      s.zone.dark = false ∧ 1 + e.key.pager % 31 = slot ∧ e.state = .waiting ∧ 0 < e.repeats
    ((∀ e ∈ s.relay.pages, ¬ mayTake e) → (s.fillHalf h).zone.plan[slot]? = some none) ∧
    (∀ e i, s.relay.pages[i]? = some e → mayTake e →
      (∀ e' j, s.relay.pages[j]? = some e' → mayTake e' → j ≠ i → outranks e i e' j = true) →
      (s.fillHalf h).zone.plan[slot]? = some (some
        { kind := e.kind, channel := s.ident.channel, station := s.ident.station, key := e.key, msg := e.msg, cls := e.cls,
          level := e.level, seq := e.seq }) ∧
      (s.fillHalf h).relay.find e.key = some { e with state := .placed })

/-- R72, R100, R101, R103, R104, R107: the modem takes a byte. The last byte makes the slot on time, and the count of its entry is
lowered unless a newer CALL has updated the entry on the air; the second on-time beacon of a DARK zone is stated apart. Choices of the
model: notes/assumptions/20.md, 24.md. -/
def Obligations.OutTakenHandsTheFrameByteByByte : Prop :=
  ∀ s : State, (s.zone.handover = none → exec .outTaken s = .next s) ∧
    ∀ h : Handover, s.zone.handover = some h →
      (h.taken + 1 < h.bytes.length →
        exec .outTaken s = .next { s with zone := { s.zone with handover := some { h with taken := h.taken + 1 } } }) ∧
      (h.bytes.length ≤ h.taken + 1 → s.zone.dark = false → s.zone.slot = 0 →
        exec .outTaken s = .next { s with zone := { s.zone with handover := none, lateCount := 0 } }) ∧
      (∀ f, h.bytes.length ≤ h.taken + 1 → s.zone.dark = false → s.zone.slot ≠ 0 →
        s.zone.plan[s.zone.slot]? = some (some f) →
        exec .outTaken s = .next { s with
          zone := { s.zone with handover := none, lateCount := 0 }
          relay := { s.relay with pages := s.relay.pages.map fun e =>
            if e.key = f.key ∧ e.state = .onAir ∧ e.kind = f.kind ∧ e.seq = f.seq ∧ e.updated = false then
              { e with repeats := e.repeats - 1 }
            else e } }) ∧
      (h.bytes.length ≤ h.taken + 1 → s.zone.dark = true → s.zone.slot = 0 → s.zone.beaconCount = 0 →
        exec .outTaken s = .next { s with zone := { s.zone with handover := none, beaconCount := 1 } })

/-- R107, R108: the second on-time beacon in a row returns a DARK zone to LIVE. -/
def Obligations.SecondOnTimeBeaconReturnsTheZoneToLive : Prop :=
  ∀ (s : State) (h : Handover), s.zone.handover = some h → h.bytes.length ≤ h.taken + 1 → s.zone.dark = true → s.zone.slot = 0 →
    s.zone.beaconCount ≠ 0 →
    ∃ t u : State, exec .outTaken s = .next t ∧
      t = { s with relay := t.relay, zone := t.zone, line := t.line, log := t.log, office := t.office } ∧
      t.zone.dark = false ∧ t.zone.lateCount = 0 ∧ t.zone.beaconCount = 0 ∧ t.zone.handover = none ∧
      t.log = s.log.append .zoneLive none none none false ∧
      -- half B is filled at once, with the zone LIVE
      (u.relay = s.relay ∧ u.ident = s.ident ∧ u.zone.dark = false ∧ u.zone.plan = s.zone.plan ∧
        t.relay = (u.fillHalf .b).relay ∧ t.zone.plan = (u.fillHalf .b).zone.plan) ∧
      -- a ZONE burst carrying LIVE is offered
      (s.line.hold = false → s.line.queue.length < 8 →
        t.line = s.line.place ⟨.zone false, .class0, none, 0⟩ ∧ t.zone.zoneOwed = false ∧ t.office = s.office) ∧
      (s.line.hold = false → 8 ≤ s.line.queue.length → s.line.evictable = none → t.line = s.line ∧ t.zone.zoneOwed = true)

/-- R101, R104, R107: a deadline missed makes the slot late; the third late slot of a LIVE zone is stated apart. A first byte taken
in time, or no frame in the port, leaves the deadline without effect. Choices of the model: notes/assumptions/2.md, 6.md. -/
def Obligations.MissedDeadlineMakesTheSlotLate : Prop :=
  ∀ s : State,
    (s.zone.handover = none → exec .firstByteDeadline s = .next s ∧ exec .wholeFrameDeadline s = .next s) ∧
    ∀ h : Handover, s.zone.handover = some h →
      let late (T : Nat) : Host.Outcome State Fault Refusal :=
        .next { s with
          now := max s.now (s.zone.slotStart + T)
          zone := if s.zone.dark then { s.zone with handover := none, beaconCount := 0 }
            else { s.zone with handover := none, lateCount := s.zone.lateCount + 1 } }
      (h.taken ≠ 0 → exec .firstByteDeadline s = .next s) ∧
      (h.taken = 0 → s.zone.dark = true ∨ s.zone.lateCount < 2 → exec .firstByteDeadline s = late 10000) ∧
      (s.zone.dark = true ∨ s.zone.lateCount < 2 → exec .wholeFrameDeadline s = late 70000)

/-- R63, R80, R105, R108: the third late slot in a row darkens the zone. Choices of the model: notes/assumptions/2.md. -/
def Obligations.ThirdLateSlotDarkensTheZone : Prop :=
  ∀ (s : State) (h : Handover) (c : Instr) (T : Nat), s.zone.handover = some h → s.zone.dark = false → s.zone.lateCount = 2 →
    s.zone.plan.length = 32 → (c = .firstByteDeadline ∧ h.taken = 0 ∧ T = 10000) ∨ (c = .wholeFrameDeadline ∧ T = 70000) →
    ∃ t, exec c s = .next t ∧
      t = { s with now := max s.now (s.zone.slotStart + T), presence := t.presence, relay := t.relay, zone := t.zone,
                   line := t.line, log := t.log, office := t.office } ∧
      t.zone = { s.zone with dark := true, lateCount := 0, beaconCount := 0, handover := none, zoneOwed := t.zone.zoneOwed,
                             plan := t.zone.plan } ∧
      t.log = s.log.append .zoneDark none none none false ∧
      t.presence = { s.presence with
        roster := s.presence.roster.map fun r => { r with score := 0, announced := 0, belowOwed := false } } ∧
      t.relay = { s.relay with pages := s.relay.pages.map fun e =>
        if e.state = .placed ∨ e.state = .onAir then { e with state := .waiting } else e } ∧
      (∀ slot, (s.zone.onAir = some .a ∧ slot ∈ pageSlots .b) ∨ (s.zone.onAir = some .b ∧ slot ∈ pageSlots .a) →
        t.zone.plan[slot]? = some none) ∧
      (∀ slot, (s.zone.onAir = some .a ∧ slot ∈ pageSlots .a) ∨ (s.zone.onAir = some .b ∧ slot ∈ pageSlots .b) →
        t.zone.plan[slot]? = s.zone.plan[slot]?) ∧
      (s.line.hold = false → s.line.queue.length < 8 →
        t.line = s.line.place ⟨.zone true, .class0, none, 0⟩ ∧ t.zone.zoneOwed = false ∧ t.office = s.office) ∧
      (s.line.hold = false → 8 ≤ s.line.queue.length → s.line.evictable = none → t.line = s.line ∧ t.zone.zoneOwed = true)

/-- R93, R109, R110, R111: a strobe that is latched and completes no word, a refused strobe, a strobe outside CONFIGURED; the fall
of IN-FULL; and the gap timer, which ends a word or RESYNC. Choices of the model: notes/assumptions/2.md, 20.md. -/
def Obligations.StrobesAndTimersDriveThePort : Prop :=
  ∀ (s : State) (b : Byte),
    (s.configured = false → exec (.inStrobe b) s = .next s) ∧
    (s.configured = true → s.outFullPin = false → s.inFullPin = false →
      let latched (a : Assembler) : Host.Outcome State Fault Refusal :=
        .next { s with zone := { s.zone with
          inFullUntil := some (s.now + 50), assembler := a, gapAt := some (s.now + 5000) } }
      (s.zone.assembler = .idle → exec (.inStrobe b) s = latched (.assembling [b])) ∧
      (∀ x, s.zone.assembler = .assembling [x] → exec (.inStrobe b) s = latched (.assembling [x, b])) ∧
      (∀ x y, s.zone.assembler = .assembling [x, y] → exec (.inStrobe b) s = latched (.assembling [x, y, b])) ∧
      (s.zone.assembler = .resync → exec (.inStrobe b) s = latched .resync)) ∧
    (s.configured = true → s.outFullPin = true ∨ s.inFullPin = true →
      exec (.inStrobe b) s = .next { s with zone := { s.zone with
        assembler := .resync, gapAt := some (s.now + 5000)
        partialReturns := if s.zone.assembler = .resync then s.zone.partialReturns
          else min (s.zone.partialReturns + 1) 65535 } }) ∧
    (∀ T, s.zone.inFullUntil = some T →
      exec .inFullEnd s = .next { s with now := max s.now T, zone := { s.zone with inFullUntil := none } }) ∧
    (∀ T, s.zone.gapAt = some T →
      exec .gapTimerExpiry s = .next { s with now := max s.now T, zone := { s.zone with
        assembler := .idle, gapAt := none
        partialReturns := match s.zone.assembler with
          | .assembling _ => min (s.zone.partialReturns + 1) 65535
          | _ => s.zone.partialReturns } })

/-- R47, R48, R60, R61, R64, R112, R113, R193: the fourth byte completes a return word; it is a hearing first, and is then routed by its
kind. A SIGNON or SIGNOFF joins the owed duty list, which is offered at once. Choices of the model: notes/assumptions/2.md, 17.md. -/
def Obligations.ReturnWordIsHeardThenRouted : Prop :=
  ∀ (s : State) (x y z b : Byte), s.configured = true → s.outFullPin = false → s.inFullPin = false →
    s.zone.assembler = .assembling [x, y, z] →
    let base : State := { s with zone := { s.zone with inFullUntil := some (s.now + 50), assembler := .idle, gapAt := none } }
    let p := x.toNat % 128
    let grade := y.toNat % 16
    let heard : State :=
      if s.zone.dark then base
      else { base with presence := { s.presence with roster := s.presence.roster.modify p fun r =>
        { r with
          score := (3 * r.score + 16 * grade + 2) / 4
          belowOwed := r.belowOwed || decide (24 ≤ r.score ∧ (3 * r.score + 16 * grade + 2) / 4 < 24 ∧ 24 ≤ r.announced) } } }
    (128 ≤ x.toNat ∨ 6 ≤ y.toNat / 16 ∨ 64 ≤ p → exec (.inStrobe b) s = .next base) ∧
    (x.toNat < 64 → y.toNat / 16 = 0 → exec (.inStrobe b) s = .next heard) ∧
    (x.toNat < 64 → (y.toNat / 16 = 4 ∨ y.toNat / 16 = 5) →
      let d : DutyEntry := ⟨p, y.toNat / 16 == 4⟩
      let list := s.presence.owedDuty
      let owed : List DutyEntry :=
        if list.any (·.pager == p) then list.map fun x => if x.pager = p then d else x
        else if list.length < 8 then list ++ [d]
        else list.drop 1 ++ [d]
      let signed (left : List DutyEntry) (queue : List Queued) : Host.Outcome State Fault Refusal := .next { heard with
        presence := { heard.presence with roster := heard.presence.roster.modify p (fun r => { r with duty := d.on }), owedDuty := left }
        line := { s.line with queue := queue } }
      exec (.inStrobe b) s =
        if s.line.hold then signed [] s.line.queue
        else if s.line.queue.length < 8 then signed [] (s.line.queue ++ [⟨.duty owed, .class1, none, 0⟩])
        else signed owed s.line.queue) ∧
    (∀ kind, x.toNat < 64 → y.toNat / 16 = answerKindCode kind →
      exec (.inStrobe b) s = .next (
        if z.toNat = s.ident.station ∧ z.toNat ≤ 31 then heard.takeAnswer ⟨z.toNat, b.toNat, p, kind⟩
        else if z.toNat ≤ 31 then heard.answerForOther ⟨z.toNat, b.toNat, p, kind⟩
        else heard))

/-- R83, R84, R85, R86: what the Relay Unit makes of an answer for another owner. DEDUCED (notes/assumptions/24.md): the mark `updated`,
the model's own, is clear in a new entry. Choices of the model: notes/assumptions/2.md, 18.md. -/
def Obligations.AnswerForAnotherOwnerIsRelayedOrAnswered : Prop :=
  ∀ (s : State) (k : AnswerKey), (s.relay.pages.map (·.key)).Nodup →
    let note := settleNoteOf k.owner k.serial s.relay.pages
    let pk : PageKey := ⟨k.owner, k.serial, k.pager⟩
    -- the answer list with a new entry of 3 sends, and an ANSWER burst, in a queue with room
    let relayed : State := { s with
      relay := { s.relay with answers :=
        (if s.relay.answers.length < 4 then s.relay.answers else s.relay.answers.drop 1) ++ [⟨k, 3, s.now + 1000000⟩] }
      line := s.line.place ⟨.answer k, .class0, some k.owner, 0⟩ }
    -- a duplicate changes nothing, and an answer a settled incident does not want is discarded
    (note = none → s.relay.answers.any (·.key == k) = true → s.answerForOther k = s) ∧
    (∀ r, note = some (.taken r) → k.pager = r → k.kind ≠ .done → s.answerForOther k = s) ∧
    (∀ n, note = some n → n ≠ .taken k.pager → k.kind ≠ .accept → s.answerForOther k = s) ∧
    -- an answer with no entry here is relayed
    (note = none → s.relay.answers.any (·.key == k) = false → s.relay.find pk = none → s.line.hold = false → s.line.queue.length < 8 →
      s.answerForOther k = relayed) ∧
    -- the DONE of the responder of a settled incident is relayed, with its entry left as it is
    (note = some (.taken k.pager) → k.kind = .done →
      (s.relay.answers.any (·.key == k) = true → s.answerForOther k = s) ∧
      (s.relay.answers.any (·.key == k) = false → s.line.hold = false → s.line.queue.length < 8 → s.answerForOther k = relayed)) ∧
    -- a PAGE entry of the answering pager becomes ANSWERED
    (∀ e, note = none → s.relay.answers.any (·.key == k) = false → s.relay.find pk = some e → e.kind = .page →
      ∃ x, (s.answerForOther k).relay.find pk = some x ∧ x = { e with state := .answered, repeats := x.repeats }) ∧
    -- a late ACCEPT is stood down here and not relayed
    (∀ n e, note = some n → n ≠ .taken k.pager → k.kind = .accept → s.relay.find pk = some e →
      (∃ x, (s.answerForOther k).relay.find pk = some x ∧
        x = { e with kind := .standdown, repeats := 1, spentLeft := 0, note := some n, state := x.state } ∧
        (if e.state = .onAir then x.state = .onAir else x.state = .waiting ∨ x.state = .placed)) ∧
      (s.answerForOther k).relay.answers = s.relay.answers ∧ (s.answerForOther k).line = s.line) ∧
    -- one with no entry here makes a stand-down from the incident's entry of the latest arrival, in a list with room
    (∀ n front e back, note = some n → n ≠ .taken k.pager → k.kind = .accept → s.relay.find pk = none → s.relay.pages.length < 24 →
      s.relay.pages = front ++ e :: back → e.key.owner = k.owner → e.key.serial = k.serial →
      (∀ x ∈ back, ¬ (x.key.owner = k.owner ∧ x.key.serial = k.serial)) →
      (∃ x, (s.answerForOther k).relay.find pk = some x ∧
        x = { e with key := pk, kind := .standdown, repeats := 1, spentLeft := 0, state := x.state, updated := false } ∧
        (x.state = .waiting ∨ x.state = .placed)) ∧
      (s.answerForOther k).relay.answers = s.relay.answers ∧ (s.answerForOther k).line = s.line)

/-! ### Presence (chapter 3) -/

/-- R41, R49, R50, R54: an aging step lowers every score and claim to the whole part of seven eighths; with no claimant lost nothing
else changes, and one claimant lost is reported. Choices of the model: notes/assumptions/2.md, 17.md. -/
def Obligations.AgingLowersEveryScoreAndClaim : Prop :=
  ∀ (s : State) (T : Nat), s.presence.agingAt = some T →
    let presence : Presence := { s.presence with
      agingAt := some (T + 4000000)
      roster := s.presence.roster.map fun r =>
        { r with
          score := 7 * r.score / 8
          claim := 7 * r.claim / 8
          claimant := if 7 * r.claim / 8 = 0 then none else r.claimant
          belowOwed := r.belowOwed || decide (24 ≤ r.score ∧ 7 * r.score / 8 < 24 ∧ 24 ≤ r.announced) } }
    let aged : State := { s with now := max s.now T, presence := presence }
    ∃ t, exec .agingTimerExpiry s = .next t ∧
      t = { aged with engine := t.engine, relay := t.relay, zone := t.zone, line := t.line, office := t.office } ∧
      ((∀ r ∈ s.presence.roster, r.claimant.isSome = true → 2 ≤ r.claim) → t = aged) ∧
      -- the claimant of pager p alone is lost, and one incident that calls has p in its call list
      (∀ p e i, p < s.presence.roster.length → (s.pager p).claimant.isSome = true → (s.pager p).claim < 2 →
        (∀ p' < s.presence.roster.length, p' ≠ p → (s.pager p').claimant.isSome = true → 2 ≤ (s.pager p').claim) →
        s.engine.table.length = 16 → OnlyCaller s p e i → ClaimReported aged e i t)

/-- R57, R58, R61: the claim timer offers the owed duty list, then in LIVE a CLAIM of the walk. Choices of the model:
notes/assumptions/2.md. -/
def Obligations.ClaimTimerOffersDutyThenClaim : Prop :=
  ∀ (s : State) (T : Nat), s.presence.claimAt = some T →
    let entries : List ClaimEntry :=
      ((((List.range 64).map fun i => (s.presence.pointer + i) % 64).filter fun p =>
        decide (24 ≤ (s.pager p).score) || (s.pager p).belowOwed).take 8).map fun p => ⟨p, (s.pager p).score⟩
    let timed : State := { s with now := max s.now T, presence := { s.presence with claimAt := some (T + 5000000) } }
    (s.presence.owedDuty = [] → s.zone.dark = true ∨ entries = [] → exec .claimTimerExpiry s = .next timed) ∧
    (s.presence.owedDuty = [] → s.zone.dark = false → s.line.hold = false → 8 ≤ s.line.queue.length →
      exec .claimTimerExpiry s = .next timed) ∧
    (∀ last, s.presence.owedDuty = [] → s.zone.dark = false → s.line.hold = true ∨ s.line.queue.length < 8 →
      s.presence.roster.length = 64 → entries.getLast? = some last →
      ∃ t, exec .claimTimerExpiry s = .next t ∧
        t = { timed with presence := t.presence, line := { s.line with
          queue := if s.line.hold then s.line.queue else s.line.queue ++ [⟨.claim entries, .class1, none, 0⟩] } } ∧
        t.presence = { timed.presence with roster := t.presence.roster, pointer := (last.pager + 1) % 64 } ∧
        t.presence.roster.length = 64 ∧
        ∀ p < 64, t.pager p = if entries.any (·.pager == p) then { s.pager p with announced := (s.pager p).score, belowOwed := false }
          else s.pager p) ∧
    -- an owed duty list is offered first: refused, it is kept, and the queue has no room for a CLAIM either; accepted, it is empty, and
    -- the CLAIM follows as with none owed
    (s.presence.owedDuty ≠ [] → s.line.hold = false → 8 ≤ s.line.queue.length → exec .claimTimerExpiry s = .next timed) ∧
    (s.presence.owedDuty ≠ [] → s.line.hold = true ∨ s.line.queue.length < 8 →
      let offered : State := { s with
        presence := { s.presence with owedDuty := [] }
        line := { s.line with
          queue := if s.line.hold then s.line.queue else s.line.queue ++ [⟨.duty s.presence.owedDuty, .class1, none, 0⟩] } }
      exec .claimTimerExpiry s = exec .claimTimerExpiry offered)

/-! ### Field inputs (chapter 8) -/

/-- R147, R149, R150, R151, R152, R153, R158, R160: a scan debounces LOCKOUT and every input by the same rule, counts accepted changes
and enters CHATTER at the threshold; the one input that changes makes its reports, CHATTER first, and the release of LOCKOUT reports
what it held back. Choices of the model: notes/assumptions/2.md. -/
def Obligations.ScanDebouncesEveryInput : Prop :=
  -- the bands by mode (R147)
  ((∀ b, readBand .unused b = none) ∧
    ([0, 1, 2, 3].map (readBand .contact) = [some .normal, some .normal, some .active, some .active]) ∧
    ([0, 1, 2, 3].map (readBand .supervised) = [some .short, some .normal, some .active, some .opened])) ∧
  ∀ (s : State) (T : Nat) (lock : Bool) (bands : Vector Band 16), s.scanner.scanAt = some T → s.scanner.inputs.length = 16 →
    let run (candidate : Option Condition) (n : Nat) (raw : Condition) : Nat := if candidate = some raw then n + 1 else 1
    let after (r : InputRecord) (band : Band) : InputRecord :=
      match readBand r.mode band with
      | none => r
      | some raw =>
        if raw = r.condition then { r with candidate := none, run := 0 }
        else if run r.candidate r.run raw < s.scanner.debounce then
          { r with candidate := some raw, run := run r.candidate r.run raw }
        else
          let count := min (r.chatterCount + 1) 31
          let enters := !r.inChatter && decide (s.scanner.threshold ≤ count)
          { r with
            candidate := none, run := 0, condition := raw
            holdAlarm := r.holdAlarm && raw == .active
            holdWiring := r.holdWiring && (raw == .short || raw == .opened)
            inChatter := r.inChatter || enters
            chatterCount := if enters then 0 else count }
    let lockRun := if s.scanner.lockCandidate = some lock then s.scanner.lockRun + 1 else 1
    let released : Prop := lock = false ∧ s.scanner.lockout = true ∧ s.scanner.debounce ≤ lockRun
    let changes (n : Nat) : Prop := ∃ h : n < 16, (after (s.input n) bands[n]).condition ≠ (s.input n).condition
    ∃ t, exec (.scan lock bands) s = .next t ∧
      t = { s with now := max s.now T, engine := t.engine, relay := t.relay, zone := t.zone, line := t.line,
                   scanner := t.scanner, log := t.log, office := t.office } ∧
      t.scanner = { s.scanner with
        inputs := t.scanner.inputs, scanAt := some (T + 20000)
        lockout := if s.scanner.lockout ≠ lock ∧ s.scanner.debounce ≤ lockRun then lock else s.scanner.lockout
        lockCandidate := if s.scanner.lockout ≠ lock ∧ lockRun < s.scanner.debounce then some lock else none
        lockRun := if s.scanner.lockout ≠ lock ∧ lockRun < s.scanner.debounce then lockRun else 0 } ∧
      t.scanner.inputs.length = 16 ∧
      (∀ n (h : n < 16), t.input n = after (s.input n) bands[n]) ∧
      -- the station while it makes the reports of an input, the first `m` of them read
      let during (m : Nat) : State := { s with
        now := max s.now T
        scanner := { t.scanner with inputs := (List.range 16).map fun n => if n < m then t.input n else s.input n } }
      ((∀ n, ¬ changes n) → ¬ released → t = { s with now := max s.now T, scanner := t.scanner }) ∧
      (∀ n, changes n → (∀ n', changes n' → n' = n) → ¬ released →
        let old := (s.input n).condition
        let new := (t.input n).condition
        let u := during (n + 1)
        let chattered := if (t.input n).inChatter ∧ ¬ (s.input n).inChatter then u.reportRaise n .chatter else u
        t = { (chattered.reportWiring n old new).reportAlarm n old new with scanner := t.scanner }) ∧
      -- the release of LOCKOUT, at a scan that changes no input
      ((∀ n, ¬ changes n) → released →
        let stands (n : Nat) (k : SourceKind) : Prop := n < 16 ∧ (s.input n).lockable = true ∧ (s.input n).mode ≠ .unused ∧
          match k with
          | .chatter => (s.input n).inChatter = true
          | .wiring => (s.input n).inChatter = false ∧ ((s.input n).condition = .short ∨ (s.input n).condition = .opened)
          | .alarm => (s.input n).inChatter = false ∧ (s.input n).condition = .active
        ((∀ n k, ¬ stands n k) → t = { s with now := max s.now T, scanner := t.scanner }) ∧
        (∀ n k, stands n k → (∀ n' k', stands n' k' → n' = n) →
          ((∃ e i, s.incident? e = some i ∧ i.input = n ∧ i.kind = k ∧ i.state ≠ .closing ∧
              ∀ e' j, s.incident? e' = some j → j.input = n → j.kind = k → e' = e) →
            t = { s with now := max s.now T, scanner := t.scanner }) ∧
          ((∀ i ∈ s.incidents, i.input = n → i.kind = k → i.state = .closing) →
            t = { (during 0).reportRaise n k with scanner := t.scanner })))

/-- R152, R154, R155: a chatter window ends; a used input in CHATTER whose counter is 0 leaves it, reports its CHATTER restore and then
its present condition; every counter starts anew. Choices of the model: notes/assumptions/2.md. -/
def Obligations.WindowEndLetsQuietInputsLeaveChatter : Prop :=
  ∀ (s : State) (T : Nat), s.scanner.windowAt = some T → s.scanner.inputs.length = 16 →
    let leaves (r : InputRecord) : Bool := r.mode != .unused && r.inChatter && r.chatterCount == 0
    ∃ t, exec .chatterWindowEnd s = .next t ∧
      t = { s with now := max s.now T, engine := t.engine, relay := t.relay, zone := t.zone, line := t.line,
                   scanner := t.scanner, log := t.log, office := t.office } ∧
      t.scanner = { s.scanner with
        windowAt := some (T + 60000000)
        inputs := s.scanner.inputs.map fun r =>
          { r with
            chatterCount := 0
            inChatter := r.inChatter && !leaves r
            holdChatter := r.holdChatter && !leaves r } } ∧
      ((∀ r ∈ s.scanner.inputs, leaves r = false) → t = { s with now := max s.now T, scanner := t.scanner }) ∧
      -- one input leaves
      (∀ n < 16, leaves (s.input n) = true → (∀ n' < 16, n' ≠ n → leaves (s.input n') = false) →
        let r := s.input n
        let u : State := { s with
          now := max s.now T
          scanner := { s.scanner with
            windowAt := some (T + 60000000)
            inputs := s.scanner.inputs.modify n fun r => { r with inChatter := false, holdChatter := false } } }
        let quiet := u.reportRestore n .chatter
        let wired :=
          if r.mode ≠ .supervised then quiet
          else if r.condition = .short ∨ r.condition = .opened then quiet.reportRaise n .wiring
          else quiet.reportRestore n .wiring
        t = { (if r.condition = .active then wired.reportRaise n .alarm else wired.reportRestore n .alarm) with scanner := t.scanner })

/-- R150, R152, R157: the reports of an accepted change, and what suppresses each. -/
def Obligations.ReportsOfAChangeAreTested : Prop :=
  ∀ (s : State) (n : Nat),
    let r := s.input n
    let barred := r.inChatter || (r.lockable && s.scanner.lockout)
    (∀ (old new : Condition), old ≠ .short → old ≠ .opened → new = .short ∨ new = .opened →
      s.reportWiring n old new = if barred || r.holdWiring then s else s.raise n .wiring) ∧
    (∀ (old new : Condition), new ≠ .short → new ≠ .opened → old = .short ∨ old = .opened →
      s.reportWiring n old new = if r.inChatter then s else s.restore n .wiring) ∧
    (∀ old new : Condition, ((old = .short ∨ old = .opened) ↔ (new = .short ∨ new = .opened)) → s.reportWiring n old new = s) ∧
    (∀ old : Condition, old ≠ .active → s.reportAlarm n old .active = if barred || r.holdAlarm then s else s.raise n .alarm) ∧
    (∀ new : Condition, new ≠ .active → s.reportAlarm n .active new = if r.inChatter then s else s.restore n .alarm) ∧
    (∀ old new : Condition, (old = .active ↔ new = .active) → s.reportAlarm n old new = s) ∧
    (s.reportRaise n .alarm = if barred || r.holdAlarm then s else s.raise n .alarm) ∧
    (s.reportRaise n .wiring = if barred || r.holdWiring then s else s.raise n .wiring) ∧
    (s.reportRaise n .chatter =
      if (r.lockable && s.scanner.lockout) || r.holdChatter then s else s.raise n .chatter) ∧
    (s.reportRestore n .alarm = if r.inChatter then s else s.restore n .alarm) ∧
    (s.reportRestore n .wiring = if r.inChatter then s else s.restore n .wiring) ∧
    s.reportRestore n .chatter = s.restore n .chatter

/-! ### Incidents (chapters 1 and 2) -/

/-- R3, R5, R6, R7, R8, R28, R29: what a raise does, by the open incident and the pending-raise mark of its source. An incident that opens
makes its RAISED record and enters level 0; an empty level 0 is stepped over as at a window expiry. Choices of the model:
notes/assumptions/22.md. -/
def Obligations.RaiseOpensRetripsOrPends : Prop :=
  ∀ (s : State) (n : Nat) (k : SourceKind), s.engine.table.length = 16 → s.engine.pend.length = 48 → n < 16 →
    let mark (m : Bool) : Engine := { s.engine with pend := s.engine.pend.set (3 * n + sourceKindCode k) (some m) }
    let overflow : Log := s.log.append .overflow none none (some n) false
    (∀ e i, s.incident? e = some i → i.input = n → i.kind = k → (∀ e' j, s.incident? e' = some j → j.input = n → j.kind = k → e' = e) →
      (i.state ≠ .closing → s.raise n k = s.setEntry e (some { i with restored := false })) ∧
      (i.state = .closing → s.mark n k = none → s.raise n k = { s with engine := mark false, log := overflow }) ∧
      (∀ m, i.state = .closing → s.mark n k = some m → s.raise n k = { s with engine := mark false })) ∧
    ((∀ i ∈ s.incidents, i.input = n → i.kind ≠ k) →
      (∀ m, s.mark n k = some m → s.raise n k = { s with engine := mark false }) ∧
      (s.mark n k = none → (∀ e < 16, s.incident? e ≠ none) → s.raise n k = { s with engine := mark false, log := overflow }) ∧
      (∀ e : Fin 16, s.mark n k = none → s.incident? e = none → (∀ e' < e.val, s.incident? e' ≠ none) →
        ∃ i, (s.raise n k).engine.table = s.engine.table.set e (some i) ∧
          i.input = n ∧ i.kind = k ∧ i.group = (s.input n).group ∧
          i.cls = (if k = .alarm then (s.input n).cls else 3) ∧
          i.msg = (if k = .alarm then (s.input n).msg else if k = .wiring then 254 else 255) ∧
          (i.state = .calling ∨ i.state = .unanswered) ∧ i.responder = none ∧ i.done = false ∧ i.restored = false ∧
          i.settleOwed = none ∧ i.window.isSome = true ∧ i.lastRefresh = none ∧
          (∀ j ∈ s.incidents, j.serial ≠ i.serial) ∧ (s.raise n k).engine.serialCounter = (i.serial + 1) % 256 ∧
          -- the first serial from the counter on that no open incident holds
          (∃ m < 256, i.serial = (s.engine.serialCounter + m) % 256 ∧
            ∀ m' < m, ∃ j ∈ s.incidents, j.serial = (s.engine.serialCounter + m') % 256) ∧
          -- the RAISED record and the entry to level 0
          (0 < (s.levels i.cls).length → s.presence.roster.length = 64 →
            let lv := s.levelPlan i.cls 0
            let fresh : Incident :=
              { serial := i.serial, input := n, kind := k, cls := i.cls, group := i.group, msg := i.msg, state := .calling, level := 0,
                calls := [], pageSeq := none, window := none, responder := none, done := false, restored := false, settleOwed := none,
                callOwed := false, refreshDue := false, lastRefresh := none }
            let opened (j : Incident) (detail : Nat) : State := { s with
              engine := { s.engine with table := s.engine.table.set e (some j), serialCounter := (i.serial + 1) % 256 }
              log :=
                (s.log.append .raised (some i.serial) none (some n) (i.cls == 1)).append .level (some i.serial) none (some detail) false }
            let called : Incident := { fresh with calls := s.newlyCalled fresh lv, window := some (s.now + 1000000 * lv.window) }
            (s.newlyCalled fresh lv ≠ [] → CallIssued (opened called 0) e called (s.raise n k)) ∧
            (s.newlyCalled fresh lv = [] → exec (.windowExpiry e) (opened { fresh with window := some s.now } 4) = .next (s.raise n k)))))

/-- R8, R16, R18, R19: what a restore does, by the state of the incident and the pending-raise mark of its source. An incident that
closes offers its SETTLE, which this station's own Relay Unit applies (R75). -/
def Obligations.RestoreMarksOrCloses : Prop :=
  ∀ (s : State) (n : Nat) (k : SourceKind),
    let urgent := s.sourceClass n k ≤ 2
    let mark (m : Option Bool) : Engine := { s.engine with pend := s.engine.pend.set (3 * n + sourceKindCode k) m }
    (∀ e i, s.incident? e = some i → i.input = n → i.kind = k → (∀ e' j, s.incident? e' = some j → j.input = n → j.kind = k → e' = e) →
      (i.state = .calling ∨ i.state = .unanswered →
        s.restore n k = if i.cls ≤ 2 then s.setEntry e (some { i with restored := true })
          else (s.setEntry e (some { i with restored := true })).enterClosing e .withdrawn) ∧
      (i.state = .taken →
        s.restore n k = if i.done then (s.setEntry e (some { i with restored := true })).enterClosing e .closed
          else s.setEntry e (some { i with restored := true })) ∧
      -- the closing, with no raise pending
      (∀ x : SettleKind, (x = .withdrawn ∧ (i.state = .calling ∨ i.state = .unanswered) ∧ 2 < i.cls) ∨
          (x = .closed ∧ i.state = .taken ∧ i.done = true) → (∀ m ∈ s.engine.pend, m = none) →
        let closing : State := { s with engine := { s.engine with table := s.engine.table.set e (some { i with
          restored := true, state := .closing, window := none, callOwed := false, refreshDue := false, settleOwed := some x }) } }
        SettleOffered closing ⟨i.serial, x, i.responder⟩ i.cls
          (fun u => { u with
            engine := { u.engine with table := u.engine.table.set e none }
            log := u.log.append (settleTag x) (some i.serial) i.responder none false }) closing (s.restore n k))) ∧
    ((∀ i ∈ s.incidents, i.input = n → i.kind = k → i.state = .closing) →
      (s.mark n k = none → s.restore n k = s) ∧
      (∀ m, s.mark n k = some m → s.restore n k = { s with engine := mark (if urgent then some true else none) }))

/-- R27, R28, R29, R30, R31, R32, R37, R39: a window that expires in CALLING below the last level enters the next level and issues its
CALL; an empty level makes its record and is stepped over at once. Choices of the model: notes/assumptions/2.md, 22.md. -/
def Obligations.WindowExpiryEntersTheNextLevel : Prop :=
  ∀ (s : State) (e : Fin 16) (i : Incident) (T : Nat), s.incident? e = some i → i.window = some T → i.state = .calling →
    i.level + 1 < (s.levels i.cls).length → s.presence.roster.length = 64 →
    let lv := s.levelPlan i.cls (i.level + 1)
    let now := max s.now T
    let calls := i.calls ++ s.newlyCalled i lv
    -- the station at the level entered, its record appended
    let entered (window detail : Nat) : Incident × State :=
      let j : Incident := { i with level := i.level + 1, calls := calls, window := some window }
      (j, { s with
        now := now
        engine := { s.engine with table := s.engine.table.set e (some j) }
        log := s.log.append .level (some i.serial) none (some detail) false })
    (calls.any (fun c => !c.declined) = true →
      let x := entered (now + 1000000 * lv.window) (i.level + 1)
      ∃ t, exec (.windowExpiry e) s = .next t ∧ CallIssued x.2 e x.1 t) ∧
    (calls.any (fun c => !c.declined) = false →
      let x := entered now (i.level + 1 + 4)
      exec (.windowExpiry e) s = exec (.windowExpiry e) x.2 ∧ ∃ t, exec (.windowExpiry e) s = .next t)

/-- R32, R35, R36, R37, R39: a window that expires at the last level, or in UNANSWERED, makes the UNANSWERED entry and issues its CALL,
unless the call list is empty. Choices of the model: notes/assumptions/2.md. -/
def Obligations.WindowExpiryAtTheLastLevelLeavesUnanswered : Prop :=
  ∀ (s : State) (e : Fin 16) (i : Incident) (T : Nat), s.incident? e = some i → i.window = some T →
    (i.state = .calling ∧ i.level + 1 = (s.levels i.cls).length) ∨ i.state = .unanswered →
    let now := max s.now T
    let last := s.levelPlan i.cls ((s.levels i.cls).length - 1)
    let chosen := (s.levels i.cls).foldl (runSelection s.presence.roster)
      { i with calls := i.calls.map fun c => { c with declined := false } }
    let j : Incident := { i with state := .unanswered, calls := chosen.calls, window := some (now + 1000000 * last.window) }
    let entered : State := { s with
      now := now
      engine := { s.engine with table := s.engine.table.set e (some j) }
      log := s.log.append .unanswered (some i.serial) none (some chosen.calls.length) false }
    ∃ t, exec (.windowExpiry e) s = .next t ∧ t.alarmCondition = true ∧
      (chosen.calls ≠ [] → CallIssued entered e j t) ∧ (chosen.calls = [] → t = entered)

/-- R42, R43: the refresh limit of a calling incident whose refresh is due issues a refresh CALL; otherwise nothing is issued.
Choices of the model: notes/assumptions/2.md, 6.md. -/
def Obligations.RefreshLimitEndIssuesTheDueRefresh : Prop :=
  ∀ (s : State) (e : Fin 16) (i : Incident), s.incident? e = some i →
    (∀ T0, i.lastRefresh = some T0 →
      let ended : State := { s with now := max s.now (T0 + 5000000) }
      ((i.state = .calling ∨ i.state = .unanswered) → i.refreshDue = true → ∃ t, exec (.refreshLimitEnd e) s = .next t ∧
        CallIssued ended e { i with lastRefresh := some ended.now } t) ∧
      (i.refreshDue = false ∨ i.state = .taken ∨ i.state = .closing → exec (.refreshLimitEnd e) s = .next ended)) ∧
    (i.lastRefresh = none → exec (.refreshLimitEnd e) s = .next s)

/-- R37, R38: what a CALL carries. -/
def Obligations.CallCarriesTheCalledPagers : Prop :=
  ∀ (s : State) (i : Incident),
    let c := s.buildCall i
    (c.serial = i.serial ∧ c.cls = i.cls ∧ c.level = i.level ∧ c.group = i.group ∧ c.msg = i.msg ∧ c.input = i.input ∧
      c.kind = i.kind ∧ c.seq = i.pageSeq.getD 0 ∧ c.repeats = (s.levelPlan i.cls i.level).repeats) ∧
    (c.unanswered = true ↔ i.state = .unanswered) ∧
    c.pagers.map (·.pager) = (i.calls.filter fun x => !x.declined).map (·.pager) ∧
    ∀ x ∈ c.pagers, (x.flood = true ↔ i.state = .unanswered ∨ (s.levelPlan i.cls i.level).flood = true ∨
      ((s.pager x.pager).score < 24 ∧ (s.pager x.pager).claim < 24))

/-! ### Answers (chapter 4) -/

/-- R85, R87: the repeat timer of an answer list entry offers its ANSWER again and lowers its sends. Choices of the model:
notes/assumptions/2.md, 6.md. -/
def Obligations.RepeatTimerOffersTheAnswerAgain : Prop :=
  ∀ (s : State) (k : AnswerKey),
    ((∀ a ∈ s.relay.answers, a.key ≠ k) → exec (.answerRepeatTimer k) s = .next s) ∧
    ∀ (before after : List AnswerEntry) (a : AnswerEntry), s.relay.answers = before ++ a :: after → a.key = k →
      (s.relay.answers.map (·.key)).Nodup → s.line.hold = false →
      let left : List AnswerEntry :=
        if 1 < a.sendsLeft then [{ a with sendsLeft := a.sendsLeft - 1, timer := a.timer + 1000000 }] else []
      let kept : State := { s with now := max s.now a.timer, relay := { s.relay with answers := before ++ left ++ after } }
      (s.line.queue.length < 8 →
        exec (.answerRepeatTimer k) s = .next { kept with line := s.line.place ⟨.answer k, .class0, some k.owner, 0⟩ }) ∧
      (8 ≤ s.line.queue.length → s.line.evictable = none → exec (.answerRepeatTimer k) s = .next kept)

/-! ### The plant line (chapter 6) -/

/-- R118, R119, R120: how the transmit queue answers an offer. -/
def Obligations.OfferIsAnsweredByTheQueue : Prop :=
  ∀ (s : State) (body : Body) (who : Option Nat), QueueSound s →
    let head : List Queued := if s.line.sending.isSome then s.line.queue.take 1 else []
    let isLog : Bool := match body with | .log _ => true | _ => false
    let burst (c : LineClass) : Queued := ⟨body, c, who, 0⟩
    (s.line.hold = true → ∀ c, s.offer body c who = (if isLog then { s with office := { s.office with drain := none } } else s, true)) ∧
    (s.line.hold = false → s.line.queue.length < 8 →
      s.offer body .class1 who = ({ s with line := { s.line with queue := s.line.queue ++ [burst .class1] } }, true)) ∧
    (s.line.hold = false → s.line.queue.length < 8 → ∃ urgent ordinary,
      s.line.queue = head ++ urgent ++ ordinary ∧ (∀ b ∈ urgent, b.cls = .class0) ∧ (∀ b ∈ ordinary, b.cls = .class1) ∧
      s.offer body .class0 who = ({ s with line := { s.line with queue := head ++ urgent ++ burst .class0 :: ordinary } }, true)) ∧
    (s.line.hold = false → s.line.queue.length = 8 → s.offer body .class1 who = (s, false)) ∧
    (∀ rest out, s.line.hold = false → s.line.queue = rest ++ [out] → rest.length = 7 → out.cls = .class1 →
      ∃ urgent ordinary t, rest = head ++ urgent ++ ordinary ∧ (∀ b ∈ urgent, b.cls = .class0) ∧ (∀ b ∈ ordinary, b.cls = .class1) ∧
        s.offer body .class0 who = (t, true) ∧
        t = { s with line := { s.line with queue := head ++ urgent ++ burst .class0 :: ordinary }, office := t.office } ∧
        t.office.drain = match out.body with | .log _ => none | _ => s.office.drain) ∧
    (s.line.hold = false → s.line.queue.length = 8 → (∀ b ∈ s.line.queue.drop head.length, b.cls = .class0) →
      s.offer body .class0 who = (s, false))

/-- R115, R116, R122, R124: a burst begins once the line has been quiet for its holdoff, completed from the state of that moment; its
waveform has 25 + 10n bit times. A station that may not send begins none, nor does one whose line is driven or whose assembler holds
an open byte frame or bytes of a reception. Choices of the model: notes/assumptions/2.md, 6.md, 10.md. -/
def Obligations.BeginBurstCompletesTheHeader : Prop :=
  (∀ bytes : List Byte, (burstWave bytes).length = 25 + 10 * bytes.length) ∧
  ∀ s : State,
    (s.configured = false ∨ s.line.hold = true ∨ s.line.sending.isSome = true ∨ s.line.queue = [] ∨ s.line.reader.run ≠ 0 ∨
      s.line.reader.frame ≠ none ∨ (∃ got, s.line.reader.reception = some got ∧ got ≠ []) → exec .beginBurst s = .next s) ∧
    ∀ (b : Queued) (rest : List Queued), s.configured = true → s.line.hold = false → s.line.sending = none → s.line.reader.run = 0 →
      s.line.reader.frame = none → s.line.reader.reception = none ∨ s.line.reader.reception = some [] → s.line.queue = b :: rest →
      let r := match s.line.lastSender with
        | none => s.ident.station
        | some l => (s.ident.station + 64 - l - 1) % 32
      let holdoff := 8 * r + if b.cls = .class0 then 0 else 256
      let now := max s.now (s.line.reader.quietFrom + 16 * (20 + holdoff))
      exec .beginBurst s = .next { s with
        now := now
        line := { s.line with
          reader := { s.line.reader with reception := none }
          sending := some ⟨encodeBurst
            { lineClass := b.cls, sender := s.ident.station, dark := s.zone.dark, historyHigh := s.log.high,
              openIncidents := s.openCount, addressee := b.addressee, body := b.body }, now⟩ } }

/-- R117, R125, R127: a collision in bit time `bit` of an attempt. Below 16 failed attempts the burst stays queued; at 16 it is
dropped. The assembler goes on from what it has read of the attempt, as a reception of the bytes framed whole. Choices of the model:
notes/assumptions/2.md, 5.md, 9.md, 23.md. -/
def Obligations.CollisionReleasesAndCounts : Prop :=
  (∀ (from' startAt bit : Nat) (bytes : List Byte), bit < 25 + 10 * bytes.length →
    (∀ b, bytes[5]? = some b → 9 ≤ b.toNat ∧ b.toNat ≤ 84) →
    let r := attemptReader from' startAt bytes bit
    r.reception = some (bytes.take ((bit - 24) / 10)) ∧ r.readTo = startAt + 16 * (bit + 1) ∧
    -- the open byte frame: the data bit times already read, the last of them the other way
    (∀ j p b, bit = 25 + 10 * j + p → 1 ≤ p → p ≤ 8 → bytes[j]? = some b →
      r.frame = some (((byteWave b).take p).drop 1 ++ [!(byteWave b).getD p false])) ∧
    (∀ j, bit = 25 + 10 * j ∨ bit = 34 + 10 * j → r.frame = none ∧
      r.quietFrom = if bit = 25 then startAt + 384 else startAt + 400 + 160 * ((bit - 24) / 10))) ∧
  ∀ (s : State) (x : Sending) (b : Queued) (rest : List Queued) (bit : Nat), s.line.sending = some x → s.line.queue = b :: rest →
    bit < 25 + 10 * x.bytes.length →
    let hit : Line := { s.line with
      sending := none, collisions := min (s.line.collisions + 1) 65535, lastSender := none
      reader := attemptReader s.line.reader.quietFrom x.startAt x.bytes bit }
    let now := max s.now (x.startAt + 16 * (bit + 1))
    (b.attempts + 1 < 16 → (b.cls = .class0 ∨ ∀ y ∈ rest, y.cls = .class1) →
      exec (.collision bit) s = .next { s with now := now, line := { hit with queue := { b with attempts := b.attempts + 1 } :: rest } }) ∧
    (∀ urgent ordinary, b.attempts + 1 < 16 → b.cls = .class1 → rest = urgent ++ ordinary → (∀ y ∈ urgent, y.cls = .class0) →
      (∀ y ∈ ordinary, y.cls = .class1) →
      exec (.collision bit) s = .next { s with
        now := now, line := { hit with queue := urgent ++ { b with attempts := b.attempts + 1 } :: ordinary } }) ∧
    (16 ≤ b.attempts + 1 → ∃ t, exec (.collision bit) s = .next t ∧
      t = { s with
        now := now
        line := { hit with queue := rest, drops := min (s.line.drops + 1) 65535, degraded := true }
        log := s.log.append .lineDrop none none none false, office := t.office } ∧
      t.office.drain = match b.body with | .log _ => none | _ => s.office.drain)

/-- R120, R126, R174, R175: a burst sent whole leaves the queue, and the quiet is counted from its end; a LOG of a drain has its
records removed and the next LOG offered. Choices of the model: notes/assumptions/2.md, 14.md. -/
def Obligations.BurstSentWholeLeavesTheQueue : Prop :=
  ∀ (s : State) (x : Sending) (b : Queued) (rest : List Queued), s.line.sending = some x → s.line.queue = b :: rest →
    let now := max s.now (x.startAt + 16 * (25 + 10 * x.bytes.length))
    let sent : State := { s with
      now := now
      line := { s.line with queue := rest, sending := none, lastSender := some s.ident.station, degraded := false,
                            reader := { run := 0, frame := none, reception := none, quietFrom := now, readTo := now } } }
    ((∀ rs, b.body ≠ .log rs) → exec .burstSentWhole s = .next sent) ∧
    (∀ rs d, b.body = .log rs → s.office.drain = some d →
      let held := s.log.records.filter fun h => decide (d.cursorAt ≤ h.count)
      let next := (held.filter fun h => decide (h.count < d.stopAt)).take 4
      (next = [] → exec .burstSentWhole s = .next
        { sent with log := { s.log with records := held }, office := { s.office with drain := none } }) ∧
      (∀ last, next.getLast? = some last → s.line.hold = false → rest.length < 8 →
        exec .burstSentWhole s = .next { sent with
          log := { s.log with records := held }
          office := { s.office with drain := some { d with cursorAt := last.count + 1 } }
          line := { sent.line with queue := rest ++ [⟨.log (next.map (·.record)), .class1, some d.addressee, 0⟩] } }))

/-- R115, R116, R123, R128, R129: what the bit times told on the line are to a station that reads it. A driven run of 24 or more is a
start mark, heard at its release; a shorter one is noise, and the quiet counts anew from the end of the byte frame it opens. A mark begins
a reception, aborts one of fewer than 6 bytes, and is ignored by one of more. Choices of the model: notes/assumptions/5.md, 9.md,
16.md. -/
def Obligations.DrivenRunsAreMarksOrNoise : Prop :=
  -- a command that tells of the line moves the assembler over its bit times; a reception aborted is counted
  (∀ (s : State) (line : List Bool), s.configured = true → s.line.sending = none → ∀ c ∈ lineCommands line,
    ((s.assembler line).2 = [] → exec c s = .next (s.afterReading line)) ∧
    ((s.assembler line).2 = [.aborted] → exec c s = .next { s.afterReading line with
      line := { (s.afterReading line).line with lastSender := none, framingAborts := min (s.line.framingAborts + 1) 65535 } })) ∧
  ∀ (r : Reader), r.run = 0 → r.frame = none →
    -- a byte frame: a start bit, 8 data bits, the lowest first, and a stop bit position that is not checked
    (∀ (b : Byte) (stop : Bool) (got : List Byte), r.reception = some got → got.length ≠ 5 ∨ 9 ≤ b.toNat ∧ b.toNat ≤ 84 →
      ∃ run, (stop = false → run = 0) ∧ r.read ((byteWave b).take 9 ++ [stop]) = ({ r with
        run := run, reception := some (got ++ [b]), quietFrom := r.readTo + 160, readTo := r.readTo + 160 }, [])) ∧
    -- a start mark of n driven bit times, each ten of them a byte frame of zeros to a reception in progress
    (∀ n, 24 ≤ n →
      let marked : Reader :=
        { run := 0, frame := none, reception := some [], quietFrom := r.readTo + 16 * n, readTo := r.readTo + 16 * (n + 1) }
      (r.reception = none → r.read (List.replicate n true ++ [false]) = (marked, [])) ∧
      (∀ got, r.reception = some got → got.length + n / 10 < 6 → r.read (List.replicate n true ++ [false]) = (marked, [.aborted])) ∧
      (∀ got, r.reception = some got → got.length < 6 → 6 ≤ got.length + n / 10 →
        r.read (List.replicate n true ++ [false]) = (marked, [.badLength]))) ∧
    (∀ got, r.reception = some got → 6 ≤ got.length →
      r.read (List.replicate 24 true ++ [false]) = ({ r with
        frame := some [true, true, true, false], reception := some (got ++ [0, 0]), quietFrom := r.readTo + 320
        readTo := r.readTo + 400 }, [])) ∧
    -- noise, and the released bit times that let its byte frames run out
    (∀ n m, r.reception = none → 1 ≤ n → n < 24 → 1 ≤ m → 10 * ((n + 9) / 10) ≤ n + m →
      r.read (List.replicate n true ++ List.replicate m false) = ({ r with
        quietFrom := r.readTo + 160 * ((n + 9) / 10), readTo := r.readTo + 16 * (n + m) }, []))

/-- R128, R130, R121: a reception fails by length at its sixth byte, or when it is judged at its end, which a gap of 5 released bit
times makes; each failure is one check fault and leaves no last sender. Choices of the model: notes/assumptions/15.md, 16.md. -/
def Obligations.FailedReceptionIsOneCheckFault : Prop :=
  (∀ (s : State) (line : List Bool), s.configured = true → s.line.sending = none →
    let faulted : Host.Outcome State Fault Refusal := .next { s.afterReading line with
      line := { (s.afterReading line).line with lastSender := none, checkFaults := min (s.line.checkFaults + 1) 65535 } }
    ∀ c ∈ lineCommands line,
      ((s.assembler line).2 = [.badLength] → exec c s = faulted) ∧
      (∀ bytes why, (s.assembler line).2 = [.ended bytes] → judge bytes = .failed why → exec c s = faulted)) ∧
  ∀ (r : Reader), r.run = 0 → r.frame = none →
    -- the sixth byte
    (∀ (b : Byte) (got : List Byte), r.reception = some got → got.length = 5 → b.toNat < 9 ∨ 84 < b.toNat →
      r.read (byteWave b) = ({ r with reception := none, quietFrom := r.readTo + 160, readTo := r.readTo + 160 }, [.badLength])) ∧
    -- the gap, which a reception of no byte does not end
    (∀ got, r.reception = some got → r.quietFrom = r.readTo → got ≠ [] →
      r.read (List.replicate 4 false) = ({ r with readTo := r.readTo + 64 }, []) ∧
      r.read (List.replicate 5 false) = ({ r with reception := none, readTo := r.readTo + 80 }, [.ended got])) ∧
    (∀ n, r.reception = none ∨ r.reception = some [] → r.read (List.replicate n false) = ({ r with readTo := r.readTo + 16 * n }, [])) ∧
    -- a whole burst, from its start mark to the gap
    (∀ bytes : List Byte, r.reception = none → bytes ≠ [] → (∀ b, bytes[5]? = some b → 9 ≤ b.toNat ∧ b.toNat ≤ 84) →
      r.read (burstWave bytes ++ List.replicate 5 false) = ({ r with
        quietFrom := r.readTo + 16 * (25 + 10 * bytes.length), readTo := r.readTo + 16 * (30 + 10 * bytes.length) }, [.ended bytes]))

/-- R130, R137 to R144, R192: a reception is valid exactly when none of the five failures holds; and its bytes are then those of a
well-formed burst, but for the fields a QUERY does not read. Choices of the model: notes/assumptions/21.md. -/
def Obligations.ReceptionIsJudgedByFiveTests : Prop :=
  -- what is read lies in the ranges of its kind, and is what the bytes say, every one of them but the fields a QUERY does not read
  (∀ bytes b, judge bytes = .valid b → b.wellFormed ∧ ((∀ q, b.body ≠ .query q) → bytes = encodeBurst b) ∧
    ∀ q, b.body = .query q → ∃ x y, bytes = withCheck (encodeHeader b ++ queryBytes x y q)) ∧
  ∀ bytes : List Byte,
    let total := (bytes.getD 5 0).toNat
    (∃ b, judge bytes = .valid b) ↔
      (6 ≤ bytes.length ∧ total ≤ bytes.length) ∧
      (9 ≤ total ∧ total ≤ 84 ∧ bytes.length ≤ total) ∧
      twoBytes (checkWord (bytes.take (total - 2))).toNat = bytes.drop (total - 2) ∧
      ∃ k, burstKindOf (bytes.getD 0 0).toNat = some k ∧
        (∃ body, readBody k (bytes.getD 4 0).toNat ((bytes.take (total - 2)).drop 6) = some body) ∧
        shapeFits k (bytes.getD 4 0).toNat total = true ∧
        (bytes.getD 1 0).toNat % 64 ≤ 31 ∧ (bytes.getD 1 0).toNat / 64 ≤ 1 ∧ (bytes.getD 2 0).toNat % 64 ≤ 16 ∧
        ((bytes.getD 3 0).toNat ≤ 31 ∨ (bytes.getD 3 0).toNat = 255)

/-- R131, R132, R133: a valid burst of this station's own number puts it in LINE HOLD; in LINE HOLD it changes the last sender
alone. Choices of the model: notes/assumptions/15.md, 16.md. -/
def Obligations.OwnNumberHeardEntersLineHold : Prop :=
  ∀ (s : State) (line : List Bool) (b : Burst), Hears s line b → b.sender = s.ident.station →
    ∀ c ∈ receptionCommands line, ∃ t, exec c s = .next t ∧
      (s.line.hold = true → t = s.afterReception line b) ∧
      (s.line.hold = false →
        t = { s.afterReception line b with
          line := { (s.afterReception line b).line with hold := true, queue := [] }
          log := s.log.append .lineHold none none none false, office := t.office } ∧
        t.office.drain = if s.line.queue.any (fun q => match q.body with | .log _ => true | _ => false) then none else s.office.drain) ∧
      t.alarmOutput = true

/-- R41, R51, R52, R53, R54, R145: a CLAIM from a peer, whatever its addressee, and the claim change report of one entry. Choices of the
model: notes/assumptions/15.md, 16.md. -/
def Obligations.ClaimEntriesMeetTheStoredClaims : Prop :=
  ∀ (s : State) (line : List Bool) (b : Burst) (entries : List ClaimEntry), Hears s line b → b.sender ≠ s.ident.station →
    b.body = .claim entries →
    let j := b.sender
    let meet (v : Nat) (r : PagerRecord) : PagerRecord :=
      if r.claimant = some j then { r with claim := v, claimant := if v = 0 then none else some j }
      else if r.claim < v then { r with claim := v, claimant := some j }
      else r
    ∃ t, exec (.receiveClaim line) s = .next t ∧
      t = { s.afterReception line b with engine := t.engine, presence := t.presence, relay := t.relay, zone := t.zone,
                                         line := t.line, office := t.office } ∧
      t.zone = { s.zone with plan := t.zone.plan } ∧
      t.presence = { s.presence with roster := t.presence.roster } ∧
      t.presence.roster = (if b.dark then clearClaims j s.presence.roster
        else entries.foldl (fun roster c => roster.modify c.pager (meet c.score)) s.presence.roster) ∧
      -- with no incident calling, the roster alone has changed (R41)
      ((∀ i ∈ s.incidents, i.state ≠ .calling ∧ i.state ≠ .unanswered) → t = { s.afterReception line b with presence := t.presence }) ∧
      -- a CLAIM of one entry: its report, and none
      (∀ p v, b.dark = false → entries = [⟨p, v⟩] → p < s.presence.roster.length →
        let after : State := { s.afterReception line b with presence := t.presence }
        let reported : Prop := (meet v (s.pager p)).claimant ≠ (s.pager p).claimant ∨
          ((s.pager p).claim < 24 ∧ 24 ≤ (meet v (s.pager p)).claim)
        (¬ reported → t = after) ∧
        (∀ e i, reported → s.engine.table.length = 16 → OnlyCaller s p e i → ClaimReported after e i t))

/-- R41, R53, R54, R131, R145: a header of any kind that carries DARK clears the sender's claims, and one claimant lost is reported; its
body is then taken as the body of a header that clears no claim. A ZONE body that says DARK does the same. Choices of the model:
notes/assumptions/15.md, 16.md. -/
def Obligations.DarkStatusClearsTheSendersClaims : Prop :=
  ∀ (s : State) (line : List Bool) (b : Burst) (c : Instr), Hears s line b → b.sender ≠ s.ident.station →
    let cleared : Presence := { s.presence with roster := clearClaims b.sender s.presence.roster }
    -- a header of every kind: the body is delivered once the claims are cleared and each claimant lost is reported, as the body of a
    -- burst heard when its sender has no claim left to clear
    (b.dark = true → c ∈ receptionCommands line → ∃ u, exec c s = .next (u.deliver b) ∧
      u = { s.afterReception line b with
        presence := cleared, engine := u.engine, relay := u.relay, zone := { s.zone with plan := u.zone.plan }
        line := { (s.afterReception line b).line with queue := u.line.queue }, office := u.office } ∧
      (let before : State := { u with now := s.now, line := { u.line with reader := s.line.reader } }
       Hears before line b ∧ ClearsNone before b ∧ exec c s = exec c before) ∧
      ((∀ r ∈ s.presence.roster, r.claimant ≠ some b.sender) → u = s.afterReception line b) ∧
      ((∀ i ∈ s.incidents, i.state ≠ .calling ∧ i.state ≠ .unanswered) → u = { s.afterReception line b with presence := cleared }) ∧
      (∀ p e i, p < s.presence.roster.length → (s.pager p).claimant = some b.sender →
        (∀ p' < s.presence.roster.length, p' ≠ p → (s.pager p').claimant ≠ some b.sender) →
        s.engine.table.length = 16 → OnlyCaller s p e i →
        ClaimReported { s.afterReception line b with presence := cleared } e i u)) ∧
    -- the kinds of which no block takes more, and the body of a ZONE
    (((∃ dark, b.body = .zone dark ∧ c = .receiveZone line) ∨ (∃ rs, b.body = .log rs ∧ c = .receiveLog line) ∨
      (∃ ms n, b.body = .state ms n ∧ c = .receiveState line)) →
    let clears := b.dark = true ∨ (b.body = .zone true ∧ (b.addressee = none ∨ b.addressee = some s.ident.station))
    (¬ clears → exec c s = .next (s.afterReception line b)) ∧
    (clears → ∃ t, exec c s = .next t ∧
      t = { s.afterReception line b with engine := t.engine, presence := t.presence, relay := t.relay, zone := t.zone,
                                         line := t.line, office := t.office } ∧
      t.presence = { s.presence with roster := clearClaims b.sender s.presence.roster } ∧
      ((∀ i ∈ s.incidents, i.state ≠ .calling ∧ i.state ≠ .unanswered) → t = { s.afterReception line b with presence := t.presence }) ∧
      ((∀ r ∈ s.presence.roster, r.claimant ≠ some b.sender) → t = s.afterReception line b) ∧
      -- the sender is the claimant of pager p alone, and one incident that calls has p in its call list
      (∀ p e i, p < s.presence.roster.length → (s.pager p).claimant = some b.sender →
        (∀ p' < s.presence.roster.length, p' ≠ p → (s.pager p').claimant ≠ some b.sender) →
        s.engine.table.length = 16 → OnlyCaller s p e i →
        ClaimReported { s.afterReception line b with presence := t.presence } e i t)))

/-- R55, R70, R71, R72, R73, R74: a CALL of a peer whose header clears no claim, at the page list, while the list has room for all its
pagers, and a CALL of one new pager at a full list. The route test is that of R55. DEDUCED (notes/assumptions/24.md): the mark
`updated`, the model's own, is set in an entry renewed on the air and clear in every other made or renewed. Choices of the model:
notes/assumptions/15.md, 16.md. -/
def Obligations.CallMakesRenewsAndRemovesPages : Prop :=
  ∀ (s : State) (line : List Bool) (b : Burst) (c : CallBody), Hears s line b → b.sender ≠ s.ident.station → b.body = .call c →
    ClearsNone s b →
    (b.addressee ≠ none → b.addressee ≠ some s.ident.station → exec (.receiveCall line) s = .next (s.afterReception line b)) ∧
    (b.addressee = none ∨ b.addressee = some s.ident.station → s.relay.pages.length + c.pagers.length ≤ 24 →
      (s.relay.pages.map (·.key)).Nodup →
      ∃ t, exec (.receiveCall line) s = .next t ∧
        t = { s.afterReception line b with relay := { s.relay with pages := t.relay.pages }, zone := { s.zone with plan := t.zone.plan } } ∧
        -- entries of other incidents are kept
        (∀ k : PageKey, k.owner ≠ b.sender ∨ k.serial ≠ c.serial → keptUpToPlan (s.relay.find k) (t.relay.find k)) ∧
        let newer (e : PageEntry) : Prop :=
          (1 ≤ (c.seq + 256 - e.seq) % 256 ∧ (c.seq + 256 - e.seq) % 256 ≤ 127) ∨ c.cls ≠ e.cls ∨ c.msg ≠ e.msg ∨ c.level < e.level
        -- an entry of the incident whose pager the CALL does not name
        (∀ (k : PageKey) (e : PageEntry), k.owner = b.sender → k.serial = c.serial → (∀ x ∈ c.pagers, x.pager ≠ k.pager) →
          s.relay.find k = some e →
          (e.kind = .page → newer e → e.state ≠ .onAir → t.relay.find k = none) ∧
          (e.kind = .page → newer e → e.state = .onAir → t.relay.find k = some { e with seq := c.seq, repeats := 0 }) ∧
          (e.kind = .standdown ∨ ¬ newer e → keptUpToPlan (some e) (t.relay.find k))) ∧
        -- a pager of the CALL, at its first place
        (∀ (p : Nat) (flood : Bool), (c.pagers.find? (·.pager == p)) = some ⟨p, flood⟩ →
          let k : PageKey := ⟨b.sender, c.serial, p⟩
          let take : Prop := flood = true ∨
            (s.zone.dark = false ∧ 24 ≤ (s.pager p).score ∧ (s.pager p).claim ≤ (s.pager p).score + 32)
          let made (st : PageState) : PageEntry :=
            { key := k, seq := c.seq, cls := c.cls, level := c.level, msg := c.msg, kind := .page, repeats := c.repeats,
              state := st, spentLeft := 0, note := none, updated := false }
          (take → s.relay.find k = none → t.relay.find k = some (made .waiting) ∨ t.relay.find k = some (made .placed)) ∧
          (∀ e, take → s.relay.find k = some e → newer e → e.state ≠ .onAir →
            t.relay.find k = some (made .waiting) ∨ t.relay.find k = some (made .placed)) ∧
          (∀ e, take → s.relay.find k = some e → newer e → e.state = .onAir →
            t.relay.find k = some { made .onAir with updated := true }) ∧
          (¬ take → s.relay.find k = none → t.relay.find k = none) ∧
          (∀ e, ¬ take → s.relay.find k = some e → newer e → e.state ≠ .onAir → t.relay.find k = none) ∧
          (∀ e, ¬ take → s.relay.find k = some e → newer e → e.state = .onAir →
            t.relay.find k = some { e with seq := c.seq, repeats := 0 }) ∧
          (∀ e, s.relay.find k = some e → ¬ newer e → keptUpToPlan (some e) (t.relay.find k)))) ∧
    -- a full list (R74)
    (∀ p flood, b.addressee = none ∨ b.addressee = some s.ident.station → s.relay.pages.length = 24 → (s.relay.pages.map (·.key)).Nodup →
      c.pagers = [⟨p, flood⟩] → flood = true ∨ (s.zone.dark = false ∧ 24 ≤ (s.pager p).score ∧ (s.pager p).claim ≤ (s.pager p).score + 32) →
      (∀ e ∈ s.relay.pages, ¬ (e.key.owner = b.sender ∧ e.key.serial = c.serial)) →
      let k : PageKey := ⟨b.sender, c.serial, p⟩
      let passes (e : PageEntry) : Prop := e.state = .waiting ∧ c.cls < e.cls
      ∃ t, exec (.receiveCall line) s = .next t ∧
        -- the earliest SPENT entry makes room, else the latest WAITING one of a greater class
        (∀ front v back, s.relay.pages = front ++ v :: back →
          (v.state = .spent ∧ ∀ e ∈ front, e.state ≠ .spent) ∨
            ((∀ e ∈ s.relay.pages, e.state ≠ .spent) ∧ passes v ∧ ∀ e ∈ back, ¬ passes e) →
          t = { s.afterReception line b with relay := { s.relay with pages := t.relay.pages }, zone := { s.zone with plan := t.zone.plan } } ∧
          t.relay.find v.key = none ∧
          (∃ x, t.relay.find k = some x ∧ (x.state = .waiting ∨ x.state = .placed) ∧ x =
            { key := k, seq := c.seq, cls := c.cls, level := c.level, msg := c.msg, kind := .page, repeats := c.repeats,
              state := x.state, spentLeft := 0, note := none, updated := false }) ∧
          ∀ k' ≠ k, k' ≠ v.key → keptUpToPlan (s.relay.find k') (t.relay.find k')) ∧
        -- with neither, the page is refused and counted
        ((∀ e ∈ s.relay.pages, e.state ≠ .spent ∧ ¬ passes e) →
          t = { s.afterReception line b with relay := { s.relay with refused := min (s.relay.refused + 1) 65535 } }))

/-- R75, R76, R77, R78, R87: a SETTLE of a peer whose header clears no claim, at the page list and the answer list. Choices of the model:
notes/assumptions/15.md, 16.md. -/
def Obligations.SettleTurnsPagesIntoStandDowns : Prop :=
  ∀ (s : State) (line : List Bool) (b : Burst) (x : SettleBody), Hears s line b → b.sender ≠ s.ident.station → b.body = .settle x →
    ClearsNone s b →
    (b.addressee ≠ none → b.addressee ≠ some s.ident.station → exec (.receiveSettle line) s = .next (s.afterReception line b)) ∧
    (b.addressee = none ∨ b.addressee = some s.ident.station → (s.relay.pages.map (·.key)).Nodup →
      ∃ t, exec (.receiveSettle line) s = .next t ∧
        t = { s.afterReception line b with relay := { s.relay with pages := t.relay.pages, answers := t.relay.answers },
                                           zone := { s.zone with plan := t.zone.plan } } ∧
        t.relay.answers = s.relay.answers.filter (fun a => !(a.key.owner == b.sender && a.key.serial == x.serial)) ∧
        (∀ k : PageKey, k.owner ≠ b.sender ∨ k.serial ≠ x.serial → keptUpToPlan (s.relay.find k) (t.relay.find k)) ∧
        ∀ (k : PageKey) (e : PageEntry), k.owner = b.sender → k.serial = x.serial → s.relay.find k = some e →
          let stoodDown (n : SettleNote) : Prop := ∃ st, t.relay.find k =
              some { e with kind := .standdown, repeats := 1, spentLeft := 0, note := some n, state := st } ∧
            if e.state = .onAir then st = .onAir else st = .waiting ∨ st = .placed
          (∀ r, x.kind = .taken → x.responder = some r → k.pager = r →
            t.relay.find k = some { e with repeats := 0, spentLeft := 8, state := .spent, note := some (.taken r) }) ∧
          (∀ r, x.kind = .taken → x.responder = some r → k.pager ≠ r → stoodDown (.taken r)) ∧
          (x.kind = .withdrawn → stoodDown .withdrawn) ∧ (x.kind = .cancelled → stoodDown .cancelled) ∧
          (x.kind = .closed → t.relay.find k = none))

/-- R62: a DUTY of a peer whose header clears no claim sets each duty it carries, in entry order. Choices of the model:
notes/assumptions/15.md, 16.md. -/
def Obligations.DutyEntriesSetTheRoster : Prop :=
  ∀ (s : State) (line : List Bool) (b : Burst) (entries : List DutyEntry), Hears s line b → b.sender ≠ s.ident.station →
    b.body = .duty entries → ClearsNone s b →
    exec (.receiveDuty line) s = .next (
      if b.addressee = none ∨ b.addressee = some s.ident.station then
        { s.afterReception line b with
          presence := { s.presence with
            roster := entries.foldl (fun roster d => roster.modify d.pager fun r => { r with duty := d.on }) s.presence.roster } }
      else s.afterReception line b)

/-- R11, R12, R13, R14, R15, R18, R19, R30, R34, R75, R145: an ANSWER of a peer whose header clears no claim, for an incident of this
station. The SETTLE it makes is offered, and applied by this station's own Relay Unit. Choices of the model:
notes/assumptions/15.md, 16.md. -/
def Obligations.AnswerMovesTheIncident : Prop :=
  ∀ (s : State) (line : List Bool) (b : Burst) (k : AnswerKey), Hears s line b → b.sender ≠ s.ident.station → b.body = .answer k →
    ClearsNone s b →
    ((b.addressee ≠ none ∧ b.addressee ≠ some s.ident.station) ∨ k.owner ≠ s.ident.station ∨ (∀ i ∈ s.incidents, i.serial ≠ k.serial) →
      exec (.receiveAnswer line) s = .next (s.afterReception line b)) ∧
    ∀ (e : Nat) (i : Incident), b.addressee = none ∨ b.addressee = some s.ident.station → k.owner = s.ident.station →
      s.incident? e = some i → i.serial = k.serial → (∀ e' j, s.incident? e' = some j → j.serial = k.serial → e' = e) →
      let p := k.pager
      let open' : Prop := i.state = .calling ∨ i.state = .unanswered
      let heard := s.afterReception line b
      -- ACCEPT
      (k.kind = .accept → open' → (∃ c ∈ i.calls, c.pager = p) →
        let taken : Incident := { i with state := .taken, responder := some p, window := none, callOwed := false, refreshDue := false }
        let recorded : State := { heard with
          engine := { s.engine with table := s.engine.table.set e (some taken) }
          log := s.log.append .taken (some i.serial) (some p) none false }
        ∃ t, exec (.receiveAnswer line) s = .next t ∧ SettleOffered recorded ⟨i.serial, .taken, some p⟩ i.cls
          (fun u => { u with engine := { u.engine with table := u.engine.table.set e (some { taken with settleOwed := none }) } })
          { recorded with
            engine := { s.engine with table := s.engine.table.set e (some { taken with settleOwed := some .taken }) } } t) ∧
      (k.kind = .accept → ¬ open' ∨ (∀ c ∈ i.calls, c.pager ≠ p) → exec (.receiveAnswer line) s = .next (s.afterReception line b)) ∧
      -- DECLINE
      (k.kind = .decline → open' → (∃ c ∈ i.calls, c.pager = p ∧ c.declined = false) →
        (∃ c ∈ i.calls, c.pager ≠ p ∧ c.declined = false) → ∃ t, exec (.receiveAnswer line) s = .next t ∧
        t = { s.afterReception line b with engine := t.engine, log := s.log.append .declined (some i.serial) (some p) none false } ∧
        t.engine = { s.engine with table := s.engine.table.set e (some
          { i with calls := i.calls.map fun c => if c.pager = p then { c with declined := true } else c }) }) ∧
      -- of the last pager CALLED: the incident steps, as at a window expiry
      (∀ he : e < 16, k.kind = .decline → open' → (∃ c ∈ i.calls, c.pager = p ∧ c.declined = false) →
        (∀ c ∈ i.calls, c.pager ≠ p → c.declined = true) →
        let declined : State := { heard with
          engine := { s.engine with table := s.engine.table.set e (some { i with
            calls := i.calls.map fun c => if c.pager = p then { c with declined := true } else c, window := some heard.now }) }
          log := s.log.append .declined (some i.serial) (some p) none false }
        exec (.receiveAnswer line) s = exec (.windowExpiry ⟨e, he⟩) declined) ∧
      (k.kind = .decline → ¬ open' ∨ (∀ c ∈ i.calls, c.pager = p → c.declined = true) →
        exec (.receiveAnswer line) s = .next (s.afterReception line b)) ∧
      -- DONE
      (k.kind = .done → i.state = .taken → i.responder = some p → i.done = false → i.restored = false →
        exec (.receiveAnswer line) s = .next { s.afterReception line b with
          engine := { s.engine with table := s.engine.table.set e (some { i with done := true }) }
          log := s.log.append .done (some i.serial) (some p) none false }) ∧
      (k.kind = .done → i.state = .taken → i.responder = some p → i.done = false → i.restored = true →
        (∀ m ∈ s.engine.pend, m = none) →
        let closing : State := { heard with
          engine := { s.engine with table := s.engine.table.set e (some { i with
            done := true, state := .closing, window := none, callOwed := false, refreshDue := false, settleOwed := some .closed }) }
          log := s.log.append .done (some i.serial) (some p) none false }
        ∃ t, exec (.receiveAnswer line) s = .next t ∧ SettleOffered closing ⟨i.serial, .closed, some p⟩ i.cls
          (fun u => { u with
            engine := { u.engine with table := u.engine.table.set e none }
            log := u.log.append .closed (some i.serial) (some p) none false }) closing t) ∧
      (k.kind = .done → i.state ≠ .taken ∨ i.responder ≠ some p ∨ i.done = true →
        exec (.receiveAnswer line) s = .next (s.afterReception line b))

/-! ### History and office (chapter 9) -/

/-- R164, R166, R167, R169: what an append does, by mode, frozen mark and room, and the numbers it gives. A record is held with the
model's own count of those appended before it, without end, and its number is that count modulo 65536 (DEDUCED,
notes/assumptions/14.md). -/
def Obligations.AppendFollowsTheModeOfTheLog : Prop :=
  ∀ (l : Log) (tag : Tag) (serial pager detail : Option Nat) (urgent : Bool),
    let r : Record := ⟨tag, l.seconds, serial, pager, detail⟩
    let after := l.append tag serial pager detail urgent
    let rolls := l.mode = some .roll ∨ (l.mode = some .rollFreeze ∧ l.frozen = false)
    let freezes := urgent && l.mode == some .rollFreeze
    (l.mode = none → after = l) ∧
    (l.mode ≠ none → l.lost = 0 → l.records.length < 128 →
      after = { l with records := l.records ++ [⟨l.appended, r⟩], appended := l.appended + 1, frozen := l.frozen || freezes }) ∧
    (l.lost = 0 → l.records.length = 128 → rolls →
      after = { l with records := l.records.drop 1 ++ [⟨l.appended, r⟩], appended := l.appended + 1, frozen := l.frozen || freezes }) ∧
    (l.mode ≠ none → l.records.length = 128 → ¬ rolls → after = { l with lost := min (l.lost + 1) 255 }) ∧
    -- the LOST record that is owed comes first
    (l.mode ≠ none → 0 < l.lost → l.records.length < 127 →
      after = { l with
        records := l.records ++ [⟨l.appended, ⟨.lost, l.seconds, none, none, some l.lost⟩⟩, ⟨l.appended + 1, r⟩]
        appended := l.appended + 2, lost := 0, frozen := l.frozen || freezes }) ∧
    (l.mode ≠ none → 0 < l.lost → l.records.length = 127 → ¬ rolls →
      after = { l with
        records := l.records ++ [⟨l.appended, ⟨.lost, l.seconds, none, none, some l.lost⟩⟩]
        appended := l.appended + 1, lost := 1 }) ∧
    (0 < l.lost → l.records.length = 127 → rolls →
      after = { l with
        records := l.records.drop 1 ++ [⟨l.appended, ⟨.lost, l.seconds, none, none, some l.lost⟩⟩, ⟨l.appended + 1, r⟩]
        appended := l.appended + 2, lost := 0, frozen := l.frozen || freezes }) ∧
    (0 < l.lost → l.records.length = 128 → rolls →
      after = { l with
        records := l.records.drop 2 ++ [⟨l.appended, ⟨.lost, l.seconds, none, none, some l.lost⟩⟩, ⟨l.appended + 1, r⟩]
        appended := l.appended + 2, lost := 0, frozen := l.frozen || freezes }) ∧
    -- the numbers of what is added run on from that of the record appended before, modulo 65536
    (∃ added ≤ 2, after.next = (l.next + added) % 65536 ∧
      ∀ h ∈ after.records, h ∈ l.records ∨ ∃ k < added, h.number = (l.next + k) % 65536)

/-- R171, R173, R174: a HISTORY query from another sender, its numbers running on without a gap (R164). Choices of the model:
notes/assumptions/14.md, 15.md, 16.md. -/
def Obligations.HistoryQueryBeginsADrain : Prop :=
  ∀ (s : State) (line : List Bool) (b : Burst) (n : Nat), Hears s line b → b.sender ≠ s.ident.station →
    b.body = .query (.history n) → ClearsNone s b →
    (b.addressee ≠ some s.ident.station ∨ s.office.drain ≠ none ∨ s.log.records = [] →
      exec (.queryHistory line) s = .next (s.afterReception line b)) ∧
    ∀ first : Nat, b.addressee = some s.ident.station → s.office.drain = none → s.log.records ≠ [] → s.log.records.length ≤ 128 →
      1 ≤ n → (∀ i h, s.log.records[i]? = some h → h.count = first + i) →
      s.line.hold = false → s.line.queue.length < 8 →
      let count := min n s.log.records.length
      let copied := s.log.records.take (min 4 count)
      exec (.queryHistory line) s = .next { s.afterReception line b with
        office := { drain := some ⟨b.sender, first + min 4 count, first + count⟩ }
        line := { (s.afterReception line b).line with
          queue := s.line.queue ++ [⟨.log (copied.map (·.record)), .class1, some b.sender, 0⟩] } }

/-- R24, R134, R171, R172, R176: an INCIDENTS and a RELEASE query from another sender. Choices of the model:
notes/assumptions/15.md, 16.md. -/
def Obligations.IncidentsAndReleaseQueriesAreServed : Prop :=
  ∀ (s : State) (line : List Bool) (b : Burst), Hears s line b → b.sender ≠ s.ident.station → ClearsNone s b →
    (b.body = .query .release →
      exec (.queryRelease line) s = .next (
        if b.addressee = some s.ident.station then { s.afterReception line b with log := { s.log with frozen := false } }
        else s.afterReception line b)) ∧
    (b.body = .query .incidents → s.line.hold = false →
      let reply : Body := .state
        (s.incidents.map fun i => ⟨i.serial, i.state, i.level, i.cls, i.kind, i.input, i.responder⟩)
        ⟨s.line.checkFaults, s.line.framingAborts, s.line.collisions, s.line.drops, s.relay.refused, s.zone.partialReturns⟩
      exec (.queryIncidents line) s = .next (
        if b.addressee = some s.ident.station ∧ s.line.queue.length < 8 then
          { s.afterReception line b with line := { (s.afterReception line b).line with
            queue := s.line.queue ++ [⟨reply, .class1, some b.sender, 0⟩] } }
        else s.afterReception line b))

/-- R17, R18, R19, R20, R75, R159: a CANCEL query from another sender. The SETTLE it makes is offered, and applied by this station's own
Relay Unit. Choices of the model: notes/assumptions/15.md, 16.md. -/
def Obligations.CancelClosesTheIncident : Prop :=
  ∀ (s : State) (line : List Bool) (b : Burst) (serial : Nat), Hears s line b → b.sender ≠ s.ident.station →
    b.body = .query (.cancel serial) → ClearsNone s b →
    (b.addressee ≠ some s.ident.station ∨ (∀ i ∈ s.incidents, i.serial ≠ serial) →
      exec (.queryCancel line) s = .next (s.afterReception line b)) ∧
    ∀ (e : Nat) (i : Incident), b.addressee = some s.ident.station → s.incident? e = some i → i.serial = serial →
      (∀ e' j, s.incident? e' = some j → j.serial = serial → e' = e) →
      (i.state = .closing → exec (.queryCancel line) s = .next (s.afterReception line b)) ∧
      (i.state ≠ .closing →
        -- the cancel hold of the source is set while its state stands, and the incident closes
        let closing : State := { s.afterReception line b with
          scanner := { s.scanner with inputs := s.scanner.inputs.modify i.input fun r =>
            { r with
              holdAlarm := r.holdAlarm || (i.kind == .alarm && r.condition == .active)
              holdWiring := r.holdWiring || (i.kind == .wiring && (r.condition == .short || r.condition == .opened))
              holdChatter := r.holdChatter || (i.kind == .chatter && r.inChatter) } }
          engine := { s.engine with table := s.engine.table.set e (some
            { i with state := .closing, window := none, callOwed := false, refreshDue := false, settleOwed := some .cancelled }) } }
        ∃ t, exec (.queryCancel line) s = .next t ∧ t.scanner = closing.scanner ∧
          ((∀ m ∈ s.engine.pend, m = none) → SettleOffered closing ⟨i.serial, .cancelled, i.responder⟩ i.cls
            (fun u => { u with
              engine := { u.engine with table := u.engine.table.set e none }
              log := u.log.append .cancelled (some i.serial) i.responder none false }) closing t) ∧
          (s.line.hold = false → 8 ≤ s.line.queue.length → 2 < i.cls ∨ s.line.evictable = none → t = closing))

/-! ### Clock and panel (chapters 9 and 10) -/

/-- R162, R178: a whole second passes; the flash phase turns over. Choices of the model: notes/assumptions/2.md. -/
def Obligations.ClockAndFlashTurn : Prop :=
  ∀ s : State,
    exec .secondsClockTick s = .next { s with
      now := max s.now s.log.secondAt
      log := { s.log with seconds := min (s.log.seconds + 1) 4294967295, secondAt := s.log.secondAt + 1000000 } } ∧
    ∀ T, s.panel.flashAt = some T →
      exec .flashPhaseTurn s = .next { s with
        now := max s.now T, panel := { s.panel with flash := !s.panel.flash, flashAt := some (T + 500000) } }

/-- R177, R178, R181: a share starts and reads the points of its common; an unconfigured station drives SEG16 of COM1 alone. Choices
of the model: notes/assumptions/2.md, 11.md. -/
def Obligations.ShareShowsThePointsOfItsCommon : Prop :=
  ∀ s : State, ∃ t, exec .panelShareStart s = .next t ∧
    t = { s with now := t.now, panel := t.panel } ∧ t.now = max s.now s.nextShareAt ∧
    (s.configured = true → 1 ≤ s.panel.commons →
      t.panel.share = (if s.panel.share + 1 < s.panel.commons then s.panel.share + 1 else 0) ∧
      (s.panel.share + 1 < s.panel.commons → t.panel.frameStart = s.panel.frameStart) ∧
      (s.panel.commons ≤ s.panel.share + 1 → t.panel.frameStart = s.panel.frameStart + 15625) ∧
      ∀ j < 32, t.panel.segments.getLsbD j =
        match s.point (32 * t.panel.share + j) with
        | .dark => false
        | .steady => true
        | .flashing => s.panel.flash) ∧
    (s.configured = false → t.drivenCommon = 1 ∧ ∀ j < 32, t.panel.segments.getLsbD j = decide (j = 16))

/-- R179, R180, R182: when the ALARM output is asserted, and what each point of the panel shows: all of them once the station is
CONFIGURED, point 48 alone until then (R181). -/
def Obligations.PointsAndAlarmShowTheStation : Prop :=
  ∀ s : State,
    (s.alarmOutput = true ↔
      ((∃ e i, s.incident? e = some i ∧ i.state = .unanswered) ∨ (∃ m ∈ s.engine.pend, m ≠ none)) ∨
      s.loading = true ∨ s.loader.load = .unconfigured ∨ s.line.hold = true) ∧
    (s.configured = true →
    (∀ e < 16, s.point e = (match s.incident? e with
        | none => .dark
        | some i => if i.state = .calling then .steady else if i.state = .unanswered then .flashing else .dark) ∧
      s.point (16 + e) = (match s.incident? e with
        | none => .dark
        | some i => if i.state = .taken then .steady else .dark)) ∧
    (∀ n < 16, s.point (32 + n) =
      if (s.input n).mode = .unused then .dark
      else if (s.input n).inChatter = true ∨ (s.input n).condition = .short ∨ (s.input n).condition = .opened then .flashing
      else if (s.input n).condition = .active then .steady else .dark) ∧
    (s.point 48 = (if s.loader.load = .unconfigured then .steady else .dark) ∧
      s.point 49 = (if s.line.hold then .steady else .dark) ∧ s.point 50 = (if s.line.degraded then .steady else .dark) ∧
      s.point 51 = (if s.zone.dark then .steady else .dark) ∧ s.point 52 = (if s.log.high then .steady else .dark) ∧
      s.point 53 = (if s.log.frozen then .steady else .dark) ∧ s.point 54 = (if s.scanner.lockout then .steady else .dark) ∧
      s.point 55 = (if s.alarmOutput then .steady else .dark)) ∧
    (∀ g < 8, (s.point (56 + g) = .steady ↔ ∃ r ∈ s.presence.roster, r.group = some g ∧ r.duty = true ∧ 24 ≤ r.score) ∧
      s.point (56 + g) ≠ .flashing) ∧
    (∀ p < 64, s.point (64 + p) =
      if (s.pager p).score < 24 then .dark else if (s.pager p).duty then .flashing else .steady)) ∧
    -- until then, point 48 alone (R181)
    (s.configured = false → s.drivenCommon = 1 ∧ ∀ share, s.shareSegments share = BitVec.ofNat 32 (2 ^ 16))

/-! ### Encoding -/

/-- R130, R137 to R144, R192: every well-formed burst, sent as the station codes it, is read back as itself; so is a QUERY whatever the
fields it does not read hold. -/
def Obligations.SentBurstsAreReadBackWhole : Prop :=
  ∀ b : Burst, b.wellFormed → judge (encodeBurst b) = .valid b ∧
    ∀ q x y, b.body = .query q → judge (withCheck (encodeHeader b ++ queryBytes x y q)) = .valid b

/-! ### What every step keeps -/

/-- R162, R164, R166: the log holds at most 128 records, their times never decrease and never pass the clock, and their numbers run on
without a gap, modulo 65536, to the next. That the counts under the numbers run on without end is the model's (DEDUCED,
notes/assumptions/14.md). -/
def Obligations.EveryStepKeepsTheLogInOrder : Prop :=
  ∀ s t : State, LogSound s → step s = .next t → LogSound t ∧
    (∀ i g h, t.log.records[i]? = some g → t.log.records[i + 1]? = some h → h.number = (g.number + 1) % 65536) ∧
    ∀ h, t.log.records.getLast? = some h → t.log.next = (h.number + 1) % 65536

/-- R117, R119, R127, R132, R134: the transmit queue keeps its order and its bounds, and the line counters theirs. -/
def Obligations.EveryStepKeepsTheQueueInOrder : Prop :=
  ∀ s t : State, QueueSound s ∧ CountersSound s → step s = .next t → QueueSound t ∧ CountersSound t

/-- R45, R47, R49, R51: scores and claims stay in 0 to 240, and a claimant is held exactly with a claim. -/
def Obligations.EveryStepKeepsTheRosterInRange : Prop :=
  ∀ s t : State, RosterSound s → step s = .next t → RosterSound t

/-- R26, R67, R82, R86: the page list and the answer list keep their bounds, and no key stands twice. -/
def Obligations.EveryStepKeepsTheListsBounded : Prop :=
  ∀ s t : State, PagesSound s ∧ PlansSound s ∧ AnswersSound s → step s = .next t → PagesSound t ∧ PlansSound t ∧ AnswersSound t

/-- R90, R91, R92, R104, R107: a frame stands in the home slot of its pager, and the counts of the zone stay in range. -/
def Obligations.EveryStepKeepsFramesInHomeSlots : Prop :=
  ∀ s t : State, ZoneSound s → step s = .next t → ZoneSound t

/-- R1, R2, R10, R25, R187: no two open incidents share a serial or a source, the fields of each agree with its state, and a station
that is not CONFIGURED rests. -/
def Obligations.EveryStepKeepsTheIncidentTableSound : Prop :=
  ∀ s t : State, TableSound s ∧ RestsUntilConfigured s → step s = .next t → TableSound t ∧ RestsUntilConfigured t

/-- The invariants hold at reset. The sound log is sound in the model's own counts of its records, without end (DEDUCED,
notes/assumptions/14.md). -/
def Obligations.ResetMeetsEveryInvariant : Prop :=
  LogSound State.reset ∧ QueueSound State.reset ∧ CountersSound State.reset ∧ RosterSound State.reset ∧ PagesSound State.reset ∧
  PlansSound State.reset ∧ AnswersSound State.reset ∧ ZoneSound State.reset ∧ TableSound State.reset ∧
  RestsUntilConfigured State.reset

/-- R132, R162, R183: the timebase and the seconds clock go back at a power-on alone; LINE HOLD and CONFIGURED end at a power-on or
a restart alone. The sound log of the premise is sound in the model's own counts of its
records, without end (DEDUCED, notes/assumptions/14.md). Choices of the model:
notes/assumptions/2.md. -/
def Obligations.OnlyStartsUndoClockHoldAndLoad : Prop :=
  ∀ (s t : State) (c : Instr) (rest : List Instr), LogSound s → s.pending = c :: rest → step s = .next t →
    (∀ b, c ≠ .powerOn b) →
    (s.now ≤ t.now ∧ s.log.seconds ≤ t.log.seconds) ∧
    (c ≠ .restart → (s.line.hold = true → t.line.hold = true) ∧ (s.configured = true → t.configured = true))

end Statements
end

