-- ==== Sys2Proof/Laws/State.lean ====
section
/-! SUPPORT. One lemma per field of State per update of one block: each is true by rfl, so that no proof unfolds a record update. -/

namespace Sys2Proof.Machine

/-! ### `withNow` -/

@[simp] theorem State.withNow_now (s : State) (x : Nat) : (s.withNow x).now = x := rfl
@[simp] theorem State.withNow_loader (s : State) (x : Nat) : (s.withNow x).loader = s.loader := rfl
@[simp] theorem State.withNow_ident (s : State) (x : Nat) : (s.withNow x).ident = s.ident := rfl
@[simp] theorem State.withNow_engine (s : State) (x : Nat) : (s.withNow x).engine = s.engine := rfl
@[simp] theorem State.withNow_presence (s : State) (x : Nat) : (s.withNow x).presence = s.presence := rfl
@[simp] theorem State.withNow_relay (s : State) (x : Nat) : (s.withNow x).relay = s.relay := rfl
@[simp] theorem State.withNow_zone (s : State) (x : Nat) : (s.withNow x).zone = s.zone := rfl
@[simp] theorem State.withNow_line (s : State) (x : Nat) : (s.withNow x).line = s.line := rfl
@[simp] theorem State.withNow_scanner (s : State) (x : Nat) : (s.withNow x).scanner = s.scanner := rfl
@[simp] theorem State.withNow_log (s : State) (x : Nat) : (s.withNow x).log = s.log := rfl
@[simp] theorem State.withNow_office (s : State) (x : Nat) : (s.withNow x).office = s.office := rfl
@[simp] theorem State.withNow_panel (s : State) (x : Nat) : (s.withNow x).panel = s.panel := rfl
@[simp] theorem State.withNow_pending (s : State) (x : Nat) : (s.withNow x).pending = s.pending := rfl
@[simp] theorem State.withNow_same (s : State) : s.withNow s.now = s := rfl
@[simp] theorem State.withNow_withNow (s : State) (x y : Nat) : (s.withNow x).withNow y = s.withNow y := rfl

/-! ### `withLoader` -/

@[simp] theorem State.withLoader_now (s : State) (x : Loader) : (s.withLoader x).now = s.now := rfl
@[simp] theorem State.withLoader_loader (s : State) (x : Loader) : (s.withLoader x).loader = x := rfl
@[simp] theorem State.withLoader_ident (s : State) (x : Loader) : (s.withLoader x).ident = s.ident := rfl
@[simp] theorem State.withLoader_engine (s : State) (x : Loader) : (s.withLoader x).engine = s.engine := rfl
@[simp] theorem State.withLoader_presence (s : State) (x : Loader) : (s.withLoader x).presence = s.presence := rfl
@[simp] theorem State.withLoader_relay (s : State) (x : Loader) : (s.withLoader x).relay = s.relay := rfl
@[simp] theorem State.withLoader_zone (s : State) (x : Loader) : (s.withLoader x).zone = s.zone := rfl
@[simp] theorem State.withLoader_line (s : State) (x : Loader) : (s.withLoader x).line = s.line := rfl
@[simp] theorem State.withLoader_scanner (s : State) (x : Loader) : (s.withLoader x).scanner = s.scanner := rfl
@[simp] theorem State.withLoader_log (s : State) (x : Loader) : (s.withLoader x).log = s.log := rfl
@[simp] theorem State.withLoader_office (s : State) (x : Loader) : (s.withLoader x).office = s.office := rfl
@[simp] theorem State.withLoader_panel (s : State) (x : Loader) : (s.withLoader x).panel = s.panel := rfl
@[simp] theorem State.withLoader_pending (s : State) (x : Loader) : (s.withLoader x).pending = s.pending := rfl
@[simp] theorem State.withLoader_same (s : State) : s.withLoader s.loader = s := rfl
@[simp] theorem State.withLoader_withLoader (s : State) (x y : Loader) : (s.withLoader x).withLoader y = s.withLoader y := rfl

/-! ### `withIdent` -/

@[simp] theorem State.withIdent_now (s : State) (x : Identity) : (s.withIdent x).now = s.now := rfl
@[simp] theorem State.withIdent_loader (s : State) (x : Identity) : (s.withIdent x).loader = s.loader := rfl
@[simp] theorem State.withIdent_ident (s : State) (x : Identity) : (s.withIdent x).ident = x := rfl
@[simp] theorem State.withIdent_engine (s : State) (x : Identity) : (s.withIdent x).engine = s.engine := rfl
@[simp] theorem State.withIdent_presence (s : State) (x : Identity) : (s.withIdent x).presence = s.presence := rfl
@[simp] theorem State.withIdent_relay (s : State) (x : Identity) : (s.withIdent x).relay = s.relay := rfl
@[simp] theorem State.withIdent_zone (s : State) (x : Identity) : (s.withIdent x).zone = s.zone := rfl
@[simp] theorem State.withIdent_line (s : State) (x : Identity) : (s.withIdent x).line = s.line := rfl
@[simp] theorem State.withIdent_scanner (s : State) (x : Identity) : (s.withIdent x).scanner = s.scanner := rfl
@[simp] theorem State.withIdent_log (s : State) (x : Identity) : (s.withIdent x).log = s.log := rfl
@[simp] theorem State.withIdent_office (s : State) (x : Identity) : (s.withIdent x).office = s.office := rfl
@[simp] theorem State.withIdent_panel (s : State) (x : Identity) : (s.withIdent x).panel = s.panel := rfl
@[simp] theorem State.withIdent_pending (s : State) (x : Identity) : (s.withIdent x).pending = s.pending := rfl
@[simp] theorem State.withIdent_same (s : State) : s.withIdent s.ident = s := rfl
@[simp] theorem State.withIdent_withIdent (s : State) (x y : Identity) : (s.withIdent x).withIdent y = s.withIdent y := rfl

/-! ### `withEngine` -/

@[simp] theorem State.withEngine_now (s : State) (x : Engine) : (s.withEngine x).now = s.now := rfl
@[simp] theorem State.withEngine_loader (s : State) (x : Engine) : (s.withEngine x).loader = s.loader := rfl
@[simp] theorem State.withEngine_ident (s : State) (x : Engine) : (s.withEngine x).ident = s.ident := rfl
@[simp] theorem State.withEngine_engine (s : State) (x : Engine) : (s.withEngine x).engine = x := rfl
@[simp] theorem State.withEngine_presence (s : State) (x : Engine) : (s.withEngine x).presence = s.presence := rfl
@[simp] theorem State.withEngine_relay (s : State) (x : Engine) : (s.withEngine x).relay = s.relay := rfl
@[simp] theorem State.withEngine_zone (s : State) (x : Engine) : (s.withEngine x).zone = s.zone := rfl
@[simp] theorem State.withEngine_line (s : State) (x : Engine) : (s.withEngine x).line = s.line := rfl
@[simp] theorem State.withEngine_scanner (s : State) (x : Engine) : (s.withEngine x).scanner = s.scanner := rfl
@[simp] theorem State.withEngine_log (s : State) (x : Engine) : (s.withEngine x).log = s.log := rfl
@[simp] theorem State.withEngine_office (s : State) (x : Engine) : (s.withEngine x).office = s.office := rfl
@[simp] theorem State.withEngine_panel (s : State) (x : Engine) : (s.withEngine x).panel = s.panel := rfl
@[simp] theorem State.withEngine_pending (s : State) (x : Engine) : (s.withEngine x).pending = s.pending := rfl
@[simp] theorem State.withEngine_same (s : State) : s.withEngine s.engine = s := rfl
@[simp] theorem State.withEngine_withEngine (s : State) (x y : Engine) : (s.withEngine x).withEngine y = s.withEngine y := rfl

/-! ### `withPresence` -/

@[simp] theorem State.withPresence_now (s : State) (x : Presence) : (s.withPresence x).now = s.now := rfl
@[simp] theorem State.withPresence_loader (s : State) (x : Presence) : (s.withPresence x).loader = s.loader := rfl
@[simp] theorem State.withPresence_ident (s : State) (x : Presence) : (s.withPresence x).ident = s.ident := rfl
@[simp] theorem State.withPresence_engine (s : State) (x : Presence) : (s.withPresence x).engine = s.engine := rfl
@[simp] theorem State.withPresence_presence (s : State) (x : Presence) : (s.withPresence x).presence = x := rfl
@[simp] theorem State.withPresence_relay (s : State) (x : Presence) : (s.withPresence x).relay = s.relay := rfl
@[simp] theorem State.withPresence_zone (s : State) (x : Presence) : (s.withPresence x).zone = s.zone := rfl
@[simp] theorem State.withPresence_line (s : State) (x : Presence) : (s.withPresence x).line = s.line := rfl
@[simp] theorem State.withPresence_scanner (s : State) (x : Presence) : (s.withPresence x).scanner = s.scanner := rfl
@[simp] theorem State.withPresence_log (s : State) (x : Presence) : (s.withPresence x).log = s.log := rfl
@[simp] theorem State.withPresence_office (s : State) (x : Presence) : (s.withPresence x).office = s.office := rfl
@[simp] theorem State.withPresence_panel (s : State) (x : Presence) : (s.withPresence x).panel = s.panel := rfl
@[simp] theorem State.withPresence_pending (s : State) (x : Presence) : (s.withPresence x).pending = s.pending := rfl
@[simp] theorem State.withPresence_same (s : State) : s.withPresence s.presence = s := rfl
@[simp] theorem State.withPresence_withPresence (s : State) (x y : Presence) : (s.withPresence x).withPresence y = s.withPresence y := rfl

/-! ### `withRelay` -/

@[simp] theorem State.withRelay_now (s : State) (x : Relay) : (s.withRelay x).now = s.now := rfl
@[simp] theorem State.withRelay_loader (s : State) (x : Relay) : (s.withRelay x).loader = s.loader := rfl
@[simp] theorem State.withRelay_ident (s : State) (x : Relay) : (s.withRelay x).ident = s.ident := rfl
@[simp] theorem State.withRelay_engine (s : State) (x : Relay) : (s.withRelay x).engine = s.engine := rfl
@[simp] theorem State.withRelay_presence (s : State) (x : Relay) : (s.withRelay x).presence = s.presence := rfl
@[simp] theorem State.withRelay_relay (s : State) (x : Relay) : (s.withRelay x).relay = x := rfl
@[simp] theorem State.withRelay_zone (s : State) (x : Relay) : (s.withRelay x).zone = s.zone := rfl
@[simp] theorem State.withRelay_line (s : State) (x : Relay) : (s.withRelay x).line = s.line := rfl
@[simp] theorem State.withRelay_scanner (s : State) (x : Relay) : (s.withRelay x).scanner = s.scanner := rfl
@[simp] theorem State.withRelay_log (s : State) (x : Relay) : (s.withRelay x).log = s.log := rfl
@[simp] theorem State.withRelay_office (s : State) (x : Relay) : (s.withRelay x).office = s.office := rfl
@[simp] theorem State.withRelay_panel (s : State) (x : Relay) : (s.withRelay x).panel = s.panel := rfl
@[simp] theorem State.withRelay_pending (s : State) (x : Relay) : (s.withRelay x).pending = s.pending := rfl
@[simp] theorem State.withRelay_same (s : State) : s.withRelay s.relay = s := rfl
@[simp] theorem State.withRelay_withRelay (s : State) (x y : Relay) : (s.withRelay x).withRelay y = s.withRelay y := rfl

/-! ### `withZone` -/

@[simp] theorem State.withZone_now (s : State) (x : Zone) : (s.withZone x).now = s.now := rfl
@[simp] theorem State.withZone_loader (s : State) (x : Zone) : (s.withZone x).loader = s.loader := rfl
@[simp] theorem State.withZone_ident (s : State) (x : Zone) : (s.withZone x).ident = s.ident := rfl
@[simp] theorem State.withZone_engine (s : State) (x : Zone) : (s.withZone x).engine = s.engine := rfl
@[simp] theorem State.withZone_presence (s : State) (x : Zone) : (s.withZone x).presence = s.presence := rfl
@[simp] theorem State.withZone_relay (s : State) (x : Zone) : (s.withZone x).relay = s.relay := rfl
@[simp] theorem State.withZone_zone (s : State) (x : Zone) : (s.withZone x).zone = x := rfl
@[simp] theorem State.withZone_line (s : State) (x : Zone) : (s.withZone x).line = s.line := rfl
@[simp] theorem State.withZone_scanner (s : State) (x : Zone) : (s.withZone x).scanner = s.scanner := rfl
@[simp] theorem State.withZone_log (s : State) (x : Zone) : (s.withZone x).log = s.log := rfl
@[simp] theorem State.withZone_office (s : State) (x : Zone) : (s.withZone x).office = s.office := rfl
@[simp] theorem State.withZone_panel (s : State) (x : Zone) : (s.withZone x).panel = s.panel := rfl
@[simp] theorem State.withZone_pending (s : State) (x : Zone) : (s.withZone x).pending = s.pending := rfl
@[simp] theorem State.withZone_same (s : State) : s.withZone s.zone = s := rfl
@[simp] theorem State.withZone_withZone (s : State) (x y : Zone) : (s.withZone x).withZone y = s.withZone y := rfl

/-! ### `withLine` -/

@[simp] theorem State.withLine_now (s : State) (x : Line) : (s.withLine x).now = s.now := rfl
@[simp] theorem State.withLine_loader (s : State) (x : Line) : (s.withLine x).loader = s.loader := rfl
@[simp] theorem State.withLine_ident (s : State) (x : Line) : (s.withLine x).ident = s.ident := rfl
@[simp] theorem State.withLine_engine (s : State) (x : Line) : (s.withLine x).engine = s.engine := rfl
@[simp] theorem State.withLine_presence (s : State) (x : Line) : (s.withLine x).presence = s.presence := rfl
@[simp] theorem State.withLine_relay (s : State) (x : Line) : (s.withLine x).relay = s.relay := rfl
@[simp] theorem State.withLine_zone (s : State) (x : Line) : (s.withLine x).zone = s.zone := rfl
@[simp] theorem State.withLine_line (s : State) (x : Line) : (s.withLine x).line = x := rfl
@[simp] theorem State.withLine_scanner (s : State) (x : Line) : (s.withLine x).scanner = s.scanner := rfl
@[simp] theorem State.withLine_log (s : State) (x : Line) : (s.withLine x).log = s.log := rfl
@[simp] theorem State.withLine_office (s : State) (x : Line) : (s.withLine x).office = s.office := rfl
@[simp] theorem State.withLine_panel (s : State) (x : Line) : (s.withLine x).panel = s.panel := rfl
@[simp] theorem State.withLine_pending (s : State) (x : Line) : (s.withLine x).pending = s.pending := rfl
@[simp] theorem State.withLine_same (s : State) : s.withLine s.line = s := rfl
@[simp] theorem State.withLine_withLine (s : State) (x y : Line) : (s.withLine x).withLine y = s.withLine y := rfl

/-! ### `withScanner` -/

@[simp] theorem State.withScanner_now (s : State) (x : Scanner) : (s.withScanner x).now = s.now := rfl
@[simp] theorem State.withScanner_loader (s : State) (x : Scanner) : (s.withScanner x).loader = s.loader := rfl
@[simp] theorem State.withScanner_ident (s : State) (x : Scanner) : (s.withScanner x).ident = s.ident := rfl
@[simp] theorem State.withScanner_engine (s : State) (x : Scanner) : (s.withScanner x).engine = s.engine := rfl
@[simp] theorem State.withScanner_presence (s : State) (x : Scanner) : (s.withScanner x).presence = s.presence := rfl
@[simp] theorem State.withScanner_relay (s : State) (x : Scanner) : (s.withScanner x).relay = s.relay := rfl
@[simp] theorem State.withScanner_zone (s : State) (x : Scanner) : (s.withScanner x).zone = s.zone := rfl
@[simp] theorem State.withScanner_line (s : State) (x : Scanner) : (s.withScanner x).line = s.line := rfl
@[simp] theorem State.withScanner_scanner (s : State) (x : Scanner) : (s.withScanner x).scanner = x := rfl
@[simp] theorem State.withScanner_log (s : State) (x : Scanner) : (s.withScanner x).log = s.log := rfl
@[simp] theorem State.withScanner_office (s : State) (x : Scanner) : (s.withScanner x).office = s.office := rfl
@[simp] theorem State.withScanner_panel (s : State) (x : Scanner) : (s.withScanner x).panel = s.panel := rfl
@[simp] theorem State.withScanner_pending (s : State) (x : Scanner) : (s.withScanner x).pending = s.pending := rfl
@[simp] theorem State.withScanner_same (s : State) : s.withScanner s.scanner = s := rfl
@[simp] theorem State.withScanner_withScanner (s : State) (x y : Scanner) : (s.withScanner x).withScanner y = s.withScanner y := rfl

/-! ### `withLog` -/

@[simp] theorem State.withLog_now (s : State) (x : Log) : (s.withLog x).now = s.now := rfl
@[simp] theorem State.withLog_loader (s : State) (x : Log) : (s.withLog x).loader = s.loader := rfl
@[simp] theorem State.withLog_ident (s : State) (x : Log) : (s.withLog x).ident = s.ident := rfl
@[simp] theorem State.withLog_engine (s : State) (x : Log) : (s.withLog x).engine = s.engine := rfl
@[simp] theorem State.withLog_presence (s : State) (x : Log) : (s.withLog x).presence = s.presence := rfl
@[simp] theorem State.withLog_relay (s : State) (x : Log) : (s.withLog x).relay = s.relay := rfl
@[simp] theorem State.withLog_zone (s : State) (x : Log) : (s.withLog x).zone = s.zone := rfl
@[simp] theorem State.withLog_line (s : State) (x : Log) : (s.withLog x).line = s.line := rfl
@[simp] theorem State.withLog_scanner (s : State) (x : Log) : (s.withLog x).scanner = s.scanner := rfl
@[simp] theorem State.withLog_log (s : State) (x : Log) : (s.withLog x).log = x := rfl
@[simp] theorem State.withLog_office (s : State) (x : Log) : (s.withLog x).office = s.office := rfl
@[simp] theorem State.withLog_panel (s : State) (x : Log) : (s.withLog x).panel = s.panel := rfl
@[simp] theorem State.withLog_pending (s : State) (x : Log) : (s.withLog x).pending = s.pending := rfl
@[simp] theorem State.withLog_same (s : State) : s.withLog s.log = s := rfl
@[simp] theorem State.withLog_withLog (s : State) (x y : Log) : (s.withLog x).withLog y = s.withLog y := rfl

/-! ### `withOffice` -/

@[simp] theorem State.withOffice_now (s : State) (x : Office) : (s.withOffice x).now = s.now := rfl
@[simp] theorem State.withOffice_loader (s : State) (x : Office) : (s.withOffice x).loader = s.loader := rfl
@[simp] theorem State.withOffice_ident (s : State) (x : Office) : (s.withOffice x).ident = s.ident := rfl
@[simp] theorem State.withOffice_engine (s : State) (x : Office) : (s.withOffice x).engine = s.engine := rfl
@[simp] theorem State.withOffice_presence (s : State) (x : Office) : (s.withOffice x).presence = s.presence := rfl
@[simp] theorem State.withOffice_relay (s : State) (x : Office) : (s.withOffice x).relay = s.relay := rfl
@[simp] theorem State.withOffice_zone (s : State) (x : Office) : (s.withOffice x).zone = s.zone := rfl
@[simp] theorem State.withOffice_line (s : State) (x : Office) : (s.withOffice x).line = s.line := rfl
@[simp] theorem State.withOffice_scanner (s : State) (x : Office) : (s.withOffice x).scanner = s.scanner := rfl
@[simp] theorem State.withOffice_log (s : State) (x : Office) : (s.withOffice x).log = s.log := rfl
@[simp] theorem State.withOffice_office (s : State) (x : Office) : (s.withOffice x).office = x := rfl
@[simp] theorem State.withOffice_panel (s : State) (x : Office) : (s.withOffice x).panel = s.panel := rfl
@[simp] theorem State.withOffice_pending (s : State) (x : Office) : (s.withOffice x).pending = s.pending := rfl
@[simp] theorem State.withOffice_same (s : State) : s.withOffice s.office = s := rfl
@[simp] theorem State.withOffice_withOffice (s : State) (x y : Office) : (s.withOffice x).withOffice y = s.withOffice y := rfl

/-! ### `withPanel` -/

@[simp] theorem State.withPanel_now (s : State) (x : Panel) : (s.withPanel x).now = s.now := rfl
@[simp] theorem State.withPanel_loader (s : State) (x : Panel) : (s.withPanel x).loader = s.loader := rfl
@[simp] theorem State.withPanel_ident (s : State) (x : Panel) : (s.withPanel x).ident = s.ident := rfl
@[simp] theorem State.withPanel_engine (s : State) (x : Panel) : (s.withPanel x).engine = s.engine := rfl
@[simp] theorem State.withPanel_presence (s : State) (x : Panel) : (s.withPanel x).presence = s.presence := rfl
@[simp] theorem State.withPanel_relay (s : State) (x : Panel) : (s.withPanel x).relay = s.relay := rfl
@[simp] theorem State.withPanel_zone (s : State) (x : Panel) : (s.withPanel x).zone = s.zone := rfl
@[simp] theorem State.withPanel_line (s : State) (x : Panel) : (s.withPanel x).line = s.line := rfl
@[simp] theorem State.withPanel_scanner (s : State) (x : Panel) : (s.withPanel x).scanner = s.scanner := rfl
@[simp] theorem State.withPanel_log (s : State) (x : Panel) : (s.withPanel x).log = s.log := rfl
@[simp] theorem State.withPanel_office (s : State) (x : Panel) : (s.withPanel x).office = s.office := rfl
@[simp] theorem State.withPanel_panel (s : State) (x : Panel) : (s.withPanel x).panel = x := rfl
@[simp] theorem State.withPanel_pending (s : State) (x : Panel) : (s.withPanel x).pending = s.pending := rfl
@[simp] theorem State.withPanel_same (s : State) : s.withPanel s.panel = s := rfl
@[simp] theorem State.withPanel_withPanel (s : State) (x y : Panel) : (s.withPanel x).withPanel y = s.withPanel y := rfl

/-! ### `withPending` -/

@[simp] theorem State.withPending_now (s : State) (x : List Instr) : (s.withPending x).now = s.now := rfl
@[simp] theorem State.withPending_loader (s : State) (x : List Instr) : (s.withPending x).loader = s.loader := rfl
@[simp] theorem State.withPending_ident (s : State) (x : List Instr) : (s.withPending x).ident = s.ident := rfl
@[simp] theorem State.withPending_engine (s : State) (x : List Instr) : (s.withPending x).engine = s.engine := rfl
@[simp] theorem State.withPending_presence (s : State) (x : List Instr) : (s.withPending x).presence = s.presence := rfl
@[simp] theorem State.withPending_relay (s : State) (x : List Instr) : (s.withPending x).relay = s.relay := rfl
@[simp] theorem State.withPending_zone (s : State) (x : List Instr) : (s.withPending x).zone = s.zone := rfl
@[simp] theorem State.withPending_line (s : State) (x : List Instr) : (s.withPending x).line = s.line := rfl
@[simp] theorem State.withPending_scanner (s : State) (x : List Instr) : (s.withPending x).scanner = s.scanner := rfl
@[simp] theorem State.withPending_log (s : State) (x : List Instr) : (s.withPending x).log = s.log := rfl
@[simp] theorem State.withPending_office (s : State) (x : List Instr) : (s.withPending x).office = s.office := rfl
@[simp] theorem State.withPending_panel (s : State) (x : List Instr) : (s.withPending x).panel = s.panel := rfl
@[simp] theorem State.withPending_pending (s : State) (x : List Instr) : (s.withPending x).pending = x := rfl
@[simp] theorem State.withPending_same (s : State) : s.withPending s.pending = s := rfl
@[simp] theorem State.withPending_withPending (s : State) (x y : List Instr) : (s.withPending x).withPending y = s.withPending y := rfl

end Sys2Proof.Machine
end

