-- ==== Sys2Proof/Laws/Log.lean ====
section
/-! SUPPORT. What appending a history record can do, and the numbers of the records (R163 to R167). -/

namespace Sys2Proof.Machine

/-- The counts, and with them the numbers, of the records held run on without a gap to the next one (R164). -/
abbrev Log.Numbered (l : Log) : Prop :=
  ∃ first, l.appended = first + l.records.length ∧ l.records.map (·.count) = List.range' first l.records.length

/-- Numbers run on as the counts do, modulo 65536 (R164). -/
theorem recordNumber_add (n k : Nat) : recordNumber (n + k) = (recordNumber n + k) % 65536 := by
  unfold recordNumber; omega

/-- Comparing counts is comparing numbers in the order of the numbering (R173): a record at most 128 before the place `c`, or fewer than
65408 at or past it, is before it exactly when its number is. -/
theorem count_lt_iff (c : Nat) (h : Held) (h1 : c ≤ h.count + 128) (h2 : h.count < c + 65408) :
    h.count < c ↔ 1 ≤ (recordNumber c + 65536 - h.number) % 65536 ∧ (recordNumber c + 65536 - h.number) % 65536 ≤ 128 := by
  unfold Held.number recordNumber; omega

/-- The number of the record behind another (R164). -/
theorem Log.Numbered.succ {l : Log} (h : l.Numbered) {i : Nat} {x y : Held} (hx : l.records[i]? = some x)
    (hy : l.records[i + 1]? = some y) : y.number = (x.number + 1) % 65536 := by
  obtain ⟨first, -, hr⟩ := h
  have at' : ∀ j z, l.records[j]? = some z → z.count = first + j := fun j z hz => by
    have := congrArg (·[j]?) hr
    simp only [List.getElem?_map, hz, Option.map_some] at this
    have hj := (List.getElem?_eq_some_iff.1 hz).1
    rw [List.getElem?_range' hj] at this
    simpa using this
  simp only [Held.number, at' _ _ hx, at' _ _ hy, ← Nat.add_assoc, recordNumber_add (first + i) 1]

/-- Counts that run on do so without the oldest ones. -/
theorem numbered_drop {first : Nat} {q : List Held} (k : Nat) (h : q.map (·.count) = List.range' first q.length) :
    (q.drop k).map (·.count) = List.range' (first + k) (q.length - k) := by
  rw [List.map_drop, h, List.drop_range', Nat.mul_one]

/-- The records from a count on are those that remain when the oldest ones are dropped. -/
theorem numbered_filter {first : Nat} {q : List Held} (c : Nat) (h : q.map (·.count) = List.range' first q.length) :
    q.filter (fun x => decide (c ≤ x.count)) = q.drop (c - first) := by
  induction q generalizing first with
  | nil => simp
  | cons x q ih =>
    rw [List.length_cons, List.range'_succ, List.map_cons, List.cons.injEq] at h
    rw [List.filter_cons]
    split
    · next hx =>
      have hc : c ≤ x.count := of_decide_eq_true hx
      rw [ih h.2, show c - first = 0 by omega, show c - (first + 1) = 0 by omega, List.drop_zero, List.drop_zero]
    · next hx =>
      have hc : ¬ c ≤ x.count := fun hc => hx (decide_eq_true hc)
      rw [ih h.2, show c - first = (c - (first + 1)) + 1 by omega, List.drop_succ_cons]

/-- The bounds of R164, R166 and R162 on a log alone. -/
abbrev Log.Sound (l : Log) : Prop :=
  l.records.length ≤ logMax ∧ l.records.Pairwise (fun a b => a.record.time ≤ b.record.time) ∧
  (∀ h ∈ l.records, h.record.time ≤ l.seconds) ∧ l.lost ≤ lostMax ∧ l.seconds ≤ secondsMax ∧ l.Numbered

theorem logSound_iff (s : State) : LogSound s ↔ s.log.Sound := Iff.rfl

/-- A log after appends: its clock, mode and watermark are kept, and its bounds. -/
structure Log.Grows (l m : Log) : Prop where
  mode : m.mode = l.mode
  watermark : m.watermark = l.watermark
  seconds : m.seconds = l.seconds
  secondAt : m.secondAt = l.secondAt
  sound : l.Sound → m.Sound

theorem Log.Grows.refl (l : Log) : l.Grows l := ⟨rfl, rfl, rfl, rfl, id⟩

theorem Log.Grows.trans {l m n : Log} (h : l.Grows m) (k : m.Grows n) : l.Grows n :=
  ⟨k.mode.trans h.mode, k.watermark.trans h.watermark, k.seconds.trans h.seconds, k.secondAt.trans h.secondAt,
   k.sound ∘ h.sound⟩

theorem Log.add_grows (l : Log) (r : Record) (hr : r.time = l.seconds) : l.Grows (l.add r) := by
  refine ⟨rfl, rfl, rfl, rfl, ?_⟩
  rintro ⟨h1, h2, h3, h4, h5, h6⟩
  have key : ∀ q : List Held, q.Pairwise (fun a b => a.record.time ≤ b.record.time) →
      (∀ h ∈ q, h.record.time ≤ l.seconds) →
      (q ++ [(⟨l.appended, r⟩ : Held)]).Pairwise (fun a b => a.record.time ≤ b.record.time) ∧
      ∀ h ∈ q ++ [(⟨l.appended, r⟩ : Held)], h.record.time ≤ l.seconds := by
    intro q hp hq
    constructor
    · rw [List.pairwise_append]
      exact ⟨hp, by simp, by simpa [hr] using hq⟩
    · intro h hh
      rcases List.mem_append.1 hh with hh | hh
      · exact hq h hh
      · simp only [List.mem_singleton] at hh; simp [hh, hr]
  unfold Log.Sound Log.add
  obtain ⟨first, hn, hr'⟩ := h6
  have nums : ∀ k : Nat, k ≤ l.records.length → ∃ first', l.appended + 1 = first' + (l.records.drop k ++ [(⟨l.appended, r⟩ : Held)]).length ∧
      (l.records.drop k ++ [(⟨l.appended, r⟩ : Held)]).map (·.count) =
        List.range' first' (l.records.drop k ++ [(⟨l.appended, r⟩ : Held)]).length := by
    intro k hk
    refine ⟨first + k, by simp; omega, ?_⟩
    rw [List.map_append, numbered_drop k hr', List.length_append, List.length_drop, List.length_singleton, List.range'_concat]
    simp; omega
  by_cases hl : l.records.length < logMax
  · obtain ⟨a, b⟩ := key _ h2 h3
    simp only [hl, if_true]
    exact ⟨by simp; omega, a, b, h4, h5, nums 0 (Nat.zero_le _)⟩
  · obtain ⟨a, b⟩ := key (l.records.drop 1) (h2.sublist (List.drop_sublist _ _))
      (fun h hh => h3 h (List.mem_of_mem_drop hh))
    simp only [hl, if_false]
    exact ⟨by simp [logMax] at *; omega, a, b, h4, h5, nums 1 (by simp [logMax] at hl; omega)⟩

theorem Log.payLost_grows (l : Log) : l.Grows l.payLost := by
  unfold Log.payLost
  split
  · have h := l.add_grows ⟨.lost, l.seconds, none, none, some l.lost⟩ rfl
    exact ⟨h.mode, h.watermark, h.seconds, h.secondAt, fun hs => by
      obtain ⟨a, b, c, d, e, f⟩ := h.sound hs
      exact ⟨a, b, c, by simp, e, f⟩⟩
  · exact .refl l

theorem Log.take_grows (l : Log) (r : Record) (fr : Bool) (hr : r.time = l.seconds) : l.Grows (l.take r fr) := by
  unfold Log.take
  have h := l.add_grows r hr
  split
  · split
    · exact ⟨h.mode, h.watermark, h.seconds, h.secondAt, h.sound⟩
    · exact h
  · exact ⟨rfl, rfl, rfl, rfl, fun ⟨a, b, c, d, e, f⟩ => ⟨a, b, c, by simp [raised, lostMax], e, f⟩⟩

/-- Everything an append can do: it keeps clock, mode, watermark and bounds. -/
theorem Log.append_grows (l : Log) (tag : Tag) (se pa de : Option Nat) (fr : Bool) :
    l.Grows (l.append tag se pa de fr) := by
  unfold Log.append
  split
  · exact .refl l
  · have h := l.payLost_grows
    exact h.trans (Log.take_grows _ _ _ h.seconds.symm)

/-- `m` is `l` with `n` records added, counted on from the last appended; some of the oldest may have gone (R164). -/
def Log.Adds (n : Nat) (l m : Log) : Prop :=
  m.appended = l.appended + n ∧ ∀ h ∈ m.records, h ∈ l.records ∨ ∃ k < n, h.count = l.appended + k

theorem Log.Adds.trans {a b : Nat} {l m n : Log} (h : l.Adds a m) (k : m.Adds b n) : l.Adds (a + b) n := by
  refine ⟨by rw [k.1, h.1, Nat.add_assoc], fun x hx => ?_⟩
  rcases k.2 x hx with hx | ⟨j, hj, hx⟩
  · exact (h.2 x hx).imp id fun ⟨j, hj, hx⟩ => ⟨j, by omega, hx⟩
  · exact .inr ⟨a + j, by omega, by rw [hx, h.1, Nat.add_assoc]⟩

theorem Log.add_adds (l : Log) (r : Record) : l.Adds 1 (l.add r) := by
  refine ⟨rfl, fun h hh => ?_⟩
  rcases List.mem_append.1 hh with hh | hh
  · refine .inl ?_
    split at hh
    · exact hh
    · exact List.mem_of_mem_drop hh
  · rw [List.mem_singleton.1 hh]
    exact .inr ⟨0, Nat.one_pos, rfl⟩

theorem Log.payLost_adds (l : Log) : ∃ n ≤ 1, l.Adds n l.payLost := by
  unfold Log.payLost
  split
  · exact ⟨1, Nat.le_refl _, l.add_adds _⟩
  · exact ⟨0, Nat.zero_le _, rfl, fun _ h => .inl h⟩

theorem Log.take_adds (l : Log) (r : Record) (fr : Bool) : ∃ n ≤ 1, l.Adds n (l.take r fr) := by
  unfold Log.take
  split
  · split <;> exact ⟨1, Nat.le_refl _, l.add_adds r⟩
  · exact ⟨0, Nat.zero_le _, rfl, fun _ h => .inl h⟩

/-- An append adds at most the LOST record owed and the record handed to the log (R164, R166). -/
theorem Log.append_adds (l : Log) (tag : Tag) (se pa de : Option Nat) (fr : Bool) : ∃ n ≤ 2, l.Adds n (l.append tag se pa de fr) := by
  unfold Log.append
  split
  · exact ⟨0, Nat.zero_le _, rfl, fun _ h => .inl h⟩
  · obtain ⟨a, ha, h⟩ := l.payLost_adds
    obtain ⟨b, hb, k⟩ := l.payLost.take_adds ⟨tag, l.seconds, se, pa, de⟩ fr
    exact ⟨a + b, by omega, h.trans k⟩

/-- With the mode unset nothing is appended (R169). -/
theorem Log.append_unset (l : Log) (tag : Tag) (se pa de : Option Nat) (fr : Bool) (h : l.mode = none) :
    l.append tag se pa de fr = l := by simp [Log.append, h]

/-- An append changes the log alone. -/
theorem State.append_eq (s : State) (tag : Tag) (se pa de : Option Nat) :
    s.append tag se pa de = s.withLog (s.log.append tag se pa de false) := rfl

end Sys2Proof.Machine
end

