-- ==== Sys2Proof/Laws/Line.lean ====
section
/-! SUPPORT. What offering a burst to the transmit queue can do (R117 to R120). -/

namespace Sys2Proof.Machine

/-- The bounds of R117, R119 and R127 on a line alone. -/
abbrev Line.Sound (l : Line) : Prop :=
  l.queue.length ≤ queueMax ∧ UrgentFirst l.free ∧ (∀ b ∈ l.queue, b.attempts < attemptMax) ∧
  (l.sending.isSome = true → l.queue ≠ []) ∧ (l.hold = true → l.queue = [])

theorem queueSound_iff (s : State) : QueueSound s ↔ s.line.Sound := Iff.rfl

theorem UrgentFirst.sublist {q r : List Queued} (h : UrgentFirst r) (hs : q.Sublist r) : UrgentFirst q :=
  List.Pairwise.sublist hs h

theorem urgentFirst_append_ordinary {q : List Queued} (h : UrgentFirst q) (b : Queued) (hb : b.cls = .class1) :
    UrgentFirst (q ++ [b]) := by
  unfold UrgentFirst
  rw [List.pairwise_append]
  exact ⟨h, by simp, by simp [hb]⟩

theorem class1_of_ne {b : Queued} (h : (b.cls == .class0) = false) : b.cls = .class1 := by
  cases hb : b.cls <;> simp_all

/-- Behind a class 1 burst stand class 1 bursts only. -/
theorem dropWhile_class1 {q : List Queued} (h : UrgentFirst q) :
    ∀ b ∈ q.dropWhile (·.cls == .class0), b.cls = .class1 := by
  induction q with
  | nil => simp
  | cons a q ih =>
    obtain ⟨ha, hq⟩ := List.pairwise_cons.1 h
    rw [List.dropWhile_cons]
    split
    · exact ih hq
    · next hc =>
      have hc' : a.cls = .class1 := class1_of_ne (by simpa using hc)
      intro b hb
      rcases List.mem_cons.1 hb with rfl | hb
      · exact hc'
      · exact ha b hb hc'

theorem takeWhile_class0 (q : List Queued) : ∀ b ∈ q.takeWhile (·.cls == .class0), b.cls = .class0 := by
  intro b hb
  simpa using List.mem_takeWhile_imp hb

theorem placeUrgent_length (b : Queued) (q : List Queued) : (placeUrgent b q).length = q.length + 1 := by
  have h := congrArg List.length (List.takeWhile_append_dropWhile (p := fun x : Queued => x.cls == .class0) (l := q))
  rw [List.length_append] at h
  unfold placeUrgent
  rw [List.length_append, List.length_cons]
  omega

theorem mem_placeUrgent {b x : Queued} {q : List Queued} (h : x ∈ placeUrgent b q) : x = b ∨ x ∈ q := by
  unfold placeUrgent at h
  rcases List.mem_append.1 h with h | h
  · exact .inr ((List.takeWhile_sublist _).mem h)
  · rcases List.mem_cons.1 h with h | h
    · exact .inl h
    · exact .inr ((List.dropWhile_sublist _).mem h)

/-- A burst placed behind the class 0 bursts leaves the order of R117. -/
theorem urgentFirst_placeUrgent {q : List Queued} (h : UrgentFirst q) (b : Queued) : UrgentFirst (placeUrgent b q) := by
  unfold UrgentFirst placeUrgent
  rw [List.pairwise_append, List.pairwise_cons]
  refine ⟨h.sublist (List.takeWhile_sublist _), ⟨?_, h.sublist (List.dropWhile_sublist _)⟩, ?_⟩
  · intro x hx _; exact dropWhile_class1 h x hx
  · intro a ha x _ hc
    have := takeWhile_class0 q a ha
    simp [this] at hc

/-- Placing a burst where there is room keeps the bounds, and touches the queue alone. -/
theorem Line.place_eq (l : Line) (b : Queued) : l.place b = { l with queue := (l.place b).queue } := by
  unfold Line.place; split <;> (try split) <;> rfl

theorem Line.place_sound {l : Line} (hs : l.Sound) (hh : l.hold = false) (hr : l.queue.length < queueMax)
    {b : Queued} (hb : b.attempts < attemptMax) : (l.place b).Sound := by
  obtain ⟨h1, h2, h3, h4, h5⟩ := hs
  unfold Line.place
  split
  · next hc =>
    refine ⟨by simp; omega, ?_, ?_, by simp, by simp [hh]⟩
    · by_cases hx : l.sending.isSome = true
      · have hne := h4 hx
        cases hq : l.queue with
        | nil => exact absurd hq hne
        | cons a q =>
          simp only [Line.free, hx, hq] at h2 ⊢
          exact urgentFirst_append_ordinary h2 b hc
      · simp only [Line.free, hx] at h2 ⊢
        exact urgentFirst_append_ordinary h2 b hc
    · intro x hx
      rcases List.mem_append.1 hx with hx | hx
      · exact h3 x hx
      · simp at hx; simpa [hx] using hb
  · split
    · next hx =>
      have hne := h4 hx
      cases hq : l.queue with
      | nil => exact absurd hq hne
      | cons a q =>
        simp only [Line.free, hx, hq] at h2
        refine ⟨?_, ?_, ?_, by simp, by simp [hh]⟩
        · simp [placeUrgent_length, hq] at *; omega
        · simp only [Line.free, hx]; exact urgentFirst_placeUrgent h2 b
        · intro x hm
          simp only [List.take_succ_cons, List.take_zero, List.drop_succ_cons, List.drop_zero, List.cons_append,
            List.nil_append, List.mem_cons] at hm
          rcases hm with rfl | hm
          · exact h3 _ (by simp [hq])
          · rcases mem_placeUrgent hm with rfl | hm
            · exact hb
            · exact h3 x (by simp [hq, hm])
    · next hx =>
      simp only [Line.free, hx] at h2
      refine ⟨?_, ?_, ?_, by simp [hx], by simp [hh]⟩
      · simp [placeUrgent_length]; omega
      · simp only [Line.free, hx]; exact urgentFirst_placeUrgent h2 b
      · intro x hm
        rcases mem_placeUrgent hm with rfl | hm
        · exact hb
        · exact h3 x hm

theorem Line.dropLast_sound {l : Line} (hs : l.Sound) (h : 1 < l.queue.length) :
    ({ l with queue := l.queue.dropLast } : Line).Sound := by
  obtain ⟨h1, h2, h3, h4, h5⟩ := hs
  refine ⟨by simp; omega, ?_, fun b hb => h3 b (List.mem_of_mem_dropLast hb), ?_, ?_⟩
  · unfold Line.free at *
    by_cases hx : l.sending.isSome = true
    · simp only [hx, if_true] at *
      refine h2.sublist ?_
      rw [List.drop_one, List.drop_one, List.tail_dropLast]
      exact List.dropLast_sublist _
    · simp only [hx] at *
      exact h2.sublist (List.dropLast_sublist _)
  · intro _ hq
    have := congrArg List.length hq
    simp at this; omega
  · intro hh; simp [h5 hh]

/-- What an offer can do (R118 to R120): the queue, and the office drain when a LOG is lost. Everything else is kept. -/
structure Offered (s t : State) : Prop where
  rest : t = { s with line := t.line, office := t.office }
  line : t.line = { s.line with queue := t.line.queue }
  office : t.office = s.office ∨ t.office.drain = none
  queueSound : QueueSound s → QueueSound t

theorem State.reportLost_rest (s : State) (b : Queued) :
    s.reportLost b = s ∨ s.reportLost b = s.withOffice { s.office with drain := none } := by
  unfold State.reportLost State.logLost
  split <;> simp

/-- Everything an offer can do to the state (R118, R119, R120). -/
theorem State.offer_spec (s : State) (body : Body) (cls : LineClass) (who : Option Nat) :
    Offered s (s.offer body cls who).1 := by
  unfold State.offer
  simp only
  split
  · rcases s.reportLost_rest { body := body, cls := cls, addressee := who, attempts := 0 } with h | h <;> rw [h]
    · exact ⟨rfl, rfl, .inl rfl, id⟩
    · exact ⟨rfl, rfl, .inr rfl, id⟩
  · next hh =>
    have hh' : s.line.hold = false := by simpa using hh
    split
    · next hr =>
      exact ⟨rfl, Line.place_eq _ _, .inl rfl, fun hs =>
        Line.place_sound hs hh' hr (show 0 < attemptMax by decide)⟩
    · next hr =>
      split
      · next out he =>
        have hlen : ¬ s.line.queue.length < queueMax := hr
        have hq : QueueSound s → (({ s.line with queue := s.line.queue.dropLast } : Line).place
            { body := body, cls := .class0, addressee := who, attempts := 0 }).Sound := fun hs => by
          have h8 : queueMax ≤ s.line.queue.length := by omega
          have h9 : s.line.queue.length ≤ queueMax := hs.1
          refine Line.place_sound (Line.dropLast_sound hs ?_) hh' ?_ (show 0 < attemptMax by decide)
          · simp [queueMax] at *; omega
          · simp [queueMax] at *; omega
        rcases State.reportLost_rest (s.withLine (({ s.line with queue := s.line.queue.dropLast } : Line).place
            { body := body, cls := .class0, addressee := who, attempts := 0 })) out with h | h <;> rw [h]
        · refine ⟨rfl, ?_, .inl rfl, hq⟩
          simp only [State.withLine_line]
          rw [Line.place_eq]
        · refine ⟨rfl, ?_, .inr rfl, hq⟩
          simp only [State.withLine_line, State.withOffice_line]
          rw [Line.place_eq]
      · exact ⟨rfl, rfl, .inl rfl, id⟩

/-- In LINE HOLD every offer is accepted (R119). -/
theorem State.offer_hold (s : State) (body : Body) (cls : LineClass) (who : Option Nat) (h : s.line.hold = true) :
    (s.offer body cls who).2 = true := by simp [State.offer, h]

/-- A queue with room accepts every offer (R118). -/
theorem State.offer_room (s : State) (body : Body) (cls : LineClass) (who : Option Nat) (h : s.line.hold = false)
    (hr : s.line.queue.length < queueMax) :
    s.offer body cls who = (s.withLine (s.line.place { body := body, cls := cls, addressee := who, attempts := 0 }), true) := by
  simp [State.offer, h, hr]

/-- A full queue refuses a class 1 burst and changes nothing (R118). -/
theorem State.offer_refused (s : State) (body : Body) (who : Option Nat) (h : s.line.hold = false)
    (hr : queueMax ≤ s.line.queue.length) : s.offer body .class1 who = (s, false) := by
  simp [State.offer, h, Nat.not_lt.2 hr]

/-- A full queue takes a class 0 burst for its newest class 1 burst, which is lost (R118, R120). -/
theorem State.offer_evicts (s : State) (body : Body) (who : Option Nat) {out : Queued} (h : s.line.hold = false)
    (hr : queueMax ≤ s.line.queue.length) (ho : s.line.evictable = some out) :
    s.offer body .class0 who =
      ((s.withLine (({ s.line with queue := s.line.queue.dropLast } : Line).place ⟨body, .class0, who, 0⟩)).reportLost out, true) := by
  simp only [State.offer, Nat.not_lt.2 hr, ho, if_false]
  rw [if_neg (by simp [h])]

/-- A full queue with no class 1 burst to lose refuses every burst (R118). -/
theorem State.offer_full (s : State) (body : Body) (cls : LineClass) (who : Option Nat) (h : s.line.hold = false)
    (hr : queueMax ≤ s.line.queue.length) (ho : s.line.evictable = none) : s.offer body cls who = (s, false) := by
  simp only [State.offer, Nat.not_lt.2 hr, ho, if_false]
  rw [if_neg (by simp [h])]

end Sys2Proof.Machine
end

