-- ==== Sys2Proof/Laws/Pages.lean ====
section
/-! SUPPORT. What the operations on the page list, the answer list and the cycle plan can do (R67 to R103). -/

namespace Sys2Proof.Machine

/-- The bounds of R67 on a page list alone. -/
abbrev PageListSound (ps : List PageEntry) : Prop :=
  ps.length ≤ pageListMax ∧ (ps.map (·.key)).Nodup ∧ ∀ e ∈ ps, e.repeats ≤ 8 ∧ e.spentLeft ≤ spentLinger

/-- Every frame stands in the home slot of its pager (R92). -/
abbrev PlanSound (plan : List (Option PageFrame)) : Prop :=
  plan.length = 32 ∧ ∀ slot < 32, ∀ f, plan[slot]? = some (some f) → homeSlot f.key.pager = slot

/-- What an operation on pages can do: it keeps every block but the page list, the answer list and the plan, and their bounds, those
of the page list under the premise `P`. -/
structure Paged (P : Prop) (s t : State) : Prop where
  rest : t = { s with relay := t.relay, zone := t.zone }
  zone : t.zone = { s.zone with plan := t.zone.plan }
  pages : P → PageListSound s.relay.pages → PageListSound t.relay.pages
  plan : PlanSound s.zone.plan → PlanSound t.zone.plan
  answers : t.relay.answers.Sublist s.relay.answers
  refused : s.relay.refused ≤ counterMax → t.relay.refused ≤ counterMax

theorem Paged.refl (s : State) : Paged P s s := ⟨rfl, rfl, fun _ => id, id, .refl _, id⟩

theorem Paged.trans {s t u : State} (h : Paged P s t) (k : Paged P t u) : Paged P s u := by
  refine ⟨?_, ?_, fun p => k.pages p ∘ h.pages p, k.plan ∘ h.plan, k.answers.trans h.answers, k.refused ∘ h.refused⟩
  · have a := h.rest; have b := k.rest
    rw [a] at b; exact b
  · have a := h.zone; have b := k.zone
    rw [a] at b; exact b

theorem Paged.foldl {α : Type} {f : State → α → State} (h : ∀ s a, Paged P s (f s a)) (l : List α) :
    ∀ s, Paged P s (l.foldl f s) := by
  induction l with
  | nil => exact Paged.refl
  | cons a l ih => exact fun s => (h s a).trans (ih _)

theorem Paged.now {s t : State} (h : Paged P s t) : t.now = s.now := by rw [h.rest]
theorem Paged.loader {s t : State} (h : Paged P s t) : t.loader = s.loader := by rw [h.rest]
theorem Paged.ident {s t : State} (h : Paged P s t) : t.ident = s.ident := by rw [h.rest]
theorem Paged.engine {s t : State} (h : Paged P s t) : t.engine = s.engine := by rw [h.rest]
theorem Paged.presence {s t : State} (h : Paged P s t) : t.presence = s.presence := by rw [h.rest]
theorem Paged.line {s t : State} (h : Paged P s t) : t.line = s.line := by rw [h.rest]
theorem Paged.scanner {s t : State} (h : Paged P s t) : t.scanner = s.scanner := by rw [h.rest]
theorem Paged.log {s t : State} (h : Paged P s t) : t.log = s.log := by rw [h.rest]
theorem Paged.office {s t : State} (h : Paged P s t) : t.office = s.office := by rw [h.rest]
theorem Paged.panel {s t : State} (h : Paged P s t) : t.panel = s.panel := by rw [h.rest]
theorem Paged.pending {s t : State} (h : Paged P s t) : t.pending = s.pending := by rw [h.rest]

/-! ### Page lists -/

theorem map_key_updateKey (k : PageKey) (f : PageEntry → PageEntry) (hf : ∀ e, (f e).key = e.key) (ps : List PageEntry) :
    (updateKey k f ps).map (·.key) = ps.map (·.key) := by
  simp only [updateKey, List.map_map]
  refine List.map_congr_left fun e _ => ?_
  simp only [Function.comp]
  split <;> simp [hf]

/-- An update that keeps the key and the bounds of every entry keeps the list sound. -/
theorem updateKey_sound {k : PageKey} {f : PageEntry → PageEntry} (hf : ∀ e, (f e).key = e.key)
    (hb : ∀ e, e.repeats ≤ 8 ∧ e.spentLeft ≤ spentLinger → (f e).repeats ≤ 8 ∧ (f e).spentLeft ≤ spentLinger)
    {ps : List PageEntry} (h : PageListSound ps) : PageListSound (updateKey k f ps) := by
  obtain ⟨h1, h2, h3⟩ := h
  refine ⟨by simpa [updateKey] using h1, by rw [map_key_updateKey k f hf]; exact h2, ?_⟩
  intro e he
  simp only [updateKey, List.mem_map] at he
  obtain ⟨x, hx, rfl⟩ := he
  split
  · exact hb x (h3 x hx)
  · exact h3 x hx

theorem filter_sound (p : PageEntry → Bool) {ps : List PageEntry} (h : PageListSound ps) : PageListSound (ps.filter p) := by
  obtain ⟨h1, h2, h3⟩ := h
  exact ⟨(List.length_filter_le _ _).trans h1, h2.sublist (List.filter_sublist.map _), fun e he => h3 e (List.mem_filter.1 he).1⟩

/-- Entries changed one by one with their keys kept. -/
theorem map_sound {f : PageEntry → PageEntry} (hf : ∀ e, (f e).key = e.key)
    (hb : ∀ e, e.repeats ≤ 8 ∧ e.spentLeft ≤ spentLinger → (f e).repeats ≤ 8 ∧ (f e).spentLeft ≤ spentLinger)
    {ps : List PageEntry} (h : PageListSound ps) : PageListSound (ps.map f) := by
  obtain ⟨h1, h2, h3⟩ := h
  refine ⟨by simpa using h1, ?_, ?_⟩
  · have e : (ps.map f).map (·.key) = ps.map (·.key) := by
      rw [List.map_map]; exact List.map_congr_left fun e _ => hf e
    rw [e]; exact h2
  · intro e he
    obtain ⟨x, hx, rfl⟩ := List.mem_map.1 he
    exact hb x (h3 x hx)

/-- Setting the pages to a sound list, with the plan kept. -/
theorem Paged.setPages {s : State} {ps : List PageEntry} (h : P → PageListSound s.relay.pages → PageListSound ps) :
    Paged P s (s.setPages ps) := ⟨rfl, rfl, h, id, .refl _, id⟩

/-! ### The plan -/

theorem PlanSound.set {plan : List (Option PageFrame)} (h : PlanSound plan) (slot : Nat) (x : Option PageFrame)
    (hx : ∀ f, x = some f → homeSlot f.key.pager = slot) : PlanSound (plan.set slot x) := by
  obtain ⟨h1, h2⟩ := h
  refine ⟨by simpa using h1, ?_⟩
  intro t ht f hf
  by_cases he : slot = t
  · subst he
    rw [List.getElem?_set_self (by omega)] at hf
    exact hx f (by simpa using hf)
  · rw [List.getElem?_set_ne he] at hf
    exact h2 t ht f hf

theorem Paged.setPlan {s : State} {slot : Nat} {x : Option PageFrame} (hx : ∀ f, x = some f → homeSlot f.key.pager = slot) :
    Paged P s (s.setPlan (s.zone.plan.set slot x)) := ⟨rfl, rfl, fun _ => id, fun h => h.set slot x hx, .refl _, id⟩

/-- Placing an entry in its home slot (R95, R96). -/
theorem State.placeIn_paged (s : State) (slot : Nat) (e : PageEntry) (h : homeSlot e.key.pager = slot) :
    Paged P s (s.placeIn slot e) := by
  refine ⟨rfl, rfl, fun _ hs => ?_, fun hp => hp.set slot _ ?_, .refl _, id⟩
  · exact updateKey_sound (f := fun x => { x with state := .placed }) (fun _ => rfl) (fun _ h => h) hs
  · intro f hf
    simp only [Option.some.injEq] at hf
    subst hf; exact h

theorem State.emptySlot_paged (s : State) (slot : Nat) : Paged P s (s.emptySlot slot) :=
  Paged.setPlan (by simp)

theorem foldl_betterOf_mem (l : List (PageEntry × Nat)) (b : Option (PageEntry × Nat)) {x : PageEntry × Nat}
    (h : l.foldl betterOf b = some x) : b = some x ∨ x ∈ l := by
  induction l generalizing b with
  | nil => exact .inl h
  | cons a l ih =>
    rcases ih _ h with h' | h'
    · unfold betterOf at h'
      split at h'
      · right; simp at h'; simp [h']
      · split at h'
        · right; simp at h'; simp [h']
        · left; exact h'
    · right; simp [h']

/-- The choice of R95 is a candidate of the list. -/
theorem bestCandidate_spec {dark : Bool} {slot : Nat} {ps : List PageEntry} {e : PageEntry}
    (h : bestCandidate dark slot ps = some e) : e ∈ ps ∧ candidate dark slot e = true := by
  unfold bestCandidate at h
  obtain ⟨x, hx, rfl⟩ := Option.map_eq_some_iff.1 h
  rcases foldl_betterOf_mem _ _ hx with h | h
  · cases h
  · obtain ⟨h1, h2⟩ := List.mem_filter.1 h
    exact ⟨List.fst_mem_of_mem_zipIdx h1, h2⟩

theorem candidate_home {dark : Bool} {slot : Nat} {e : PageEntry} (h : candidate dark slot e = true) :
    homeSlot e.key.pager = slot := by
  simp only [candidate, Bool.and_eq_true, beq_iff_eq] at h
  exact h.1.1.2

theorem State.fillSlot_paged (s : State) (slot : Nat) : Paged P s (s.fillSlot slot) := by
  unfold State.fillSlot
  split
  · exact .refl s
  · next e he => exact s.placeIn_paged slot e (candidate_home (bestCandidate_spec he).2)

/-- Filling a half keeps every block but the page list and the plan (R95). -/
theorem State.fillHalf_paged (s : State) (h : Half) : Paged P s (s.fillHalf h) :=
  (Paged.foldl State.emptySlot_paged _ s).trans (Paged.foldl State.fillSlot_paged _ _)

theorem State.planRefill_paged (s : State) (slot : Nat) : Paged P s (s.planRefill slot) := by
  unfold State.planRefill
  split
  · exact (s.emptySlot_paged slot).trans (State.fillSlot_paged _ slot)
  · exact .refl s

theorem State.planAmend_paged (s : State) (k : PageKey) : Paged P s (s.planAmend k) := by
  unfold State.planAmend
  split
  · exact .refl s
  · next e i he =>
    simp only
    split
    · next hc =>
      have hc := candidate_home (Bool.and_eq_true_iff.1 hc).2
      split
      · exact s.placeIn_paged _ e hc
      · split
        · exact (Paged.setPages (fun _ => updateKey_sound (f := fun x => { x with state := .waiting }) (fun _ => rfl)
            (fun _ h => h))).trans (State.placeIn_paged _ _ e hc)
        · exact .refl s
    · exact .refl s

/-! ### Entries changed, removed, created -/

/-- Changing an entry, its key and bounds kept (R68, R96, R97). -/
theorem State.changePage_paged (s : State) (k : PageKey) (f : PageEntry → PageEntry) (hf : ∀ e, (f e).key = e.key)
    (hb : P → ∀ e, e.repeats ≤ 8 ∧ e.spentLeft ≤ spentLinger → (f e).repeats ≤ 8 ∧ (f e).spentLeft ≤ spentLinger) :
    Paged P s (s.changePage k f) := by
  unfold State.changePage
  split
  · exact .refl s
  · have h := Paged.setPages (P := P) (s := s) (fun p => updateKey_sound (k := k) hf (hb p))
    simp only
    split
    · exact h.trans (State.planRefill_paged _ _)
    · split
      · exact h.trans (State.planAmend_paged _ _)
      · exact h

theorem State.removePage_paged (s : State) (k : PageKey) : Paged P s (s.removePage k) := by
  unfold State.removePage
  split
  · exact .refl s
  · have h := Paged.setPages (P := P) (s := s) (fun _ => filter_sound (fun e => decide (e.key ≠ k)))
    simp only
    split
    · exact h.trans (State.planRefill_paged _ _)
    · exact h

theorem append_sound {ps : List PageEntry} {e : PageEntry} (h : PageListSound ps) (hl : ps.length < pageListMax)
    (hk : e.key ∉ ps.map (·.key)) (hb : e.repeats ≤ 8 ∧ e.spentLeft ≤ spentLinger) : PageListSound (ps ++ [e]) := by
  obtain ⟨h1, h2, h3⟩ := h
  refine ⟨by simp; omega, ?_, ?_⟩
  · rw [List.map_append]
    exact List.nodup_append.2 ⟨h2, by simp, by
      intro a ha b hb'
      simp only [List.map_cons, List.map_nil, List.mem_singleton] at hb'
      rintro rfl
      exact hk (hb' ▸ ha)⟩
  · intro x hx
    rcases List.mem_append.1 hx with hx | hx
    · exact h3 x hx
    · simp at hx; simpa [hx] using hb

theorem find_none_key {s : State} {k : PageKey} (h : s.relay.find k = none) : k ∉ s.relay.pages.map (·.key) := by
  intro hk
  obtain ⟨e, he, rfl⟩ := List.mem_map.1 hk
  have := List.find?_eq_none.1 h e he
  simp at this

theorem roomVictim_mem {cls : Nat} {ps : List PageEntry} {v : PageEntry} (h : roomVictim cls ps = some v) : v ∈ ps := by
  unfold roomVictim at h
  split at h
  · next e he => simp at h; subst h; exact List.mem_of_find?_eq_some he
  · exact List.mem_reverse.1 (List.mem_of_find?_eq_some h)

/-- Creating an entry of a key the list does not hold (R72, R74, R84). -/
theorem State.createPage_paged (s : State) (e : PageEntry) (hk : s.relay.find e.key = none)
    (hb : P → e.repeats ≤ 8 ∧ e.spentLeft ≤ spentLinger) : Paged P s (s.createPage e) := by
  unfold State.createPage
  split
  · next hl =>
    exact (Paged.setPages fun p h => append_sound h hl (find_none_key hk) (hb p)).trans (State.planAmend_paged _ _)
  · split
    · next v hv =>
      refine (Paged.setPages (s := s) (ps := s.relay.pages.filter (fun x => decide (x.key ≠ v.key)) ++ [e])
        fun p h => append_sound (filter_sound _ h) ?_ ?_ (hb p)).trans (State.planAmend_paged _ _)
      · refine lt_of_lt_of_le ?_ h.1
        exact List.length_filter_lt_length_iff_exists.2 ⟨v, roomVictim_mem hv, by simp⟩
      · intro hm
        obtain ⟨x, hx, he⟩ := List.mem_map.1 hm
        exact find_none_key hk (List.mem_map.2 ⟨x, (List.mem_filter.1 hx).1, he⟩)
    · exact ⟨rfl, rfl, fun _ => id, id, .refl _, fun _ => by simp [raised, counterMax]⟩

/-! ### CALLs and SETTLEs (R70 to R78) -/

theorem State.passPage_paged (s : State) (c : CallBody) (e : PageEntry) : Paged P s (s.passPage c e) := by
  unfold State.passPage
  split
  · exact s.changePage_paged _ _ (fun _ => rfl) (fun _ _ h => ⟨Nat.zero_le _, h.2⟩)
  · exact s.removePage_paged _

theorem State.takePager_paged (owner : Nat) (c : CallBody) (s : State) (p : CallPager) :
    Paged (c.repeats ≤ 8) s (State.takePager owner c s p) := by
  unfold State.takePager
  simp only
  split
  · split
    · next h => exact s.createPage_paged _ h fun hc => ⟨hc, Nat.zero_le _⟩
    · split
      · exact s.changePage_paged _ _ (fun _ => rfl) (fun hc _ _ => ⟨hc, Nat.zero_le _⟩)
      · exact .refl s
  · split
    · exact .refl s
    · split
      · exact s.passPage_paged c _
      · exact .refl s

/-- Taking a CALL touches pages and plan alone (R70 to R74). -/
theorem State.takeCall_paged (s : State) (owner : Nat) (c : CallBody) : Paged (c.repeats ≤ 8) s (s.takeCall owner c) :=
  (Paged.foldl (State.takePager_paged owner c) _ s).trans (Paged.foldl (fun s e => s.passPage_paged c e) _ _)

theorem standDown_bounds (note : SettleNote) (e : PageEntry) :
    (standDown note e).repeats ≤ 8 ∧ (standDown note e).spentLeft ≤ spentLinger := by
  simp [standDown, spentLinger]

theorem State.settlePage_paged (b : SettleBody) (s : State) (k : PageKey) : Paged P s (State.settlePage b s k) := by
  unfold State.settlePage
  split
  · refine s.changePage_paged _ _ (fun e => ?_) (fun _ e _ => ?_) <;> (unfold settleTaken; split) <;>
      simp [standDown, spentLinger]
  · exact .refl s
  · exact s.changePage_paged _ _ (fun _ => rfl) (fun _ e _ => standDown_bounds _ e)
  · exact s.changePage_paged _ _ (fun _ => rfl) (fun _ e _ => standDown_bounds _ e)
  · exact s.removePage_paged _

theorem State.endAnswers_paged (s : State) (owner serial : Nat) : Paged P s (s.endAnswers owner serial) :=
  ⟨rfl, rfl, fun _ => id, id, List.filter_sublist, id⟩

/-- Applying a SETTLE touches pages, answers and plan alone (R75 to R78, R87). -/
theorem State.applySettle_paged (s : State) (owner : Nat) (b : SettleBody) : Paged P s (s.applySettle owner b) :=
  (Paged.foldl (State.settlePage_paged b) _ s).trans (State.endAnswers_paged _ _ _)

/-! ### Cycle end, half on air, zone DARK, airings -/

theorem cycleEndPage_spec {e x : PageEntry} (h : cycleEndPage e = some x) :
    x.key = e.key ∧ (e.repeats ≤ 8 ∧ e.spentLeft ≤ spentLinger → x.repeats ≤ 8 ∧ x.spentLeft ≤ spentLinger) := by
  unfold cycleEndPage at h
  split at h
  · split at h
    · simp at h; subst h; exact ⟨rfl, id⟩
    · split at h <;> simp at h
      subst h; exact ⟨rfl, fun h => ⟨h.1, by simp⟩⟩
  · split at h
    · simp at h; subst h; exact ⟨rfl, id⟩
    · split at h <;> simp at h
      subst h; exact ⟨rfl, fun h => ⟨h.1, by simp⟩⟩
  · simp at h
  · split at h <;> simp at h
    subst h; exact ⟨rfl, fun h => ⟨h.1, by simp; omega⟩⟩
  · simp at h; subst h; exact ⟨rfl, id⟩

theorem filterMap_sound {f : PageEntry → Option PageEntry}
    (hf : ∀ e x, f e = some x →
      x.key = e.key ∧ (e.repeats ≤ 8 ∧ e.spentLeft ≤ spentLinger → x.repeats ≤ 8 ∧ x.spentLeft ≤ spentLinger))
    {ps : List PageEntry} (h : PageListSound ps) : PageListSound (ps.filterMap f) := by
  obtain ⟨h1, h2, h3⟩ := h
  refine ⟨(List.length_filterMap_le _ _).trans h1, ?_, ?_⟩
  · have sub : ((ps.filterMap f).map (·.key)).Sublist (ps.map (·.key)) := by
      clear h1 h2 h3
      induction ps with
      | nil => simp
      | cons e ps ih =>
        rw [List.filterMap_cons]
        split
        · exact ih.cons _
        · next x hx =>
          simp only [List.map_cons]
          rw [(hf e x hx).1]
          exact ih.cons_cons _
    exact h2.sublist sub
  · intro x hx
    obtain ⟨e, he, hx⟩ := List.mem_filterMap.1 hx
    exact (hf e x hx).2 (h3 e he)

theorem State.relayCycleEnd_paged (s : State) : Paged P s s.relayCycleEnd :=
  Paged.setPages fun _ => filterMap_sound fun _ _ => cycleEndPage_spec

theorem State.relayDark_paged (s : State) : Paged P s s.relayDark := by
  refine Paged.setPages (fun _ => map_sound (fun e => ?_) (fun e h => ?_)) <;> split <;> first | rfl | exact h

theorem goOnAir_sound (h : Half) {ps : List PageEntry} (hs : PageListSound ps) : PageListSound (goOnAir h ps) := by
  refine map_sound (fun e => ?_) (fun e hb => ?_) hs <;> split <;> first | rfl | exact hb

theorem countAiring_bounds (f : PageFrame) (e : PageEntry) : (countAiring f e).key = e.key ∧
    (e.repeats ≤ 8 ∧ e.spentLeft ≤ spentLinger → (countAiring f e).repeats ≤ 8 ∧ (countAiring f e).spentLeft ≤ spentLinger) := by
  unfold countAiring
  split
  · exact ⟨rfl, fun h => ⟨by simp; omega, h.2⟩⟩
  · exact ⟨rfl, id⟩

theorem State.countSlot_paged (s : State) : Paged P s s.countSlot := by
  unfold State.countSlot
  split
  · exact .refl s
  · next f _ => exact Paged.setPages (fun _ => map_sound (fun e => (countAiring_bounds f e).1) (fun e => (countAiring_bounds f e).2))

theorem State.emptyOffAir_paged (s : State) : Paged P s s.emptyOffAir := by
  unfold State.emptyOffAir
  split
  · exact .refl s
  · exact Paged.foldl State.emptySlot_paged _ s

/-! ### Answers for other owners (R83 to R87) -/

/-- A part of a sound answer list is sound (R86). -/
theorem AnswersSound.sublist {s t : State} (h : t.relay.answers.Sublist s.relay.answers) (hs : AnswersSound s) : AnswersSound t :=
  ⟨h.length_le.trans hs.1, hs.2.1.sublist (h.map _), fun a ha => hs.2.2 a (h.mem ha)⟩

/-- Placing an answer the list does not hold keeps its bounds (R86). -/
theorem State.placeAnswer_sound (s : State) (k : AnswerKey) (hk : s.relay.answers.any (·.key == k) = false)
    (hs : AnswersSound s) : AnswersSound (s.placeAnswer k) := by
  obtain ⟨h1, h2, h3⟩ := hs
  have hk' : ∀ a ∈ s.relay.answers, a.key ≠ k := by
    intro a ha e
    have := List.any_eq_false.1 hk a ha
    simp [e] at this
  have key : ∀ q : List AnswerEntry, q.Sublist s.relay.answers → q.length < answerListMax →
      let q' := q ++ [{ key := k, sendsLeft := 3, timer := s.now + answerRepeat }]
      q'.length ≤ answerListMax ∧ (q'.map (·.key)).Nodup ∧ ∀ a ∈ q', 1 ≤ a.sendsLeft ∧ a.sendsLeft ≤ 3 := by
    intro q hq hl
    refine ⟨by simp; omega, ?_, ?_⟩
    · rw [List.map_append]
      refine List.nodup_append.2 ⟨h2.sublist (hq.map _), by simp, ?_⟩
      intro a ha b hb e
      simp only [List.map_cons, List.map_nil, List.mem_singleton] at hb
      obtain ⟨x, hx, rfl⟩ := List.mem_map.1 ha
      exact hk' x (hq.mem hx) (e.trans hb)
    · intro a ha
      rcases List.mem_append.1 ha with ha | ha
      · exact h3 a (hq.mem ha)
      · simp at ha; simp [ha]
  by_cases hl : s.relay.answers.length < answerListMax
  · have := key s.relay.answers (List.Sublist.refl _) hl
    simpa [State.placeAnswer, AnswersSound, hl] using this
  · have := key (s.relay.answers.drop 1) (List.drop_sublist _ _) (by simp [answerListMax] at *; omega)
    simpa [State.placeAnswer, AnswersSound, hl] using this

theorem latestOf_mem {owner serial : Nat} {ps : List PageEntry} {e : PageEntry} (h : latestOf owner serial ps = some e) :
    e ∈ ps := (List.mem_filter.1 (List.mem_of_getLast? h)).1

/-- A late ACCEPT is answered in the page list and the plan alone (R84). -/
theorem State.lateAccept_paged (s : State) (k : PageKey) (note : SettleNote) : Paged P s (s.lateAccept k note) := by
  unfold State.lateAccept
  split
  · exact s.changePage_paged _ _ (fun _ => rfl) (fun _ e _ => standDown_bounds _ e)
  · next h =>
    split
    · exact .refl s
    · exact s.createPage_paged _ h fun _ => ⟨by simp, by simp⟩

end Sys2Proof.Machine
end

