-- ==== Sys2Proof/Laws/Works.lean ====
section
/-! SUPPORT. What the work of the Incident Engine can do (chapters 1 and 2): the blocks it touches, what it keeps of them, and the
bounds it keeps. -/

namespace Sys2Proof.Machine

/-- What the engine's work can do. Timebase, loader, identity, presence, scanner, panel and queue of commands are kept; the engine
keeps its plans, the Zone Cycle Unit all but its plan, the line all but its queue, the log its clock and mode; a drain may end. -/
structure Works (s t : State) : Prop where
  rest : t = { s with engine := t.engine, relay := t.relay, zone := t.zone, line := t.line, log := t.log, office := t.office }
  plans : t.engine.plans = s.engine.plans
  zone : t.zone = { s.zone with plan := t.zone.plan }
  line : t.line = { s.line with queue := t.line.queue }
  log : s.log.Grows t.log
  office : t.office = s.office ∨ t.office.drain = none
  queueSound : QueueSound s → QueueSound t
  pages : PlansSound s → PageListSound s.relay.pages → PageListSound t.relay.pages
  plan : PlanSound s.zone.plan → PlanSound t.zone.plan
  answers : AnswersSound s → AnswersSound t
  refused : s.relay.refused ≤ counterMax → t.relay.refused ≤ counterMax

theorem Works.refl (s : State) : Works s s := ⟨rfl, rfl, rfl, rfl, .refl _, .inl rfl, id, fun _ => id, id, id, id⟩

theorem PlansSound.of_plans {s t : State} (h : t.engine.plans = s.engine.plans) (hs : PlansSound s) : PlansSound t := by
  unfold PlansSound at *; rw [h]; exact hs

theorem Works.trans {s t u : State} (h : Works s t) (k : Works t u) : Works s u := by
  refine ⟨?_, k.plans.trans h.plans, ?_, ?_, h.log.trans k.log, ?_, k.queueSound ∘ h.queueSound,
    fun p => k.pages (p.of_plans h.plans) ∘ h.pages p, k.plan ∘ h.plan, k.answers ∘ h.answers, k.refused ∘ h.refused⟩
  · have a := h.rest; have b := k.rest
    rw [a] at b; exact b
  · have a := h.zone; have b := k.zone
    rw [a] at b; exact b
  · have a := h.line; have b := k.line
    rw [a] at b; exact b
  · rcases k.office with e | e
    · rw [e]; exact h.office
    · exact .inr e

theorem Works.foldl {α : Type} {f : State → α → State} (h : ∀ s a, Works s (f s a)) (l : List α) :
    ∀ s, Works s (l.foldl f s) := by
  induction l with
  | nil => exact Works.refl
  | cons a l ih => exact fun s => (h s a).trans (ih _)

theorem Works.now {s t : State} (h : Works s t) : t.now = s.now := by rw [h.rest]
theorem Works.loader {s t : State} (h : Works s t) : t.loader = s.loader := by rw [h.rest]
theorem Works.ident {s t : State} (h : Works s t) : t.ident = s.ident := by rw [h.rest]
theorem Works.presence {s t : State} (h : Works s t) : t.presence = s.presence := by rw [h.rest]
theorem Works.scanner {s t : State} (h : Works s t) : t.scanner = s.scanner := by rw [h.rest]
theorem Works.panel {s t : State} (h : Works s t) : t.panel = s.panel := by rw [h.rest]
theorem Works.pending {s t : State} (h : Works s t) : t.pending = s.pending := by rw [h.rest]

theorem Paged.works {s t : State} (h : Paged (PlansSound s) s t) : Works s t := by
  refine ⟨?_, by rw [h.engine], h.zone, ?_, ?_, .inl h.office, ?_, h.pages, h.plan, .sublist h.answers, h.refused⟩
  · have a := h.rest
    rw [a]
  · rw [h.line]
  · rw [h.log]; exact .refl _
  · unfold QueueSound; rw [h.line]; exact id

theorem Offered.works {s t : State} (h : Offered s t) : Works s t := by
  have e := h.rest
  refine ⟨?_, by rw [e], by rw [e], h.line, by rw [e]; exact .refl _, h.office, h.queueSound, ?_, ?_, ?_, ?_⟩
  · rw [e]
  all_goals rw [e]
  · exact fun _ => id
  · exact id
  · exact id
  · exact id

/-- A change of the engine that keeps its plans. -/
theorem State.withEngine_works (s : State) (x : Engine) (h : x.plans = s.engine.plans) : Works s (s.withEngine x) :=
  ⟨rfl, h, rfl, rfl, .refl _, .inl rfl, id, fun _ => id, id, id, id⟩

theorem State.setEntry_works (s : State) (e : Nat) (i : Option Incident) : Works s (s.setEntry e i) :=
  s.withEngine_works _ rfl

theorem State.modifyIncident_works (s : State) (e : Nat) (f : Incident → Incident) : Works s (s.modifyIncident e f) := by
  unfold State.modifyIncident
  split
  · exact .refl s
  · exact s.setEntry_works e _

/-- A log that has grown. -/
theorem State.withLog_works (s : State) (l : Log) (h : s.log.Grows l) : Works s (s.withLog l) :=
  ⟨rfl, rfl, rfl, rfl, h, .inl rfl, id, fun _ => id, id, id, id⟩

theorem State.append_works (s : State) (tag : Tag) (se pa de : Option Nat) : Works s (s.append tag se pa de) :=
  s.withLog_works _ (Log.append_grows _ _ _ _ _ _)

/-! ### Calling (chapter 2) -/

/-- Every level asks for at most 8 repeats (R26). -/
theorem PlansSound.repeats_le {s : State} (h : PlansSound s) (cls l : Nat) : (s.levelPlan cls l).repeats ≤ 8 := by
  unfold State.levelPlan State.levels
  rw [List.getD_eq_getElem?_getD, List.getD_eq_getElem?_getD]
  cases hp : s.engine.plans[cls - 1]? with
  | none => simp [blankLevel]
  | some p =>
    cases hl : p[l]? with
    | none => simp [hl, blankLevel]
    | some lv =>
      simp only [Option.getD_some, hl]
      exact (h p (List.mem_of_getElem? hp) lv (List.mem_of_getElem? hl)).2

theorem Paged.mono {P Q : Prop} {s t : State} (hq : Q → P) (h : Paged P s t) : Paged Q s t :=
  ⟨h.rest, h.zone, fun q => h.pages (hq q), h.plan, h.answers, h.refused⟩

/-- Everything offering a CALL can do (R39). -/
theorem State.offerCall_works (s : State) (e : Nat) : Works s (s.offerCall e) := by
  unfold State.offerCall
  split
  · exact .refl s
  · next i _ =>
    have h := (s.offer_spec (.call (s.buildCall i)) (lineClassFor i.cls) none).works
    simp only
    split
    · have h2 := h.trans (State.setEntry_works _ e (some { i with callOwed := false }))
      exact h2.trans ((State.takeCall_paged _ _ (s.buildCall i)).mono fun p =>
        (PlansSound.of_plans h2.plans.symm p).repeats_le i.cls i.level).works
    · exact h.trans (State.setEntry_works _ e _)

theorem State.takeSequence_works (s : State) (e : Nat) : Works s (s.takeSequence e) := by
  unfold State.takeSequence
  split
  · exact .refl s
  · split
    · exact s.setEntry_works e _
    · exact (s.setEntry_works e _).trans (State.withEngine_works _ _ rfl)

/-- Everything issuing a CALL can do (R27, R39, R42). -/
theorem State.issueCall_works (s : State) (e : Nat) : Works s (s.issueCall e) :=
  ((s.takeSequence_works e).trans (State.modifyIncident_works _ e _)).trans (State.offerCall_works _ e)

theorem State.unansweredEntry_works (s : State) (e : Nat) : Works s (s.unansweredEntry e) := by
  unfold State.unansweredEntry
  split
  · exact .refl s
  · simp only
    split
    · exact (s.setEntry_works e _).trans (State.append_works _ _ _ _ _)
    · exact ((s.setEntry_works e _).trans (State.append_works _ _ _ _ _)).trans (State.issueCall_works _ e)

theorem State.enterUnanswered_works (s : State) (e : Nat) : Works s (s.enterUnanswered e) :=
  (s.modifyIncident_works e _).trans (State.unansweredEntry_works _ e)

/-- Everything entering levels can do (R29, R30, R35). -/
theorem State.enterLevels_works (e : Nat) (lvs : List LevelPlan) :
    ∀ (l : Nat) (s : State), Works s (State.enterLevels e lvs l s) := by
  induction lvs with
  | nil => exact fun _ s => s.enterUnanswered_works e
  | cons lv rest ih =>
    intro l s
    unfold State.enterLevels
    split
    · exact .refl s
    · simp only
      split
      · exact (((s.setEntry_works e _).trans (State.modifyIncident_works _ e _)).trans
          (State.append_works _ _ _ _ _)).trans (State.issueCall_works _ e)
      · exact ((s.setEntry_works e _).trans (State.append_works _ _ _ _ _)).trans (ih _ _)

/-- Everything a step of an incident can do (R30). -/
theorem State.stepIncident_works (s : State) (e : Nat) : Works s (s.stepIncident e) := by
  unfold State.stepIncident
  split
  · exact .refl s
  · split
    · exact State.enterLevels_works _ _ _ _
    · exact s.unansweredEntry_works e
    · exact .refl s
    · exact .refl s

theorem State.refresh_works (s : State) (e : Nat) : Works s (s.refresh e) :=
  (s.modifyIncident_works e _).trans (State.issueCall_works _ e)

theorem State.reportIn_works (p : Nat) (s : State) (e : Nat) : Works s (State.reportIn p s e) := by
  unfold State.reportIn
  split
  · exact .refl s
  · split
    · split
      · exact s.refresh_works e
      · exact s.setEntry_works e _
    · exact .refl s

/-- Everything a claim change report can do (R41). -/
theorem State.reportClaim_works (s : State) (p : Nat) : Works s (s.reportClaim p) :=
  Works.foldl (State.reportIn_works p) _ s

/-! ### A CALL makes no history record -/

theorem State.offerCall_log (s : State) (e : Nat) : (s.offerCall e).log = s.log := by
  unfold State.offerCall
  split
  · rfl
  · next i hi =>
    simp only
    have o := (s.offer_spec (.call (s.buildCall i)) (lineClassFor i.cls) none).rest
    split
    · rw [(State.takeCall_paged _ _ _).log]
      show (s.offer _ _ _).1.log = _
      rw [o]
    · show (s.offer _ _ _).1.log = _
      rw [o]

theorem State.takeSequence_log (s : State) (e : Nat) : (s.takeSequence e).log = s.log := by
  unfold State.takeSequence
  split
  · rfl
  · split <;> rfl

theorem State.modifyIncident_log (s : State) (e : Nat) (f) : (s.modifyIncident e f).log = s.log := by
  unfold State.modifyIncident; split <;> rfl

theorem State.issueCall_log (s : State) (e : Nat) : (s.issueCall e).log = s.log := by
  unfold State.issueCall; rw [State.offerCall_log, State.modifyIncident_log, State.takeSequence_log]

theorem State.reportIn_log (p) (s : State) (e : Nat) : (State.reportIn p s e).log = s.log := by
  unfold State.reportIn
  split
  · rfl
  · split
    · split
      · unfold State.refresh; rw [State.issueCall_log, State.modifyIncident_log]
      · rfl
    · rfl

theorem State.reportClaim_log (s : State) (p : Nat) : (s.reportClaim p).log = s.log := by
  unfold State.reportClaim
  generalize List.range tableSize = l
  induction l generalizing s with
  | nil => rfl
  | cons a l ih => rw [List.foldl_cons, ih, State.reportIn_log]

theorem State.reportClaims_log (l : List Nat) (s : State) : (l.foldl State.reportClaim s).log = s.log := by
  induction l generalizing s with
  | nil => rfl
  | cons a l ih => rw [List.foldl_cons, ih, State.reportClaim_log]

/-! ### Incidents (chapter 1) -/

theorem State.openIncident_works (s : State) (e n : Nat) (k : SourceKind) (r : Bool) :
    Works s (s.openIncident e n k r) := by
  unfold State.openIncident
  exact ((State.withEngine_works s { s.engine with
      table := s.engine.table.set e (some (s.newIncident n k r)), serialCounter := ((s.newIncident n k r).serial + 1) % 256 }
      rfl).trans (State.withLog_works _ _ (Log.append_grows _ _ _ _ _ _))).trans
    (State.enterLevels_works _ _ _ _)

theorem State.setMark_works (s : State) (n : Nat) (k : SourceKind) (m : Option Bool) : Works s (s.setMark n k m) :=
  s.withEngine_works _ rfl

theorem State.pendRaise_works (s : State) (n : Nat) (k : SourceKind) : Works s (s.pendRaise n k) :=
  (s.setMark_works n k _).trans (State.append_works _ _ _ _ _)

/-- Everything opening pending raises can do (R9). -/
theorem State.openPending_works (fuel : Nat) : ∀ s : State, Works s (State.openPending fuel s) := by
  induction fuel with
  | zero => exact Works.refl
  | succ fuel ih =>
    intro s
    unfold State.openPending
    split
    · exact ((s.setMark_works _ _ _).trans (State.openIncident_works _ _ _ _ _)).trans (ih _)
    · exact .refl s

theorem State.applySettle_works (s : State) (owner : Nat) (b : SettleBody) : Works s (s.applySettle owner b) :=
  (s.applySettle_paged owner b).works

/-- Everything offering a SETTLE TAKEN can do (R13). -/
theorem State.offerTaken_works (s : State) (e : Nat) : Works s (s.offerTaken e) := by
  unfold State.offerTaken
  split
  · exact .refl s
  · next i _ =>
    have h := (s.offer_spec (.settle (i.settle .taken)) (lineClassFor i.cls) none).works
    simp only
    split
    · exact (h.trans (State.setEntry_works _ e _)).trans (State.applySettle_works _ _ _)
    · exact h.trans (State.setEntry_works _ e _)

/-- Everything freeing an entry can do (R19). -/
theorem State.freeEntry_works (s : State) (e : Nat) (i : Incident) (k : SettleKind) : Works s (s.freeEntry e i k) :=
  (((s.setEntry_works e none).trans (State.append_works _ _ _ _ _)).trans (State.applySettle_works _ _ _)).trans
    (State.openPending_works _ _)

theorem State.offerClosing_works (s : State) (e : Nat) : Works s (s.offerClosing e) := by
  unfold State.offerClosing
  split
  · exact .refl s
  · next i _ =>
    split
    · exact .refl s
    · next k _ =>
      have h := (s.offer_spec (.settle (i.settle k)) (lineClassFor i.cls) none).works
      simp only
      split
      · exact h.trans (State.freeEntry_works _ _ _ _)
      · exact h

/-- Everything entering CLOSING can do (R18). -/
theorem State.enterClosing_works (s : State) (e : Nat) (k : SettleKind) : Works s (s.enterClosing e k) :=
  (s.modifyIncident_works e _).trans (State.offerClosing_works _ e)

/-- Everything a raise can do (R5 to R8). -/
theorem State.raise_works (s : State) (n : Nat) (k : SourceKind) : Works s (s.raise n k) := by
  unfold State.raise
  split
  · split
    · split
      · exact s.setMark_works n k _
      · exact s.pendRaise_works n k
    · exact s.setEntry_works _ _
  · split
    · exact s.setMark_works n k _
    · split
      · exact s.openIncident_works _ n k false
      · exact s.pendRaise_works n k

theorem State.restoreMark_works (s : State) (n : Nat) (k : SourceKind) : Works s (s.restoreMark n k) := by
  unfold State.restoreMark
  split
  · exact .refl s
  · split <;> exact s.setMark_works n k _

/-- Everything a restore can do (R8, R16). -/
theorem State.restore_works (s : State) (n : Nat) (k : SourceKind) : Works s (s.restore n k) := by
  unfold State.restore
  split
  · exact s.restoreMark_works n k
  · split
    · exact s.restoreMark_works n k
    · simp only
      split
      · exact (s.setEntry_works _ _).trans (State.enterClosing_works _ _ _)
      · exact s.setEntry_works _ _
    · simp only
      split
      · exact s.setEntry_works _ _
      · exact (s.setEntry_works _ _).trans (State.enterClosing_works _ _ _)

theorem State.accept_works (s : State) (e p : Nat) : Works s (s.accept e p) := by
  unfold State.accept
  split
  · exact .refl s
  · split
    · exact ((s.setEntry_works e _).trans (State.append_works _ _ _ _ _)).trans (State.offerTaken_works _ e)
    · exact .refl s

theorem State.decline_works (s : State) (e p : Nat) : Works s (s.decline e p) := by
  unfold State.decline
  split
  · exact .refl s
  · split
    · simp only
      split
      · exact (s.setEntry_works e _).trans (State.append_works _ _ _ _ _)
      · exact ((s.setEntry_works e _).trans (State.append_works _ _ _ _ _)).trans (State.stepIncident_works _ e)
    · exact .refl s

theorem State.doneBy_works (s : State) (e p : Nat) : Works s (s.doneBy e p) := by
  unfold State.doneBy
  split
  · exact .refl s
  · split
    · simp only
      split
      · exact ((s.setEntry_works e _).trans (State.append_works _ _ _ _ _)).trans (State.enterClosing_works _ e _)
      · exact (s.setEntry_works e _).trans (State.append_works _ _ _ _ _)
    · exact .refl s

/-- Everything an answer can do at the engine (R11). -/
theorem State.takeAnswer_works (s : State) (k : AnswerKey) : Works s (s.takeAnswer k) := by
  unfold State.takeAnswer
  split
  · split
    · exact .refl s
    · split
      · exact s.accept_works _ _
      · exact s.decline_works _ _
      · exact s.doneBy_works _ _
  · exact .refl s

theorem State.reofferSettle_works (s : State) (e : Nat) : Works s (s.reofferSettle e) := by
  unfold State.reofferSettle
  split
  · exact .refl s
  · split
    · exact s.offerClosing_works e
    · split
      · exact s.offerTaken_works e
      · exact .refl s
    · exact .refl s

theorem State.reofferCall_works (s : State) (e : Nat) : Works s (s.reofferCall e) := by
  unfold State.reofferCall
  split
  · exact .refl s
  · split
    · exact s.offerCall_works e
    · exact .refl s

/-- Everything a slot boundary can do at the engine (R20). -/
theorem State.engineBoundary_works (s : State) : Works s s.engineBoundary :=
  (Works.foldl State.reofferSettle_works _ s).trans (Works.foldl State.reofferCall_works _ _)

/-! ### Answers for other owners and office requests -/

theorem State.offerAnswer_works (s : State) (k : AnswerKey) : Works s (s.offerAnswer k) :=
  (s.offer_spec (.answer k) .class0 (some k.owner)).works

theorem markAnswered_key (e : PageEntry) : (markAnswered e).key = e.key := by
  unfold markAnswered; split <;> rfl

theorem State.relayOn_works (s : State) (k : AnswerKey) (r : Bool) : Works s (s.relayOn k r) := by
  unfold State.relayOn
  split
  · exact .refl s
  · next hk =>
    have hk' : s.relay.answers.any (·.key == k) = false := by simpa using hk
    simp only
    have key : ∀ t : State, Paged (PlansSound s) s t → Works s ((t.placeAnswer k).offerAnswer k) := fun t ht => by
      have hn : t.relay.answers.any (·.key == k) = false :=
        List.any_eq_false.2 fun a ha => List.any_eq_false.1 hk' a (ht.answers.mem ha)
      have hp : Works t (t.placeAnswer k) :=
        ⟨rfl, rfl, rfl, rfl, .refl _, .inl rfl, id, fun _ => id, id, t.placeAnswer_sound k hn, id⟩
      exact (ht.works.trans hp).trans (State.offerAnswer_works _ k)
    split
    · split
      · exact key s (.refl s)
      · refine key _ (s.changePage_paged _ _ markAnswered_key fun _ e h => ?_)
        unfold markAnswered; split
        · exact ⟨Nat.zero_le _, h.2⟩
        · exact h
    · exact key s (.refl s)

/-- Everything an answer for another owner can do (R83). -/
theorem State.answerForOther_works (s : State) (k : AnswerKey) : Works s (s.answerForOther k) := by
  unfold State.answerForOther
  split
  · exact s.relayOn_works k false
  · split
    · split
      · exact s.relayOn_works k true
      · exact .refl s
    · split
      · exact (s.lateAccept_paged _ _).works
      · exact .refl s
  · split
    · exact (s.lateAccept_paged _ _).works
    · exact .refl s

end Sys2Proof.Machine
end

