-- ==== Sys2Proof/Laws/Table.lean ====
section
/-! SUPPORT. What the work of the Incident Engine does to the incident table (R1, R2, R10). -/

namespace Sys2Proof.Machine

/-! ### The table as a list of entries -/

theorem incident?_eq {s : State} {e : Nat} {i : Incident} : s.incident? e = some i ↔ s.engine.table[e]? = some (some i) := by
  unfold State.incident?
  cases s.engine.table[e]? <;> simp

theorem mem_incidents {s : State} {i : Incident} : i ∈ s.incidents ↔ some i ∈ s.engine.table := by
  simp [State.incidents]

theorem incident?_mem {s : State} {e : Nat} {i : Incident} (h : s.incident? e = some i) : i ∈ s.incidents :=
  mem_incidents.2 (List.mem_of_getElem? (incident?_eq.1 h))

theorem filterMap_id_map {α β : Type} (g : α → β) (l : List (Option α)) :
    (l.filterMap id).map g = (l.map (Option.map g)).filterMap id := by
  induction l with
  | nil => rfl
  | cons a l ih =>
    simp only [List.map_cons, List.filterMap_cons]
    cases a with
    | none => exact ih
    | some a => exact congrArg (g a :: ·) ih

/-- A changed incident that keeps `g` keeps the list of all `g`. -/
theorem incidents_set_same {α : Type} (g : Incident → α) {table : List (Option Incident)} {e : Nat} {i j : Incident}
    (h : table[e]? = some (some i)) (hg : g j = g i) :
    ((table.set e (some j)).filterMap id).map g = (table.filterMap id).map g := by
  rw [filterMap_id_map, filterMap_id_map, List.map_set]
  congr 1
  refine List.ext_getElem? fun n => ?_
  by_cases hn : e = n
  · subst hn
    have hl := (List.getElem?_eq_some_iff.1 h).1
    rw [List.getElem?_set_self (by simpa using hl)]
    simp [h, hg]
  · rw [List.getElem?_set_ne hn]

theorem filterMap_set_none_sublist {α : Type} (l : List (Option α)) (e : Nat) :
    ((l.set e none).filterMap id).Sublist (l.filterMap id) := by
  induction l generalizing e with
  | nil => simp
  | cons a l ih =>
    cases e with
    | zero =>
      cases a with
      | none => simp
      | some a => simp
    | succ e =>
      cases a with
      | none => simpa using ih e
      | some a => simpa using ih e

theorem filterMap_set_free_perm {α : Type} (l : List (Option α)) (e : Nat) (x : α) (h : l[e]? = some none) :
    ((l.set e (some x)).filterMap id).Perm (x :: l.filterMap id) := by
  induction l generalizing e with
  | nil => simp at h
  | cons a l ih =>
    cases e with
    | zero => simp at h; subst h; simp
    | succ e =>
      have := ih e (by simpa using h)
      cases a with
      | none => simpa using this
      | some a =>
        simp only [List.set_cons_succ, List.filterMap_cons_some (f := id) (a := some a) rfl]
        exact (this.cons a).trans (.swap _ _ _)

/-- R1, R2, R10 on a table alone; `last` gives the last level of a class. -/
def TableGood (last : Nat → Nat) (table : List (Option Incident)) : Prop :=
  table.length = tableSize ∧ ((table.filterMap id).map (·.serial)).Nodup ∧
  ((table.filterMap id).map fun i => (i.input, i.kind)).Nodup ∧ ∀ i ∈ table.filterMap id, IncidentSound (last i.cls) i

theorem tableSound_iff (s : State) :
    TableSound s ↔ TableGood s.lastLevel s.engine.table ∧ s.engine.pend.length = 48 := by
  unfold TableSound TableGood State.incidents
  tauto

theorem lastLevel_congr {s t : State} (h : t.engine.plans = s.engine.plans) : t.lastLevel = s.lastLevel := by
  funext c
  simp [State.lastLevel, State.levels, h]

/-- An incident changed in its entry, its identity kept. -/
theorem TableGood.set {last : Nat → Nat} {table : List (Option Incident)} (h : TableGood last table) {e : Nat} {i j : Incident}
    (hi : table[e]? = some (some i)) (h1 : j.serial = i.serial) (h2 : j.input = i.input) (h3 : j.kind = i.kind)
    (hj : IncidentSound (last j.cls) j) : TableGood last (table.set e (some j)) := by
  obtain ⟨a, b, c, d⟩ := h
  refine ⟨by simpa using a, by rw [incidents_set_same _ hi h1]; exact b, ?_, ?_⟩
  · rw [incidents_set_same (fun i : Incident => (i.input, i.kind)) hi (by rw [h2, h3])]; exact c
  · intro x hx
    simp only [List.mem_filterMap, id, exists_eq_right] at hx d
    rcases List.mem_or_eq_of_mem_set hx with hx | hx
    · exact d x hx
    · simp at hx; subst hx; exact hj

theorem TableGood.free {last : Nat → Nat} {table : List (Option Incident)} (h : TableGood last table) (e : Nat) :
    TableGood last (table.set e none) := by
  obtain ⟨a, b, c, d⟩ := h
  have hs := filterMap_set_none_sublist table e
  exact ⟨by simpa using a, b.sublist (hs.map _), c.sublist (hs.map _), fun i hi => d i (hs.mem hi)⟩

theorem TableGood.sound {last : Nat → Nat} {table : List (Option Incident)} (h : TableGood last table) {e : Nat} {i : Incident}
    (hi : table[e]? = some (some i)) : IncidentSound (last i.cls) i :=
  h.2.2.2 i (by simp only [List.mem_filterMap, id, exists_eq_right]; exact List.mem_of_getElem? hi)

/-! ### What the operations of chapter 2 make of one entry -/

/-- Entry `e` becomes `j`; the other entries and the pending-raise marks stay. -/
structure Sets (e : Nat) (j : Incident) (s t : State) : Prop where
  table : t.engine.table = s.engine.table.set e (some j)
  pend : t.engine.pend = s.engine.pend

theorem Sets.lookup {e : Nat} {j : Incident} {s t : State} (h : Sets e j s t) (he : e < s.engine.table.length) :
    t.incident? e = some j := by
  rw [incident?_eq, h.table, List.getElem?_set_self he]

theorem Sets.trans {e : Nat} {j k : Incident} {s t u : State} (h : Sets e j s t) (g : Sets e k t u) : Sets e k s u :=
  ⟨by rw [g.table, h.table, List.set_set], g.pend.trans h.pend⟩

/-- An operation that keeps the engine. -/
theorem Sets.keep {e : Nat} {j : Incident} {s t u : State} (h : Sets e j s t) (g : u.engine = t.engine) : Sets e j s u :=
  ⟨by rw [g, h.table], by rw [g, h.pend]⟩

theorem incident?_lt {s : State} {e : Nat} {i : Incident} (h : s.incident? e = some i) : e < s.engine.table.length :=
  (List.getElem?_eq_some_iff.1 (incident?_eq.1 h)).1

theorem State.setEntry_sets (s : State) (e : Nat) (j : Incident) : Sets e j s (s.setEntry e (some j)) := ⟨rfl, rfl⟩

theorem State.modifyIncident_sets {s : State} {e : Nat} {i : Incident} (h : s.incident? e = some i) (f : Incident → Incident) :
    Sets e (f i) s (s.modifyIncident e f) := by
  unfold State.modifyIncident
  rw [h]
  exact ⟨rfl, rfl⟩

theorem Offered.engine {s t : State} (h : Offered s t) : t.engine = s.engine := by rw [h.rest]

theorem State.append_engine (s : State) (tag : Tag) (se pa de : Option Nat) : (s.append tag se pa de).engine = s.engine := rfl

theorem State.takeCall_engine (s : State) (o : Nat) (c : CallBody) : (s.takeCall o c).engine = s.engine :=
  (s.takeCall_paged o c).engine

theorem State.applySettle_engine (s : State) (o : Nat) (b : SettleBody) : (s.applySettle o b).engine = s.engine :=
  (State.applySettle_paged (P := True) s o b).engine

theorem State.offer_engine (s : State) (b : Body) (c : LineClass) (a : Option Nat) : (s.offer b c a).1.engine = s.engine :=
  (s.offer_spec b c a).engine

theorem State.offerCall_sets {s : State} {e : Nat} {i : Incident} (h : s.incident? e = some i) :
    ∃ b, Sets e { i with callOwed := b } s (s.offerCall e) := by
  unfold State.offerCall
  rw [h]
  simp only
  have ho := s.offer_engine (.call (s.buildCall i)) (lineClassFor i.cls) none
  split
  · refine ⟨false, ?_⟩
    refine Sets.keep (t := (s.offer (.call (s.buildCall i)) (lineClassFor i.cls) none).1.setEntry e _) ?_ (State.takeCall_engine _ _ _)
    exact ⟨by simp [State.setEntry, ho], by simp [State.setEntry, ho]⟩
  · exact ⟨true, by simp [State.setEntry, ho], by simp [State.setEntry, ho]⟩

theorem State.takeSequence_sets {s : State} {e : Nat} {i : Incident} (h : s.incident? e = some i) :
    ∃ q, Sets e { i with pageSeq := some q } s (s.takeSequence e) := by
  unfold State.takeSequence
  rw [h]
  simp only
  split
  · exact ⟨_, rfl, rfl⟩
  · exact ⟨_, rfl, rfl⟩

/-- Issuing a CALL takes a sequence, clears the refresh due mark and settles whether a CALL is owed (R27, R39, R42). -/
theorem State.issueCall_sets {s : State} {e : Nat} {i : Incident} (h : s.incident? e = some i) :
    ∃ q b, Sets e { i with pageSeq := some q, refreshDue := false, callOwed := b } s (s.issueCall e) := by
  have hl := incident?_lt h
  obtain ⟨q, h1⟩ := State.takeSequence_sets h
  have l1 := h1.lookup hl
  have h2 := State.modifyIncident_sets l1 fun i => { i with refreshDue := false }
  have l2 := h2.lookup (by rw [h1.table]; simpa using hl)
  obtain ⟨b, h3⟩ := State.offerCall_sets l2
  exact ⟨q, b, h1.trans (h2.trans h3)⟩

/-- The identity of an incident is kept (R2: fixed at opening). -/
def SameSource (i j : Incident) : Prop := j.serial = i.serial ∧ j.input = i.input ∧ j.kind = i.kind ∧ j.cls = i.cls

/-! ### Selections (R28) -/

theorem runSelection_same (roster : List PagerRecord) (i : Incident) (lv : LevelPlan) :
    runSelection roster i lv = { i with calls := (runSelection roster i lv).calls } := rfl

theorem selected_nodup (roster : List PagerRecord) (i : Incident) (lv : LevelPlan) : (selected roster i lv).Nodup := by
  unfold selected
  have h : (roster.zipIdx.map (·.2)).Nodup := by
    rw [List.zipIdx_map_snd]
    exact List.nodup_range'
  exact h.sublist (List.filter_sublist.map _)

theorem selected_new {roster : List PagerRecord} {i : Incident} {lv : LevelPlan} {p : Nat} (h : p ∈ selected roster i lv) :
    p ∉ i.calls.map (·.pager) := by
  obtain ⟨x, hx, rfl⟩ := List.mem_map.1 h
  have := (List.mem_filter.1 hx).2
  simp only [selects, Bool.and_eq_true, Bool.not_eq_true', Incident.inList, List.any_eq_false, beq_iff_eq] at this
  intro hm
  obtain ⟨c, hc, e⟩ := List.mem_map.1 hm
  exact this.2 c hc e

/-- A selection keeps the bounds of a call list: at most 8 pagers, none twice (R2, R28). -/
theorem runSelection_calls (roster : List PagerRecord) (i : Incident) (lv : LevelPlan)
    (h1 : i.calls.length ≤ callListMax) (h2 : (i.calls.map (·.pager)).Nodup) :
    (runSelection roster i lv).calls.length ≤ callListMax ∧ ((runSelection roster i lv).calls.map (·.pager)).Nodup := by
  constructor
  · simp [runSelection]; omega
  · simp only [runSelection, List.map_append, List.map_map]
    have e : ((fun c : Called => c.pager) ∘ fun p => (⟨p, false⟩ : Called)) = id := rfl
    rw [e, List.map_id]
    refine List.nodup_append.2 ⟨h2, (selected_nodup _ _ _).sublist (List.take_sublist _ _), ?_⟩
    intro a ha b hb hab
    subst hab
    exact selected_new (List.mem_of_mem_take hb) ha

theorem foldl_runSelection (roster : List PagerRecord) (lvs : List LevelPlan) :
    ∀ i : Incident, i.calls.length ≤ callListMax → (i.calls.map (·.pager)).Nodup →
    let j := lvs.foldl (runSelection roster) i
    j = { i with calls := j.calls } ∧ j.calls.length ≤ callListMax ∧ (j.calls.map (·.pager)).Nodup := by
  induction lvs with
  | nil => exact fun i h1 h2 => ⟨rfl, h1, h2⟩
  | cons lv lvs ih =>
    intro i h1 h2
    obtain ⟨a, b⟩ := runSelection_calls roster i lv h1 h2
    obtain ⟨c, d, e⟩ := ih _ a b
    exact ⟨c, d, e⟩

/-! ### Entering levels -/

/-- An incident that may enter a level or UNANSWERED: calling, with a sound call list. -/
structure Calls (i : Incident) : Prop where
  short : i.calls.length ≤ callListMax
  nodup : (i.calls.map (·.pager)).Nodup
  responder : i.responder = none
  settle : i.settleOwed = none

/-- Every UNANSWERED entry leaves the entry UNANSWERED with a window (R35, R36). -/
theorem State.unansweredEntry_sets {s : State} {e : Nat} {i : Incident} (h : s.incident? e = some i) (hc : Calls i)
    (hs : i.state = .unanswered) (hl : i.level = s.lastLevel i.cls) :
    ∃ j, Sets e j s (s.unansweredEntry e) ∧ SameSource i j ∧ IncidentSound (s.lastLevel j.cls) j := by
  have he := incident?_lt h
  unfold State.unansweredEntry
  rw [h]
  simp only
  have hr : ({ i with calls := i.calls.map fun c => { c with declined := false } } : Incident).calls.length ≤ callListMax := by
    simpa using hc.short
  have hn : (({ i with calls := i.calls.map fun c => { c with declined := false } } : Incident).calls.map (·.pager)).Nodup := by
    simp only [List.map_map]; exact hc.nodup
  obtain ⟨a, b, c⟩ := foldl_runSelection s.presence.roster (s.levels i.cls) _ hr hn
  generalize hj : (s.levels i.cls).foldl (runSelection s.presence.roster)
    { i with calls := i.calls.map fun c => { c with declined := false } } = j at a b c ⊢
  have good : ∀ (k : Incident), k.state = .unanswered → k.level = i.level → k.cls = i.cls → k.calls = j.calls →
      k.responder = none → k.settleOwed = none → k.window.isSome = true → IncidentSound (s.lastLevel k.cls) k := by
    intro k h1 h2 h3 h4 h5 h6 h7
    refine ⟨by rw [h2, h3, hl], by rw [h4]; exact b, by rw [h4]; exact c, fun _ => ⟨h5, h7, h6⟩, fun _ => by rw [h2, h3, hl], ?_, ?_⟩
    · rw [h1]; simp
    · rw [h1]; simp
  have hset : Sets e { j with window := some (s.now + second * (s.levelPlan i.cls (s.lastLevel i.cls)).window) } s
      ((s.setEntry e (some { j with window := some (s.now + second * (s.levelPlan i.cls (s.lastLevel i.cls)).window) })).append
        .unanswered (some i.serial) none (some j.calls.length)) := ⟨rfl, rfl⟩
  split
  · refine ⟨_, hset, ⟨by rw [a], by rw [a], by rw [a], by rw [a]⟩, ?_⟩
    exact good _ (by rw [a]; exact hs) (by rw [a]) (by rw [a]) rfl (by rw [a]; exact hc.responder) (by rw [a]; exact hc.settle) rfl
  · obtain ⟨q, o, h3⟩ := State.issueCall_sets (hset.lookup he)
    refine ⟨_, hset.trans h3, ⟨by rw [a], by rw [a], by rw [a], by rw [a]⟩, ?_⟩
    exact good _ (by rw [a]; exact hs) (by rw [a]) (by rw [a]) rfl (by rw [a]; exact hc.responder) (by rw [a]; exact hc.settle) rfl

/-- Entering levels leaves the incident CALLING at a level, or UNANSWERED at the last (R29, R30, R35). -/
theorem State.enterLevels_sets (e : Nat) (lvs : List LevelPlan) : ∀ (l : Nat) (s : State) (i : Incident),
    s.incident? e = some i → Calls i → i.state = .calling →
    (lvs = [] → i.level = s.lastLevel i.cls) → (lvs ≠ [] → l + lvs.length = s.lastLevel i.cls + 1) →
    ∃ j, Sets e j s (State.enterLevels e lvs l s) ∧ SameSource i j ∧ IncidentSound (s.lastLevel j.cls) j := by
  induction lvs with
  | nil =>
    intro l s i h hc hs h0 _
    have he := incident?_lt h
    have h1 := State.modifyIncident_sets h fun i => { i with state := .unanswered }
    have p1 : (s.modifyIncident e fun i => { i with state := .unanswered }).lastLevel = s.lastLevel :=
      lastLevel_congr (s.modifyIncident_works e _).plans
    obtain ⟨j, h2, h3, h4⟩ := State.unansweredEntry_sets (h1.lookup he) ⟨hc.short, hc.nodup, hc.responder, hc.settle⟩ rfl
      (by rw [p1]; exact h0 rfl)
    exact ⟨j, h1.trans h2, h3, by rw [p1] at h4; exact h4⟩
  | cons lv rest ih =>
    intro l s i h hc hs _ h1
    have he := incident?_lt h
    have hlast : l + rest.length = s.lastLevel i.cls := by have := h1 (by simp); simp at this; omega
    unfold State.enterLevels
    rw [h]
    simp only
    obtain ⟨b, c⟩ := runSelection_calls s.presence.roster { i with level := l, window := none } lv hc.short hc.nodup
    have a := runSelection_same s.presence.roster { i with level := l, window := none } lv
    generalize hj : runSelection s.presence.roster { i with level := l, window := none } lv = j at a b c ⊢
    split
    · have g1 : Sets e j s (s.setEntry e (some j)) := State.setEntry_sets s e j
      have g2 := State.modifyIncident_sets (g1.lookup he) fun i => { i with window := some (s.now + second * lv.window) }
      have g3 := (g1.trans g2).keep (State.append_engine _ .level (some i.serial) none (some l))
      obtain ⟨q, o, g4⟩ := State.issueCall_sets (g3.lookup he)
      refine ⟨_, g3.trans g4, ⟨by rw [a], by rw [a], by rw [a], by rw [a]⟩, ?_⟩
      have st : j.state = .calling := by rw [a]; exact hs
      have lv : j.level = l := by rw [a]
      have cl : j.cls = i.cls := by rw [a]
      refine ⟨?_, b, c, fun _ => ⟨by rw [a]; exact hc.responder, rfl, by rw [a]; exact hc.settle⟩, ?_, ?_, ?_⟩
      · show j.level ≤ s.lastLevel j.cls
        rw [lv, cl]; omega
      all_goals simp [st]
    · have g1 : Sets e j s (s.setEntry e (some j)) := State.setEntry_sets s e j
      have g3 := g1.keep (State.append_engine _ .level (some i.serial) none (some (l + 4)))
      have p1 : ((s.setEntry e (some j)).append .level (some i.serial) none (some (l + 4))).lastLevel = s.lastLevel :=
        lastLevel_congr rfl
      have cl : j.cls = i.cls := by rw [a]
      obtain ⟨k, g4, g5, g6⟩ := ih (l + 1) _ j (g3.lookup he)
        ⟨b, c, by rw [a]; exact hc.responder, by rw [a]; exact hc.settle⟩ (by rw [a]; exact hs)
        (fun hr => by
          subst hr
          rw [p1, cl]
          show j.level = _
          rw [a]; simpa using hlast)
        (fun hr => by
          rw [p1, cl]
          omega)
      refine ⟨k, g3.trans g4, ?_, by rw [p1] at g6; exact g6⟩
      exact ⟨g5.1.trans (by rw [a]), g5.2.1.trans (by rw [a]), g5.2.2.1.trans (by rw [a]), g5.2.2.2.trans cl⟩

/-- A step of an incident leaves its entry sound (R30). -/
theorem State.stepIncident_sets {s : State} {e : Nat} {i : Incident} (h : s.incident? e = some i) (hc : Calls i)
    (hs : i.state = .calling ∨ i.state = .unanswered) (hl : i.level ≤ s.lastLevel i.cls)
    (hu : i.state = .unanswered → i.level = s.lastLevel i.cls) :
    ∃ j, Sets e j s (s.stepIncident e) ∧ SameSource i j ∧ IncidentSound (s.lastLevel j.cls) j := by
  unfold State.stepIncident
  rw [h]
  simp only
  rcases hs with hs | hs
  · simp only [hs]
    refine State.enterLevels_sets e _ _ s i h hc hs ?_ ?_
    · intro hd
      have := List.drop_eq_nil_iff.1 hd
      unfold State.lastLevel at hl ⊢
      omega
    · intro hd
      have : ¬ (s.levels i.cls).length ≤ i.level + 1 := fun hh => hd (List.drop_eq_nil_iff.2 hh)
      rw [List.length_drop]
      unfold State.lastLevel
      omega
  · simp only [hs]
    exact State.unansweredEntry_sets h hc hs (hu hs)

end Sys2Proof.Machine
end

