-- ==== Sys2Proof/Laws/Incidents.lean ====
section
/-! SUPPORT. Every operation of the Incident Engine keeps the incident table sound (R1, R2, R10). -/

namespace Sys2Proof.Machine

/-- The engine's part of soundness: table and marks (R1, R2, R8, R10). -/
abbrev EngineSound (s : State) : Prop := TableGood s.lastLevel s.engine.table ∧ s.engine.pend.length = 48

/-- An operation that keeps the engine's part of soundness. -/
def KeepsTable (s t : State) : Prop := EngineSound s → EngineSound t

theorem KeepsTable.refl (s : State) : KeepsTable s s := id

theorem KeepsTable.trans {s t u : State} (h : KeepsTable s t) (k : KeepsTable t u) : KeepsTable s u := k ∘ h

theorem KeepsTable.of_engine {s t : State} (h : t.engine = s.engine) : KeepsTable s t := by
  unfold KeepsTable EngineSound
  rw [lastLevel_congr (s := s) (t := t) (congrArg Engine.plans h), h]
  exact id

theorem KeepsTable.foldl {α : Type} {f : State → α → State} (h : ∀ s a, KeepsTable s (f s a)) (l : List α) :
    ∀ s, KeepsTable s (l.foldl f s) := by
  induction l with
  | nil => exact KeepsTable.refl
  | cons a l ih => exact fun s => (h s a).trans (ih _)

/-- An entry changed to a sound incident of the same source. -/
theorem Sets.keeps {e : Nat} {i j : Incident} {s t : State} (h : Sets e j s t) (hi : s.incident? e = some i)
    (hj : SameSource i j) (hp : t.engine.plans = s.engine.plans)
    (hg : EngineSound s → IncidentSound (s.lastLevel j.cls) j) : KeepsTable s t := by
  intro hs
  refine ⟨?_, by rw [h.pend]; exact hs.2⟩
  rw [lastLevel_congr hp, h.table]
  exact hs.1.set (incident?_eq.1 hi) hj.1 hj.2.1 hj.2.2.1 (hg hs)

theorem EngineSound.incident {s : State} (hs : EngineSound s) {e : Nat} {i : Incident} (hi : s.incident? e = some i) :
    IncidentSound (s.lastLevel i.cls) i := hs.1.sound (incident?_eq.1 hi)

theorem IncidentSound.calls {last : Nat} {i : Incident} (h : IncidentSound last i) (hs : i.state = .calling ∨ i.state = .unanswered) :
    Calls i := ⟨h.2.1, h.2.2.1, (h.2.2.2.1 hs).1, (h.2.2.2.1 hs).2.2⟩

theorem stillCalling_iff (i : Incident) : i.stillCalling = true ↔ i.state = .calling ∨ i.state = .unanswered := by
  unfold Incident.stillCalling
  cases i.state <;> simp

/-! ### Refresh and claim change reports -/

theorem State.refresh_keeps {s : State} {e : Nat} {i : Incident} (h : s.incident? e = some i)
    (hs : i.state = .calling ∨ i.state = .unanswered) : KeepsTable s (s.refresh e) := by
  have h1 := State.modifyIncident_sets h fun i => { i with lastRefresh := some s.now }
  obtain ⟨q, b, h2⟩ := State.issueCall_sets (h1.lookup (incident?_lt h))
  refine (h1.trans h2).keeps h ⟨rfl, rfl, rfl, rfl⟩ (s.refresh_works e).plans fun hg => ?_
  obtain ⟨a1, a2, a3, a4, a5, a6, a7⟩ := hg.incident h
  refine ⟨a1, a2, a3, a4, a5, ?_, ?_⟩ <;> intro hh <;> rcases hs with hs | hs <;> simp [hs] at hh

theorem State.reportIn_keeps (p : Nat) (s : State) (e : Nat) : KeepsTable s (State.reportIn p s e) := by
  unfold State.reportIn
  split
  · exact .refl s
  · next i hi =>
    split
    · next hc =>
      have hs := (stillCalling_iff i).1 (Bool.and_eq_true_iff.1 hc).1
      split
      · exact State.refresh_keeps hi hs
      · refine (s.setEntry_sets e { i with refreshDue := true }).keeps hi ⟨rfl, rfl, rfl, rfl⟩ rfl fun hg => ?_
        obtain ⟨a1, a2, a3, a4, a5, a6, a7⟩ := hg.incident hi
        refine ⟨a1, a2, a3, a4, a5, ?_, ?_⟩ <;> intro hh <;> rcases hs with hs | hs <;> simp [hs] at hh
    · exact .refl s

/-- Claim change reports keep the table sound (R41). -/
theorem State.reportClaim_keeps (s : State) (p : Nat) : KeepsTable s (s.reportClaim p) :=
  KeepsTable.foldl (State.reportIn_keeps p) _ s

/-! ### Opening -/

theorem lowestFree_spec {table : List (Option Incident)} {e : Nat} (h : lowestFree table = some e) : table[e]? = some none := by
  unfold lowestFree at h
  obtain ⟨he, hp, _⟩ := List.findIdx?_eq_some_iff_getElem.1 h
  rw [List.getElem?_eq_getElem he]
  simpa using hp

theorem incidents_length_le (table : List (Option Incident)) : (table.filterMap id).length ≤ table.length :=
  List.length_filterMap_le _ _

/-- A serial that no open incident holds is found (R3). -/
theorem freshSerial_new {table : List (Option Incident)} (hl : table.length = tableSize) (counter : Nat) :
    freshSerial table counter ∉ (table.filterMap id).map (·.serial) := by
  have holds : ∀ n, holdsSerial table n = true ↔ n ∈ (table.filterMap id).map (·.serial) := by
    intro n
    simp only [holdsSerial, List.any_eq_true, List.mem_map, List.mem_filterMap, id, exists_eq_right, Option.any_eq_true,
      beq_iff_eq]
    constructor
    · rintro ⟨x, hx, i, rfl, hi⟩; exact ⟨i, hx, hi⟩
    · rintro ⟨i, hi, h⟩; exact ⟨_, hi, i, rfl, h⟩
  unfold freshSerial
  cases hf : ((List.range 256).map fun i => (counter + i) % 256).find? fun n => !holdsSerial table n with
  | some n =>
    have := List.find?_some hf
    simp only [Bool.not_eq_true'] at this
    simp only [Option.getD_some]
    intro hm
    rw [(holds n).2 hm] at this
    cases this
  | none =>
    exfalso
    have hall : ∀ n < 256, n ∈ (table.filterMap id).map (·.serial) := by
      intro n hn
      have hm : n ∈ (List.range 256).map fun i => (counter + i) % 256 := by
        refine List.mem_map.2 ⟨(n + 256 - counter % 256) % 256, List.mem_range.2 (Nat.mod_lt _ (by decide)), ?_⟩
        omega
      have := List.find?_eq_none.1 hf n hm
      exact (holds n).1 (by simpa using this)
    have hsub : List.range 256 ⊆ (table.filterMap id).map (·.serial) := fun n hn => hall n (List.mem_range.1 hn)
    have := (List.nodup_range (n := 256)).length_le_of_subset hsub
    rw [List.length_range, List.length_map] at this
    have h2 := incidents_length_le table
    rw [hl, tableSize] at h2
    exact absurd (this.trans h2) (by decide)

/-- A source that findSource does not find is the source of no open incident (R1). -/
theorem findSource_none {table : List (Option Incident)} {n : Nat} {k : SourceKind} (h : findSource table n k = none) :
    (n, k) ∉ (table.filterMap id).map fun i => (i.input, i.kind) := by
  intro hm
  simp only [List.mem_map, List.mem_filterMap, id, exists_eq_right, Prod.mk.injEq] at hm
  obtain ⟨i, hi, h1, h2⟩ := hm
  unfold findSource at h
  split at h
  · next hf =>
    have := List.findIdx?_eq_none_iff.1 hf _ hi
    simp [h1, h2] at this
  · next e hf =>
    obtain ⟨he, hp, _⟩ := List.findIdx?_eq_some_iff_getElem.1 hf
    rw [List.getElem?_eq_getElem he] at h
    cases hx : table[e] with
    | none => simp [hx] at hp
    | some j => simp [hx] at h

/-- What findSource finds is the entry of the source (R1). -/
theorem findSource_some {s : State} {n : Nat} {k : SourceKind} {e : Nat} {i : Incident}
    (h : findSource s.engine.table n k = some (e, i)) : s.incident? e = some i ∧ i.input = n ∧ i.kind = k := by
  unfold findSource at h
  split at h
  · cases h
  · next e' hf =>
    obtain ⟨he, hp, _⟩ := List.findIdx?_eq_some_iff_getElem.1 hf
    simp only [List.getElem?_eq_getElem he, Option.join_some] at h
    obtain ⟨j, hj, heq⟩ := Option.map_eq_some_iff.1 h
    simp only [Prod.mk.injEq] at heq
    obtain ⟨rfl, rfl⟩ := heq
    rw [hj] at hp
    simp only [Option.any_some, Bool.and_eq_true, beq_iff_eq] at hp
    exact ⟨by rw [incident?_eq, List.getElem?_eq_getElem he, hj], hp.1, hp.2⟩

/-- What findSerial finds is an entry of the serial (R11). -/
theorem findSerial_some {table : List (Option Incident)} {serial e : Nat} (h : findSerial table serial = some e) :
    ∃ i, table[e]? = some (some i) ∧ i.serial = serial := by
  unfold findSerial at h
  obtain ⟨he, hp, _⟩ := List.findIdx?_eq_some_iff_getElem.1 h
  cases hx : table[e] with
  | none => simp [hx] at hp
  | some j => exact ⟨j, by rw [List.getElem?_eq_getElem he, hx], by simpa [hx] using hp⟩

/-- An opening keeps the table sound (R3, R5). -/
theorem State.openIncident_keeps {s : State} {e n : Nat} {k : SourceKind} (r : Bool) (he : lowestFree s.engine.table = some e)
    (hn : findSource s.engine.table n k = none) : KeepsTable s (s.openIncident e n k r) := by
  intro hs
  obtain ⟨⟨h1, h2, h3, h4⟩, h5⟩ := hs
  have hfree := lowestFree_spec he
  have hlt : e < s.engine.table.length := (List.getElem?_eq_some_iff.1 hfree).1
  have hperm := fun i : Incident => filterMap_set_free_perm s.engine.table e i hfree
  have hserial := freshSerial_new h1 s.engine.serialCounter
  have hsource := findSource_none hn
  unfold State.openIncident
  simp only
  generalize hi : s.newIncident n k r = i
  have i1 : i.serial = freshSerial s.engine.table s.engine.serialCounter := by rw [← hi]; rfl
  have i2 : i.input = n ∧ i.kind = k := by rw [← hi]; exact ⟨rfl, rfl⟩
  have i3 : Calls i ∧ i.state = .calling ∧ i.level = 0 := by
    rw [← hi]; exact ⟨⟨by simp [State.newIncident], by simp [State.newIncident], rfl, rfl⟩, rfl, rfl⟩
  generalize hs2 : (s.withEngine { s.engine with table := s.engine.table.set e (some i), serialCounter := (i.serial + 1) % 256 }).withLog
    ((s.withEngine { s.engine with table := s.engine.table.set e (some i), serialCounter := (i.serial + 1) % 256 }).log.append .raised
      (some i.serial) none (some n) (i.cls == 1)) = s2
  have t2 : s2.engine.table = s.engine.table.set e (some i) := by rw [← hs2]; rfl
  have p2 : s2.engine.pend = s.engine.pend := by rw [← hs2]; rfl
  have l2 : s2.lastLevel = s.lastLevel := lastLevel_congr (by rw [← hs2]; rfl)
  have look : s2.incident? e = some i := by rw [incident?_eq, t2, List.getElem?_set_self hlt]
  obtain ⟨j, g1, g2, g3⟩ := State.enterLevels_sets e (s2.levels i.cls) 0 s2 i look i3.1 i3.2.1
    (fun hh => by rw [i3.2.2]; simp [State.lastLevel, hh])
    (fun hh => by
      have := List.length_pos_iff.2 hh
      unfold State.lastLevel
      omega)
  have tj : (State.enterLevels e (s2.levels i.cls) 0 s2).engine.table = s.engine.table.set e (some j) := by
    rw [g1.table, t2, List.set_set]
  have lj : (State.enterLevels e (s2.levels i.cls) 0 s2).lastLevel = s.lastLevel :=
    (lastLevel_congr (State.enterLevels_works e _ 0 s2).plans).trans l2
  refine ⟨?_, by rw [g1.pend, p2]; exact h5⟩
  rw [lj, tj]
  have hp := hperm j
  refine ⟨by simpa using h1, ?_, ?_, ?_⟩
  · rw [(hp.map _).nodup_iff, List.map_cons, List.nodup_cons]
    exact ⟨by rw [g2.1, i1]; exact hserial, h2⟩
  · rw [(hp.map _).nodup_iff, List.map_cons, List.nodup_cons]
    exact ⟨by rw [g2.2.1, g2.2.2.1, i2.1, i2.2]; exact hsource, h3⟩
  · intro x hx
    rcases List.mem_cons.1 (hp.mem_iff.1 hx) with rfl | hx
    · rw [l2] at g3; exact g3
    · exact h4 x hx

theorem State.setMark_keeps (s : State) (n : Nat) (k : SourceKind) (m : Option Bool) : KeepsTable s (s.setMark n k m) :=
  fun hs => ⟨hs.1, by simpa [State.setMark] using hs.2⟩

theorem State.pendRaise_keeps (s : State) (n : Nat) (k : SourceKind) : KeepsTable s (s.pendRaise n k) :=
  (s.setMark_keeps n k _).trans (.of_engine rfl)

theorem foldl_betterMark_mem (s : State) (l : List (Nat × Bool)) (b : Option (Nat × Bool)) {x : Nat × Bool}
    (h : l.foldl s.betterMark b = some x) : b = some x ∨ x ∈ l := by
  induction l generalizing b with
  | nil => exact .inl h
  | cons a l ih =>
    rcases ih _ h with h' | h'
    · unfold State.betterMark at h'
      split at h'
      · right; simp at h'; simp [h']
      · split at h'
        · right; simp at h'; simp [h']
        · left; exact h'
    · right; simp [h']

/-- The best pending raise is a set mark of a source that no open incident has (R9). -/
theorem bestMark_spec {s : State} {i : Nat} {note : Bool} (h : s.bestMark = some (i, note)) :
    s.engine.pend[i]? = some (some note) ∧ findSource s.engine.table (i / 3) (placeKind i) = none := by
  rcases foldl_betterMark_mem _ _ _ h with h | h
  · cases h
  · unfold State.openable at h
    obtain ⟨⟨m, j⟩, hm, hx⟩ := List.mem_filterMap.1 h
    cases m with
    | none => cases hx
    | some nt =>
      simp only at hx
      split at hx
      · next hn =>
        simp only [Option.some.injEq, Prod.mk.injEq] at hx
        obtain ⟨rfl, rfl⟩ := hx
        exact ⟨by have := List.mem_zipIdx_iff_getElem?.1 hm; simpa using this, Option.isNone_iff_eq_none.1 hn⟩
      · cases hx

/-- Opening pending raises keeps the table sound (R9). -/
theorem State.openPending_keeps (fuel : Nat) : ∀ s : State, KeepsTable s (State.openPending fuel s) := by
  induction fuel with
  | zero => exact KeepsTable.refl
  | succ fuel ih =>
    intro s
    unfold State.openPending
    split
    · next e i note he hb =>
      refine ((s.setMark_keeps _ _ _).trans (State.openIncident_keeps note ?_ ?_)).trans (ih _)
      · exact he
      · exact (bestMark_spec hb).2
    · exact .refl s

/-! ### Settling, closing -/

theorem State.offerTaken_keeps {s : State} {e : Nat} {i : Incident} (h : s.incident? e = some i) (hs : i.state = .taken) :
    KeepsTable s (s.offerTaken e) := by
  have ho := s.offer_engine (.settle (i.settle .taken)) (lineClassFor i.cls) none
  have hset : ∃ o : Option SettleKind, (o = none ∨ o = some .taken) ∧ Sets e { i with settleOwed := o } s (s.offerTaken e) := by
    unfold State.offerTaken
    rw [h]
    simp only
    split
    · refine ⟨none, .inl rfl, ?_⟩
      refine Sets.keep (t := (s.offer (.settle (i.settle .taken)) (lineClassFor i.cls) none).1.setEntry e _) ?_
        (State.applySettle_engine _ _ _)
      exact ⟨by simp [State.setEntry, ho], by simp [State.setEntry, ho]⟩
    · exact ⟨some .taken, .inr rfl, by simp [State.setEntry, ho], by simp [State.setEntry, ho]⟩
  obtain ⟨o, ho, hset⟩ := hset
  refine hset.keeps h ⟨rfl, rfl, rfl, rfl⟩ (s.offerTaken_works e).plans fun hg => ?_
  obtain ⟨a1, a2, a3, a4, a5, a6, a7⟩ := hg.incident h
  refine ⟨a1, a2, a3, ?_, ?_, fun _ => ?_, ?_⟩
  · intro hh; simp [hs] at hh
  · intro hh; simp [hs] at hh
  · obtain ⟨b1, b2, b3, b4, b5⟩ := a6 hs
    exact ⟨b1, b2, ho, b4, b5⟩
  · intro hh; simp [hs] at hh

theorem State.freeEntry_keeps (s : State) (e : Nat) (i : Incident) (k : SettleKind) : KeepsTable s (s.freeEntry e i k) := by
  have h1 : KeepsTable s (s.setEntry e none) := fun hs => ⟨hs.1.free e, hs.2⟩
  have h2 : KeepsTable (s.setEntry e none) ((s.setEntry e none).append (settleTag k) (some i.serial) i.responder none) :=
    .of_engine rfl
  exact ((h1.trans h2).trans (.of_engine (State.applySettle_engine _ _ _))).trans (State.openPending_keeps _ _)

theorem State.offerClosing_keeps (s : State) (e : Nat) : KeepsTable s (s.offerClosing e) := by
  unfold State.offerClosing
  split
  · exact .refl s
  · split
    · exact .refl s
    · simp only
      split
      · exact (KeepsTable.of_engine (State.offer_engine _ _ _ _)).trans (State.freeEntry_keeps _ _ _ _)
      · exact .of_engine (State.offer_engine _ _ _ _)

/-- Entering CLOSING by a closing kind keeps the table sound (R18), whatever the incident was. -/
theorem State.enterClosing_keeps {s : State} {e : Nat} {i : Incident} (h : s.incident? e = some i) {k : SettleKind}
    (hk : k ≠ .taken) : KeepsTable s (s.enterClosing e k) := by
  have h1 := State.modifyIncident_sets h fun i =>
    { i with state := .closing, window := none, callOwed := false, refreshDue := false, settleOwed := some k }
  refine (h1.keeps h ⟨rfl, rfl, rfl, rfl⟩ (s.modifyIncident_works e _).plans fun hg => ?_).trans (State.offerClosing_keeps _ e)
  obtain ⟨a1, a2, a3, a4, a5, a6, a7⟩ := hg.incident h
  refine ⟨a1, a2, a3, ?_, ?_, ?_, fun _ => ⟨rfl, rfl, rfl, by simp, by simpa using hk⟩⟩ <;> intro hh <;> simp at hh

/-! ### Raises, restores, answers -/

/-- The restored mark alone is changed. -/
theorem restored_sound {last : Nat} {i : Incident} (b : Bool) (h : IncidentSound last i) : IncidentSound last { i with restored := b } := h

theorem State.raise_keeps (s : State) (n : Nat) (k : SourceKind) : KeepsTable s (s.raise n k) := by
  unfold State.raise
  split
  · next e i hf =>
    obtain ⟨hi, _, _⟩ := findSource_some hf
    split
    · split
      · exact s.setMark_keeps n k _
      · exact s.pendRaise_keeps n k
    · exact (s.setEntry_sets e { i with restored := false }).keeps hi ⟨rfl, rfl, rfl, rfl⟩ rfl fun hg =>
        restored_sound false (hg.incident hi)
  · next hf =>
    split
    · exact s.setMark_keeps n k _
    · split
      · next e he => exact State.openIncident_keeps false he hf
      · exact s.pendRaise_keeps n k

theorem State.restoreMark_keeps (s : State) (n : Nat) (k : SourceKind) : KeepsTable s (s.restoreMark n k) := by
  unfold State.restoreMark
  split
  · exact .refl s
  · split <;> exact s.setMark_keeps n k _

theorem State.restore_keeps (s : State) (n : Nat) (k : SourceKind) : KeepsTable s (s.restore n k) := by
  unfold State.restore
  split
  · exact s.restoreMark_keeps n k
  · next e i hf =>
    obtain ⟨hi, _, _⟩ := findSource_some hf
    have h1 : KeepsTable s (s.setEntry e (some { i with restored := true })) :=
      (s.setEntry_sets e { i with restored := true }).keeps hi ⟨rfl, rfl, rfl, rfl⟩ rfl fun hg =>
        restored_sound true (hg.incident hi)
    have look := (s.setEntry_sets e { i with restored := true }).lookup (incident?_lt hi)
    split
    · exact s.restoreMark_keeps n k
    · simp only
      split
      · exact h1.trans (State.enterClosing_keeps look (by decide))
      · exact h1
    · simp only
      split
      · exact h1
      · exact h1.trans (State.enterClosing_keeps look (by decide))

theorem State.accept_keeps (s : State) (e p : Nat) : KeepsTable s (s.accept e p) := by
  unfold State.accept
  split
  · exact .refl s
  · next i hi =>
    split
    · next hc =>
      obtain ⟨hc1, hc2⟩ := Bool.and_eq_true_iff.1 hc
      have g1 := s.setEntry_sets e
        { i with state := .taken, responder := some p, window := none, callOwed := false, refreshDue := false }
      have g2 := g1.keep (State.append_engine _ .taken (some i.serial) (some p) none)
      have look := g2.lookup (incident?_lt hi)
      refine (g2.keeps hi ⟨rfl, rfl, rfl, rfl⟩ rfl fun hg => ?_).trans (State.offerTaken_keeps look rfl)
      obtain ⟨a1, a2, a3, a4, a5, a6, a7⟩ := hg.incident hi
      have a4 := a4 ((stillCalling_iff i).1 hc1)
      refine ⟨a1, a2, a3, ?_, ?_, fun _ => ⟨?_, rfl, .inl a4.2.2, rfl, rfl⟩, ?_⟩
      · intro hh; simp at hh
      · intro hh; simp at hh
      · obtain ⟨c, hc, he⟩ := List.any_eq_true.1 hc2
        exact ⟨c, hc, by simp only [beq_iff_eq] at he; rw [he]⟩
      · intro hh; simp at hh
    · exact .refl s

theorem map_declined_pagers (p : Nat) (cs : List Called) :
    (cs.map fun c => if c.pager = p then { c with declined := true } else c).map (·.pager) = cs.map (·.pager) := by
  rw [List.map_map]
  refine List.map_congr_left fun c _ => ?_
  simp only [Function.comp]
  split <;> rfl

theorem State.decline_keeps (s : State) (e p : Nat) : KeepsTable s (s.decline e p) := by
  unfold State.decline
  split
  · exact .refl s
  · next i hi =>
    split
    · next hc =>
      have hst := (stillCalling_iff i).1 (Bool.and_eq_true_iff.1 hc).1
      simp only
      generalize hj : ({ i with calls := i.calls.map fun c => if c.pager = p then { c with declined := true } else c } : Incident) = j
      have b1 : j.state = i.state := by rw [← hj]
      have b2 : j.calls.length = i.calls.length := by rw [← hj]; simp
      have b3 : j.calls.map (·.pager) = i.calls.map (·.pager) := by rw [← hj]; exact map_declined_pagers p i.calls
      have b4 : SameSource i j := by rw [← hj]; exact ⟨rfl, rfl, rfl, rfl⟩
      have b5 : j.level = i.level ∧ j.responder = i.responder ∧ j.window = i.window ∧ j.settleOwed = i.settleOwed := by
        rw [← hj]; exact ⟨rfl, rfl, rfl, rfl⟩
      have sound : EngineSound s → IncidentSound (s.lastLevel j.cls) j := fun hg => by
        obtain ⟨a1, a2, a3, a4, a5, a6, a7⟩ := hg.incident hi
        have a4 := a4 hst
        rw [b4.2.2.2]
        refine ⟨by rw [b5.1]; exact a1, by rw [b2]; exact a2, by rw [b3]; exact a3, fun _ => ?_, ?_, ?_, ?_⟩
        · rw [b5.2.1, b5.2.2.1, b5.2.2.2]; exact a4
        · rw [b1, b5.1]; exact a5
        · intro hh; rw [b1] at hh; rcases hst with hst | hst <;> simp [hst] at hh
        · intro hh; rw [b1] at hh; rcases hst with hst | hst <;> simp [hst] at hh
      have g2 := (s.setEntry_sets e j).keep (State.append_engine _ .declined (some i.serial) (some p) none)
      have look := g2.lookup (incident?_lt hi)
      have k2 := g2.keeps hi b4 rfl sound
      split
      · exact k2
      · intro hs
        have hg := k2 hs
        obtain ⟨a1, a2, a3, a4, a5, a6, a7⟩ := hg.incident look
        obtain ⟨m, h1, h2, h3⟩ := State.stepIncident_sets look
          ⟨a2, a3, (a4 (by rw [b1]; exact hst)).1, (a4 (by rw [b1]; exact hst)).2.2⟩ (by rw [b1]; exact hst) a1 a5
        exact h1.keeps look h2 (State.stepIncident_works _ e).plans (fun _ => h3) hg
    · exact .refl s

theorem State.doneBy_keeps (s : State) (e p : Nat) : KeepsTable s (s.doneBy e p) := by
  unfold State.doneBy
  split
  · exact .refl s
  · next i hi =>
    split
    · have g2 := (s.setEntry_sets e { i with done := true }).keep (State.append_engine _ .done (some i.serial) (some p) none)
      have k2 : KeepsTable s _ := g2.keeps hi ⟨rfl, rfl, rfl, rfl⟩ rfl fun hg => by
        have h : IncidentSound (s.lastLevel i.cls) i := hg.incident hi
        exact h
      simp only
      split
      · exact k2.trans (State.enterClosing_keeps (g2.lookup (incident?_lt hi)) (by decide))
      · exact k2
    · exact .refl s

/-- An answer keeps the table sound (R11 to R15). -/
theorem State.takeAnswer_keeps (s : State) (k : AnswerKey) : KeepsTable s (s.takeAnswer k) := by
  unfold State.takeAnswer
  split
  · split
    · exact .refl s
    · split
      · exact s.accept_keeps _ _
      · exact s.decline_keeps _ _
      · exact s.doneBy_keeps _ _
  · exact .refl s

/-- A CANCEL keeps the table sound (R17). -/
theorem State.cancel_keeps (s : State) (serial : Nat) : KeepsTable s (s.cancel serial) := by
  unfold State.cancel
  split
  · exact .refl s
  · next e _ =>
    split
    · exact .refl s
    · next i hi =>
      split
      · exact .refl s
      · have h1 : KeepsTable s (s.modifyInput i.input (setCancelHold i.kind)) := .of_engine rfl
        have h2 : (s.modifyInput i.input (setCancelHold i.kind)).incident? e = some i := hi
        have h3 := State.enterClosing_keeps h2 (k := .cancelled) (by simp)
        exact h1.trans h3

/-! ### Slot boundaries and timers -/

theorem State.reofferSettle_keeps (s : State) (e : Nat) : KeepsTable s (s.reofferSettle e) := by
  unfold State.reofferSettle
  split
  · exact .refl s
  · next i hi =>
    split
    · exact s.offerClosing_keeps e
    · next hs =>
      split
      · exact State.offerTaken_keeps hi hs
      · exact .refl s
    · exact .refl s

theorem State.reofferCall_keeps (s : State) (e : Nat) : KeepsTable s (s.reofferCall e) := by
  unfold State.reofferCall
  split
  · exact .refl s
  · next i hi =>
    split
    · next ho =>
      obtain ⟨b, h⟩ := State.offerCall_sets hi
      refine h.keeps hi ⟨rfl, rfl, rfl, rfl⟩ (s.offerCall_works e).plans fun hg => ?_
      obtain ⟨a1, a2, a3, a4, a5, a6, a7⟩ := hg.incident hi
      refine ⟨a1, a2, a3, a4, a5, ?_, ?_⟩
      · intro hh; have := a6 hh; simp [ho] at this
      · intro hh; have := a7 hh; simp [ho] at this
    · exact .refl s

/-- A slot boundary keeps the table sound (R20). -/
theorem State.engineBoundary_keeps (s : State) : KeepsTable s s.engineBoundary :=
  (KeepsTable.foldl State.reofferSettle_keeps _ s).trans (KeepsTable.foldl State.reofferCall_keeps _ _)

theorem State.windowExpires_keeps (s : State) (e : Nat) : KeepsTable s (s.windowExpires e) := by
  unfold State.windowExpires
  split
  · exact .refl s
  · next i hi =>
    split
    · exact .refl s
    · next t ht =>
      intro hs
      obtain ⟨a1, a2, a3, a4, a5, a6, a7⟩ := EngineSound.incident hs hi
      have hst : i.state = .calling ∨ i.state = .unanswered := by
        cases h : i.state with
        | calling => exact .inl rfl
        | unanswered => exact .inr rfl
        | taken => have := (a6 h).2.1; rw [ht] at this; cases this
        | closing => have := (a7 h).1; rw [ht] at this; cases this
      have a4 := a4 hst
      have hi' : (s.reach t).incident? e = some i := hi
      have g1 := State.modifyIncident_sets hi' fun i => { i with window := none }
      have look := g1.lookup (incident?_lt hi')
      have p1 : ((s.reach t).modifyIncident e fun i => { i with window := none }).lastLevel = s.lastLevel :=
        lastLevel_congr (State.modifyIncident_works (s.reach t) e _).plans
      obtain ⟨m, h1, h2, h3⟩ := State.stepIncident_sets look ⟨a2, a3, a4.1, a4.2.2⟩ hst (by rw [p1]; exact a1)
        (by rw [p1]; exact a5)
      have g2 := g1.trans h1
      refine (g2.keeps hi' h2 ?_ fun _ => by rw [p1] at h3; exact h3) (show EngineSound (s.reach t) from hs)
      exact (State.stepIncident_works _ e).plans.trans (State.modifyIncident_works _ e _).plans

theorem State.refreshLimitEnds_keeps (s : State) (e : Nat) : KeepsTable s (s.refreshLimitEnds e) := by
  unfold State.refreshLimitEnds
  split
  · exact .refl s
  · next i hi =>
    split
    · exact .refl s
    · next t ht =>
      split
      · next hc =>
        have hst := (stillCalling_iff i).1 (Bool.and_eq_true_iff.1 hc).1
        exact State.refresh_keeps (s := s.reach (t + refreshLimit)) hi hst
      · exact .refl s

end Sys2Proof.Machine
end

