-- ==== Sys2Proof/Laws/Calls.lean ====
section
/-! SUPPORT. What issuing a CALL makes of its incident, field by field (R27, R39, R40), and that a step reads no window
it finds running (R30). -/

namespace Sys2Proof.Machine

/-- The page sequence an incident takes for its next CALL (R27). -/
def State.nextSequence (s : State) (i : Incident) : Nat :=
  match i.pageSeq with
  | some q => (q + 1) % 256
  | none => s.engine.seqCounter

/-- The incident once its CALL has been issued; `owed` says that the CALL was refused (R39, R40, R42). -/
def State.issued (s : State) (i : Incident) (owed : Bool) : Incident :=
  { i with pageSeq := some (s.nextSequence i), refreshDue := false, callOwed := owed }

/-- Everything issuing the CALL of entry `e` does to the engine and the log, and when the CALL is owed. -/
structure Issues (e : Nat) (i : Incident) (owed : Bool) (s t : State) : Prop where
  engine : t.engine = { s.engine with
    table := s.engine.table.set e (some (s.issued i owed))
    seqCounter := if i.pageSeq = none then (s.engine.seqCounter + 1) % 256 else s.engine.seqCounter }
  log : t.log = s.log
  taken : s.line.hold = true ∨ s.line.queue.length < queueMax → owed = false
  refused : s.line.hold = false → queueMax ≤ s.line.queue.length → 2 < i.cls → owed = true ∧ t.line = s.line ∧ t.relay = s.relay

/-- What offering a CALL leaves of the engine (R39). -/
theorem State.offerCall_issues {s : State} {e : Nat} {i : Incident} (h : s.incident? e = some i) :
    ∃ owed, (s.offerCall e).engine = { s.engine with table := s.engine.table.set e (some { i with callOwed := owed }) } ∧
      (s.line.hold = true ∨ s.line.queue.length < queueMax → owed = false) ∧
      (s.line.hold = false → queueMax ≤ s.line.queue.length → 2 < i.cls →
        owed = true ∧ (s.offerCall e).line = s.line ∧ (s.offerCall e).relay = s.relay) := by
  unfold State.offerCall
  rw [h]
  simp only
  have ho := (s.offer_spec (.call (s.buildCall i)) (lineClassFor i.cls) none).rest
  generalize hr : s.offer (.call (s.buildCall i)) (lineClassFor i.cls) none = r at ho ⊢
  have hacc : s.line.hold = true ∨ s.line.queue.length < queueMax → r.2 = true := by
    rintro (hh | hh)
    · rw [← hr]; exact s.offer_hold _ _ _ hh
    · cases hd : s.line.hold with
      | true => rw [← hr]; exact s.offer_hold _ _ _ hd
      | false => rw [← hr, s.offer_room _ _ _ hd hh]
  have href : s.line.hold = false → queueMax ≤ s.line.queue.length → 2 < i.cls → r = (s, false) := by
    intro h1 h2 h3
    rw [← hr]
    have : lineClassFor i.cls = .class1 := if_neg (by omega)
    rw [this]
    exact s.offer_refused _ _ h1 h2
  by_cases ha : r.2 = true
  · rw [if_pos ha]
    refine ⟨false, ?_, fun _ => rfl, fun h1 h2 h3 => ?_⟩
    · rw [State.takeCall_engine]
      simp only [State.setEntry, State.withEngine]
      rw [ho]
    · rw [href h1 h2 h3] at ha; cases ha
  · rw [if_neg ha]
    refine ⟨true, ?_, fun hh => absurd (hacc hh) ha, fun h1 h2 h3 => ?_⟩
    · simp only [State.setEntry, State.withEngine]
      rw [ho]
    · rw [href h1 h2 h3]
      exact ⟨rfl, rfl, rfl⟩

theorem State.setEntry_setEntry (s : State) (e : Nat) (j k : Incident) :
    ((s.setEntry e (some j)).setEntry e (some k)) = s.setEntry e (some k) := by
  simp only [State.setEntry, State.withEngine, List.set_set]

/-- A CALL is offered with the next page sequence taken and the refresh due mark clear (R27, R42). -/
theorem State.issueCall_eq {s : State} {e : Nat} {i : Incident} (h : s.incident? e = some i) :
    s.issueCall e = (s.withEngine { s.engine with
      table := s.engine.table.set e (some { i with pageSeq := some (s.nextSequence i), refreshDue := false })
      seqCounter := if i.pageSeq = none then (s.engine.seqCounter + 1) % 256 else s.engine.seqCounter }).offerCall e := by
  have hl := incident?_lt h
  unfold State.issueCall State.takeSequence
  rw [h]
  simp only
  congr 1
  cases hq : i.pageSeq with
  | some q =>
    have h1 : (s.setEntry e (some { i with pageSeq := some ((q + 1) % 256) })).incident? e =
        some { i with pageSeq := some ((q + 1) % 256) } := (State.setEntry_sets s e _).lookup hl
    simp only [State.modifyIncident, h1]
    rw [State.setEntry_setEntry]
    simp [State.setEntry, State.nextSequence, hq]
  | none =>
    generalize hv : (s.setEntry e (some { i with pageSeq := some s.engine.seqCounter })).withEngine
      { (s.setEntry e (some { i with pageSeq := some s.engine.seqCounter })).engine with
        seqCounter := (s.engine.seqCounter + 1) % 256 } = v
    have h1 : v.incident? e = some { i with pageSeq := some s.engine.seqCounter } := by
      rw [← hv]; exact (State.setEntry_sets s e _).lookup hl
    simp only [State.modifyIncident, h1]
    rw [← hv]
    simp [State.setEntry, State.nextSequence, hq]

theorem State.issueCall_issues {s : State} {e : Nat} {i : Incident} (h : s.incident? e = some i) :
    ∃ owed, Issues e i owed s (s.issueCall e) := by
  have hl := incident?_lt h
  have hu := State.issueCall_eq h
  obtain ⟨u, hrest⟩ : ∃ u : State, u = s.withEngine { s.engine with
      table := s.engine.table.set e (some { i with pageSeq := some (s.nextSequence i), refreshDue := false })
      seqCounter := if i.pageSeq = none then (s.engine.seqCounter + 1) % 256 else s.engine.seqCounter } := ⟨_, rfl⟩
  rw [← hrest] at hu
  have hi : u.incident? e = some { i with pageSeq := some (s.nextSequence i), refreshDue := false } := by
    rw [hrest]
    rw [incident?_eq]
    exact List.getElem?_set_self hl
  obtain ⟨owed, h1, h2, h3⟩ := State.offerCall_issues hi
  have hline : u.line = s.line := by rw [hrest]; rfl
  have hrelay : u.relay = s.relay := by rw [hrest]; rfl
  refine ⟨owed, ?_, State.issueCall_log s e, by rw [← hline]; exact h2, ?_⟩
  · rw [hu, h1, hrest]
    simp [State.issued]
  · intro a b c
    obtain ⟨x, y, z⟩ := h3 (by rw [hline]; exact a) (by rw [hline]; exact b) c
    exact ⟨x, by rw [hu, y, hline], by rw [hu, z, hrelay]⟩

/-- A lost burst is reported to the office alone, so an entry can be set before or after (R120). -/
theorem State.reportLost_setEntry (s : State) (b : Queued) (e : Nat) (j : Option Incident) :
    (s.reportLost b).setEntry e j = (s.setEntry e j).reportLost b := by
  rcases s with ⟨⟩
  unfold State.reportLost
  split <;> rfl

/-- What offering the CALL of an incident comes to, case by case (R39, R40). -/
theorem State.offerCall_offered {s : State} {e : Nat} {i : Incident} (h : s.incident? e = some i) :
    CallOffered s e i (s.offerCall e) := by
  unfold State.offerCall
  rw [h]
  simp only [CallOffered]
  refine ⟨fun hh => ?_, fun hh hr => ?_, fun out hh hf hc ho => ?_, fun hh hf hc => ?_⟩
  · simp only [State.offer, hh]; rfl
  · simp only [s.offer_room _ _ _ hh hr]; rfl
  · rw [show lineClassFor i.cls = .class0 from if_pos hc, State.offer_evicts s _ _ hh hf ho]
    simp only [if_true, State.reportLost_setEntry]
    rfl
  · rcases hc with hc | hc
    · rw [show lineClassFor i.cls = .class1 from if_neg (by omega), State.offer_refused s _ _ hh hf]; rfl
    · rw [State.offer_full s _ _ _ hh hf hc]; rfl

/-- What issuing the CALL of an incident comes to (R27, R39, R42). -/
theorem State.issueCall_issued {s : State} {e : Nat} {i : Incident} (h : s.incident? e = some i) :
    CallIssued s e i (s.issueCall e) := by
  have hl := incident?_lt h
  rw [State.issueCall_eq h]
  refine State.offerCall_offered (i := { i with pageSeq := some (s.nextSequence i), refreshDue := false }) ?_
  rw [incident?_eq]
  exact List.getElem?_set_self hl

/-! ### The window that runs (R30) -/

theorem foldl_runSelection_window (roster : List PagerRecord) (ls : List LevelPlan) (w) : ∀ (i : Incident),
    ls.foldl (runSelection roster) { i with window := w } = { ls.foldl (runSelection roster) i with window := w } := by
  induction ls with
  | nil => intro i; rfl
  | cons a l ih => intro i; exact ih (runSelection roster i a)

/-- The UNANSWERED entry does not look at the window that runs (R35). -/
theorem State.unansweredEntry_window {v u : State} {e : Nat} {i : Incident}
    (h : v.incident? e = some i) (w) (hu : u = v.setEntry e (some { i with window := w })) :
    u.unansweredEntry e = v.unansweredEntry e := by
  have h1 : u.incident? e = some { i with window := w } := by rw [hu]; exact (State.setEntry_sets _ _ _).lookup (incident?_lt h)
  have h2 : ∀ x, u.setEntry e (some x) = v.setEntry e (some x) := by intro x; rw [hu]; exact State.setEntry_setEntry _ _ _ _
  have h3 : ∀ c, u.levels c = v.levels c := by intro c; rw [hu]; rfl
  have h4 : ∀ c, u.lastLevel c = v.lastLevel c := by intro c; rw [hu]; rfl
  have h5 : ∀ c l, u.levelPlan c l = v.levelPlan c l := by intro c l; rw [hu]; rfl
  have h6 : u.now = v.now := by rw [hu]; rfl
  have h7 : u.presence = v.presence := by rw [hu]; rfl
  unfold State.unansweredEntry
  rw [h1, h]
  simp only [h2, h3, h4, h5, h6, h7]
  have := foldl_runSelection_window v.presence.roster (v.levels i.cls) w
    { i with calls := i.calls.map fun c => { c with declined := false } }
  simp only [this]

/-- A chain of levels does not look at the window that runs (R29, R30). -/
theorem State.enterLevels_window {v u : State} {e : Nat} {i : Incident}
    (rest : List LevelPlan) (l : Nat) (h : v.incident? e = some i) (w) (hu : u = v.setEntry e (some { i with window := w })) :
    State.enterLevels e rest l u = State.enterLevels e rest l v := by
  have h1 : u.incident? e = some { i with window := w } := by rw [hu]; exact (State.setEntry_sets _ _ _).lookup (incident?_lt h)
  have h2 : ∀ x, u.setEntry e (some x) = v.setEntry e (some x) := by intro x; rw [hu]; exact State.setEntry_setEntry _ _ _ _
  have h6 : u.now = v.now := by rw [hu]; rfl
  have h7 : u.presence = v.presence := by rw [hu]; rfl
  cases rest with
  | nil =>
    unfold State.enterLevels State.enterUnanswered
    have m1 : u.modifyIncident e (fun i => { i with state := .unanswered }) =
        u.setEntry e (some { { i with window := w } with state := .unanswered }) := by unfold State.modifyIncident; rw [h1]
    have m2 : v.modifyIncident e (fun i => { i with state := .unanswered }) =
        v.setEntry e (some { i with state := .unanswered }) := by unfold State.modifyIncident; rw [h]
    rw [m1, m2, h2]
    apply State.unansweredEntry_window (w := w) (i := { i with state := .unanswered })
    · exact (State.setEntry_sets _ _ _).lookup (incident?_lt h)
    · rw [State.setEntry_setEntry]
  | cons a rest =>
    unfold State.enterLevels
    rw [h1, h]
    simp only [h2, h6, h7]

/-- A step first stops the window that runs (R30): it comes to the same with any window. -/
theorem State.stepIncident_window {v u : State} {e : Nat} {i : Incident}
    (h : v.incident? e = some i) (w) (hu : u = v.setEntry e (some { i with window := w }))
    (hs : i.state = .calling ∨ i.state = .unanswered) : u.stepIncident e = v.stepIncident e := by
  have h1 : u.incident? e = some { i with window := w } := by rw [hu]; exact (State.setEntry_sets _ _ _).lookup (incident?_lt h)
  have h3 : ∀ c, u.levels c = v.levels c := by intro c; rw [hu]; rfl
  unfold State.stepIncident
  rw [h1, h]
  simp only [h3]
  rcases hs with hs | hs
  · rw [hs]; exact State.enterLevels_window _ _ h w hu
  · rw [hs]; exact State.unansweredEntry_window h w hu

end Sys2Proof.Machine
end

