-- ==== Sys2Proof/Laws/Plan.lean ====
section
/-! SUPPORT. What the planner does to the entries of the page list: it moves them between WAITING and PLACED and changes nothing else of
them (R95 to R97). Every lemma is under the premise that no key stands twice. -/

namespace Sys2Proof.Machine

/-- An entry as filling a half leaves it: it may have been placed (R95). -/
def PageEntry.placedFrom (e x : PageEntry) : Prop :=
  x = { e with state := x.state } ∧ (x.state = e.state ∨ e.state = .waiting ∧ x.state = .placed)

theorem PageEntry.placedFrom.upToPlan {e x : PageEntry} (h : e.placedFrom x) : e.upToPlan x :=
  ⟨h.1, h.2.imp_right fun h => ⟨.inl h.1, .inr h.2⟩⟩

theorem PageEntry.placedFrom_refl (e : PageEntry) : e.placedFrom e := ⟨rfl, .inl rfl⟩
theorem PageEntry.upToPlan_refl (e : PageEntry) : e.upToPlan e := ⟨rfl, .inl rfl⟩

theorem PageEntry.placedFrom_trans {e x y : PageEntry} (h : e.placedFrom x) (k : x.placedFrom y) : e.placedFrom y := by
  obtain ⟨h1, h2⟩ := h
  obtain ⟨k1, k2⟩ := k
  refine ⟨by rw [k1, h1], ?_⟩
  rcases k2 with k2 | ⟨k2, k3⟩
  · rwa [k2]
  · rcases h2 with h2 | ⟨_, h3⟩
    · exact .inr ⟨h2 ▸ k2, k3⟩
    · rw [k2] at h3; cases h3

theorem PageEntry.upToPlan_trans {e x y : PageEntry} (h : e.upToPlan x) (k : x.upToPlan y) : e.upToPlan y := by
  obtain ⟨h1, h2⟩ := h
  obtain ⟨k1, k2⟩ := k
  refine ⟨by rw [k1, h1], ?_⟩
  rcases k2 with k2 | ⟨k2, k3⟩
  · rwa [k2]
  · rcases h2 with h2 | ⟨h2, _⟩
    · exact .inr ⟨h2 ▸ k2, k3⟩
    · exact .inr ⟨h2, k3⟩

theorem PageEntry.upToPlan.key {e x : PageEntry} (h : e.upToPlan x) : x.key = e.key := by rw [h.1]

/-- The keys of the page list, no key twice (R67). -/
abbrev State.keysNodup (s : State) : Prop := (s.relay.pages.map (·.key)).Nodup

/-- The station after the planner: pages and plan alone have changed, and the entries are the same up to `R`. -/
structure Moves (R : PageEntry → PageEntry → Prop) (s t : State) : Prop where
  rest : t = { s with relay := { s.relay with pages := t.relay.pages }, zone := { s.zone with plan := t.zone.plan } }
  pages : s.keysNodup → List.Forall₂ R s.relay.pages t.relay.pages

/-- The relations under which the planner moves entries. -/
structure MoveRel (R : PageEntry → PageEntry → Prop) : Prop where
  refl : ∀ e, R e e
  trans : ∀ {e x y}, R e x → R x y → R e y
  weak : ∀ {e x}, R e x → e.upToPlan x

theorem placedFrom_rel : MoveRel PageEntry.placedFrom := ⟨PageEntry.placedFrom_refl, PageEntry.placedFrom_trans, fun h => h.upToPlan⟩
theorem upToPlan_rel : MoveRel PageEntry.upToPlan := ⟨PageEntry.upToPlan_refl, PageEntry.upToPlan_trans, id⟩

variable {R : PageEntry → PageEntry → Prop}

theorem Moves.refl (hR : MoveRel R) (s : State) : Moves R s s := ⟨rfl, fun _ => List.forall₂_same.2 fun e _ => hR.refl e⟩

theorem forall2_keys {ps qs : List PageEntry} (h : List.Forall₂ PageEntry.upToPlan ps qs) : qs.map (·.key) = ps.map (·.key) := by
  induction h with
  | nil => rfl
  | cons h _ ih => simp [h.key, ih]

theorem Moves.nodup (hR : MoveRel R) {s t : State} (h : Moves R s t) (hn : s.keysNodup) : t.keysNodup := by
  unfold State.keysNodup
  rw [forall2_keys ((h.pages hn).imp fun _ _ h => hR.weak h)]
  exact hn

theorem forall2_trans (hR : MoveRel R) {ps qs rs : List PageEntry} (h : List.Forall₂ R ps qs) (k : List.Forall₂ R qs rs) :
    List.Forall₂ R ps rs := by
  induction h generalizing rs with
  | nil => exact k
  | cons h _ ih => cases k with | cons k1 k2 => exact .cons (hR.trans h k1) (ih k2)

theorem Moves.trans (hR : MoveRel R) {s t u : State} (h : Moves R s t) (k : Moves R t u) : Moves R s u := by
  refine ⟨?_, fun hn => forall2_trans hR (h.pages hn) (k.pages (h.nodup hR hn))⟩
  have a := h.rest; have b := k.rest
  rw [a] at b; exact b

theorem Moves.foldl (hR : MoveRel R) {α : Type} {f : State → α → State} (h : ∀ s a, Moves R s (f s a)) (l : List α) :
    ∀ s, Moves R s (l.foldl f s) := by
  induction l with
  | nil => exact Moves.refl hR
  | cons a l ih => exact fun s => (h s a).trans hR (ih _)

theorem Moves.weaken {s t : State} (hR : MoveRel R) (h : Moves R s t) : Moves PageEntry.upToPlan s t :=
  ⟨h.rest, fun hn => (h.pages hn).imp fun _ _ h => hR.weak h⟩

/-- One entry changed, with the others kept. -/
theorem forall2_updateKey (hR : MoveRel R) {k : PageKey} {f : PageEntry → PageEntry} {ps : List PageEntry}
    (h : ∀ e ∈ ps, e.key = k → R e (f e)) : List.Forall₂ R ps (updateKey k f ps) := by
  unfold updateKey
  rw [List.forall₂_map_right_iff, List.forall₂_same]
  intro e he
  split
  · next hk => exact h e he hk
  · exact hR.refl e

theorem eq_of_key {ps : List PageEntry} (h : (ps.map (·.key)).Nodup) {e x : PageEntry} (he : e ∈ ps) (hx : x ∈ ps) (hk : x.key = e.key) :
    x = e := List.inj_on_of_nodup_map h hx he hk

theorem State.placeIn_moves {s : State} {slot : Nat} {e : PageEntry} (he : e ∈ s.relay.pages) (hw : e.state = .waiting) :
    Moves PageEntry.placedFrom s (s.placeIn slot e) := by
  refine ⟨rfl, fun hn => ?_⟩
  refine forall2_updateKey placedFrom_rel fun x hx hk => ?_
  rw [eq_of_key hn he hx hk]
  exact ⟨rfl, .inr ⟨hw, rfl⟩⟩

theorem candidate_waiting {dark : Bool} {slot : Nat} {e : PageEntry} (h : candidate dark slot e = true) : e.state = .waiting := by
  simp only [candidate, Bool.and_eq_true, beq_iff_eq] at h
  exact h.1.2

theorem State.emptySlot_moves (s : State) (slot : Nat) : Moves PageEntry.placedFrom s (s.emptySlot slot) :=
  ⟨rfl, fun _ => List.forall₂_same.2 fun e _ => e.placedFrom_refl⟩

theorem State.fillSlot_moves (s : State) (slot : Nat) : Moves PageEntry.placedFrom s (s.fillSlot slot) := by
  unfold State.fillSlot
  split
  · exact .refl placedFrom_rel s
  · next e he =>
    obtain ⟨h1, h2⟩ := bestCandidate_spec he
    exact State.placeIn_moves h1 (candidate_waiting h2)

/-- Filling a half places WAITING entries and changes nothing else of the page list (R95). -/
theorem State.fillHalf_moves (s : State) (h : Half) : Moves PageEntry.placedFrom s (s.fillHalf h) :=
  (Moves.foldl placedFrom_rel State.emptySlot_moves _ s).trans placedFrom_rel (Moves.foldl placedFrom_rel State.fillSlot_moves _ _)

/-- Refilling a slot places a WAITING entry at most (R97). -/
theorem State.planRefill_moves (s : State) (slot : Nat) : Moves PageEntry.placedFrom s (s.planRefill slot) := by
  unfold State.planRefill
  split
  · exact (s.emptySlot_moves slot).trans placedFrom_rel (State.fillSlot_moves _ slot)
  · exact .refl placedFrom_rel s

/-- Amending the plan moves the reported entry into its slot, and the entry it ousts back to WAITING (R96). -/
theorem State.planAmend_moves (s : State) (k : PageKey) : Moves PageEntry.upToPlan s (s.planAmend k) := by
  unfold State.planAmend
  split
  · exact .refl upToPlan_rel s
  · next e i he =>
    have hm : e ∈ s.relay.pages := List.fst_mem_of_mem_zipIdx (List.mem_of_find?_eq_some he)
    simp only
    split
    · next hc =>
      have hw := candidate_waiting (Bool.and_eq_true_iff.1 hc).2
      split
      · exact (State.placeIn_moves hm hw).weaken placedFrom_rel
      · next o j hh =>
        split
        · next hr =>
          have hs : slotHolder s.relay.pages _ = some _ := (Option.bind_eq_some_iff.1 hh).choose_spec.2
          have hb := List.mem_of_find?_eq_some hs
          have hp := List.find?_some hs
          simp only [Bool.and_eq_true, beq_iff_eq] at hp
          have hmb := List.fst_mem_of_mem_zipIdx hb
          simp only at hmb
          have hne : s.keysNodup → e.key ≠ o.key := by
            intro hn hk
            have := eq_of_key hn hmb hm hk
            rw [this] at hw
            rw [hw] at hp
            cases hp.2
          refine ⟨rfl, fun hn => ?_⟩
          have h1 : List.Forall₂ PageEntry.upToPlan s.relay.pages
              (updateKey o.key (fun x => { x with state := .waiting }) s.relay.pages) := by
            refine forall2_updateKey upToPlan_rel fun x hx hk => ?_
            rw [eq_of_key hn hmb hx hk]
            exact ⟨rfl, .inr ⟨.inr hp.2, .inl rfl⟩⟩
          refine forall2_trans upToPlan_rel h1 ?_
          refine forall2_updateKey upToPlan_rel fun x hx hk => ?_
          unfold updateKey at hx
          obtain ⟨y, hy, rfl⟩ := List.mem_map.1 hx
          split at hk
          · next hk' => exact absurd (hk.symm.trans hk') (hne hn)
          · next hk' =>
            rw [if_neg hk', eq_of_key hn hm hy hk]
            exact ⟨rfl, .inr ⟨.inl hw, .inr rfl⟩⟩
        · exact .refl upToPlan_rel s
    · exact .refl upToPlan_rel s

/-! ### What an entry has become -/

/-- An entry of a key as the planner leaves it. -/
theorem find_forall2 {ps qs : List PageEntry} (h : List.Forall₂ PageEntry.upToPlan ps qs) (k : PageKey) :
    keptUpToPlan (ps.find? (·.key == k)) (qs.find? (·.key == k)) := by
  induction h with
  | nil => exact trivial
  | cons h _ ih =>
    rename_i e x _ _ _
    rw [List.find?_cons, List.find?_cons, h.key]
    split
    · exact h
    · exact ih

theorem Moves.find {s t : State} (h : Moves PageEntry.upToPlan s t) (hn : s.keysNodup) (k : PageKey) :
    keptUpToPlan (s.relay.find k) (t.relay.find k) := find_forall2 (h.pages hn) k

theorem keptUpToPlan_refl (a : Option PageEntry) : keptUpToPlan a a := by
  cases a with
  | none => exact trivial
  | some e => exact e.upToPlan_refl

theorem keptUpToPlan_trans {a b c : Option PageEntry} (h : keptUpToPlan a b) (k : keptUpToPlan b c) : keptUpToPlan a c := by
  cases a <;> cases b <;> cases c <;> simp only [keptUpToPlan] at *
  exact PageEntry.upToPlan_trans h k

/-! ### One entry changed, removed, added -/

/-- Pages and plan alone have changed. -/
abbrev OnlyPages (s t : State) : Prop :=
  t = { s with relay := { s.relay with pages := t.relay.pages }, zone := { s.zone with plan := t.zone.plan } }

theorem OnlyPages.trans {s t u : State} (h : OnlyPages s t) (k : OnlyPages t u) : OnlyPages s u := by
  unfold OnlyPages at *
  rw [h] at k; exact k

/-- What an operation on one key leaves, entry by entry: `f` says what becomes of the entry of each key. -/
structure Finds (f : PageKey → Option PageEntry → Option PageEntry) (s t : State) : Prop where
  rest : OnlyPages s t
  nodup : s.keysNodup → t.keysNodup
  find : s.keysNodup → ∀ k, keptUpToPlan (f k (s.relay.find k)) (t.relay.find k)

theorem Finds.moves {f : PageKey → Option PageEntry → Option PageEntry} {s t u : State} (h : Finds f s t)
    (m : Moves PageEntry.upToPlan t u) : Finds f s u :=
  ⟨h.rest.trans m.rest, fun hn => m.nodup upToPlan_rel (h.nodup hn),
    fun hn k => keptUpToPlan_trans (h.find hn k) (m.find (h.nodup hn) k)⟩

theorem Finds.refl (s : State) : Finds (fun _ x => x) s s := ⟨rfl, id, fun _ _ => keptUpToPlan_refl _⟩

/-- The entry of a key after an update of one key. -/
theorem find_updateKey {k : PageKey} {f : PageEntry → PageEntry} (hf : ∀ e, (f e).key = e.key) (ps : List PageEntry) (k' : PageKey) :
    (updateKey k f ps).find? (·.key == k') =
      if k' = k then (ps.find? (·.key == k')).map f else ps.find? (·.key == k') := by
  unfold updateKey
  rw [List.find?_map]
  have hc : ((fun x : PageEntry => x.key == k') ∘ fun e => if e.key = k then f e else e) = fun x => x.key == k' := by
    funext x; simp only [Function.comp]; split <;> simp [hf]
  rw [hc]
  cases hx : ps.find? (·.key == k') with
  | none => simp
  | some e =>
    have he := List.find?_some hx
    simp only [beq_iff_eq] at he
    by_cases hk : k' = k
    · simp [hk, he]
    · simp [hk, he]

theorem find_filterKey (k : PageKey) (ps : List PageEntry) (k' : PageKey) :
    (ps.filter (fun e => decide (e.key ≠ k))).find? (·.key == k') = if k' = k then none else ps.find? (·.key == k') := by
  induction ps with
  | nil => simp
  | cons e ps ih =>
    by_cases he : e.key = k
    · rw [List.filter_cons_of_neg (by simp [he]), ih, List.find?_cons]
      by_cases hk : k' = k
      · simp [hk]
      · have : (e.key == k') = false := by simp [he]; exact fun h => hk h.symm
        simp [hk, this]
    · rw [List.filter_cons_of_pos (by simp [he]), List.find?_cons, List.find?_cons, ih]
      by_cases hk : k' = k
      · have : (e.key == k) = false := by simp [he]
        simp only [hk, this, if_true]
      · simp [hk]

theorem changePage_finds (s : State) (k : PageKey) (f : PageEntry → PageEntry) (hf : ∀ e, (f e).key = e.key) :
    Finds (fun k' x => if k' = k then x.map f else x) s (s.changePage k f) := by
  have hu : Finds (fun k' x => if k' = k then x.map f else x) s (s.setPages (updateKey k f s.relay.pages)) := by
    refine ⟨rfl, fun hn => ?_, fun hn k' => ?_⟩
    · show ((updateKey k f s.relay.pages).map (·.key)).Nodup
      rw [map_key_updateKey k f hf]; exact hn
    · show keptUpToPlan _ ((updateKey k f s.relay.pages).find? (·.key == k'))
      rw [find_updateKey hf]; exact keptUpToPlan_refl _
  unfold State.changePage
  split
  · next h =>
    refine ⟨rfl, id, fun hn k' => ?_⟩
    by_cases hk : k' = k
    · rw [hk, h, if_pos rfl]; exact trivial
    · rw [if_neg hk]; exact keptUpToPlan_refl _
  · simp only
    split
    · exact hu.moves ((State.planRefill_moves _ _).weaken placedFrom_rel)
    · split
      · exact hu.moves (State.planAmend_moves _ _)
      · exact hu

theorem removePage_finds (s : State) (k : PageKey) :
    Finds (fun k' x => if k' = k then none else x) s (s.removePage k) := by
  have hu : Finds (fun k' x => if k' = k then none else x) s (s.setPages (s.relay.pages.filter (fun e => decide (e.key ≠ k)))) := by
    refine ⟨rfl, fun hn => ?_, fun hn k' => ?_⟩
    · exact hn.sublist (List.filter_sublist.map _)
    · show keptUpToPlan _ ((s.relay.pages.filter _).find? (·.key == k'))
      rw [find_filterKey]; exact keptUpToPlan_refl _
  unfold State.removePage
  split
  · next h =>
    refine ⟨rfl, id, fun hn k' => ?_⟩
    by_cases hk : k' = k
    · rw [hk, h, if_pos rfl]; exact trivial
    · rw [if_neg hk]; exact keptUpToPlan_refl _
  · simp only
    split
    · exact hu.moves ((State.planRefill_moves _ _).weaken placedFrom_rel)
    · exact hu

/-- An entry of a new key joins the list (R67, R96). -/
theorem addPage_finds (s : State) (e : PageEntry) (hk : s.relay.find e.key = none) :
    Finds (fun k' x => if k' = e.key then some e else x) s (s.addPage e) := by
  refine Finds.moves (t := s.setPages (s.relay.pages ++ [e])) ⟨rfl, fun hn => ?_, fun hn k' => ?_⟩ (State.planAmend_moves _ _)
  · show ((s.relay.pages ++ [e]).map (·.key)).Nodup
    rw [List.map_append, List.nodup_append]
    refine ⟨hn, by simp, ?_⟩
    intro a ha b hb hab
    simp only [List.map_cons, List.map_nil, List.mem_singleton] at hb
    exact find_none_key hk (hb ▸ hab ▸ ha)
  · show keptUpToPlan _ ((s.relay.pages ++ [e]).find? (·.key == k'))
    rw [List.find?_append]
    by_cases h : k' = e.key
    · have : s.relay.pages.find? (·.key == e.key) = none := hk
      rw [h, if_pos rfl, this]
      simp only [List.find?_cons, beq_self_eq_true, Option.none_or]
      exact e.upToPlan_refl
    · have he : (e.key == k') = false := by simp; exact fun x => h x.symm
      simp only [if_neg h, List.find?_cons, he, List.find?_nil, Option.or_none]
      exact keptUpToPlan_refl _

/-- An entry of a new key joins a list with room (R72, R74). -/
theorem createPage_finds (s : State) (e : PageEntry) (hr : s.relay.pages.length < pageListMax) (hk : s.relay.find e.key = none) :
    Finds (fun k' x => if k' = e.key then some e else x) s (s.createPage e) := by
  unfold State.createPage
  rw [if_pos hr]
  exact addPage_finds s e hk

end Sys2Proof.Machine
end

