-- ==== Sys2Proof/Laws/Keys.lean ====
section
/-! SUPPORT. What one pager of a CALL and one entry of a SETTLE come to, key by key, at a list with room and at a full one (R74), and a
fold of such operations over distinct keys (R70 to R78). -/

namespace Sys2Proof.Machine

theorem keptUpToPlan_some {a : PageEntry} {o : Option PageEntry} (h : keptUpToPlan (some a) o) : ∃ x, o = some x ∧ a.upToPlan x := by
  cases o with
  | none => exact h.elim
  | some x => exact ⟨x, rfl, h⟩

theorem keptUpToPlan_none {o : Option PageEntry} (h : keptUpToPlan none o) : o = none := by
  cases o with
  | none => rfl
  | some x => exact h.elim

theorem Finds.foldl {α} (op : State → α → State) (key : α → PageKey) (Q : List α → State → Prop) (h : α → Option PageEntry →
    Option PageEntry)
   (hop : ∀ s a l, Q (a :: l) s → s.keysNodup → Finds (fun k' x => if k' = key a then h a x else x) s (op s a) ∧ Q l (op s a))
   (mono : ∀ a x y, keptUpToPlan x y → keptUpToPlan (h a x) (h a y)) :
   ∀ (l : List α) (s : State), (l.map key).Nodup → Q l s → s.keysNodup →
    OnlyPages s (l.foldl op s) ∧ (l.foldl op s).keysNodup ∧ Q [] (l.foldl op s) ∧
    (∀ a ∈ l, keptUpToPlan (h a (s.relay.find (key a))) ((l.foldl op s).relay.find (key a))) ∧
    (∀ k, k ∉ l.map key → keptUpToPlan (s.relay.find k) ((l.foldl op s).relay.find k)) := by
  intro l
  induction l with
  | nil => intro s _ hq hn; exact ⟨rfl, hn, hq, by simp, fun k _ => keptUpToPlan_refl _⟩
  | cons a l ih =>
    intro s hnd hq hn
    simp only [List.map_cons, List.nodup_cons] at hnd
    obtain ⟨f, q⟩ := hop s a l hq hn
    obtain ⟨i1, i2, i3, i4, i5⟩ := ih (op s a) hnd.2 q (f.nodup hn)
    refine ⟨f.rest.trans i1, i2, i3, ?_, ?_⟩
    · intro a' ha'
      rcases List.mem_cons.1 ha' with rfl | ha'
      · have := f.find hn (key a')
        rw [if_pos rfl] at this
        exact keptUpToPlan_trans this (i5 _ hnd.1)
      · have hne : key a' ≠ key a := fun e => hnd.1 (e ▸ List.mem_map_of_mem ha')
        have := f.find hn (key a')
        rw [if_neg hne] at this
        exact keptUpToPlan_trans (mono _ _ _ this) (i4 a' ha')
    · intro k hk
      simp only [List.map_cons, List.mem_cons, not_or] at hk
      have := f.find hn k
      rw [if_neg hk.1] at this
      exact keptUpToPlan_trans this (i5 _ hk.2)

theorem Moves.length {s t : State} (h : Moves PageEntry.upToPlan s t) (hn : s.keysNodup) : t.relay.pages.length = s.relay.pages.length :=
    (h.pages hn).length_eq.symm

theorem State.changePage_length (s : State) (hn : s.keysNodup) (k : PageKey) (f : PageEntry → PageEntry) (hf : ∀ e,
    (f e).key = e.key) : (s.changePage k f).relay.pages.length = s.relay.pages.length := by
  have hu : (s.setPages (updateKey k f s.relay.pages)).keysNodup := by
    show ((updateKey k f s.relay.pages).map (·.key)).Nodup
    rw [map_key_updateKey k f hf]; exact hn
  have hl : (s.setPages (updateKey k f s.relay.pages)).relay.pages.length = s.relay.pages.length := by
    show (updateKey k f s.relay.pages).length = _
    simp [updateKey]
  unfold State.changePage
  split
  · rfl
  · simp only
    split
    · rw [Moves.length ((State.planRefill_moves _ _).weaken placedFrom_rel) hu, hl]
    · split
      · rw [Moves.length (State.planAmend_moves _ _) hu, hl]
      · rw [hl]

theorem State.removePage_length (s : State) (hn : s.keysNodup) (k : PageKey) : (s.removePage k).relay.pages.length ≤ s.relay.pages.length
    := by
  have hu : (s.setPages (s.relay.pages.filter (fun e => decide (e.key ≠ k)))).keysNodup := hn.sublist (List.filter_sublist.map _)
  have hl : (s.setPages (s.relay.pages.filter (fun e => decide (e.key ≠ k)))).relay.pages.length ≤ s.relay.pages.length :=
      List.length_filter_le _ _
  unfold State.removePage
  split
  · exact le_refl _
  · simp only
    split
    · rw [Moves.length ((State.planRefill_moves _ _).weaken placedFrom_rel) hu]; exact hl
    · exact hl

theorem State.createPage_length (s : State) (hn : s.keysNodup) (e : PageEntry) (hr : s.relay.pages.length < pageListMax) (hk :
    s.relay.find e.key = none) : (s.createPage e).relay.pages.length = s.relay.pages.length + 1 := by
  unfold State.createPage
  rw [if_pos hr]
  have hu : (s.setPages (s.relay.pages ++ [e])).keysNodup := by
    show ((s.relay.pages ++ [e]).map (·.key)).Nodup
    rw [List.map_append, List.nodup_append]
    refine ⟨hn, by simp, ?_⟩
    intro a ha b hb hab
    simp only [List.map_cons, List.map_nil, List.mem_singleton] at hb
    exact find_none_key hk (hb ▸ hab ▸ ha)
  show ((s.setPages (s.relay.pages ++ [e])).planAmend e.key).relay.pages.length = _
  rw [Moves.length (State.planAmend_moves _ _) hu]
  show (s.relay.pages ++ [e]).length = _
  simp

theorem PageEntry.upToPlan.onAir {e x : PageEntry} (h : e.upToPlan x) : (x.state = .onAir ↔ e.state = .onAir) := by
  rcases h.2 with h | ⟨h1, h2⟩
  · rw [h]
  · rcases h1 with h1 | h1 <;> rcases h2 with h2 | h2 <;> rw [h1, h2] <;> simp

theorem waitingUnlessOnAir_upToPlan {e x : PageEntry} (h : e.upToPlan x) : waitingUnlessOnAir x.state = waitingUnlessOnAir e.state := by
  unfold waitingUnlessOnAir; simp only [PageEntry.upToPlan.onAir h]

theorem standDown_upToPlan {n} {e x : PageEntry} (h : e.upToPlan x) : standDown n x = standDown n e := by
  have := waitingUnlessOnAir_upToPlan h
  unfold standDown; rw [this]; rw [h.1]

theorem settleTaken_upToPlan {r} {e x : PageEntry} (h : e.upToPlan x) : settleTaken r x = settleTaken r e := by
  unfold settleTaken; rw [standDown_upToPlan h, h.key]; split
  · rw [h.1]
  · rfl

/-- What a SETTLE makes of one entry (R76 to R78). -/
def settledEntry (b : SettleBody) (x : Option PageEntry) : Option PageEntry :=
  match b.kind, b.responder with
  | .taken, some r => x.map (settleTaken r)
  | .taken, none => x
  | .withdrawn, _ => x.map (standDown .withdrawn)
  | .cancelled, _ => x.map (standDown .cancelled)
  | .closed, _ => none

theorem keptUpToPlan_map (f : PageEntry → PageEntry) (hf : ∀ e x : PageEntry, e.upToPlan x →
    f x = f e) (x y) (h : keptUpToPlan x y) : keptUpToPlan (x.map f) (y.map f) := by
  cases x with
  | none => rw [keptUpToPlan_none h]; trivial
  | some a => obtain ⟨z, rfl, hz⟩ := keptUpToPlan_some h; simp only [Option.map_some, hf _ _ hz]; exact keptUpToPlan_refl _

theorem State.settlePage_finds (b : SettleBody) (s : State) (k : PageKey) : Finds (fun k' x =>
    if k' = k then settledEntry b x else x) s (State.settlePage b s k) := by
  obtain ⟨sr, kind, resp⟩ := b
  cases kind
  · cases resp with
    | none => simpa [State.settlePage, settledEntry] using Finds.refl s
    | some r => exact changePage_finds s k (settleTaken r) (fun e => by unfold settleTaken standDown; split <;> rfl)
  · exact removePage_finds s k
  · exact changePage_finds s k (standDown .withdrawn) (fun e => rfl)
  · exact changePage_finds s k (standDown .cancelled) (fun e => rfl)

theorem State.routeTest_onlyPages {s0 s : State} (h : OnlyPages s0 s) (p : Nat) : s.routeTest p = s0.routeTest p := by rw [h]; rfl

/-- The pager is taken: flooded, or the route test says so (R72). -/
def taken (s0 : State) (p : CallPager) : Bool := p.flood || s0.routeTest p.pager

/-- What a newer CALL makes of an entry it passes (R73). -/
def passedEntry (c : CallBody) (e : PageEntry) : Option PageEntry :=
  if e.state = .onAir then some { e with seq := c.seq, repeats := 0 } else none

/-- What one pager of a CALL makes of the entry of its key (R71 to R73). -/
def calledEntry (s0 : State) (o : Nat) (c : CallBody) (p : CallPager) (x : Option PageEntry) : Option PageEntry :=
  if taken s0 p then
    match x with
    | none => some (pageOf ⟨o, c.serial, p.pager⟩ c)
    | some e => if callNewer c e then some { pageOf ⟨o, c.serial, p.pager⟩ c with
        state := waitingUnlessOnAir e.state, updated := e.state == .onAir } else some e
  else match x with
    | none => none
    | some e => if callNewer c e then passedEntry c e else some e

theorem callNewer_upToPlan {c} {e x : PageEntry} (h : e.upToPlan x) : callNewer c x = callNewer c e := by rw [h.1]; rfl

theorem passedEntry_upToPlan {c} {e x : PageEntry} (h : e.upToPlan x) : passedEntry c x = passedEntry c e := by
  unfold passedEntry
  by_cases ho : e.state = .onAir
  · have := (PageEntry.upToPlan.onAir h).2 ho
    rw [if_pos ho, if_pos this]; rw [h.1]; simp [this, ho]
  · rw [if_neg ho, if_neg (fun h' => ho ((PageEntry.upToPlan.onAir h).1 h'))]

theorem calledEntry_mono (s0 o c p x y) (h : keptUpToPlan x y) : keptUpToPlan (calledEntry s0 o c p x) (calledEntry s0 o c p y) := by
  unfold calledEntry
  cases x with
  | none => rw [keptUpToPlan_none h]; exact keptUpToPlan_refl _
  | some e =>
    obtain ⟨z, rfl, hz⟩ := keptUpToPlan_some h
    have ha : (z.state == PageState.onAir) = (e.state == PageState.onAir) := by
      rw [Bool.eq_iff_iff, beq_iff_eq, beq_iff_eq]; exact PageEntry.upToPlan.onAir hz
    simp only [callNewer_upToPlan hz, waitingUnlessOnAir_upToPlan hz, passedEntry_upToPlan hz, ha]
    split <;> split
    · exact keptUpToPlan_refl _
    · exact hz
    · exact keptUpToPlan_refl _
    · exact hz

theorem Relay.find_key {s : State} {k e} (h : s.relay.find k = some e) : e.key = k := by
  have := List.find?_some h; simpa using this

theorem State.passPage_finds (c : CallBody) (s : State) (k : PageKey) (e : PageEntry) (hk : e.key = k) :
    Finds (fun k' x =>
      if k' = k then (if e.state = .onAir then x.map (fun x => { x with seq := c.seq, repeats := 0 }) else none) else x)
      s (s.passPage c e) := by
  unfold State.passPage
  rw [hk]
  split
  · rename_i h
    exact changePage_finds s k _ (fun e => rfl)
  · rename_i h
    exact removePage_finds s k

theorem State.passPage_length (c : CallBody) (s : State) (hn : s.keysNodup) (e : PageEntry) : (s.passPage c e).relay.pages.length ≤
    s.relay.pages.length := by
  unfold State.passPage
  split
  · exact (State.changePage_length s hn e.key (fun x => { x with seq := c.seq, repeats := 0 }) (fun e => rfl)).le
  · exact State.removePage_length s hn _

theorem State.takePager_finds (s0 s : State) (o : Nat) (c : CallBody) (p : CallPager) (h0 : OnlyPages s0 s) (hl : s.relay.pages.length <
    24) (hn : s.keysNodup) :
   Finds (fun k' x => if k' = (⟨o, c.serial, p.pager⟩ : PageKey) then calledEntry s0 o c p x else x) s (State.takePager o c s p) ∧
       (State.takePager o c s p).relay.pages.length ≤ s.relay.pages.length + 1 := by
  have hid : s.relay.find ⟨o, c.serial, p.pager⟩ = s.relay.find ⟨o, c.serial, p.pager⟩ → True := fun _ => trivial
  unfold State.takePager
  simp only
  rw [State.routeTest_onlyPages h0]
  change _ ∧ (if taken s0 p then _ else _ : State).relay.pages.length ≤ _
  change Finds _ s (if taken s0 p then _ else _ : State) ∧ _
  -- a map that agrees on the actual entry
  have conv : ∀ (g : Option PageEntry → Option PageEntry) (t : State), Finds (fun k' x => if k' = (⟨o, c.serial,
      p.pager⟩ : PageKey) then g x else x) s t →
     g (s.relay.find ⟨o, c.serial, p.pager⟩) = calledEntry s0 o c p (s.relay.find ⟨o, c.serial, p.pager⟩) →
     Finds (fun k' x => if k' = (⟨o, c.serial, p.pager⟩ : PageKey) then calledEntry s0 o c p x else x) s t := by
    intro g t hf hg
    refine ⟨hf.rest, hf.nodup, fun hn k => ?_⟩
    have := hf.find hn k
    by_cases hk : k = ⟨o, c.serial, p.pager⟩
    · subst hk
      rw [if_pos rfl] at this ⊢
      rw [hg] at this; exact this
    · rw [if_neg hk] at this ⊢; exact this
  by_cases ht : taken s0 p = true
  · rw [if_pos ht]
    cases hf : s.relay.find ⟨o, c.serial, p.pager⟩ with
    | none =>
      simp only
      refine ⟨conv (fun _ => some (pageOf ⟨o, c.serial, p.pager⟩ c)) _ (createPage_finds s (pageOf ⟨o, c.serial, p.pager⟩ c) hl hf) ?_,
          (State.createPage_length s hn (pageOf ⟨o, c.serial, p.pager⟩ c) hl hf).le⟩
      rw [hf]; simp [calledEntry, ht]
    | some e =>
      simp only
      have hk := Relay.find_key hf
      cases hc : callNewer c e with
      | true =>
        rw [if_pos rfl]
        have hr : ∀ e, (renewPage c e).key = e.key := fun _ => rfl
        refine ⟨conv (fun x => x.map (renewPage c)) _ (changePage_finds s _ _ hr) ?_,
            (State.changePage_length s hn _ _ hr).le.trans (by omega)⟩
        rw [hf]; simp [calledEntry, ht, hc, renewPage, hk]
      | false =>
        rw [if_neg (by simp)]
        refine ⟨conv id s (by simpa using Finds.refl s) ?_, by omega⟩
        rw [hf]; simp [calledEntry, ht, hc]
  · rw [if_neg ht]
    cases hf : s.relay.find ⟨o, c.serial, p.pager⟩ with
    | none =>
      simp only
      refine ⟨conv id s (by simpa using Finds.refl s) ?_, by omega⟩
      rw [hf]; simp [calledEntry, ht]
    | some e =>
      simp only
      have hk := Relay.find_key hf
      cases hc : callNewer c e with
      | true =>
        rw [if_pos rfl]
        refine ⟨conv _ _ (State.passPage_finds c s _ e hk) ?_, (State.passPage_length c s hn e).trans (by omega)⟩
        rw [hf]; simp only [Option.map_some, calledEntry, ht, hc, if_true, passedEntry]; rfl
      | false =>
        rw [if_neg (by simp)]
        refine ⟨conv id s (by simpa using Finds.refl s) ?_, by omega⟩
        rw [hf]; simp [calledEntry, ht, hc]

theorem firstPlaces_spec : ∀ (l : List CallPager) (seen : List Nat), ((firstPlaces seen l).map (·.pager)).Nodup ∧
    (∀ x ∈ firstPlaces seen l, x ∈ l ∧ x.pager ∉ seen) ∧
   (firstPlaces seen l).length ≤ l.length ∧ (∀ p x, p ∉ seen → l.find? (·.pager == p) = some x → x ∈ firstPlaces seen l) := by
  intro l
  induction l with
  | nil => intro seen; simp [firstPlaces]
  | cons a l ih =>
    intro seen
    unfold firstPlaces
    by_cases h : seen.contains a.pager = true
    · rw [if_pos h]
      obtain ⟨i1, i2, i3, i4⟩ := ih seen
      refine ⟨i1, fun x hx => ⟨List.mem_cons_of_mem _ (i2 x hx).1, (i2 x hx).2⟩, by simp; omega, ?_⟩
      intro p x hp hf
      rw [List.find?_cons] at hf
      have : (a.pager == p) = false := by
        simp; rintro rfl; exact hp (by simpa using h)
      rw [this] at hf
      exact i4 p x hp hf
    · rw [if_neg h]
      obtain ⟨i1, i2, i3, i4⟩ := ih (a.pager :: seen)
      refine ⟨?_, ?_, by simp; omega, ?_⟩
      · rw [List.map_cons, List.nodup_cons]
        refine ⟨?_, i1⟩
        intro hm
        obtain ⟨x, hx, he⟩ := List.mem_map.1 hm
        exact (i2 x hx).2 (by simp [he])
      · intro x hx
        rcases List.mem_cons.1 hx with rfl | hx
        · exact ⟨by simp, by simpa using h⟩
        · exact ⟨List.mem_cons_of_mem _ (i2 x hx).1, fun hs => (i2 x hx).2 (List.mem_cons_of_mem _ hs)⟩
      · intro p x hp hf
        rw [List.find?_cons] at hf
        by_cases hap : (a.pager == p) = true
        · rw [hap] at hf; cases hf; simp
        · simp only [hap] at hf
          refine List.mem_cons_of_mem _ (i4 p x ?_ hf)
          simp only [List.mem_cons, not_or]
          exact ⟨fun h => hap (by simp [h]), hp⟩

/-! ### A full list (R74) -/

/-- No entry is left out by a CALL that names every pager with an entry of the incident (R73). -/
theorem unnamedPages_nil {own : Nat} {c : CallBody} {l : List PageEntry}
    (h : ∀ e ∈ l, e.key.owner = own → e.key.serial = c.serial → ∃ x ∈ c.pagers, x.pager = e.key.pager) : unnamedPages own c l = [] := by
  unfold unnamedPages
  rw [List.filter_eq_nil_iff]
  intro e he hx
  simp only [Bool.and_eq_true, beq_iff_eq, Bool.not_eq_true'] at hx
  obtain ⟨x, hx1, hx2⟩ := h e he hx.1.1.1.1 hx.1.1.1.2
  have := hx.1.2
  rw [List.any_eq_false] at this
  exact this x hx1 (by simp [hx2])

/-- A CALL of one new pager at a full list (R74): the entry that makes room leaves, or the page is refused and counted. -/
theorem State.takeCall_full (s : State) (own : Nat) (c : CallBody) (p : Nat) (flood : Bool) (hn : s.keysNodup)
    (hl : s.relay.pages.length = 24) (hc : c.pagers = [⟨p, flood⟩]) (ht : flood = true ∨ s.routeTest p = true)
    (hnone : ∀ e ∈ s.relay.pages, ¬ (e.key.owner = own ∧ e.key.serial = c.serial)) :
  (∀ v, roomVictim c.cls s.relay.pages = some v →
     OnlyPages s (s.takeCall own c) ∧ (s.takeCall own c).relay.find v.key = none ∧
     keptUpToPlan (some (pageOf ⟨own, c.serial, p⟩ c)) ((s.takeCall own c).relay.find ⟨own, c.serial, p⟩) ∧
     ∀ k' ≠ (⟨own, c.serial, p⟩ : PageKey), k' ≠ v.key → keptUpToPlan (s.relay.find k') ((s.takeCall own c).relay.find k')) ∧
  (roomVictim c.cls s.relay.pages = none → s.takeCall own c = s.withRelay
      { s.relay with refused := raised counterMax s.relay.refused }) := by
  have hf : s.relay.find ⟨own, c.serial, p⟩ = none := by
    cases h : s.relay.find ⟨own, c.serial, p⟩ with
    | none => rfl
    | some e =>
      have := Relay.find_key h
      exact absurd ⟨by rw [this], by rw [this]⟩ (hnone e (List.mem_of_find?_eq_some h))
  have e1 : s.takeCall own c =
      (unnamedPages own c (s.createPage (pageOf ⟨own, c.serial, p⟩ c)).relay.pages).foldl (fun s e =>
          s.passPage c e) (s.createPage (pageOf ⟨own, c.serial, p⟩ c)) := by
    unfold State.takeCall
    rw [hc]
    simp only [firstPlaces]
    have : State.takePager own c s ⟨p, flood⟩ = s.createPage (pageOf ⟨own, c.serial, p⟩ c) := by
      unfold State.takePager
      simp only [hf]
      rw [if_pos (by rcases ht with h | h <;> simp [h])]
    simp [this]
  have hcr : s.createPage (pageOf ⟨own, c.serial, p⟩ c) = match roomVictim c.cls s.relay.pages with
    | some v => (s.setPages (s.relay.pages.filter (·.key ≠ v.key))).addPage (pageOf ⟨own, c.serial, p⟩ c)
    | none => s.withRelay { s.relay with refused := raised counterMax s.relay.refused } := by
    unfold State.createPage
    rw [if_neg (by rw [hl]; decide)]; rfl
  constructor
  · intro v hv
    rw [hv] at hcr; simp only at hcr
    obtain ⟨u, hu⟩ : ∃ u, u = s.setPages (s.relay.pages.filter (fun e => decide (e.key ≠ v.key))) := ⟨_, rfl⟩
    have hvm : v ∈ s.relay.pages := by
      unfold roomVictim at hv
      split at hv
      · rename_i h; cases hv; exact List.mem_of_find?_eq_some h
      · exact List.mem_reverse.1 (List.mem_of_find?_eq_some hv)
    have hvk : v.key ≠ (⟨own, c.serial, p⟩ : PageKey) := by
      intro h; exact find_none_key hf (h ▸ List.mem_map_of_mem hvm)
    have huf : ∀ k, u.relay.find k = if k = v.key then none else s.relay.find k := by
      intro k; rw [hu]; exact find_filterKey _ _ _
    have hun : u.keysNodup := by rw [hu]; exact hn.sublist (List.filter_sublist.map _)
    have F := addPage_finds u (pageOf ⟨own, c.serial, p⟩ c) (by show u.relay.find ⟨own, c.serial, p⟩ = none; rw [huf, hf]; simp)
    rw [← hu] at hcr
    rw [← hcr] at F
    have hnodup := F.nodup hun
    have hfind := F.find hun
    have hpk : (pageOf ⟨own, c.serial, p⟩ c).key = (⟨own, c.serial, p⟩ : PageKey) := rfl
    rw [hpk] at hfind
    have hnil : unnamedPages own c (s.createPage (pageOf ⟨own, c.serial, p⟩ c)).relay.pages = [] := by
      apply unnamedPages_nil
      intro e he ho hs
      by_cases hek : e.key = (⟨own, c.serial, p⟩ : PageKey)
      · exact ⟨⟨p, flood⟩, by rw [hc]; simp, by rw [hek]⟩
      · exfalso
        have h1 := hfind e.key
        rw [if_neg hek, huf] at h1
        by_cases hev : e.key = v.key
        · rw [if_pos hev] at h1; exact find_none_key (keptUpToPlan_none h1) (List.mem_map_of_mem he)
        · rw [if_neg hev] at h1
          cases hx : s.relay.find e.key with
          | none => rw [hx] at h1; exact find_none_key (keptUpToPlan_none h1) (List.mem_map_of_mem he)
          | some y =>
            have hyk := Relay.find_key hx
            exact hnone y (List.mem_of_find?_eq_some hx) ⟨by rw [hyk]; exact ho, by rw [hyk]; exact hs⟩
    rw [hnil] at e1
    rw [List.foldl_nil] at e1
    rw [e1]
    refine ⟨?_, ?_, ?_, ?_⟩
    · have h1 := F.rest
      have h2 : OnlyPages s u := by rw [hu]; rfl
      exact h2.trans h1
    · have := hfind v.key; rw [if_neg hvk, huf, if_pos rfl] at this; exact keptUpToPlan_none this
    · have := hfind ⟨own, c.serial, p⟩; rw [if_pos rfl] at this; exact this
    · intro k h1 h2
      have := hfind k; rw [if_neg h1, huf, if_neg h2] at this; exact this
  · intro hv
    rw [hv] at hcr; simp only at hcr
    rw [e1, hcr, unnamedPages_nil]
    · rfl
    · intro e he ho hs
      exact absurd ⟨ho, hs⟩ (hnone e he)

/-- The entry that makes room in a full list (R74). -/
theorem roomVictim_some {cls : Nat} {l front back : List PageEntry} {v : PageEntry} (hl : l = front ++ v :: back)
  (h : (v.state = .spent ∧ ∀ e ∈ front, e.state ≠ .spent) ∨
            ((∀ e ∈ l, e.state ≠ .spent) ∧ (v.state = .waiting ∧ cls < v.cls) ∧ ∀ e ∈ back, ¬ (e.state = .waiting ∧
                cls < e.cls))) : roomVictim cls l = some v := by
  unfold roomVictim
  rcases h with ⟨h1, h2⟩ | ⟨h1, h2, h3⟩
  · have : l.find? (·.state == .spent) = some v := by
      rw [List.find?_eq_some_iff_append]
      exact ⟨by simp [h1], front, back, hl, fun e he => by simpa using h2 e he⟩
    rw [this]
  · have : l.find? (·.state == .spent) = none := by
      rw [List.find?_eq_none]; intro e he; simpa using h1 e he
    rw [this]
    simp only
    rw [List.find?_eq_some_iff_append]
    refine ⟨by simp [h2], back.reverse, front.reverse, by rw [hl]; simp, fun e he => ?_⟩
    have := h3 e (List.mem_reverse.1 he)
    simpa [imp_iff_not_or] using this
/-- No entry makes room (R74). -/
theorem roomVictim_none {cls : Nat} {l : List PageEntry} (h : ∀ e ∈ l, e.state ≠ .spent ∧ ¬ (e.state = .waiting ∧
    cls < e.cls)) : roomVictim cls l = none := by
  unfold roomVictim
  have : l.find? (·.state == .spent) = none := by
    rw [List.find?_eq_none]; intro e he; simpa using (h e he).1
  rw [this]
  simp only
  rw [List.find?_eq_none]; intro e he
  simpa [imp_iff_not_or] using (h e (List.mem_reverse.1 he)).2

end Sys2Proof.Machine
end

