-- ==== Sys2Proof/Laws/Loader.lean ====
section
/-! SUPPORT. What a read of the image makes of the levels on MDI (R184). -/

namespace Sys2Proof.Machine

/-- A rising edge of MCLK stands in the middle of each bit: sample `k` is the level in microsecond 4k + 2. -/
theorem mdiSamples_get : ∀ (k m : Nat) (levels : List Bool), levels.length = 4 * m →
    ∀ t, t % 4 = 0 → (mdiSamples t levels)[k]? = if k < m then levels[4 * k + 2]? else none := by
  intro k m
  induction m generalizing k with
  | zero => intro levels hl t _; simp [List.length_eq_zero_iff.1 hl, mdiSamples]
  | succ m ih =>
    intro levels hl t ht
    obtain ⟨a, b, c, d, rest, rfl⟩ : ∃ a b c d rest, levels = a :: b :: c :: d :: rest := by
      match levels, hl with
      | a :: b :: c :: d :: rest, _ => exact ⟨a, b, c, d, rest, rfl⟩
    have h0 : (mclkAt t && !mclkAt (t - 1)) = false := by simp [mclkAt]; omega
    have h1 : (mclkAt (t + 1) && !mclkAt t) = false := by simp [mclkAt]; omega
    have h2 : (mclkAt (t + 2) && !mclkAt (t + 1)) = true := by simp [mclkAt]; omega
    have h3 : (mclkAt (t + 3) && !mclkAt (t + 2)) = false := by simp [mclkAt]; omega
    have step : mdiSamples t (a :: b :: c :: d :: rest) = c :: mdiSamples (t + 4) rest := by
      simp only [mdiSamples, h0, h1, h2, h3, Nat.add_sub_cancel, Bool.false_eq_true, if_false, if_true, Nat.add_assoc,
        Nat.reduceAdd, show t + 3 - 1 = t + 2 from rfl, show t + 2 - 1 = t + 1 from rfl]
    have hr : rest.length = 4 * m := by simp at hl; omega
    rw [step]
    cases k with
    | zero => simp
    | succ k =>
      rw [List.getElem?_cons_succ, ih k rest hr (t + 4) (by omega)]
      simp only [Nat.add_lt_add_iff_right, show 4 * (k + 1) + 2 = 4 * k + 2 + 4 by omega, List.getElem?_cons_succ]

theorem bytesIn_get (n : Nat) : ∀ (bits : List Bool) (i : Nat), i < n →
    (bytesIn n bits)[i]? = some (byteOf (shiftIn ((bits.drop (8 * i)).take 8))) := by
  induction n with
  | zero => intro bits i h; omega
  | succ n ih =>
    intro bits i h
    cases i with
    | zero => simp [bytesIn]
    | succ i =>
      rw [bytesIn, List.getElem?_cons_succ, ih _ i (by omega), List.drop_drop, show 8 + 8 * i = 8 * (i + 1) by omega]

/-- Byte `i` of the image read: the levels of MDI at the eight rising edges of its bits, the highest bit first (R184). -/
theorem imgByte_imageRead (mdi : MdiLevels) (i : Nat) (h : i < 271) :
    imgByte (imageRead mdi) i =
      shiftIn ((List.range 8).map fun k => mdi.toList.getD (4 * (24 + 8 * i + k) + 2) false) := by
  have hs : ∀ k, k < 2192 → (mdiSamples 0 mdi.toList)[k]? = some (mdi.toList.getD (4 * k + 2) false) := by
    intro k hk
    rw [mdiSamples_get k 2192 _ (by simp) 0 rfl, if_pos hk, List.getD_eq_getElem?_getD,
      List.getElem?_eq_getElem (by simp; omega), Option.getD_some]
  have hw : ((((mdiSamples 0 mdi.toList).drop readCommandBits.length).drop (8 * i)).take 8) =
      (List.range 8).map fun k => mdi.toList.getD (4 * (24 + 8 * i + k) + 2) false := by
    apply List.ext_getElem?
    intro k
    rw [List.getElem?_take, List.getElem?_map, List.drop_drop, List.getElem?_drop]
    by_cases hk : k < 8
    · rw [if_pos hk, show readCommandBits.length = 24 from rfl, hs _ (by omega)]
      simp [hk]
    · simp [hk]
  have hb : ∀ l : List Bool, l.length = 8 → (byteOf (shiftIn l)).toNat = shiftIn l := by
    intro l hl
    match l, hl with
    | [a, b, c, d, e, f, g, h], _ => revert a b c d e f g h; decide
  unfold imgByte imageRead
  rw [Vector.toList_mk, List.getD_eq_getElem?_getD, bytesIn_get _ _ _ h, hw, Option.getD_some, hb _ (by simp)]

end Sys2Proof.Machine
end

