-- ==== Sys2Proof/Laws/Reception.lean ====
section
/-! SUPPORT. What a command of the plant line comes to, whichever tells it, and what reading whole bytes, marks and gaps does to the
receive assembler (R116, R128 to R131). -/

namespace Sys2Proof.Machine

/-- Every command of the line does the same: the bits decide (R116). -/
theorem exec_line (line : List Bool) (s : State) : ∀ c ∈ lineCommands line, exec c s = .next (s.hear line) := by
  intro c hc
  simp only [lineCommands, receptionCommands, List.mem_cons, List.not_mem_nil, or_false] at hc
  rcases hc with h | h | h | h | h | h | h | h | h | h | h | h | h | h | h | h <;> subst h <;> rfl

theorem mem_lineCommands {line : List Bool} {c : Instr} (h : c ∈ receptionCommands line) : c ∈ lineCommands line := by
  simp only [lineCommands, List.mem_cons]; exact .inr (.inr (.inr h))

/-- A station that listens takes the reports of its assembler one after another. -/
theorem State.hear_eq {s : State} {line : List Bool} (hc : s.configured = true) (hs : s.line.sending = none) :
    s.hear line = (s.assembler line).2.foldl State.heard (s.afterReading line) := by
  unfold State.hear
  rw [if_pos (by simp [State.listens, hc, hs])]
  rfl

/-- A heard burst puts the station in LINE HOLD, or is delivered after a DARK status has been seen to (R131, R132). -/
theorem State.hear_hears {s : State} {line : List Bool} {b : Burst} (h : Hears s line b) :
    s.hear line = if b.sender = s.ident.station then (s.afterReception line b).enterHold else
      (if b.dark then (s.afterReception line b).darkStatus b.sender else s.afterReception line b).deliver b := by
  obtain ⟨hc, hs, bytes, hr, hj⟩ := h
  rw [State.hear_eq hc hs, hr, List.foldl_cons, List.foldl_nil]
  simp only [State.heard, hj, State.judged]
  rfl

/-- The addressee test of R131. -/
theorem State.addressed_iff (s : State) (b : Burst) : (s.addressed b = true) ↔ (b.addressee = none ∨
    b.addressee = some s.ident.station) := by
  unfold State.addressed
  cases b.addressee <;> simp

/-! ### Reading the line bit by bit -/

/-- Reading one stretch of the line after another is reading both. -/
theorem Reader.read_append (r : Reader) (a b : List Bool) :
    r.read (a ++ b) = (((r.read a).1.read b).1, (r.read a).2 ++ ((r.read a).1.read b).2) := by
  induction a generalizing r with
  | nil => simp [Reader.read]
  | cons d a ih => simp only [List.cons_append, Reader.read, ih, List.append_assoc]

/-- The run of driven bit times after reading `bits` (R116). -/
def runAfter (run : Nat) (bits : List Bool) : Nat := bits.foldl (fun n driven => if driven then n + 1 else 0) run

/-- A run grows by no more than the bit times read. -/
theorem runAfter_le (bits : List Bool) : ∀ run, runAfter run bits ≤ run + bits.length := by
  induction bits with
  | nil => intro run; exact Nat.le_refl _
  | cons d l ih =>
    intro run
    have := ih (if d then run + 1 else 0)
    simp only [runAfter, List.foldl_cons, List.length_cons] at *
    cases d <;> simp at * <;> omega

/-- The data bit times of a byte's wave frame that byte again (R115, R116). -/
theorem frameByte_wave (b : Byte) : frameByte ((byteWave b).take 9).tail = b := by
  revert b; decide

/-- Data bit times join the open byte frame (R116). -/
theorem Reader.read_data (bits : List Bool) : ∀ (r : Reader) (got : List Bool), r.frame = some got → got.length + bits.length ≤ 8 →
    r.run + bits.length < 24 ∨ (r.run < 24 ∧ ∀ d ∈ bits, d = false) →
    r.read bits = ({ r with run := runAfter r.run bits, frame := some (got ++ bits), readTo := r.readTo + 16 * bits.length }, []) := by
  induction bits with
  | nil => intro r got h _ _; simp [Reader.read, runAfter, ← h]
  | cons d l ih =>
    intro r got h h1 h2
    simp only [List.length_cons] at h1 h2
    have hrun : r.run < 24 := by rcases h2 with h2 | h2 <;> omega
    have hm : r.marks d = false := by
      have : ¬ startMarkBits ≤ r.run := Nat.not_le.2 hrun
      simp [Reader.marks, this]
    have hb : r.bit d = ({ r with run := if d then r.run + 1 else 0, readTo := r.readTo + 16, frame := some (got ++ [d]) }, none) := by
      have : got.length < 8 := by omega
      simp only [Reader.bit, hm, h, this, if_true, Bool.false_eq_true, if_false]
      rfl
    rw [Reader.read, hb]
    simp only
    rw [ih _ (got ++ [d]) rfl (by simp; omega) ?_]
    · simp only [Option.toList_none, List.nil_append, List.append_assoc, List.cons_append, List.length_cons]
      congr 2
      omega
    · rcases h2 with h2 | ⟨_, h2⟩
      · left; cases d <;> simp <;> omega
      · right; simp only [List.mem_cons, forall_eq_or_imp] at h2; exact ⟨by simp [h2.1], h2.2⟩

/-- A byte frame is read: the byte of its data joins the reception (R116). -/
theorem Reader.read_frame (r : Reader) (bits : List Bool) (stop : Bool) (hr : r.run = 0) (hf : r.frame = none) (hb : bits.length = 8) :
    r.read (true :: bits ++ [stop]) =
      (let x := Reader.add
          { r with run := runAfter 1 (bits ++ [stop]), frame := none, quietFrom := r.readTo + 160, readTo := r.readTo + 160 }
          (frameByte bits)
       (x.1, x.2.toList)) := by
  have h0 : r.bit true = ({ r with run := 1, readTo := r.readTo + 16, frame := some [] }, none) := by
    simp only [Reader.bit, Reader.marks, hf, hr]; rfl
  have h1 := Reader.read_data bits { r with run := 1, readTo := r.readTo + 16, frame := some [] } [] rfl (by simp; omega)
    (.inl (by simp; omega))
  rw [List.cons_append, Reader.read, h0]
  simp only
  rw [Reader.read_append, h1]
  have hl := runAfter_le bits 1
  obtain ⟨u, hu⟩ : ∃ u : Reader, u = { r with run := runAfter 1 bits, frame := some bits, readTo := r.readTo + 16 + 16 * bits.length } :=
      ⟨_, rfl⟩
  have hm : u.marks stop = false := by
    have : ¬ startMarkBits ≤ u.run := by rw [hu]; simp [startMarkBits]; omega
    simp [Reader.marks, this]
  have hs : u.bit stop = Reader.add
      { r with run := runAfter 1 (bits ++ [stop]), frame := none, quietFrom := r.readTo + 160, readTo := r.readTo + 160 }
      (frameByte bits) := by
    have hn : ¬ bits.length < 8 := by omega
    have hfr : u.frame = some bits := by rw [hu]
    simp only [Reader.bit, hm, hfr, hn, if_false, Bool.false_eq_true]
    have hrun : runAfter 1 (bits ++ [stop]) = if stop then u.run + 1 else 0 := by rw [hu]; simp [runAfter]
    have ht : u.readTo + bitTime = r.readTo + 160 := by rw [hu]; simp only [bitTime]; omega
    rw [hrun, ht, hu]
  simp only [Reader.read, List.nil_append, Option.toList_none, ← hu]
  rw [hs]
  simp

/-- Where a driven run of `n` bit times leaves the byte frames it opens (R116). -/
def runFrame (n : Nat) : Option (List Bool) := if n % 10 = 0 then none else some (List.replicate (n % 10 - 1) true)

/-- A driven run opens a byte frame of zeros every ten bit times (R116). -/
theorem Reader.read_driven (r : Reader) (hf : r.frame = none) (n : Nat)
    (hh : r.reception = none ∨ 6 ≤ r.held ∨ r.held + n / 10 < 6) :
    r.read (List.replicate n true) = ({ r with
      run := r.run + n, frame := runFrame n, reception := r.reception.map (· ++ List.replicate (n / 10) 0),
      quietFrom := if n < 10 then r.quietFrom else r.readTo + 160 * (n / 10), readTo := r.readTo + 16 * n }, []) := by
  induction n with
  | zero => cases h : r.reception <;> simp [Reader.read, runFrame, ← hf, ← h] 
  | succ n ih =>
    have ih := ih (by rcases hh with h | h | h; exact .inl h; exact .inr (.inl h); exact .inr (.inr (by omega)))
    rw [List.replicate_succ', Reader.read_append, ih]
    obtain ⟨u, hu⟩ : ∃ u : Reader, u = { r with
      run := r.run + n, frame := runFrame n, reception := r.reception.map (· ++ List.replicate (n / 10) 0),
      quietFrom := if n < 10 then r.quietFrom else r.readTo + 160 * (n / 10), readTo := r.readTo + 16 * n } := ⟨_, rfl⟩
    rw [← hu]
    have hm : u.marks true = false := by simp [Reader.marks]
    have key : u.bit true = ({ r with
        run := r.run + (n + 1), frame := runFrame (n + 1), reception := r.reception.map (· ++ List.replicate ((n + 1) / 10) 0),
        quietFrom := if n + 1 < 10 then r.quietFrom else r.readTo + 160 * ((n + 1) / 10), readTo := r.readTo + 16 * (n + 1) }, none) := by
      have hfr : u.frame = runFrame n := by rw [hu]
      have ht : u.readTo + bitTime = r.readTo + 16 * (n + 1) := by rw [hu]; simp only [bitTime]; omega
      have hrn : u.run + 1 = r.run + (n + 1) := by rw [hu]; simp only; omega
      unfold Reader.bit
      simp only [hm, Bool.false_eq_true, if_false, if_true, hfr, ht, hrn]
      by_cases h0 : n % 10 = 0
      · have e1 : (n + 1) / 10 = n / 10 := by omega
        have e2 : runFrame (n + 1) = some [] := by have : (n + 1) % 10 = 1 := by omega
                                                   simp [runFrame, this]
        have e3 : runFrame n = none := by simp [runFrame, h0]
        rw [e3, e2, e1]
        simp only
        rw [hu]
        have : (if n < 10 then r.quietFrom else r.readTo + 160 * (n / 10)) = if n + 1 < 10 then r.quietFrom else r.readTo + 160 * (n /
            10) := by
          by_cases h : n < 10
          · rw [if_pos h, if_pos (by omega)]
          · rw [if_neg h, if_neg (by omega)]
        rw [this]
      · have e3 : runFrame n = some (List.replicate (n % 10 - 1) true) := by simp [runFrame, h0]
        rw [e3]
        simp only [List.length_replicate]
        by_cases h9 : n % 10 = 9
        · rw [if_neg (by omega)]
          have e1 : (n + 1) / 10 = n / 10 + 1 := by omega
          have e2 : runFrame (n + 1) = none := by have : (n + 1) % 10 = 0 := by omega
                                                  simp [runFrame, this]
          have e4 : frameByte (List.replicate (n % 10 - 1) true) = 0 := by rw [h9]; decide
          have e5 : (if n + 1 < 10 then r.quietFrom else r.readTo + 160 * ((n + 1) / 10)) = r.readTo + 16 * (n + 1) := by
            rw [if_neg (by omega), e1]; omega
          rw [e4, e2, e5, e1]
          unfold Reader.add
          simp only
          have hur : u.reception = r.reception.map (· ++ List.replicate (n / 10) 0) := by rw [hu]
          cases hc : r.reception with
          | none =>
            rw [hur, hc]; simp only [Option.map_none]
          | some got =>
            rw [hur, hc]
            simp only [Option.map_some]
            have hheld : r.held = got.length := by simp [Reader.held, hc]
            rw [if_neg]
            · simp only [List.append_assoc, ← List.replicate_succ']
            · rintro ⟨h5, _⟩
              simp only [List.length_append, List.length_replicate] at h5
              rcases hh with hh | hh | hh
              · rw [hc] at hh; cases hh
              · omega
              · omega
        · rw [if_pos (by omega)]
          have e1 : (n + 1) / 10 = n / 10 := by omega
          have e2 : runFrame (n + 1) = some (List.replicate (n % 10 - 1) true ++ [true]) := by
            have : (n + 1) % 10 = n % 10 + 1 := by omega
            simp only [runFrame, this]
            rw [if_neg (by omega), ← List.replicate_succ']
            congr 2; omega
          have : (if n < 10 then r.quietFrom else r.readTo + 160 * (n / 10)) = if n + 1 < 10 then r.quietFrom else r.readTo + 160 * (n /
              10) := by
            by_cases h : n < 10
            · rw [if_pos h, if_pos (by omega)]
            · rw [if_neg h, if_neg (by omega)]
          rw [e2, e1, hu, this]
    rw [Reader.read, key]
    simp [Reader.read]

/-- Released bit times with no byte frame open and no byte to end by a gap (R116, R128). -/
theorem Reader.read_released (r : Reader) (hf : r.frame = none) (hr : r.run < 24) (hc : r.reception = none ∨
    r.reception = some []) (n : Nat) :
    r.read (List.replicate n false) = ({ r with run := if n = 0 then r.run else 0, readTo := r.readTo + 16 * n }, []) := by
  induction n generalizing r with
  | zero => simp [Reader.read]
  | succ n ih =>
    have hb : r.bit false = ({ r with run := 0, readTo := r.readTo + 16 }, none) := by
      have : ¬ startMarkBits ≤ r.run := Nat.not_le.2 hr
      simp only [Reader.bit, Reader.marks, this, hf, Reader.gap, decide_false, Bool.and_false, Bool.false_and, Bool.false_eq_true, if_false]
      rcases hc with hc | hc <;> rw [hc] <;> rfl
    rw [List.replicate_succ, Reader.read, hb]
    simp only
    rw [ih { r with run := 0, readTo := r.readTo + 16 } hf (by simp) hc]
    have : r.readTo + 16 + 16 * n = r.readTo + 16 * (n + 1) := by omega
    simp [this]

/-- Before the fifth released bit time a gap ends no reception (R128). -/
theorem Reader.read_gap (r : Reader) (hf : r.frame = none) (hr : r.run = 0) (n : Nat) (hq : r.readTo + 16 * n < r.quietFrom + 80) :
    r.read (List.replicate n false) = ({ r with readTo := r.readTo + 16 * n }, []) := by
  induction n generalizing r with
  | zero => simp [Reader.read]
  | succ n ih =>
    have hb : r.bit false = ({ r with readTo := r.readTo + 16 }, none) := by
      have hm : r.marks false = false := by simp [Reader.marks, hr, startMarkBits]
      have hg : ¬ r.quietFrom + bitTime * receptionEndBits ≤ r.readTo + bitTime := by simp only [bitTime, receptionEndBits]; omega
      simp only [Reader.bit, hm, hf, Reader.gap, Bool.false_eq_true, if_false]
      split
      · rw [if_neg hg, ← hr]; rfl
      · rw [← hr]; rfl
    rw [List.replicate_succ, Reader.read, hb]
    simp only
    rw [ih { r with readTo := r.readTo + 16 } hf hr (by show r.readTo + 16 + 16 * n < r.quietFrom + 80; omega)]
    have : r.readTo + 16 + 16 * n = r.readTo + 16 * (n + 1) := by omega
    simp [this]

/-- A byte's wave: start bit, data, released stop bit (R115). -/
theorem byteWave_eq (b : Byte) : byteWave b = true :: ((byteWave b).take 9).tail ++ [false] := rfl

/-- Whole byte frames one after another join the reception, while the sixth byte is a total length of 9 to 84 (R116, R128). -/
theorem Reader.read_bytes (bytes : List Byte) : ∀ (r : Reader) (got : List Byte), r.run = 0 → r.frame = none → r.reception = some got →
    (∀ b, (got ++ bytes)[5]? = some b → 9 ≤ b.toNat ∧ b.toNat ≤ 84) →
    r.read (bytes.flatMap byteWave) = ({ r with
      reception := some (got ++ bytes), quietFrom := if bytes = [] then r.quietFrom else r.readTo + 160 * bytes.length,
      readTo := r.readTo + 160 * bytes.length }, []) := by
  induction bytes with
  | nil => intro r got h1 h2 h3 _; simp [Reader.read, ← h3]
  | cons b l ih =>
    intro r got h1 h2 h3 h4
    have hf := Reader.read_frame r ((byteWave b).take 9).tail false h1 h2 (by rfl)
    have ha : ∀ x : Reader, x.reception = some got → x.add b = ({ x with reception := some (got ++ [b]) }, none) := by
      intro x hx
      unfold Reader.add
      rw [hx]
      simp only
      rw [if_neg]
      rintro ⟨h5, h6⟩
      have := h4 b (by rw [List.getElem?_append_right (by omega), h5]; rfl)
      omega
    have hrun : runAfter 1 (((byteWave b).take 9).tail ++ [false]) = 0 := by simp [runAfter]
    rw [frameByte_wave, hrun, ha { r with run := 0, frame := none, quietFrom := r.readTo + 160, readTo := r.readTo + 160 } h3] at hf
    rw [List.flatMap_cons, byteWave_eq, Reader.read_append, hf]
    simp only
    rw [ih
      { r with
        run := 0, frame := none, reception := some (got ++ [b]), quietFrom := r.readTo + 160, readTo := r.readTo + 160 }
      (got ++ [b]) rfl rfl rfl (by simpa using h4)]
    cases l with
    | nil => simp [h1, h2]
    | cons c l => simp only [h1, h2, List.length_cons, List.append_assoc, List.cons_append, List.nil_append, reduceCtorEq, if_false,
        Option.toList_none, List.append_nil,
        show r.readTo + 160 + 160 * (l.length + 1) = r.readTo + 160 * (l.length + 1 + 1) by omega]

end Sys2Proof.Machine
end

