-- ==== Sys2Proof/Laws/Search.lean ====
section
/-! SUPPORT. What the searches of the incident table find, and when no pending raise opens (R1, R3, R9, R11). -/

namespace Sys2Proof.Machine

/-- With no mark set no pending raise opens (R9). -/
theorem State.openPending_idle (s : State) (h : ∀ m ∈ s.engine.pend, m = none) (n : Nat) : State.openPending n s = s := by
  have hb : s.bestMark = none := by
    have : s.openable = [] := by
      unfold State.openable
      rw [List.filterMap_eq_nil_iff]
      rintro ⟨m, i⟩ hm
      have := h m (by have := List.mem_zipIdx hm; simp at this; rw [this.2]; exact List.getElem_mem _)
      simp [this]
    unfold State.bestMark; rw [this]; rfl
  cases n with
  | zero => rfl
  | succ n => unfold State.openPending; rw [hb]; split <;> simp_all

theorem findSerial_none {s : State} {k} (h : ∀ i ∈ s.incidents, i.serial ≠ k) : findSerial s.engine.table k = none := by
  unfold findSerial
  rw [List.findIdx?_eq_none_iff]
  intro x hx
  cases x with
  | none => simp
  | some i => simpa using h i (mem_incidents.2 hx)

theorem findSerial_only {s : State} {k e i} (h1 : s.incident? e = some i) (h2 : i.serial = k) (h4 : ∀ e' j, s.incident? e' = some j →
    j.serial = k → e' = e) : findSerial s.engine.table k = some e := by
  have hg := incident?_eq.1 h1
  unfold findSerial
  rw [List.findIdx?_eq_some_iff_getElem]
  have hlt : e < s.engine.table.length := incident?_lt h1
  refine ⟨hlt, ?_, ?_⟩
  · have : s.engine.table[e] = some i := by rw [List.getElem?_eq_getElem hlt] at hg; simpa using hg
    simp [this, h2]
  · intro j hj
    cases hx : s.engine.table[j]'(by omega) with
    | none => simp
    | some y =>
      simp only [Option.any_some, beq_iff_eq]
      intro hs
      have : s.incident? j = some y := by rw [incident?_eq, List.getElem?_eq_getElem (by omega), hx]
      have := h4 j y this hs
      omega

theorem findSource_absent {s : State} {n k} (h : ∀ i ∈ s.incidents, i.input = n → i.kind ≠ k) : findSource s.engine.table n k = none := by
  cases hf : findSource s.engine.table n k with
  | none => rfl
  | some x =>
    obtain ⟨e, i⟩ := x
    have := findSource_some hf
    exact absurd this.2.2 (h i (incident?_mem this.1) this.2.1)

theorem findSource_only {s : State} {n k e i} (h1 : s.incident? e = some i) (h2 : i.input = n) (h3 : i.kind = k) (h4 : ∀ e' j,
    s.incident? e' = some j → j.input = n → j.kind = k → e' = e) : findSource s.engine.table n k = some (e, i) := by
  cases hf : findSource s.engine.table n k with
  | none =>
    have := findSource_none hf
    exact absurd (List.mem_map.2 ⟨i, incident?_mem h1, by rw [h2, h3]⟩) this
  | some x =>
    obtain ⟨e', j⟩ := x
    have := findSource_some hf
    have he := h4 e' j this.1 this.2.1 this.2.2
    subst he
    rw [h1] at this; cases this.1; rfl

theorem State.setEntry_incident (s : State) (e : Nat) (i : Option Incident) (he : e < s.engine.table.length) (a : Nat) : (s.setEntry e
    i).incident? a = if a = e then i else s.incident? a := by
  unfold State.setEntry State.incident? State.withEngine
  simp only [List.getElem?_set]
  by_cases h : a = e
  · subst h; simp [he]
  · have : ¬ e = a := fun h' => h h'.symm
    simp [h, this]

theorem State.modifyIncident_eq {s : State} {e : Nat} {i : Incident} (h : s.incident? e = some i) (f) : s.modifyIncident e f = s.setEntry
    e (some (f i)) := by
  unfold State.modifyIncident; rw [h]

/-- A fold over the entries whose step does nothing but at entry `e`, before and after that step, is that step. -/
theorem foldl_only {f : State → Nat → State} {s : State} {e : Nat} (h : ∀ a ≠ e, f s a = s) (g : ∀ a ≠ e, f (f s e) a = f s e)
    (l : List Nat) (hn : l.Nodup) : l.foldl f s = if e ∈ l then f s e else s := by
  have stay : ∀ (u : State), (∀ a ≠ e, f u a = u) → ∀ l : List Nat, e ∉ l → l.foldl f u = u := by
    intro u hu l
    induction l with
    | nil => simp
    | cons a l ih =>
      intro hm
      rw [List.mem_cons, not_or] at hm
      rw [List.foldl_cons, hu a (Ne.symm hm.1), ih hm.2]
  induction l with
  | nil => rfl
  | cons a l ih =>
    rw [List.nodup_cons] at hn
    rw [List.foldl_cons]
    by_cases ha : a = e
    · subst ha
      rw [if_pos (by simp), stay _ g l hn.1]
    · rw [h a ha, ih hn.2]
      simp [Ne.symm ha]

theorem Sets.incident {e : Nat} {j : Incident} {s t : State} (h : Sets e j s t) (he : e < s.engine.table.length) (a : Nat) :
    t.incident? a = if a = e then some j else s.incident? a := by
  rw [← State.setEntry_incident s e (some j) he a]
  unfold State.incident? State.setEntry State.withEngine
  rw [h.table]

end Sys2Proof.Machine
end

