-- ==== Sys2Proof/Laws/Reports.lean ====
section
/-! SUPPORT. What a change of stored claims with its reports can do, what one report comes to when one incident calls its pager, and
what a header that clears no claim leaves to the body (R41 to R43, R51, R53, R54, R131). -/

namespace Sys2Proof.Machine

/-- Work that appends no record. -/
theorem Works.nolog {s t : State} (w : Works s t) (h : t.log = s.log) :
    t = { s with engine := t.engine, relay := t.relay, zone := t.zone, line := t.line, office := t.office } := by
  have := w.rest; rw [h] at this; exact this

/-- With no incident calling a report changes nothing (R41). -/
theorem State.reportClaim_idle {s : State} (h : ∀ i ∈ s.incidents, i.state ≠ .calling ∧
    i.state ≠ .unanswered) (p : Nat) : s.reportClaim p = s := by
  have : ∀ e, State.reportIn p s e = s := by
    intro e; unfold State.reportIn
    cases hi : s.incident? e with
    | none => rfl
    | some i =>
      have := h i (incident?_mem hi)
      have hc : i.stillCalling = false := by
        unfold Incident.stillCalling; cases hs : i.state <;> simp_all
      simp [hc]
  unfold State.reportClaim
  generalize List.range tableSize = l
  induction l with
  | nil => rfl
  | cons a l ih => rw [List.foldl_cons, this, ih]

/-- The roster after one claim entry of peer `j` (R51). -/
def rosterAfter (j : Nat) (roster : List PagerRecord) (c : ClaimEntry) : List PagerRecord := roster.modify c.pager fun r =>
          if r.claimant = some j then { r with claim := c.score, claimant := if c.score = 0 then none else some j }
          else if r.claim < c.score then { r with claim := c.score, claimant := some j }
          else r

/-- The roster is given; the reports have worked in the engine, and did nothing with no incident calling. -/
structure Reported (roster : List PagerRecord) (s t : State) : Prop where
  rest : t = { s with engine := t.engine, presence := { s.presence with roster := roster }, relay := t.relay,
                      zone := { s.zone with plan := t.zone.plan }, line := t.line, office := t.office }
  none : (∀ i ∈ s.incidents, i.state ≠ .calling ∧ i.state ≠ .unanswered) → t = { s with presence := { s.presence with roster := roster } }

theorem Reported.trans {r q s t u} (h : Reported r s t) (k : Reported q t u) : Reported q s u := by
  refine ⟨?_, ?_⟩
  · have := k.rest; rw [h.rest] at this; exact this
  · intro hi
    have e := h.none hi
    have : ∀ i ∈ t.incidents, i.state ≠ .calling ∧ i.state ≠ .unanswered := by rw [e]; exact hi
    have := k.none this
    rw [e] at this; exact this

theorem Reported.report (s : State) (p : Nat) : Reported s.presence.roster s (s.reportClaim p) := by
  refine ⟨?_, fun h => ?_⟩
  · have w := s.reportClaim_works p
    have := Works.nolog w (s.reportClaim_log p)
    rw [w.zone] at this
    exact this
  · rw [State.reportClaim_idle h]

theorem Reported.reports (l : List Nat) : ∀ s : State, Reported s.presence.roster s (l.foldl State.reportClaim s) := by
  induction l with
  | nil => intro s; exact ⟨rfl, fun _ => rfl⟩
  | cons a l ih =>
    intro s
    have h := Reported.report s a
    have e : (s.reportClaim a).presence.roster = s.presence.roster := by rw [h.rest]
    have h2 := ih (s.reportClaim a)
    rw [e] at h2
    rw [List.foldl_cons]
    exact h.trans h2

theorem Reported.entry (j : Nat) (s : State) (c : ClaimEntry) : Reported (rosterAfter j s.presence.roster c) s (State.takeClaimEntry j s
    c) := by
  have h1 : Reported (rosterAfter j s.presence.roster c) s (s.modifyPager c.pager (meetClaim j c.score)) := ⟨rfl, fun _ => rfl⟩
  unfold State.takeClaimEntry
  simp only
  split
  · have := h1.trans (Reported.report (s.modifyPager c.pager (meetClaim j c.score)) c.pager)
    exact this
  · exact h1

theorem Reported.entries (j : Nat) (l : List ClaimEntry) : ∀ s : State,
    Reported (l.foldl (rosterAfter j) s.presence.roster) s (l.foldl (State.takeClaimEntry j) s) := by
  induction l with
  | nil => intro s; exact ⟨rfl, fun _ => rfl⟩
  | cons a l ih =>
    intro s
    have h := Reported.entry j s a
    have e : (State.takeClaimEntry j s a).presence.roster = rosterAfter j s.presence.roster a := by rw [h.rest]
    have h2 := ih (State.takeClaimEntry j s a)
    rw [e] at h2
    rw [List.foldl_cons, List.foldl_cons]
    exact h.trans h2

theorem Reported.dark (k : Nat) (s : State) : Reported (clearClaims k s.presence.roster) s (s.darkStatus k) := by
  unfold State.darkStatus State.changeRoster
  have h1 : Reported (clearClaims k s.presence.roster) s
      (s.withPresence { s.presence with roster := s.presence.roster.map (dropClaim k) }) := ⟨rfl, fun _ => rfl⟩
  have h2 := Reported.reports (lostClaimants s.presence.roster (s.presence.roster.map (dropClaim k)))
    (s.withPresence { s.presence with roster := s.presence.roster.map (dropClaim k) })
  exact h1.trans h2

/-- A report changes no entry whose incident does not call the pager (R41). -/
theorem State.reportIn_other {s : State} {p e : Nat}
    (h : ∀ j, s.incident? e = some j → j.state = .calling ∨ j.state = .unanswered → ∀ c ∈ j.calls, c.pager ≠ p) :
    State.reportIn p s e = s := by
  unfold State.reportIn
  split
  · rfl
  · next i hi =>
    rw [if_neg]
    intro hc
    rw [Bool.and_eq_true, stillCalling_iff] at hc
    obtain ⟨c, hm, hp⟩ := List.any_eq_true.1 hc.2
    exact h i hi hc.1 c hm (by simpa using hp)

/-- What a report does in the incident that calls the pager (R41, R42). -/
theorem State.reportIn_claim {s : State} {p e : Nat} {i : Incident} (h : s.incident? e = some i)
    (hs : i.state = .calling ∨ i.state = .unanswered) (hc : ∃ c ∈ i.calls, c.pager = p) :
    ClaimReported s e i (State.reportIn p s e) := by
  have hl : i.inList p = true := by
    obtain ⟨c, hm, hp⟩ := hc
    exact List.any_eq_true.2 ⟨c, hm, by simpa using hp⟩
  have h5 : refreshLimit = 5000000 := rfl
  unfold State.reportIn
  rw [h]
  simp only [(stillCalling_iff i).2 hs, hl, Bool.and_self, if_true, ClaimReported, h5]
  by_cases hr : ∀ T, i.lastRefresh = some T → T + 5000000 ≤ s.now
  · have : (i.lastRefresh.all fun t => decide (t + 5000000 ≤ s.now)) = true := by
      cases hq : i.lastRefresh with
      | none => rfl
      | some T => rw [Option.all_some, decide_eq_true_eq]; exact hr T hq
    rw [if_pos hr, this, if_pos rfl, State.refresh, State.modifyIncident_eq h]
    have := State.issueCall_issued ((State.setEntry_sets s e { i with lastRefresh := some s.now }).lookup (incident?_lt h))
    simp only [CallIssued, CallOffered, State.setEntry, State.withEngine, List.set_set] at this ⊢
    exact this
  · have : ¬ (i.lastRefresh.all fun t => decide (t + 5000000 ≤ s.now)) = true := by
      intro ha
      apply hr
      intro T hT
      rwa [hT, Option.all_some, decide_eq_true_eq] at ha
    rw [if_neg hr, if_neg this]
    rfl

/-- A report for a pager that one incident calls is that incident's (R41). -/
theorem State.reportClaim_only {s : State} {p e : Nat} {i : Incident} (ht : s.engine.table.length = 16) (h : OnlyCaller s p e i) :
    ClaimReported s e i (s.reportClaim p) := by
  obtain ⟨hi, hs, hc, ho⟩ := h
  have he : e < 16 := ht ▸ incident?_lt hi
  have hset : ∀ a ≠ e, (State.reportIn p s e).incident? a = s.incident? a := by
    intro a ha
    unfold State.reportIn
    rw [hi]
    simp only
    split
    · split
      · have h1 := State.modifyIncident_sets hi fun i => { i with lastRefresh := some s.now }
        obtain ⟨q, b, h2⟩ := State.issueCall_sets (h1.lookup (incident?_lt hi))
        rw [State.refresh, (h1.trans h2).incident (incident?_lt hi), if_neg ha]
      · rw [State.setEntry_incident _ _ _ (incident?_lt hi), if_neg ha]
    · rfl
  have : s.reportClaim p = State.reportIn p s e := by
    unfold State.reportClaim
    rw [foldl_only (e := e) (fun a ha => State.reportIn_other fun j hj => ho a j ha hj)
      (fun a ha => State.reportIn_other fun j hj => ho a j ha (by rw [← hset a ha]; exact hj)) _ List.nodup_range,
      if_pos (List.mem_range.2 (show e < tableSize from he))]
  rw [this]
  exact State.reportIn_claim hi hs hc

/-! ### A DARK status by the claims it clears (R53, R54) -/

theorem mem_lostClaimants (old new : List PagerRecord) (p : Nat) : p ∈ lostClaimants old new ↔
    ∃ a b, old[p]? = some a ∧ new[p]? = some b ∧ a.claimant.isSome = true ∧ b.claimant.isNone = true := by
  unfold lostClaimants
  simp only [List.mem_map, List.mem_filter, Bool.and_eq_true]
  constructor
  · rintro ⟨⟨⟨a, b⟩, n⟩, ⟨hm, h1, h2⟩, rfl⟩
    rw [List.mem_zipIdx_iff_getElem?, List.getElem?_zip_eq_some] at hm
    exact ⟨a, b, hm.1, hm.2, h1, h2⟩
  · rintro ⟨a, b, h1, h2, h3, h4⟩
    refine ⟨⟨⟨a, b⟩, p⟩, ⟨?_, h3, h4⟩, rfl⟩
    rw [List.mem_zipIdx_iff_getElem?, List.getElem?_zip_eq_some]
    exact ⟨h1, h2⟩

/-- The claimants lost when the claims of peer `k` are dropped: its own. -/
theorem mem_lostClaimants_drop (k : Nat) (roster : List PagerRecord) (p : Nat) :
    p ∈ lostClaimants roster (roster.map (dropClaim k)) ↔ p < roster.length ∧ (roster.getD p pagerStart).claimant = some k := by
  rw [mem_lostClaimants, List.getD_eq_getElem?_getD]
  constructor
  · rintro ⟨x, y, g1, g2, g3, g4⟩
    obtain ⟨hl, _⟩ := List.getElem?_eq_some_iff.1 g1
    rw [List.getElem?_map, g1] at g2
    simp only [Option.map_some, Option.some.injEq] at g2
    subst g2
    simp only [g1, Option.getD_some]
    refine ⟨hl, ?_⟩
    by_contra hc
    rw [dropClaim, if_neg hc, Option.isNone_iff_eq_none] at g4
    rw [g4] at g3; cases g3
  · rintro ⟨hl, g⟩
    rw [List.getElem?_eq_getElem hl] at g
    simp only [Option.getD_some] at g
    refine ⟨_, _, List.getElem?_eq_getElem hl, by rw [List.getElem?_map, List.getElem?_eq_getElem hl]; rfl, by rw [g]; rfl, ?_⟩
    rw [dropClaim, if_pos g]; rfl

/-- A DARK status of a peer that no claim is stored of changes nothing (R53). -/
theorem State.darkStatus_none {s : State} {k : Nat} (h : ∀ r ∈ s.presence.roster, r.claimant ≠ some k) : s.darkStatus k = s := by
  have e1 : s.presence.roster.map (dropClaim k) = s.presence.roster := by
    conv_rhs => rw [← List.map_id s.presence.roster]
    exact List.map_congr_left fun r hr => by simp [dropClaim, h r hr]
  have e2 : lostClaimants s.presence.roster (s.presence.roster.map (dropClaim k)) = [] := by
    rw [List.eq_nil_iff_forall_not_mem]
    intro p hp
    obtain ⟨g1, g2⟩ := (mem_lostClaimants_drop k _ p).1 hp
    rw [List.getD_eq_getElem?_getD, List.getElem?_eq_getElem g1] at g2
    exact h _ (List.getElem_mem g1) g2
  unfold State.darkStatus State.changeRoster
  simp only [e2, List.foldl_nil]
  rw [e1]; rfl

/-- A burst of a peer whose header clears no claim is delivered as it is (R53, R131). -/
theorem State.hear_clearsNone {s : State} {line : List Bool} {b : Burst} (h : Hears s line b) (hb : b.sender ≠ s.ident.station)
    (hc : ClearsNone s b) : s.hear line = (s.afterReception line b).deliver b := by
  rw [State.hear_hears h, if_neg hb]
  rcases hc with hc | hc
  · simp [hc]
  · rw [State.darkStatus_none (s := s.afterReception line b) hc, ite_self]

end Sys2Proof.Machine
end

