-- ==== Sys2Proof/Laws/Settles.lean ====
section
/-! SUPPORT. What offering a SETTLE comes to, case by case (R13, R18, R19, R21). -/

namespace Sys2Proof.Machine

/-- An offer of a SETTLE is accepted, and the state is noted and handed to the own Relay Unit, or refused. -/
theorem State.offer_settle (s : State) (x : SettleBody) (cls : Nat) (noted : State → State) (kept : State → State) :
    SettleOffered s x cls noted (kept s)
      (if (s.offer (.settle x) (lineClassFor cls) none).2
       then (noted (s.offer (.settle x) (lineClassFor cls) none).1).applySettle s.ident.station x
       else kept (s.offer (.settle x) (lineClassFor cls) none).1) := by
  simp only [SettleOffered]
  refine ⟨fun hh => ?_, fun hh hr => ?_, fun out hh hf hc ho => ?_, fun hh hf hc => ?_⟩
  · simp only [State.offer, hh]; rfl
  · simp only [s.offer_room _ _ _ hh hr]; rfl
  · rw [show lineClassFor cls = .class0 from if_pos hc, State.offer_evicts s _ _ hh hf ho]; rfl
  · rcases hc with hc | hc
    · rw [show lineClassFor cls = .class1 from if_neg (by omega), State.offer_refused s _ _ hh hf]; rfl
    · rw [State.offer_full s _ _ _ hh hf hc]; rfl

/-- The SETTLE TAKEN of an incident (R13). -/
theorem State.offerTaken_offered {s : State} {e : Nat} {i : Incident} (h : s.incident? e = some i) :
    SettleOffered s (i.settle .taken) i.cls (fun u => u.setEntry e (some { i with settleOwed := none }))
      (s.setEntry e (some { i with settleOwed := some .taken })) (s.offerTaken e) := by
  unfold State.offerTaken
  rw [h]
  exact s.offer_settle _ _ _ fun u => u.setEntry e (some { i with settleOwed := some .taken })

/-- The closing SETTLE of an incident, with no raise pending (R18, R19). -/
theorem State.offerClosing_offered {s : State} {e : Nat} {i : Incident} {k : SettleKind} (h : s.incident? e = some i)
    (hk : i.settleOwed = some k) (hp : ∀ m ∈ s.engine.pend, m = none) :
    SettleOffered s (i.settle k) i.cls
      (fun u => (u.setEntry e none).append (settleTag k) (some i.serial) i.responder none) s (s.offerClosing e) := by
  have ho := s.offer_settle (i.settle k) i.cls
    (fun u => (u.setEntry e none).append (settleTag k) (some i.serial) i.responder none) id
  have hi : (s.offer (.settle (i.settle k)) (lineClassFor i.cls) none).1.ident = s.ident := by
    rw [(s.offer_spec _ _ _).rest]
  unfold State.offerClosing
  rw [h]
  simp only [hk]
  unfold State.freeEntry
  rw [State.openPending_idle, hi]
  · exact ho
  · rw [State.applySettle_engine]
    show ∀ m ∈ (s.offer (.settle (i.settle k)) (lineClassFor i.cls) none).1.engine.pend, m = none
    rw [State.offer_engine]
    exact hp

end Sys2Proof.Machine
end

