-- ==== Sys2Proof/WellFormed.lean ====
section
/-! DEFINITION. Which commands name an event the spec knows. Fields whose type already holds the range (an entry
number, a band, the levels of a whole read) need no check. -/

namespace Sys2Proof

/-- Longest burst in bit times: 25 + 10 x 84 (R115, R139). -/
def longestBurstBits : Nat := 865

/-- An answer list key of an owner 0 to 31, a serial 0 to 255 and a pager 0 to 63 (R86, R142). -/
def AnswerKey.wellFormed (k : AnswerKey) : Bool :=
  decide (k.owner ≤ 31) && decide (k.serial ≤ 255) && decide (k.pager ≤ 63)

/-- The longest driven run of a row of bit times, with `run` driven ones before it. -/
def longestRun : Nat → List Bool → Nat
  | run, [] => run
  | run, true :: rest => longestRun (run + 1) rest
  | run, false :: rest => max run (longestRun 0 rest)

/-- The last bit time told is released: a start mark is heard at its release, a reception ends by a gap (R116, R128). -/
def endsReleased (line : List Bool) : Bool := line.getLast? == some false

/-- A command that names an event the spec knows: noise is driven for some bit time and for no run of 24 (R116, R123), a collision
falls in a bit time of the longest burst at most (R115), a start mark and the end of a reception are told up to a released bit
time (R116, R128), a reception that fails by length is told up to some bit time (R128), and an answer list key lies in its ranges
(R86). -/
def Instr.wellFormed : Instr → Bool
  | .lineNoise line => decide (1 ≤ longestRun 0 line) && decide (longestRun 0 line ≤ 23)
  | .collision bitTime => decide (bitTime < longestBurstBits)
  | .receptionFailsByLength line => !line.isEmpty
  | .answerRepeatTimer key => key.wellFormed
  | .powerOn _ => true
  | .restart => true
  | .restartRelease => true
  | .loadWaitEnd => true
  | .loadReadEnd _ => true
  | .slotBoundary => true
  | .outTaken => true
  | .firstByteDeadline => true
  | .wholeFrameDeadline => true
  | .inStrobe _ => true
  | .inFullEnd => true
  | .gapTimerExpiry => true
  | .agingTimerExpiry => true
  | .claimTimerExpiry => true
  | .scan _ _ => true
  | .chatterWindowEnd => true
  | .secondsClockTick => true
  | .flashPhaseTurn => true
  | .panelShareStart => true
  | .windowExpiry _ => true
  | .refreshLimitEnd _ => true
  | .beginBurst => true
  | .burstSentWhole => true
  | .startMarkHeard line => endsReleased line
  | .receptionFailed line => endsReleased line
  | .receiveClaim line => endsReleased line
  | .receiveCall line => endsReleased line
  | .receiveAnswer line => endsReleased line
  | .receiveSettle line => endsReleased line
  | .receiveDuty line => endsReleased line
  | .receiveZone line => endsReleased line
  | .receiveLog line => endsReleased line
  | .receiveState line => endsReleased line
  | .queryHistory line => endsReleased line
  | .queryIncidents line => endsReleased line
  | .queryRelease line => endsReleased line
  | .queryCancel line => endsReleased line

end Sys2Proof
end

