-- ==== Sys2Proof/Tests/Slice0.lean ====
section
/-! SUPPORT. Tests: ill-formed commands, words, the spec's worked examples. Expected values are those of spec/ (the rule or example is
named at each). -/

namespace Sys2Proof.Tests

open Sys2Proof Sys2Proof.Machine

/-! ### WellFormed and the words of the table -/

/-- R116, R123: noise has a driven bit time and no run of 24. -/
theorem test_ill_formed_noise :
    (Instr.lineNoise [false]).wellFormed = false ∧ (Instr.lineNoise (List.replicate 24 true)).wellFormed = false ∧
      (Instr.lineNoise [true]).wellFormed = true ∧
      (Instr.lineNoise (List.replicate 23 true ++ false :: List.replicate 23 true)).wellFormed = true := by decide

/-- R116, R128: a mark is heard at its release, and a gap is released. -/
theorem test_ill_formed_release :
    (Instr.startMarkHeard (List.replicate 24 true)).wellFormed = false ∧ (Instr.receptionFailed []).wellFormed = false ∧
      (Instr.startMarkHeard (List.replicate 24 true ++ [false])).wellFormed = true ∧
      (Instr.receiveCall (List.replicate 5 false)).wellFormed = true := by decide

/-- R115: the longest burst has 865 bit times. -/
theorem test_ill_formed_collision :
    (Instr.collision 865).wellFormed = false ∧ (Instr.collision 864).wellFormed = true := by decide

/-- R128: some bit time is told up to the sixth byte. -/
theorem test_ill_formed_length :
    (Instr.receptionFailsByLength []).wellFormed = false ∧ (Instr.receptionFailsByLength [true]).wellFormed = true := by decide

/-- R86: owner, serial and pager of an answer list entry in their ranges. -/
theorem test_ill_formed_key :
    (Instr.answerRepeatTimer ⟨32, 0, 0, .accept⟩).wellFormed = false ∧
      (Instr.answerRepeatTimer ⟨0, 256, 0, .accept⟩).wellFormed = false ∧
      (Instr.answerRepeatTimer ⟨0, 0, 64, .accept⟩).wellFormed = false ∧
      (Instr.answerRepeatTimer ⟨31, 255, 63, .done⟩).wellFormed = true := by decide

/-- The table gives no row any bits. -/
theorem test_no_word_spells_a_command :
    decodeTableWord 8 1 = none ∧ (State.reset.withFetchWord 8 1).pending = [] := by decide

/-! ### Helpers -/

/-- What a command leaves. -/
def after (c : Instr) (s : State) : State :=
  match exec c s with
  | .next t => t
  | .fault _ => s
  | .refused _ => s

/-- A pager in use with its holder on duty. -/
def pagerOn (score : Nat) : PagerRecord := { pagerStart with inUse := true, group := some 0, duty := true, score := score }

/-- A CONFIGURED station 5 of channel 2 in slot 3, every class of two levels, pagers 0 to 2 of group 0, every input a contact. -/
def base : State := { State.reset with
  now := 1000000
  loader := { load := .configured, restartPin := false, afterRestart := false }
  ident := ⟨5, 2⟩
  engine := { engineStart with plans := List.replicate 4 [⟨.crew, .group, 30, 3, false⟩, ⟨.lead, .plant, 60, 4, true⟩] }
  presence := { presenceStart with
    roster := [pagerOn 90, pagerOn 30, { pagerOn 0 with rank := .lead }] ++ List.replicate 61 pagerStart
    agingAt := some 4000000, claimAt := some 5000000 }
  zone := { zoneStart with onAir := some .a, slot := 3, slotStart := 960000, slotAt := some 1040000 }
  line := { lineStart with reader := readerStart 900000 }
  scanner := { scannerStart with
    inputs := List.replicate 16 { inputStart with mode := .contact, cls := 2 }, debounce := 3
    scanAt := some 1000000, windowAt := some 60000000 }
  log := { logPowerOn with mode := some .roll, watermark := some 100, seconds := 1, secondAt := 2000000 }
  panel := { panelStart 1000000 with commons := 3, flashAt := some 1500000 } }

def withPage (e : PageEntry) (s : State) : State := { s with relay := { s.relay with pages := s.relay.pages ++ [e] } }

def page (owner serial pager cls : Nat) (kind : PageKind) (repeats : Nat) : PageEntry :=
  { key := ⟨owner, serial, pager⟩, seq := 0, cls := cls, level := 0, msg := 0, kind := kind, repeats := repeats, state := .waiting,
    spentLeft := 0, note := none, updated := false }

/-! ### Worked examples -/

/-- R192: the check word over the bytes 31H to 39H is 29B1H. -/
theorem test_check_word : checkWord [0x31, 0x32, 0x33, 0x34, 0x35, 0x36, 0x37, 0x38, 0x39] = 0x29B1 := by decide +kernel

/-- A score after one return word of CHECKIN for pager 0 at a grade, with its score before. -/
def heardAt (score grade : Nat) : Nat :=
  let s := { base with
    presence := { base.presence with roster := base.presence.roster.set 0 (pagerOn score) }
    zone := { base.zone with assembler := .assembling [0, BitVec.ofNat 8 grade, 0xFF], gapAt := some 1005000 } }
  ((after (.inStrobe 0xFF) s).pager 0).score

/-- R47: the table of hearings. -/
theorem test_hearing :
    heardAt 3 0 = 2 ∧ heardAt 23 2 = 25 ∧ heardAt 100 10 = 115 ∧ heardAt 238 15 = 239 ∧ heardAt 239 15 = 239 ∧
      heardAt 240 15 = 240 ∧ heardAt 240 0 = 180 := by decide +kernel

/-- R49: a score of 240 after 1, 2 and 4 aging steps. -/
theorem test_aging :
    let one (s : State) := after .agingTimerExpiry s
    let s := { base with presence := { base.presence with roster := base.presence.roster.set 0 (pagerOn 240) } }
    ((one s).pager 0).score = 210 ∧ ((one (one s)).pager 0).score = 183 ∧
      ((one (one (one (one s)))).pager 0).score = 140 := by decide +kernel

/-- R51: the table of stored claims, the entries taken one after another. -/
theorem test_claim_entries :
    let held (s : State) := ((s.pager 1).claim, (s.pager 1).claimant)
    let take (j v : Nat) (s : State) := State.takeClaimEntry j s ⟨1, v⟩
    let s1 := take 4 75 base
    let s2 := take 9 60 (take 4 60 s1)
    let s3 := take 9 30 (take 9 12 (take 9 61 s2))
    held s1 = (75, some 4) ∧ held s2 = (60, some 4) ∧ held s3 = (30, some 9) ∧
      held (take 4 0 (take 9 0 s3)) = (0, none) := by decide +kernel

/-- R55: the table of the route test. -/
theorem test_route :
    let asks (score claim : Nat) : Bool :=
      ({ base with presence := { base.presence with roster := [{ pagerOn score with claim := claim }] } } : State).routeTest 0
    asks 23 0 = false ∧ asks 24 0 = true ∧ asks 24 56 = true ∧ asks 24 57 = false ∧ asks 90 122 = true ∧ asks 90 123 = false ∧
      asks 208 240 = true := by decide +kernel

/-- (EX) A CLAIM walk that wraps (3-6). -/
theorem test_claim_walk :
    let put (p score announced : Nat) (owed : Bool) (l : List PagerRecord) :=
      l.set p { pagerStart with score := score, announced := announced, belowOwed := owed }
    let roster := put 61 90 88 false (put 62 11 30 true (put 63 40 0 false (put 0 150 140 false (put 3 26 31 false
      (put 5 71 60 false (put 7 24 0 false (put 8 199 201 false (put 9 55 50 false (put 40 33 30 false
      (List.replicate 64 pagerStart))))))))))
    let t := after .claimTimerExpiry { base with presence := { base.presence with roster := roster, pointer := 60 } }
    t.presence.pointer = 9 ∧ (t.pager 62).announced = 11 ∧ (t.pager 62).belowOwed = false ∧ (t.pager 9).announced = 50 ∧
      t.line.queue.map (·.body) =
        [.claim [⟨61, 90⟩, ⟨62, 11⟩, ⟨63, 40⟩, ⟨0, 150⟩, ⟨3, 26⟩, ⟨5, 71⟩, ⟨7, 24⟩, ⟨8, 199⟩]] := by decide +kernel

/-- (EX) Filling and amending half B (5-2). -/
theorem test_filling_half_b :
    let pages := [page 6 70 17 2 .page 4, page 3 15 48 2 .page 2, page 12 8 22 3 .page 3, page 12 9 53 3 .standdown 1]
    let call : CallBody :=
      { serial := 30, seq := 0, cls := 1, level := 0, repeats := 6, unanswered := false, kind := .alarm, group := 0, msg := 0, input := 0,
        pagers := [⟨22, true⟩] }
    let s0 := ({ base with relay := { base.relay with pages := pages } } : State).fillHalf .b
    let s6 := s0.applySettle 6 ⟨70, .taken, some 17⟩
    let s9 := s6.takeCall 2 call
    let states (s : State) := s.relay.pages.map (·.state)
    states s0 = [.placed, .waiting, .waiting, .placed] ∧ states s6 = [.spent, .placed, .waiting, .placed] ∧
      states s9 = [.spent, .placed, .waiting, .waiting, .placed] := by decide +kernel

/-- (EX) Turns after a burst from station 9 (6-3): holdoffs of class 0 and 1. -/
theorem test_holdoffs :
    holdoff 3 (some 9) .class0 = 200 ∧ holdoff 9 (some 9) .class0 = 248 ∧ holdoff 20 (some 9) .class1 = 336 ∧
      holdoff 9 (some 3) .class0 = 40 ∧ holdoff 20 (some 3) .class1 = 384 := by decide

/-- (EX) Debounce of a supervised loop (8-2): the candidate, the run and the condition after each of nine scans. -/
theorem test_debounce :
    let s0 := { base with scanner := { base.scanner with
      inputs := base.scanner.inputs.set 5 { inputStart with mode := .supervised, cls := 2 } } }
    let scanned (s : State) (b : Band) := State.scanInput s (b, 5)
    let shows (s : State) := ((s.input 5).candidate, (s.input 5).run, (s.input 5).condition)
    let s3 := ([2, 2, 3] : List Band).foldl scanned s0
    let s5 := ([3, 3] : List Band).foldl scanned s3
    let s9 := ([1, 3, 2, 2] : List Band).foldl scanned s5
    shows s3 = (some .opened, 1, .normal) ∧ shows s5 = (none, 0, .opened) ∧ shows s9 = (some .active, 2, .opened) := by
  decide +kernel

/-! (EX) An incident climbs its levels (2-4): the station at each line of its table. -/

def climbPager (g : Nat) (k : Rank) (d : Bool) : PagerRecord := { pagerStart with inUse := true, group := some g, rank := k, duty := d }

def climbStart : State := { base with
  engine := { base.engine with
    seqCounter := 200, serialCounter := 52
    plans := List.replicate 4 [⟨.crew, .group, 60, 3, false⟩, ⟨.lead, .group, 120, 4, false⟩, ⟨.supervisor, .plant, 180, 6, true⟩] }
  presence := { base.presence with
    roster := (List.replicate 64 pagerStart).set 5 (climbPager 3 .crew true) |>.set 9 (climbPager 3 .crew false)
      |>.set 14 (climbPager 3 .crew true) |>.set 22 (climbPager 3 .lead true) |>.set 51 (climbPager 1 .supervisor true) }
  scanner := { base.scanner with inputs := List.replicate 16 { inputStart with mode := .contact, cls := 2, group := 3 } } }

def climb0 : State := climbStart.raise 11 .alarm
def climb60 : State := after (.windowExpiry 0) (climb0.takeAnswer ⟨5, 52, 5, .decline⟩)
def climb110 : State := (climb60.takeAnswer ⟨5, 52, 14, .decline⟩).takeAnswer ⟨5, 52, 22, .decline⟩
def climb290 : State := after (.windowExpiry 0) (climb110.modifyPager 9 fun r => { r with duty := true })
def climb320 : State := climb290.takeAnswer ⟨5, 52, 22, .accept⟩

/-- The columns of the table. -/
structure Shown where
  state : IncidentState
  level : Nat
  called : List Nat
  seq : Option Nat
  deriving DecidableEq

def climbShows (s : State) : Option Shown :=
  (s.incident? 0).map fun i => ⟨i.state, i.level, (i.calls.filter fun c => !c.declined).map (·.pager), i.pageSeq⟩

theorem test_climb_levels :
    climbShows climb0 = some ⟨.calling, 0, [5, 14], some 200⟩ ∧ climbShows climb60 = some ⟨.calling, 1, [14, 22], some 201⟩ ∧
      climbShows climb110 = some ⟨.calling, 2, [51], some 202⟩ := by decide +kernel

theorem test_climb_end :
    climbShows climb290 = some ⟨.unanswered, 2, [5, 14, 22, 51, 9], some 203⟩ ∧
      climbShows climb320 = some ⟨.taken, 2, [5, 14, 22, 51, 9], some 203⟩ ∧
      climb320.log.records.map (·.record.tag) =
        [.raised, .level, .declined, .level, .declined, .declined, .level, .unanswered, .taken] := by decide +kernel

/-- (EX) Offers against a full queue (6-2). -/
theorem test_full_queue :
    let z (n : Nat) : Body := .settle ⟨n, .closed, none⟩
    let q (b : Body) (c : LineClass) : Queued := ⟨b, c, none, 0⟩
    let claim : Body := .claim [⟨1, 90⟩]
    let s : State := { base with line := { base.line with
      sending := some ⟨[1, 2], 990000⟩
      queue := [q claim .class1, q (z 41) .class0, q (z 42) .class0, q (z 60) .class1, q (.duty []) .class1, q (z 61) .class1,
        q (.log []) .class1, q (z 62) .class1] } }
    let bodies (s : State) := s.line.queue.map (·.body)
    let s1 := (s.offer (z 1) .class0 none).1
    let s2 := after (.collision 24) s1
    let s3 := (s2.offer (.zone true) .class0 none).1
    bodies s1 = [claim, z 41, z 42, z 1, z 60, .duty [], z 61, .log []] ∧ (s1.offer (.duty []) .class1 none).2 = false ∧
      bodies s2 = [z 41, z 42, z 1, claim, z 60, .duty [], z 61, .log []] ∧
      bodies s3 = [z 41, z 42, z 1, .zone true, claim, z 60, .duty [], z 61] := by decide +kernel

/-- (EX) Station 5 judges six receptions (chapter 7): CLAIM, SETTLE, QUERY and STATE. -/
theorem test_receptions :
    let head (kind sender to' count total : Nat) : List Byte := [byteOf kind, byteOf (64 + sender), 0, byteOf to', byteOf count,
        byteOf total]
    let told (c : List Bool → Instr) (body : List Byte) (s : State) : State :=
      after (c (burstWave (withCheck body) ++ List.replicate 5 false)) s
    let s := { base with line := { base.line with lastSender := some 8, checkFaults := 112 } }
    let s1 := told .receptionFailed (head 1 14 255 2 12 ++ [9, 88, 12, 250]) s
    let s2 := told .receptionFailed (head 4 8 255 0 11 ++ [22, 1, 255]) s1
    let s3 := told .queryHistory (head 7 30 5 0 11 ++ [1, 12, 255]) s2
    let s4 := told .receiveState (head 9 9 30 2 28 ++ [1, 1, 0, 255, 2, 1, 0, 255] ++ List.replicate 12 0) s3
    let shows (s : State) := (s.line.checkFaults, s.line.lastSender)
    shows s1 = (113, none) ∧ shows s2 = (114, none) ∧ shows s3 = (114, some 30) ∧ shows s4 = (114, some 9) ∧
      (s1.pager 9).claim = 0 := by decide +kernel

/-- R116, R128, R129: a mark begins a reception, the byte 0C5H is read from its frame, and the next mark aborts the reception. -/
theorem test_mark_and_byte :
    let mark : List Bool := List.replicate 24 true ++ [false]
    let s1 := after (.startMarkHeard mark) base
    let s2 := after (.startMarkHeard ([true, false, true, false, true, true, true, false, false, false] ++ mark)) s1
    s1.line.reader.reception = some [] ∧ (s1.line.reader.read [true, false, true, false, true, true, true, false, false,
        false]).1.reception =
      some [0xC5] ∧ s2.line.reader.reception = some [] ∧ s2.line.framingAborts = 1 := by decide +kernel

/-! (EX) A CALL meets a full list (4-2): 24 entries, three of them of class 3 or 4 in WAITING. -/

def fullList : State := { base with
  presence := { base.presence with roster := base.presence.roster.set 12 (pagerOn 90) |>.set 50 (pagerOn 90) }
  relay := { base.relay with
    pages := (List.range 24).map fun n =>
      if n = 2 then page 2 88 40 4 .page 2
      else if n = 16 then { page 5 12 9 3 .page 3 with state := .placed }
      else if n = 20 then page 2 90 41 4 .page 2
      else if n = 23 then page 8 7 30 3 .page 1
      else page 1 n 60 1 .page 1 } }

def fullCall (serial cls : Nat) (pagers : List CallPager) : CallBody :=
  { serial := serial, seq := 40, cls := cls, level := 0, repeats := 5, unanswered := false, kind := .alarm, group := 0, msg := 0,
    input := 0, pagers := pagers }

theorem test_full_list :
    let t := fullList.takeCall 6 (fullCall 71 2 [⟨12, false⟩, ⟨44, true⟩])
    let u := t.takeCall 3 (fullCall 9 4 [⟨50, false⟩])
    t.relay.pages.length = 24 ∧ t.relay.find ⟨8, 7, 30⟩ = none ∧ t.relay.find ⟨2, 90, 41⟩ = none ∧
      (t.relay.find ⟨6, 71, 12⟩).isSome = true ∧ (t.relay.find ⟨6, 71, 44⟩).isSome = true ∧
      (t.relay.find ⟨2, 88, 40⟩).isSome = true ∧ t.relay.refused = 0 ∧ u.relay.refused = 1 := by decide +kernel

/-- R72, R103: an entry on the air is updated by a CALL that is newer by its class alone, of the sequence its frame holds; the airing
does not lower it, and it returns to WAITING with the CALL's repeats. Not updated, it is lowered. -/
theorem test_updated_on_the_air :
    let e := { page 6 71 17 3 .page 2 with seq := 40, state := .onAir }
    let s := withPage e { base with zone := { base.zone with slot := 18, plan := base.zone.plan.set 18 (some (buildFrame ⟨5, 2⟩ e)) } }
    let shows (s : State) := (s.relay.find ⟨6, 71, 17⟩).map fun e => (e.cls, e.repeats, e.state)
    let t := s.takeCall 6 (fullCall 71 2 [⟨17, true⟩])
    shows t = some (2, 5, .onAir) ∧ shows t.slotOnTime = some (2, 5, .onAir) ∧ shows t.slotOnTime.relayCycleEnd = some (2, 5, .waiting) ∧
      shows s.slotOnTime = some (3, 1, .onAir) := by decide +kernel

/-! (EX) A late acceptance in a zone that holds the settle (4-3). -/

def lateStart : State := { base with
  relay := { base.relay with pages := [{ page 6 70 17 2 .page 3 with state := .onAir }, { page 6 70 22 2 .page 3 with state := .onAir }] } }

/-- Of the entry of a pager: is it a stand-down, its repeats, its spent cycles left. -/
def lateShows (s : State) (p : Nat) : Option (Bool × Nat × Nat) :=
  (s.relay.find ⟨6, 70, p⟩).map fun e => (e.kind == .standdown, e.repeats, e.spentLeft)

def lateSettled : State := lateStart.applySettle 6 ⟨70, .taken, some 22⟩
def lateEnded : State := lateSettled.relayCycleEnd
def lateAgain : State := (lateEnded.removePage ⟨6, 70, 17⟩).answerForOther ⟨6, 70, 17, .accept⟩

theorem test_late_acceptance :
    lateShows lateSettled 17 = some (true, 1, 0) ∧ lateShows lateSettled 22 = some (false, 0, 8) ∧
      lateShows lateEnded 22 = some (false, 0, 7) ∧ lateShows lateAgain 17 = some (true, 1, 0) ∧
      lateAgain.relay.answers = [] ∧ (lateAgain.relay.find ⟨6, 70, 17⟩).map (·.note) = some (some (.taken 22)) := by decide +kernel

/-! (EX) An answer relayed until the settle (4-4). -/

def answerStart : State := { base with
  relay := { base.relay with pages := [{ page 6 52 17 2 .page 3 with state := .placed }] } }

def relayed : State := answerStart.answerForOther ⟨6, 52, 17, .decline⟩
def repeated (s : State) : State := after (.answerRepeatTimer ⟨6, 52, 17, .decline⟩) s

theorem test_answer_relayed :
    (relayed.relay.find ⟨6, 52, 17⟩).map (·.state) = some .answered ∧ relayed.relay.answers.map (·.sendsLeft) = [3] ∧
      (relayed.answerForOther ⟨6, 52, 17, .decline⟩).line.queue.length = 1 ∧
      (repeated relayed).relay.answers.map (·.sendsLeft) = [2] ∧ (repeated (repeated relayed)).relay.answers.map (·.sendsLeft) = [1] ∧
      (repeated (repeated (repeated relayed))).relay.answers = [] ∧
      relayed.relayCycleEnd.relay.pages = [] := by decide +kernel

/-! (EX) Return bytes with a gap and a refused strobe (5-6), with times from 1 s. -/

def gapStart : State := { base with zone := { base.zone with partialReturns := 7 } }
def strobed (b : Byte) (s : State) : State := after .inFullEnd (after (.inStrobe b) s)
def gapTwice : State := after .gapTimerExpiry (strobed 2 (strobed 1 (after .gapTimerExpiry (strobed 2 (strobed 1 gapStart)))))

/-- Word Y: pager 22, ACCEPT, grade 11, check good, owner 6, serial 41. -/
def gapWordY : State := strobed 41 (strobed 6 (strobed 0x1B (strobed 22 gapTwice)))

def gapRefused : State :=
  let s := { gapWordY with zone := { gapWordY.zone with handover := some ⟨[1, 2, 3], 0⟩ } }
  after (.inStrobe 1) s

theorem test_return_bytes :
    gapTwice.zone.partialReturns = 9 ∧ gapTwice.zone.assembler = .idle ∧ gapWordY.zone.partialReturns = 9 ∧
      gapWordY.zone.assembler = .idle ∧ (gapWordY.pager 22).score = 44 ∧
      gapWordY.relay.answers.map (·.key) = [⟨6, 41, 22, .accept⟩] ∧ gapRefused.zone.assembler = .resync ∧
      gapRefused.zone.partialReturns = 10 ∧ (after .gapTimerExpiry gapRefused).zone.assembler = .idle := by decide +kernel

/-! (EX) A frozen log is released (9-3) and (EX) A drain while the log rolls (9-6). -/

def logOf (mode : LogMode) (first count : Nat) : Log := { base.log with
  mode := some mode, appended := first + count
  records := (List.range count).map fun i => ⟨first + i, ⟨.level, 0, some 1, none, some 0⟩⟩ }

def firstLast (l : Log) : List Nat := (l.records.head?.toList ++ l.records.getLast?.toList).map (·.number)

def frozenLog : Log :=
  let l := (logOf .rollFreeze 1000 128).append .raised (some 1) none (some 1) false
  let l := l.append .raised (some 2) none (some 1) true
  (l.append .level (some 2) none (some 0) false).append .zoneDark none none none false

def releasedLog : Log := { frozenLog with frozen := false }.append .taken (some 2) (some 3) none false

theorem test_frozen_log :
    firstLast frozenLog = [1002, 1129] ∧ frozenLog.frozen = true ∧ frozenLog.lost = 2 ∧ firstLast releasedLog = [1004, 1131] ∧
      releasedLog.lost = 0 ∧ ((releasedLog.records[126]?).map fun h => (h.record.tag, h.record.detail)) = some (.lost, some 2) := by
  decide +kernel

def drainStart : State := { base with log := { logOf .roll 400 128 with watermark := some 124 } }
def drainQueried : State := drainStart.takeQuery 30 (.history 6)
def drainRolled : State := drainQueried.append .done (some 1) (some 2) none
def drainSent (s : State) : State := after .burstSentWhole { s with line := { s.line with sending := some ⟨[], s.now⟩ } }

theorem test_drain :
    drainQueried.office.drain = some ⟨30, 404, 406⟩ ∧ firstLast drainRolled.log = [401, 528] ∧
      firstLast (drainSent drainRolled).log = [404, 528] ∧ (drainSent drainRolled).log.high = true ∧
      (drainSent drainRolled).office.drain = some ⟨30, 406, 406⟩ ∧
      firstLast (drainSent (drainSent drainRolled)).log = [406, 528] ∧ (drainSent (drainSent drainRolled)).log.high = false ∧
      (drainSent (drainSent drainRolled)).office.drain = none := by decide +kernel

/-- R164, R171, R173: the number behind 65535 is 0, and a drain runs across it. -/
theorem test_numbers_wrap :
    let s : State := { base with log := (logOf .roll 65535 1).append .done (some 1) (some 2) none false }
    let t := s.takeQuery 30 (.history 2)
    s.log.records.map (·.number) = [65535, 0] ∧ s.log.next = 1 ∧ s.office.drain = none ∧
      (t.office.drain.map fun d => (d.cursor, d.stop)) = some (1, 1) ∧ (drainSent t).log.records = [] := by decide +kernel

/-- (EX) A two-common panel (chapter 10). -/
theorem test_panel :
    let i (serial : Nat) (st : IncidentState) : Incident :=
      { serial := serial, input := 0, kind := .alarm, cls := 2, group := 0, msg := 0, state := st, level := 0, calls := [], pageSeq := none,
        window := none, responder := none, done := false, restored := false, settleOwed := none, callOwed := false,
        refreshDue := false, lastRefresh := none }
    let on (m : InputMode) (c : Condition) : InputRecord := { inputStart with mode := m, condition := c }
    let s : State := { base with
      engine := { base.engine with table := [some (i 14 .unanswered), none, some (i 15 .taken),
          some (i 16 .closing)] ++ List.replicate 12 none }
      presence := { base.presence with roster := (List.replicate 64 pagerStart).set 22 { pagerOn 71 with group := some 3 } }
      scanner := { base.scanner with inputs := (List.replicate 16 inputStart).set 1 (on .contact .active) |>.set 4 (on .supervised
          .opened) }
      log := { base.log with watermark := some 0 }
      panel := { base.panel with commons := 2, share := 1 } }
    let bits (l : List Nat) : BitVec 32 := BitVec.ofNat 32 (l.map (2 ^ ·)).sum
    let c0 := after .panelShareStart s
    let c1 := after .panelShareStart c0
    let dark := after .panelShareStart (after .panelShareStart (after .flashPhaseTurn c1))
    c0.panel.segments = bits [0, 18] ∧ c1.panel.segments = bits [1, 4, 20, 23, 27] ∧ dark.panel.segments = bits [1, 20, 23, 27] := by
  decide +kernel

/-- R115: the first byte frame of a burst: start bit driven, 01H lowest bit first, stop bit released. -/
theorem test_wave :
    ((burstWave [1]).drop 25) = [true, false, true, true, true, true, true, true, true, false] ∧
      (burstWave [1]).take 25 = List.replicate 24 true ++ [false] := by decide

/-- R192: a beacon of channel 2, station 5, cycle 12, without its check word. -/
theorem test_beacon : (beaconBytes ⟨2, 5, 12⟩).take 10 = [1, 2, 5, 12, 255, 255, 255, 255, 255, 255] := by decide

/-- R107, R108: the second on-time beacon returns a DARK zone to LIVE and offers a ZONE burst. -/
theorem test_live_again :
    let s := { base with zone := { base.zone with
      slot := 0, dark := true, beaconCount := 1, handover := some ⟨[1, 2], 1⟩ } }
    (after .outTaken s).zone.dark = false ∧ (after .outTaken s).line.queue.map (·.body) = [.zone false] := by decide +kernel

/-- An image of zeros but for some bytes. -/
def imageWith (l : List (Nat × Byte)) : Image :=
  ⟨(l.foldl (fun a x => a.set x.1 x.2) (List.replicate 271 (0 : Byte))).toArray, by
    suffices h : ∀ (l : List (Nat × Byte)) (a : List Byte), (l.foldl (fun a x => a.set x.1 x.2) a).length = a.length by
      rw [List.size_toArray, h, List.length_replicate]
    intro l
    induction l with
    | nil => intro a; rfl
    | cons x l ih => intro a; rw [List.foldl_cons, ih, List.length_set]⟩

/-- R144, R192: a byte other than 0FFH in a field that the tag makes absent, and a pager field above 63, fail the burst; in a present
field 0FFH is a value, but for a pager. -/
theorem test_optional_fields :
    (readRecord 1 0 0 0 0 255 255 15).map (·.serial) = some (some 255) ∧ readRecord 1 0 0 0 0 0 100 15 = none ∧
      readRecord 1 0 0 0 0 0 63 15 = none ∧ (readRecord 16 0 0 0 0 255 255 255).map (·.detail) = some (some 255) ∧
      readRecord 16 0 0 0 0 0 255 1 = none ∧ readRecord 3 0 0 0 0 7 64 255 = none ∧ readRecord 3 0 0 0 0 7 63 0 = none ∧
      (readRecord 6 0 0 0 0 7 255 255).map (·.pager) = some none := by decide

/-- MDI while a memory answers the read with an image: low during the command and the address, then each byte's highest bit first, 4
microseconds a bit (R184). -/
def mdiOf (img : Image) : MdiLevels :=
  Vector.ofFn fun t : Fin 8768 =>
    decide (96 ≤ t.val) && (img.toList.getD ((t.val - 96) / 32) 0).getLsbD (7 - (t.val - 96) / 4 % 8)

/-- R184: the bytes a memory answers with are the image read. -/
theorem test_memory_answers (img : Image) : imageRead (mdiOf img) = img := by
  have byte : ∀ b : Byte, shiftIn ((List.range 8).map fun k => b.getLsbD (7 - k)) = b.toNat := by decide +kernel
  have value : ∀ i, i < 271 → imgByte (imageRead (mdiOf img)) i = imgByte img i := by
    intro i h
    rw [imgByte_imageRead _ _ h, imgByte, ← byte]
    refine congrArg shiftIn (List.map_congr_left fun k hk => ?_)
    have hk := List.mem_range.1 hk
    rw [List.getD_eq_getElem?_getD, Vector.getElem?_toList, Vector.getElem?_eq_getElem (by omega), Option.getD_some, mdiOf,
      Vector.getElem_ofFn]
    simp only [show 96 ≤ 4 * (24 + 8 * i + k) + 2 by omega, decide_true, Bool.true_and]
    rw [show (4 * (24 + 8 * i + k) + 2 - 96) / 32 = i by omega, show (4 * (24 + 8 * i + k) + 2 - 96) / 4 % 8 = k by omega]
  refine Vector.ext fun i h => ?_
  have := value i h
  simpa [imgByte, List.getD_eq_getElem?_getD, h, BitVec.toNat_inj] using this

/-- R184: a memory that is missing leaves MDI at one level, and the load fails. -/
theorem test_silent_memory :
    imageFails (imageRead (Vector.replicate 8768 false)) = true ∧ imageFails (imageRead (Vector.replicate 8768 true)) = true := by decide +kernel

/-- 12-3: class 2 begins at offset 28, with its level 3 window at 42 and 43; pager 40 at 159 and 160. -/
theorem test_image_places :
    let img := imageWith [(28, 4), (42, 1), (43, 4), (159, 0x81), (160, 0x32)]
    ((imagePlan img 2)[3]?).map (·.window) = some 260 ∧ (imagePager img 40).inUse = true ∧ (imagePager img 40).duty = true ∧
      (imagePager img 40).group = some 3 ∧ (imagePager img 40).rank = .supervisor := by decide +kernel

/-- A memory that answers with an image ends the load as the image says. -/
theorem after_read (img : Image) (s : State) : after (.loadReadEnd (mdiOf img)) s = s.readEnds img := by
  show s.readEnds (imageRead (mdiOf img)) = _
  rw [test_memory_answers]

/-- (EX) A restart with an image out of range (11-3). -/
theorem test_image_out_of_range :
    let img := imageWith [(0, 1), (1, 15), (2, 2), (3, 10), (4, 19), (5, 7), (6, 6), (7, 8), (8, 0), (9, 40),
      (10, 7), (28, 5), (35, 5), (44, 12), (145, 129), (146, 144), (159, 129), (160, 6), (215, 2), (247, 1), (251, 2)]
    let s : State := { State.reset with loader := { load := .reading 28768, restartPin := false, afterRestart := true } }
    let t := after (.loadReadEnd (mdiOf img)) s
    t.configured = true ∧ t.panel.commons = 4 ∧ t.log.watermark = some 16 ∧ t.scanner.debounce = 1 ∧ t.scanner.threshold = 31 ∧
      t.log.mode = some .roll ∧ (t.levels 2).length = 4 ∧ (t.levelPlan 2 1).window = 10 ∧ (t.levelPlan 2 3).repeats = 8 ∧
      (t.pager 33).inUse = false ∧ (t.pager 40).rank = .manager ∧ (t.input 2).mode = .supervised ∧ (t.input 10).mode = .unused ∧
      (t.input 11).mode = .unused ∧ (t.input 5).cls = 1 ∧ t.log.records.map (·.record.tag) = [.restart] := by
  simp only [after_read]
  decide +kernel

/-- R182, R183: the ALARM output is asserted at reset, and COM1 drives SEG16. -/
theorem test_reset : State.reset.alarmOutput = true ∧ State.reset.drivenCommon = 1 ∧ State.reset.panel.segments = 65536 := by decide

end Sys2Proof.Tests
end

