-- ==== Sys2Proof/Tests/Witnesses.lean ====
section
/-! SUPPORT. For every statement with hypotheses, a concrete state and operands that meet them together, clause by clause, at boundary
values. Each theorem is named after its statement. -/

namespace Sys2Proof.Tests

open Sys2Proof Sys2Proof.Machine

/-! ### States -/

/-- An incident of serial 7 on input 3, calling at level 0, its window due at 1.5 s. -/
def inc : Incident :=
  { serial := 7, input := 3, kind := .alarm, cls := 2, group := 0, msg := 9, state := .calling, level := 0,
    calls := [⟨0, false⟩, ⟨1, false⟩], pageSeq := some 4, window := some 1500000, responder := none, done := false, restored := false,
    settleOwed := none, callOwed := false, refreshDue := false, lastRefresh := none }

/-- The station with one incident, in entry 0. -/
def one (i : Incident) : State := { base with engine := { base.engine with table := some i :: List.replicate 15 none } }

/-- The same incident in TAKEN and in CLOSING. -/
def takenInc : Incident := { inc with state := .taken, window := none, responder := some 1, settleOwed := some .taken }
def closingInc : Incident := { inc with state := .closing, window := none, settleOwed := some .closed }

theorem one_entry {i : Incident} {e : Nat} {j : Incident} (h : (one i).incident? e = some j) : e = 0 ∧ j = i := by
  have h' : ((some i :: List.replicate 15 none : List (Option Incident))[e]?).join = some j := h
  cases e with
  | zero => exact ⟨rfl, by simpa using h'.symm⟩
  | succ n =>
    rw [List.getElem?_cons_succ, List.getElem?_replicate] at h'
    split at h' <;> simp at h'

/-- A table of 16 entries, the first `n` of them open on the inputs 0 to 15. -/
def filled (n : Nat) : State := { base with
  engine := { base.engine with table := (List.range 16).map fun e => if e < n then some { inc with serial := e, input := e } else none } }

def duty1 : Queued := ⟨.duty [⟨1, true⟩], .class1, none, 0⟩
def zone0 : Queued := ⟨.zone true, .class0, none, 0⟩

def withQueue (q : List Queued) (s : State) : State := { s with line := { s.line with queue := q } }
def withHold (s : State) : State := { s with line := { s.line with hold := true, queue := [] } }
def withHandover (taken : Nat) (s : State) : State := { s with zone := { s.zone with handover := some ⟨List.replicate 12 0, taken⟩ } }
def inZone (dark : Bool) (slot late beacons : Nat) (s : State) : State :=
  { s with zone := { s.zone with dark := dark, slot := slot, lateCount := late, beaconCount := beacons } }

/-- The station while a burst of `n` bytes with the given head and rest of the queue is in transmission. -/
def sendingOf (n : Nat) (q : List Queued) : State := { base with
  line := { base.line with sending := some ⟨List.replicate n 0, 990000⟩, queue := q } }

/-- The line as an offer may find it: LINE HOLD, the queue with its last place free, full with a burst to evict, full with none. -/
def lines : List (State → State) :=
  [withHold, withQueue (List.replicate 7 duty1), withQueue (List.replicate 8 duty1), withQueue (List.replicate 8 zone0)]

theorem on_lines {P : (State → State) → Prop} (h : P withHold ∧ P (withQueue (List.replicate 7 duty1)) ∧
    P (withQueue (List.replicate 8 duty1)) ∧ P (withQueue (List.replicate 8 zone0))) : ∀ f ∈ lines, P f := by
  simpa [lines] using h

/-- What becomes of a SETTLE on each of these lines, by its incident's class. -/
theorem witness_a_settle_is_offered :
    (withHold base).line.hold = true ∧
      ((withQueue (List.replicate 7 duty1) base).line.hold = false ∧ (withQueue (List.replicate 7 duty1) base).line.queue.length < 8) ∧
      (8 ≤ (withQueue (List.replicate 8 duty1) base).line.queue.length ∧
        (withQueue (List.replicate 8 duty1) base).line.evictable = some duty1) ∧ inc.cls ≤ 2 ∧ 2 < ({ inc with cls := 3 } : Incident).cls ∧
      (withQueue (List.replicate 8 zone0) base).line.evictable = none := by decide +kernel

/-- The bit times of a burst on the line, from its start mark to the gap after it. -/
def waveOf (b : Burst) : List Bool := burstWave (encodeBurst b) ++ List.replicate 5 false

/-- A burst as a peer sends it. -/
def burstFrom (sender : Nat) (dark : Bool) (addressee : Option Nat) (body : Body) : Burst :=
  { lineClass := .class1, sender := sender, dark := dark, historyHigh := false, openIncidents := 0, addressee := addressee, body := body }

/-- The idle station reads a burst back whole. -/
abbrev readsWhole (b : Burst) : Prop :=
  (base.assembler (waveOf b)).2 = [.ended (encodeBurst b)] ∧ judge (encodeBurst b) = .valid b

theorem hears_of {b : Burst} (s : State) (hc : s.configured = true) (hs : s.line.sending = none) (hn : s.now = base.now)
    (hr : s.line.reader = base.line.reader) (h : readsWhole b) : Hears s (waveOf b) b :=
  ⟨hc, hs, encodeBurst b, by unfold State.assembler; rw [hn, hr]; exact h.1, h.2⟩

theorem base_hears {b : Burst} (h : readsWhole b) : Hears base (waveOf b) b := hears_of base rfl rfl rfl rfl h

/-- The station with a claim of a peer stored for pager 0. -/
def claimed (claim : Nat) (claimant : Option Nat) (s : State) : State := { s with presence := { s.presence with
  roster := s.presence.roster.modify 0 fun r => { r with claim := claim, claimant := claimant } } }

/-- The one incident of a station is the only one that calls pager 0. -/
theorem one_only (i : Incident) (hs : i.state = .calling ∨ i.state = .unanswered) (hc : ∃ c ∈ i.calls, c.pager = 0) (s : State)
    (h : s.engine = (one i).engine) : OnlyCaller s 0 0 i := by
  have e : ∀ a, s.incident? a = (one i).incident? a := fun a => by unfold State.incident?; rw [h]
  refine ⟨by rw [e]; rfl, hs, hc, fun e' j he hj => ?_⟩
  rw [e] at hj
  exact absurd (one_entry (i := i) hj).1 he

/-! ### The machine and the start -/

theorem witness_StepRunsTheFrontCommand : (
    { base with pending := [.restart, .slotBoundary] } : State).pending = .restart :: [.slotBoundary] :=
  rfl

/-- A timer due now, and the next one a microsecond ahead. -/
theorem witness_IdleStepPassesOneMicrosecond :
    (base.pending = [] ∧ ∃ T ∈ base.timers, T ≤ base.now) ∧
      (∀ T ∈ ({ base with now := 999999 } : State).timers, 999999 < T) := by decide +kernel

theorem witness_RestartKeepsTheLogAndClock :
    base.loader.restartPin = false ∧ (powerOnState true []).loader.restartPin = true := by decide

/-- An image of the highest station number and channel with its sum right; and images that fail one check each. -/
def goodImage : Image := imageWith [(0, 1), (1, 15), (3, 46), (4, 31), (5, 15)]

theorem witness_LoadWaitsReadsAndChecks :
    ((powerOnState true []).loader.restartPin = true ∧ (powerOnState true []).loader.load = .held) ∧
      State.reset.loader.load = .waiting 20000 ∧ imageFails (imageRead (mdiOf goodImage)) = false ∧
      imageFails (imageRead (mdiOf (imageWith [(0, 1), (1, 14), (3, 46), (4, 31), (5, 15)]))) = true ∧
      imageFails (imageRead (mdiOf (imageWith [(0, 1), (1, 15), (3, 47), (4, 31), (5, 15)]))) = true ∧
      imageFails (imageRead (mdiOf (imageWith [(0, 1), (1, 15), (3, 47), (4, 32), (5, 15)]))) = true ∧
      imageFails (imageRead (mdiOf (imageWith [(0, 1), (1, 15), (3, 47), (4, 31), (5, 16)]))) = true := by
  simp only [test_memory_answers]
  decide +kernel

def reading : State := { State.reset with
  now := 28768, loader := { load := .reading 28768, restartPin := false, afterRestart := false } }

theorem witness_PassedLoadHandsTheImageOn :
    reading.loader.load = .reading 28768 ∧ imageFails (imageRead (mdiOf goodImage)) = false ∧ Resting reading := by
  simp only [test_memory_answers]
  decide +kernel

/-! ### The zone cycle -/

theorem witness_SlotBoundaryStartsTheNextSlot :
    ∀ slot ∈ [0, 14, 15, 16, 30, 31], ∀ dark ∈ [true, false],
      let s := inZone dark slot 0 0 base
      s.zone.slotAt = some 1040000 ∧ s.zone.slot < 32 ∧ s.zone.handover = none ∧
        (∀ i ∈ s.incidents, i.settleOwed = none ∧ i.callOwed = false) ∧ s.zone.zoneOwed = false := by decide +kernel

theorem witness_SlotBoundaryOffersTheOwedSettle (i : Incident) (hi : i = takenInc ∨ i = closingInc) : ∀ f ∈ lines,
    ((f (one i)).zone.slotAt = some 1040000 ∧ (f (one i)).zone.slot < 32 ∧ (f (one i)).zone.slot ≠ 31 ∧ (f (one i)).zone.slot ≠ 15 ∧
      (f (one i)).zone.handover = none ∧ (f (one i)).zone.zoneOwed = false ∧ (f (one i)).engine.table.length = 16 ∧
      (f (one i)).incident? 0 = some i ∧ (∀ j ∈ (f (one i)).incidents, j.callOwed = false) ∧ (∀ m ∈ (f (one i)).engine.pend, m = none) ∧
      (i.state = .taken ∧ i.settleOwed = some .taken ∨ i.state = .closing ∧ i.settleOwed = some .closed)) ∧
      (∀ e' j, e' ≠ 0 → (f (one i)).incident? e' = some j → j.settleOwed = none) := by
  refine on_lines ⟨?_, ?_, ?_, ?_⟩ <;>
    exact ⟨by rcases hi with rfl | rfl <;> decide +kernel, fun e' j he h => absurd (one_entry (i := i) h).1 he⟩

/-- A full table, entry 0 closing, with marks of its own source and of a source of a greater class number. -/
theorem witness_slot_boundary_opens_the_best_mark :
    let s : State := { filled 16 with engine := { (filled 16).engine with
      table := (filled 16).engine.table.set 0 (some { closingInc with serial := 0, input := 0 })
      pend := (List.replicate 48 none).set 0 (some false) |>.set 46 (some true) } }
    s.incident? 0 = some { closingInc with serial := 0, input := 0 } ∧ s.engine.table.length = 16 ∧ s.engine.pend.length = 48 ∧
      (∀ e' < 16, s.incident? e' ≠ none) ∧ s.mark 0 .alarm = some false ∧ s.mark 15 .wiring = some true ∧
      (∀ e' < 16, e' ≠ 0 → ∀ j ∈ s.incident? e', j.input ≠ 0 ∧ j.kind = .alarm) ∧ s.sourceClass 0 .alarm < s.sourceClass 15 .wiring ∧
      (∀ j ∈ s.incidents, j.callOwed = false) ∧ s.zone.zoneOwed = false ∧ s.line.hold = false ∧ s.line.queue.length < 8 := by
  decide +kernel

/-- An owed CALL, and an owed ZONE in LINE HOLD, with room and at a full queue. -/
theorem witness_slot_boundary_offers_calls_and_zones :
    let c : Incident := { inc with callOwed := true }
    let z : State := { base with zone := { base.zone with zoneOwed := true } }
    ((one c).incident? 0 = some c ∧ c.callOwed = true ∧ (∀ j ∈ (one c).incidents, j.settleOwed = none) ∧ (one c).zone.zoneOwed = false) ∧
      z.zone.zoneOwed = true ∧ (∀ i ∈ z.incidents, i.settleOwed = none ∧ i.callOwed = false) ∧ (withHold z).line.hold = true ∧
      (withQueue (List.replicate 7 duty1) z).line.queue.length < 8 ∧ 8 ≤ (withQueue (List.replicate 8 zone0) z).line.queue.length ∧
      (withQueue (List.replicate 8 zone0) z).line.evictable = none := by decide +kernel

theorem witness_CycleEndTreatsEveryPage :
    let s := withPage { page 1 2 3 2 .page 0 with state := .spent, spentLeft := 1 }
        (withPage (page 1 2 4 2 .page 8) (inZone false 31 0 0 base))
    s.zone.slotAt = some 1040000 ∧ s.zone.slot = 31 ∧ s.zone.handover = none ∧
      (∀ i ∈ s.incidents, i.settleOwed = none ∧ i.callOwed = false) ∧ s.zone.zoneOwed = false ∧ (s.relay.pages.map (·.key)).Nodup := by
  decide +kernel

/-- Pager 62 has home slot 1, pager 61 home slot 31: both ends of the page slots; slot 2 has no candidate. -/
theorem witness_FilledHalfHoldsTheBestCandidates :
    let s := withPage (page 1 2 61 2 .page 1) (withPage (page 1 2 62 2 .page 1) base)
    (s.relay.pages.map (·.key)).Nodup ∧ s.zone.plan.length = 32 ∧ 1 ∈ pageSlots .a ∧ 31 ∈ pageSlots .b ∧
      (∀ e ∈ s.relay.pages, ¬ (1 + e.key.pager % 31 = 2)) ∧ s.relay.pages[0]? = some (page 1 2 62 2 .page 1) ∧
      1 + 62 % 31 = 1 ∧ 1 + 61 % 31 = 31 ∧ s.zone.dark = false := by decide +kernel

theorem witness_OutTakenHandsTheFrameByteByByte :
    base.zone.handover = none ∧ (withHandover 10 base).zone.handover = some ⟨List.replicate 12 0, 10⟩ ∧
      (10 + 1 < (List.replicate 12 (0 : Byte)).length) ∧ ((List.replicate 12 (0 : Byte)).length ≤ 11 + 1) ∧
      (withHandover 11 (inZone true 0 0 0 base)).zone.beaconCount = 0 ∧
      ({ withHandover 11 base with zone := { (withHandover 11 base).zone with
          plan := base.zone.plan.set 3 (some (buildFrame ⟨5, 2⟩ (page 1 2 2 2 .page 1))) } } : State).zone.plan[3]? =
        some (some (buildFrame ⟨5, 2⟩ (page 1 2 2 2 .page 1))) := by decide +kernel

theorem witness_SecondOnTimeBeaconReturnsTheZoneToLive :
    let s := withHandover 11 (inZone true 0 0 1 base)
    s.zone.handover = some ⟨List.replicate 12 0, 11⟩ ∧ s.zone.dark = true ∧ s.zone.slot = 0 ∧ s.zone.beaconCount ≠ 0 ∧ s.line.hold = false ∧
      (withQueue (List.replicate 7 duty1) s).line.queue.length < 8 ∧ 8 ≤ (withQueue (List.replicate 8 zone0) s).line.queue.length ∧
      (withQueue (List.replicate 8 zone0) s).line.evictable = none := by decide +kernel

theorem witness_MissedDeadlineMakesTheSlotLate :
    base.zone.handover = none ∧ (withHandover 1 base).zone.handover.map (·.taken) = some 1 ∧
      (withHandover 0 (inZone true 3 0 0 base)).zone.dark = true ∧ (withHandover 0 (inZone false 3 1 0 base)).zone.lateCount < 2 := by
  decide

theorem witness_ThirdLateSlotDarkensTheZone :
    let s := withHandover 0 (inZone false 3 2 0 base)
    s.zone.handover = some ⟨List.replicate 12 0, 0⟩ ∧ s.zone.dark = false ∧ s.zone.lateCount = 2 ∧ s.zone.plan.length = 32 ∧
      s.zone.onAir = some .a ∧ s.line.hold = false ∧ s.line.queue.length < 8 ∧
          (withQueue (List.replicate 8 zone0) s).line.evictable = none := by
  decide +kernel

theorem witness_StrobesAndTimersDriveThePort :
    State.reset.configured = false ∧ base.configured = true ∧ base.outFullPin = false ∧ base.inFullPin = false ∧
      base.zone.assembler = .idle ∧ (withHandover 0 base).outFullPin = true ∧
      (after (.inStrobe 1) base).zone.assembler = .assembling [1] ∧ (after (.inStrobe 1) base).inFullPin = true ∧
      (after (.inStrobe 1) base).zone.gapAt = some 1005000 ∧ (after (.inStrobe 1) base).zone.inFullUntil = some 1000050 := by
  decide +kernel

/-- The station with three bytes of a word held. -/
def threeBytes (x y z : Byte) : State := { base with zone := { base.zone with assembler := .assembling [x, y, z], gapAt := some 1005000 } }

/-- The bad check, the kinds at both ends, pager 63, owners 5, 31 and 32. -/
theorem witness_ReturnWordIsHeardThenRouted :
    ((threeBytes 128 0 0).configured = true ∧ (threeBytes 128 0 0).outFullPin = false ∧ (threeBytes 128 0 0).inFullPin = false) ∧
      128 ≤ (128 : Byte).toNat ∧ 6 ≤ (0x60 : Byte).toNat / 16 ∧ 64 ≤ (64 : Byte).toNat % 128 ∧
      ((63 : Byte).toNat < 64 ∧ (0x0F : Byte).toNat / 16 = 0) ∧ (0x40 : Byte).toNat / 16 = 4 ∧ (0x5F : Byte).toNat / 16 = 5 ∧
      (0x1F : Byte).toNat / 16 = answerKindCode .accept ∧ (0x30 : Byte).toNat / 16 = answerKindCode .done := by decide

/-- The owed duty list full, with an entry of the pager and without one. -/
theorem witness_signs_join_the_owed_list :
    let list : List DutyEntry := (List.range 8).map fun n => ⟨n, true⟩
    list.length = 8 ∧ list.any (·.pager == 7) = true ∧ list.any (·.pager == 63) = false ∧ (withHold base).line.hold = true ∧
      (withQueue (List.replicate 7 duty1) base).line.queue.length < 8 ∧
          ¬ (withQueue (List.replicate 8 duty1) base).line.queue.length < 8 := by
  decide +kernel

/-- No settle note; a note TAKEN with responder 1; a note WITHDRAWN. -/
theorem witness_AnswerForAnotherOwnerIsRelayedOrAnswered :
    let plain := withPage (page 6 9 1 2 .page 3) base
    let noted (n : SettleNote) := withPage { page 6 9 1 2 .standdown 1 with note := some n } base
    (plain.relay.pages.map (·.key)).Nodup ∧ settleNoteOf 6 9 plain.relay.pages = none ∧
      (relayed.relay.answers.any (·.key == ⟨6, 52, 17, .decline⟩)) = true ∧ settleNoteOf 6 52 relayed.relay.pages = none ∧
      settleNoteOf 6 9 (noted (.taken 1)).relay.pages = some (.taken 1) ∧
          settleNoteOf 6 9 (noted .withdrawn).relay.pages = some .withdrawn ∧
      (plain.relay.find ⟨6, 9, 1⟩).map (·.kind) = some .page ∧ plain.relay.find ⟨6, 9, 2⟩ = none ∧ plain.line.hold = false ∧
      plain.line.queue.length < 8 ∧ ((noted .withdrawn).relay.find ⟨6, 9, 1⟩).isSome = true := by decide +kernel

/-- The DONE of the responder, relayed already and not; a late ACCEPT of a pager with no entry. -/
theorem witness_settled_answers :
    let noted (n : SettleNote) := withPage { page 6 9 1 2 .standdown 1 with note := some n } base
    let told := { noted (.taken 1) with relay := { (noted (.taken 1)).relay with answers := [⟨⟨6, 9, 1, .done⟩, 3, 2000000⟩] } }
    settleNoteOf 6 9 told.relay.pages = some (.taken 1) ∧ told.relay.answers.any (·.key == ⟨6, 9, 1, .done⟩) = true ∧
      (noted (.taken 1)).relay.answers.any (·.key == ⟨6, 9, 1, .done⟩) = false ∧ (SettleNote.taken 1) ≠ .taken 2 ∧
      (noted (.taken 1)).relay.find ⟨6, 9, 2⟩ = none ∧ (noted (.taken 1)).relay.pages.length < 24 ∧
      (noted (.taken 1)).relay.pages = [] ++ { page 6 9 1 2 .standdown 1 with note := some (.taken 1) } :: [] := by decide +kernel

/-! ### Presence -/

theorem witness_AgingLowersEveryScoreAndClaim :
    let s := { base with presence := { base.presence with
      roster := base.presence.roster.set 0 { pagerOn 24 with claim := 2, claimant := some 9, announced := 24 } } }
    s.presence.agingAt = some 4000000 ∧ (∀ r ∈ s.presence.roster, r.claimant.isSome = true → 2 ≤ r.claim) := by decide +kernel

/-- The claimant of pager 0 alone is lost, by its last point; its incident calls, or is UNANSWERED. -/
theorem witness_aging_loses_one_claimant (i : Incident) (hi : i = inc ∨ i = { inc with state := .unanswered, level := 1 }) :
    let s := claimed 1 (some 31) (one i)
    (0 < s.presence.roster.length ∧ (s.pager 0).claimant.isSome = true ∧ (s.pager 0).claim < 2 ∧
      (∀ p' < s.presence.roster.length, p' ≠ 0 → (s.pager p').claimant.isSome = true → 2 ≤ (s.pager p').claim) ∧
      s.engine.table.length = 16) ∧ OnlyCaller s 0 0 i := by
  rcases hi with rfl | rfl
  · exact ⟨by decide +kernel, one_only _ (by decide) (by decide) _ rfl⟩
  · exact ⟨by decide +kernel, one_only _ (by decide) (by decide) _ rfl⟩

theorem witness_ClaimTimerOffersDutyThenClaim :
    let owing := { base with presence := { base.presence with owedDuty := [⟨1, true⟩] } }
    base.presence.claimAt = some 5000000 ∧ base.presence.owedDuty = [] ∧ base.zone.dark = false ∧ base.line.hold = false ∧
      (withQueue (List.replicate 7 duty1) base).line.queue.length < 8 ∧ 8 ≤ (withQueue (List.replicate 8 duty1) base).line.queue.length ∧
      base.presence.roster.length = 64 ∧ 24 ≤ (base.pager 0).score ∧ owing.presence.owedDuty ≠ [] ∧ (withHold owing).line.hold = true ∧
      (withQueue (List.replicate 8 duty1) owing).line.queue.length = 8 ∧ (inZone true 3 0 0 base).zone.dark = true := by decide +kernel

/-! ### Field inputs -/

/-- LOCKOUT asserted and every contact read normal: no change is accepted. -/
theorem witness_ScanDebouncesEveryInput :
    base.scanner.scanAt = some 1000000 ∧ base.scanner.inputs.length = 16 ∧
      (∀ n : Fin 16, readBand (base.input n).mode 1 = some (base.input n).condition) ∧ base.scanner.lockout = false := by decide +kernel

def onInput (n : Nat) (f : InputRecord → InputRecord) (s : State) : State := { s with
  scanner := { s.scanner with inputs := s.scanner.inputs.modify n f } }

def bandsOf (n : Nat) : Vector Band 16 := Vector.ofFn fun k => if k.val = n then 2 else 1

/-- One input changes, at its third scan, below and at the CHATTER threshold; the first and the last input. -/
theorem witness_one_input_changes :
    ∀ n ∈ [0, 15], ∀ count ∈ [0, 10],
      let s := onInput n (fun r => { r with candidate := some .active, run := 2, chatterCount := count })
        { base with scanner := { base.scanner with threshold := 11 } }
      let t := after (.scan true (bandsOf n)) s
      (t.input n).condition ≠ (s.input n).condition ∧ (∀ n' < 16, n' ≠ n → (t.input n').condition = (s.input n').condition) ∧
        ((t.input n).inChatter = decide (count = 10)) ∧ s.scanner.scanAt = some 1000000 := by decide +kernel

/-- LOCKOUT released at its third scan: nothing stands held back, one source does, its incident open, closing or none. -/
theorem witness_lockout_is_released :
    let unlocked (s : State) : State := { s with scanner := { s.scanner with lockout := true, lockCandidate := some false, lockRun := 2 } }
    let active (s : State) := onInput 3 (fun r => { r with condition := .active, lockable := true }) s
    let bands : Vector Band 16 := bandsOf 3
    (∀ s ∈ [unlocked base, unlocked (active base), unlocked (active (one inc)), unlocked (active (one closingInc))],
      s.scanner.lockout = true ∧ s.scanner.debounce ≤ s.scanner.lockRun + 1 ∧ (after (.scan false bands) s).scanner.lockout = false) ∧
      (∀ n < 16, ((after (.scan false bands) (unlocked (active base))).input n).condition = ((unlocked (active base)).input n).condition) ∧
      (∀ n < 16, ((active base).input n).lockable = true → n = 3) ∧ ((active base).input 3).mode ≠ .unused ∧
      ((active base).input 3).inChatter = false ∧ inc.input = 3 ∧ inc.kind = .alarm := by decide +kernel

theorem witness_WindowEndLetsQuietInputsLeaveChatter :
    base.scanner.windowAt = some 60000000 ∧ base.scanner.inputs.length = 16 ∧
      (∀ r ∈ base.scanner.inputs, (r.mode != .unused && r.inChatter && r.chatterCount == 0) = false) := by decide +kernel

/-- One input leaves CHATTER, the first or the last; another stays in it. -/
theorem witness_one_input_leaves_chatter :
    ∀ n ∈ [0, 15],
      let s := onInput 7 (fun r => { r with inChatter := true, chatterCount := 1 }) (onInput n (fun r => { r with inChatter := true }) base)
      let leaves (r : InputRecord) : Bool := r.mode != .unused && r.inChatter && r.chatterCount == 0
      s.scanner.windowAt = some 60000000 ∧ s.scanner.inputs.length = 16 ∧ leaves (s.input n) = true ∧
        (∀ n' < 16, n' ≠ n → leaves (s.input n') = false) := by decide +kernel

theorem witness_ReportsOfAChangeAreTested :
    (Condition.normal ≠ .short ∧ Condition.active ≠ .opened) ∧ (∀ n : Fin 16, (base.input n).inChatter = false) := by decide +kernel

/-! ### Incidents -/

/-- The source open in two states, in CLOSING with and without its mark; the table full, and full but for its last entry. -/
theorem witness_RaiseOpensRetripsOrPends :
    let marked (s : State) : State := { s with engine := { s.engine with pend := s.engine.pend.set 9 (some true) } }
    ((one inc).engine.table.length = 16 ∧ (one inc).engine.pend.length = 48) ∧
      ((one inc).incident? 0 = some inc ∧ inc.input = 3 ∧ inc.kind = .alarm ∧ inc.state ≠ .closing) ∧
      (closingInc.state = .closing ∧ (one closingInc).mark 3 .alarm = none ∧ (marked (one closingInc)).mark 3 .alarm = some true) ∧
      (∀ i ∈ (filled 16).incidents, i.input = 15 → i.kind ≠ .wiring) ∧ (∀ e < 16, (filled 16).incident? e ≠ none) ∧
      (filled 16).mark 15 .wiring = none ∧ (filled 15).incident? 15 = none ∧ (∀ e' < 15, (filled 15).incident? e' ≠ none) ∧
      (marked (filled 0)).mark 3 .alarm = some true := by decide +kernel

/-- Level 0 finds a pager, and with a plan of another rank none. -/
theorem witness_raise_enters_level_zero :
    let fresh : Incident := { inc with calls := [], pageSeq := none, window := none }
    0 < (base.levels 2).length ∧ base.presence.roster.length = 64 ∧ base.newlyCalled fresh (base.levelPlan 2 0) ≠ [] ∧
      base.newlyCalled fresh ⟨.supervisor, .plant, 10, 1, false⟩ = [] := by decide +kernel

theorem witness_the_source_stands_once :
    ∀ e' j, (one inc).incident? e' = some j → j.input = 3 → j.kind = .alarm → e' = 0 := fun _ _ h _ _ => (one_entry h).1

theorem witness_RestoreMarksOrCloses :
    let marked (s : State) : State := { s with engine := { s.engine with pend := s.engine.pend.set 9 (some false) } }
    ((one inc).incident? 0 = some inc ∧ inc.state = .calling) ∧ takenInc.state = .taken ∧
      (∀ i ∈ (one closingInc).incidents, i.input = 3 → i.kind = .alarm → i.state = .closing) ∧ (one closingInc).mark 3 .alarm = none ∧
      (marked base).mark 3 .alarm = some false ∧ (∀ i ∈ (marked base).incidents, i.state = .closing) := by decide +kernel

/-- The window is due at the level below the last, with a class 3 incident and a full queue too. -/
theorem witness_WindowExpiryEntersTheNextLevel :
    let s := one inc
    let q := withQueue (List.replicate 8 duty1) (one { inc with cls := 3 })
    (s.incident? 0 = some inc ∧ inc.window = some 1500000 ∧ inc.state = .calling ∧ inc.level + 1 < (s.levels inc.cls).length ∧
      s.presence.roster.length = 64 ∧ (inc.calls.any fun c => !c.declined) = true) ∧
      q.line.hold = false ∧ 8 ≤ q.line.queue.length ∧ (withHold s).line.hold = true := by decide +kernel

/-- The next level finds no pager to call. -/
theorem witness_window_expiry_meets_an_empty_level :
    let i : Incident := { inc with calls := [⟨0, true⟩, ⟨1, true⟩, ⟨2, true⟩] }
    (one i).incident? 0 = some i ∧ i.level + 1 < ((one i).levels i.cls).length ∧
      ((i.calls ++ (one i).newlyCalled i ((one i).levelPlan i.cls 1)).any fun c => !c.declined) = false := by decide +kernel

/-- A call list that stays empty, and one that does not. -/
theorem witness_unanswered_calls_no_pager :
    let i : Incident := { inc with level := 1, calls := [] }
    let none' : State := { one i with presence := { base.presence with roster := List.replicate 64 pagerStart } }
    (none'.incident? 0 = some i ∧ ((none'.levels i.cls).foldl (runSelection none'.presence.roster) i).calls = []) ∧
      (((one i).levels i.cls).foldl (runSelection (one i).presence.roster) i).calls ≠ [] := by decide +kernel

theorem witness_WindowExpiryAtTheLastLevelLeavesUnanswered :
    let last : Incident := { inc with level := 1 }
    let un : Incident := { last with state := .unanswered }
    ((one last).incident? 0 = some last ∧ last.window = some 1500000 ∧ last.state = .calling ∧
      last.level + 1 = ((one last).levels last.cls).length) ∧ (un.state = .unanswered ∧ un.window = some 1500000) := by decide +kernel

theorem witness_RefreshLimitEndIssuesTheDueRefresh :
    let due : Incident := { inc with refreshDue := true, lastRefresh := some 1000000 }
    ((one due).incident? 0 = some due ∧ due.lastRefresh = some 1000000 ∧ due.state = .calling ∧ due.refreshDue = true) ∧
      (one inc).incident? 0 = some inc ∧ inc.lastRefresh = none ∧ takenInc.state = .taken ∧ closingInc.state = .closing ∧
      ({ due with state := .unanswered } : Incident).refreshDue = true := by decide +kernel

theorem witness_CallCarriesTheCalledPagers :
    ((one inc).buildCall inc).pagers = [⟨0, false⟩, ⟨1, false⟩] ∧ ((one inc).buildCall { inc with level := 1 }).pagers =
        [⟨0, true⟩, ⟨1, true⟩] := by
  decide +kernel

/-! ### Answers and the line -/

theorem witness_RepeatTimerOffersTheAnswerAgain :
    let a (n : Nat) : AnswerEntry := ⟨⟨6, 52, n, .accept⟩, n, 2000000⟩
    let s : State := { base with relay := { base.relay with answers := [a 1, a 2, a 3] } }
    (∀ x ∈ s.relay.answers, x.key ≠ ⟨6, 52, 4, .accept⟩) ∧ s.relay.answers = [a 1] ++ a 2 :: [a 3] ∧
      s.relay.answers = [] ++ a 1 :: [a 2, a 3] ∧ (s.relay.answers.map (·.key)).Nodup ∧ s.line.hold = false ∧
      (withQueue (List.replicate 7 duty1) s).line.queue.length < 8 ∧ (withQueue (List.replicate 8 zone0) s).line.evictable = none := by
  decide +kernel

theorem witness_OfferIsAnsweredByTheQueue :
    QueueSound (withHold base) ∧ QueueSound (withQueue (List.replicate 7 duty1) base) ∧
      QueueSound (withQueue (zone0 :: List.replicate 7 duty1) base) ∧ QueueSound (withQueue (List.replicate 8 zone0) base) ∧
      QueueSound (sendingOf 9 (duty1 :: List.replicate 7 zone0)) ∧ (zone0 :: List.replicate 7 duty1) = (zone0 :: List.replicate 6 duty1)
          ++ [duty1] ∧
      (∀ b ∈ (List.replicate 8 zone0), b.cls = .class0) := by decide +kernel

/-- Each thing that holds a burst back; and a head that begins, with no reception and with one of no byte. -/
theorem witness_BeginBurstCompletesTheHeader :
    let reading (r : Reader) : State := { base with line := { base.line with reader := r } }
    (State.reset.configured = false ∧ (withHold base).line.hold = true ∧ (sendingOf 9 [zone0]).line.sending.isSome = true ∧
        base.line.queue = []) ∧
      (reading { base.line.reader with run := 1, frame := some [] }).line.reader.run ≠ 0 ∧
      (reading { base.line.reader with frame := some [] }).line.reader.frame ≠ none ∧
      (reading { base.line.reader with reception := some [1] }).line.reader.reception = some [1] ∧
      (base.configured = true ∧ base.line.hold = false ∧ base.line.sending = none ∧ base.line.reader.run = 0 ∧
          base.line.reader.frame = none ∧
        base.line.reader.reception = none ∧ (reading { base.line.reader with reception := some [] }).line.reader.reception = some [] ∧
        (withQueue [duty1] base).line.queue = duty1 :: []) := by decide +kernel

/-- The first and the last bit time of an attempt of 9 bytes; 14 and 15 failed attempts before it; both classes behind it. -/
theorem witness_CollisionReleasesAndCounts :
    (sendingOf 9 [duty1]).line.sending = some ⟨List.replicate 9 0, 990000⟩ ∧ (sendingOf 9 [duty1]).line.queue = duty1 :: [] ∧
      0 < 25 + 10 * (List.replicate 9 (0 : Byte)).length ∧ 114 < 25 + 10 * (List.replicate 9 (0 : Byte)).length ∧
      ({ duty1 with attempts := 14 } : Queued).attempts + 1 < 16 ∧ 16 ≤ ({ duty1 with attempts := 15 } : Queued).attempts + 1 ∧
      zone0.cls = .class0 ∧ duty1.cls = .class1 ∧ [zone0, duty1] = [zone0] ++ [duty1] := by decide +kernel

/-- An attempt of 9 bytes: the start bit, a data bit, the last data bit and the stop bit position of its first and last byte. -/
theorem witness_collision_leaves_a_reader :
    let bytes : List Byte := List.replicate 9 9
    (∀ b ∈ bytes[5]?, 9 ≤ b.toNat ∧ b.toNat ≤ 84) ∧ 114 < 25 + 10 * bytes.length ∧ 25 = 25 + 10 * 0 ∧ 33 = 25 + 10 * 0 + 8 ∧
      34 = 34 + 10 * 0 ∧ 105 = 25 + 10 * 8 ∧ 106 = 25 + 10 * 8 + 1 ∧ 114 = 34 + 10 * 8 := by decide +kernel

theorem witness_BurstSentWholeLeavesTheQueue :
    (sendingOf 9 [zone0, duty1]).line.sending.isSome = true ∧ (∃ rest, (sendingOf 9 [zone0, duty1]).line.queue = zone0 :: rest) ∧
      drainQueried.office.drain = some ⟨30, 404, 406⟩ ∧ drainQueried.line.queue.length = 1 ∧ (drainSent drainRolled).line.hold = false :=
  ⟨rfl, ⟨_, rfl⟩, by decide +kernel, by decide +kernel, by decide +kernel⟩

/-- A mark that begins a reception and one that aborts a reception of one byte; a byte after 5 at both ends of the length; runs of 24, of
23 and of 1. -/
theorem witness_DrivenRunsAreMarksOrNoise :
    let mark : List Bool := List.replicate 24 true ++ [false]
    let one' : State := { base with line := { base.line with reader := { base.line.reader with reception := some [1] } } }
    (base.configured = true ∧ base.line.sending = none ∧ (base.assembler mark).2 = [] ∧ (one'.assembler mark).2 = [.aborted]) ∧
      (base.line.reader.run = 0 ∧ base.line.reader.frame = none ∧ base.line.reader.reception = none) ∧
      (([1, 2, 3, 4, 5] : List Byte).length = 5 ∧ 9 ≤ (9 : Byte).toNat ∧ (84 : Byte).toNat ≤ 84) ∧
      (([1, 2, 3] : List Byte).length + 24 / 10 < 6 ∧ ([1, 2, 3, 4] : List Byte).length < 6 ∧
        6 ≤ ([1, 2, 3, 4] : List Byte).length + 24 / 10 ∧
        6 ≤ ([1, 2, 3, 4, 5, 9] : List Byte).length) ∧
      (10 * ((1 + 9) / 10) ≤ 1 + 9 ∧ 10 * ((23 + 9) / 10) ≤ 23 + 7) := by decide +kernel

/-- A sixth byte of 8 and of 85; a truncated burst; a gap; a burst of one byte and one of 9. -/
theorem witness_FailedReceptionIsOneCheckFault :
    let got : State := { base with line := { base.line with reader := { base.line.reader with reception := some [1, 2, 3, 4, 5] } } }
    (base.configured = true ∧ base.line.sending = none ∧ (got.assembler (byteWave 8)).2 = [.badLength] ∧
        (got.assembler (byteWave 85)).2 = [.badLength] ∧ (base.assembler (burstWave [1, 2, 3, 4, 5] ++ List.replicate 5 false)).2 =
          [.ended [1, 2, 3, 4, 5]]) ∧
      judge [1, 2, 3, 4, 5] = .failed .truncated ∧ judge [1, 2, 3, 4, 5, 9] = .failed .truncated ∧
      (got.line.reader.run = 0 ∧ got.line.reader.frame = none ∧ got.line.reader.quietFrom = got.line.reader.readTo ∧
        base.line.reader.reception = none) ∧
      (∀ b ∈ ([1] : List Byte)[5]?, 9 ≤ b.toNat ∧ b.toNat ≤ 84) ∧ (∀ b ∈ (List.replicate 9 (9 : Byte))[5]?, 9 ≤ b.toNat ∧
          b.toNat ≤ 84) := by
  decide +kernel

/-- A valid reception, and a QUERY with other codings in the fields it does not read. -/
theorem witness_ReceptionIsJudgedByFiveTests :
    judge (encodeBurst (burstFrom 9 false none (.zone true))) = .valid (burstFrom 9 false none (.zone true)) ∧
      judge (withCheck (encodeHeader (burstFrom 30 false none (.query (.cancel 255))) ++ queryBytes 77 0 (.cancel 255))) =
        .valid (burstFrom 30 false none (.query (.cancel 255))) := by decide +kernel

/-- Station 5's own number heard, out of LINE HOLD and in it. -/
theorem witness_OwnNumberHeardEntersLineHold :
    let b := burstFrom 5 false none (.zone false)
    Hears base (waveOf b) b ∧ Hears (withHold base) (waveOf b) b ∧ b.sender = base.ident.station ∧
      base.line.hold = false ∧ (withHold base).line.hold = true :=
  ⟨base_hears (by decide +kernel), hears_of _ rfl rfl rfl rfl (by decide +kernel), rfl, rfl, rfl⟩

/-- Claims at both ends of the ranges, LIVE and DARK. -/
theorem witness_ClaimEntriesMeetTheStoredClaims :
    (∀ dark, Hears base (waveOf (burstFrom 9 dark (some 31) (.claim [⟨0, 240⟩, ⟨63, 0⟩])))
        (burstFrom 9 dark (some 31) (.claim [⟨0, 240⟩, ⟨63, 0⟩]))) ∧ 9 ≠ base.ident.station ∧
      (∀ i ∈ base.incidents, i.state ≠ .calling ∧ i.state ≠ .unanswered) :=
  ⟨fun dark => by cases dark <;> exact base_hears (by decide +kernel), by decide, by decide +kernel⟩

/-- A CLAIM of one entry for pager 0: not reported, a claimant lost, and a claim that rises to 24; the incident has never refreshed. -/
theorem witness_one_claim_is_reported :
    (∀ v ∈ [0, 23, 24], ∀ c k, Hears (claimed c k (one inc)) (waveOf (burstFrom 9 false none (.claim [⟨0, v⟩])))
        (burstFrom 9 false none (.claim [⟨0, v⟩]))) ∧
      (0 < (one inc).presence.roster.length ∧ (one inc).engine.table.length = 16) ∧
      (((claimed 0 none (one inc)).pager 0).claim = 0 ∧ ((claimed 5 (some 9) (one inc)).pager 0).claimant = some 9 ∧
        ((claimed 23 (some 9) (one inc)).pager 0).claim < 24) ∧ (∀ c k, OnlyCaller (claimed c k (one inc)) 0 0 inc) := by
  refine ⟨fun v hv c k => ?_, by decide +kernel, by decide +kernel, fun c k => one_only _ (by decide) (by decide) _ rfl⟩
  simp only [List.mem_cons, List.not_mem_nil, or_false] at hv
  rcases hv with rfl | rfl | rfl <;> exact hears_of _ rfl rfl rfl rfl (by decide +kernel)

def callBody : CallBody :=
  { serial := 255, seq := 10, cls := 2, level := 1, repeats := 8, unanswered := false, kind := .alarm, group := 7, msg := 9, input := 15,
    pagers := [⟨0, false⟩, ⟨63, true⟩, ⟨2, false⟩] }

/-- A body of every kind whose reception goes past the header, at the ends of its ranges. -/
def bodies : List Body :=
  [.call callBody, .settle ⟨255, .taken, some 63⟩, .duty [⟨0, true⟩, ⟨63, false⟩], .answer ⟨5, 7, 1, .done⟩, .query (.history 32),
   .query .incidents, .query .release, .query (.cancel 7), .claim [⟨0, 240⟩]]

/-- A DARK header of every kind, with the claim of its sender stored for a pager that is called. -/
theorem witness_dark_headers_of_every_kind :
    let s := claimed 240 (some 9) (one inc)
    (∀ body ∈ bodies, Hears s (waveOf (burstFrom 9 true (some 5) body)) (burstFrom 9 true (some 5) body)) ∧
      (∀ line, Instr.receiveCall line ∈ receptionCommands line ∧ Instr.queryCancel line ∈ receptionCommands line) ∧
      ((s.pager 0).claimant = some 9 ∧ (∀ p' < s.presence.roster.length, p' ≠ 0 → (s.pager p').claimant ≠ some 9)) ∧
      OnlyCaller s 0 0 inc := by
  have h : ∀ body ∈ bodies, readsWhole (burstFrom 9 true (some 5) body) := by decide +kernel
  exact ⟨fun body hb => hears_of _ rfl rfl rfl rfl (h body hb), fun line => by simp [receptionCommands], by decide +kernel,
    one_only _ (by decide) (by decide) _ rfl⟩

/-- A header that clears no claim: DARK, with no claim of its sender stored, and LIVE, with one. -/
theorem witness_headers_that_clear_no_claim :
    (∀ body ∈ bodies, Hears base (waveOf (burstFrom 9 true (some 5) body)) (burstFrom 9 true (some 5) body)) ∧
      (∀ body, ClearsNone base (burstFrom 9 true (some 5) body)) ∧
      ∀ body, ClearsNone (claimed 5 (some 9) base) (burstFrom 9 false (some 5) body) := by
  have h : ∀ body ∈ bodies, readsWhole (burstFrom 9 true (some 5) body) := by decide +kernel
  have none' : ∀ r ∈ base.presence.roster, r.claimant ≠ some 9 := by decide +kernel
  exact ⟨fun body hb => base_hears (h body hb), fun _ => .inr none', fun _ => .inl rfl⟩

theorem witness_DarkStatusClearsTheSendersClaims :
    (∀ dark body, Hears base (waveOf (burstFrom 9 dark none (.zone body))) (burstFrom 9 dark none (.zone body))) ∧
      (let b := burstFrom 9 true (some 3) (.log [⟨.lost, 4294967295, none, none, some 255⟩]); Hears base (waveOf b) b) ∧
      (let b := burstFrom 9 true (some 3) (.state [] ⟨65535, 0, 0, 0, 0, 0⟩); Hears base (waveOf b) b) ∧
      9 ≠ base.ident.station :=
  ⟨fun dark body => by cases dark <;> cases body <;> exact base_hears (by decide +kernel), base_hears (by decide +kernel),
    base_hears (by decide +kernel), by decide⟩

/-- Station 9 is the claimant of pager 0 alone. -/
theorem witness_dark_status_loses_one_claimant :
    let s := claimed 240 (some 9) (one inc)
    (let b := burstFrom 9 true (some 3) (.log [⟨.restart, 0, none, none, none⟩]); Hears s (waveOf b) b) ∧
      (0 < s.presence.roster.length ∧ (s.pager 0).claimant = some 9 ∧
        (∀ p' < s.presence.roster.length, p' ≠ 0 → (s.pager p').claimant ≠ some 9) ∧ s.engine.table.length = 16) ∧ OnlyCaller s 0 0 inc :=
  ⟨hears_of _ rfl rfl rfl rfl (by decide +kernel), by decide +kernel, one_only _ (by decide) (by decide) _ rfl⟩

/-- The page list has room to the last place; the entry of pager 63 is older by 127 calls, that of pager 2 no older. -/
def calledList : State := { base with
  relay := { base.relay with
    pages := [
      { page 9 255 63 2 .page 1 with seq := 139, level := 1, msg := 9 },
      { page 9 255 2 2 .page 1 with seq := 138, level := 1, msg := 9 },
      page 9 255 40 2 .page 1] ++ (List.range 18).map fun n => page 1 n 60 1 .page 1 } }

theorem witness_CallMakesRenewsAndRemovesPages :
    (∀ a ∈ [none, some 5, some 6], Hears calledList (waveOf (burstFrom 9 false a (.call callBody)))
      (burstFrom 9 false a (.call callBody))) ∧
      (calledList.relay.pages.length + callBody.pagers.length = 24 ∧ (calledList.relay.pages.map (·.key)).Nodup) ∧
      ((10 + 256 - 139) % 256 = 127 ∧ (10 + 256 - 138) % 256 = 128) ∧ (callBody.pagers.find? (·.pager == 63)) = some ⟨63, true⟩ ∧
      (calledList.relay.find ⟨9, 255, 40⟩).isSome = true ∧ calledList.relay.find ⟨9, 255, 0⟩ = none := by
  refine ⟨fun a ha => hears_of _ rfl rfl rfl rfl ?_, by decide +kernel, by decide, by decide +kernel, by decide +kernel, by decide +kernel⟩
  simp only [List.mem_cons, List.not_mem_nil, or_false] at ha
  rcases ha with rfl | rfl | rfl <;> decide +kernel

/-- A full list with an entry of a greater class to pass, with one SPENT, and with none of either for a CALL of class 4. -/
theorem witness_call_meets_a_full_list :
    let spent : State := { fullList with relay := { fullList.relay with
      pages := { page 1 0 60 1 .page 1 with state := .spent } :: fullList.relay.pages.drop 1 } }
    (∀ cls ∈ [2, 4], let b := burstFrom 9 false none (.call (fullCall 71 cls [⟨12, true⟩])); Hears fullList (waveOf b) b) ∧
      (fullList.relay.pages.length = 24 ∧ (fullList.relay.pages.map (·.key)).Nodup ∧ spent.relay.pages.length = 24) ∧
      (∀ e ∈ fullList.relay.pages, ¬ (e.key.owner = 9 ∧ e.key.serial = 71)) ∧
      fullList.relay.pages = fullList.relay.pages.take 23 ++ page 8 7 30 3 .page 1 :: [] ∧
      (∀ e ∈ fullList.relay.pages, e.state ≠ .spent) ∧ (∀ e ∈ fullList.relay.pages, ¬ (e.state = .waiting ∧ 4 < e.cls)) ∧
      spent.relay.pages = [] ++ { page 1 0 60 1 .page 1 with state := .spent } :: fullList.relay.pages.drop 1 := by
  refine ⟨fun cls hc => ?_, by decide +kernel, by decide +kernel, by decide +kernel, by decide +kernel, by decide +kernel, rfl⟩
  simp only [List.mem_cons, List.not_mem_nil, or_false] at hc
  rcases hc with rfl | rfl <;> exact hears_of _ rfl rfl rfl rfl (by decide +kernel)

/-- Every kind of SETTLE for an incident with entries of the responder and of another pager. -/
theorem witness_SettleTurnsPagesIntoStandDowns :
    let s := withPage (page 9 255 1 2 .page 1) (withPage { page 9 255 2 2 .page 1 with state := .onAir } base)
    (∀ k : SettleKind, Hears s (waveOf (burstFrom 9 false none (.settle ⟨255, k, some 1⟩)))
      (burstFrom 9 false none (.settle ⟨255, k, some 1⟩))) ∧
      (s.relay.pages.map (·.key)).Nodup ∧ (s.relay.find ⟨9, 255, 1⟩).isSome = true ∧ (s.relay.find ⟨9, 255, 2⟩).isSome = true :=
  ⟨fun k => by cases k <;> exact hears_of _ rfl rfl rfl rfl (by decide +kernel), by decide +kernel, by decide +kernel, by decide +kernel⟩

theorem witness_DutyEntriesSetTheRoster :
    ∀ a ∈ [none, some 5, some 6], Hears base (waveOf (burstFrom 9 false a (.duty [⟨0, true⟩, ⟨63, false⟩])))
      (burstFrom 9 false a (.duty [⟨0, true⟩, ⟨63, false⟩])) := by
  intro a ha
  simp only [List.mem_cons, List.not_mem_nil, or_false] at ha
  rcases ha with rfl | rfl | rfl <;> exact base_hears (by decide +kernel)

/-- Every kind of answer from pager 1, which the incident calls, on every line; of the call list, another pager is CALLED. -/
theorem witness_AnswerMovesTheIncident (i : Incident) : ∀ f ∈ lines,
    (∀ k : AnswerKind, Hears (f (one i)) (waveOf (burstFrom 9 false (some 5) (.answer ⟨5, 7, 1, k⟩)))
        (burstFrom 9 false (some 5) (.answer ⟨5, 7, 1, k⟩))) ∧
      ((f (one i)).incident? 0 = some i ∧ inc.serial = 7 ∧ (∀ e' j, (f (one i)).incident? e' = some j → j.serial = 7 → e' = 0)) ∧
      (inc.state = .calling ∧ (∃ c ∈ inc.calls, c.pager = 1 ∧ c.declined = false) ∧ (∃ c ∈ inc.calls, c.pager ≠ 1 ∧ c.declined = false)) ∧
      (takenInc.state = .taken ∧ takenInc.responder = some 1 ∧ takenInc.done = false ∧ takenInc.restored = false ∧
        ({ takenInc with restored := true } : Incident).restored = true) ∧ (∀ m ∈ (f (one i)).engine.pend, m = none) := by
  have h : ∀ k : AnswerKind, readsWhole (burstFrom 9 false (some 5) (.answer ⟨5, 7, 1, k⟩)) := by intro k; cases k <;> decide +kernel
  refine on_lines ⟨?_, ?_, ?_, ?_⟩ <;>
    exact ⟨fun k => hears_of _ rfl rfl rfl rfl (h k), ⟨rfl, rfl, fun _ _ h _ => (one_entry (i := i) h).1⟩, by decide, by decide,
      fun m hm => (List.mem_replicate.1 (show m ∈ List.replicate 48 none from hm)).2⟩

/-- Pager 1 is the last one CALLED, in CALLING and in UNANSWERED. -/
theorem witness_the_last_called_declines :
    ∀ st ∈ [IncidentState.calling, .unanswered],
      let i : Incident := { inc with state := st, calls := [⟨0, true⟩, ⟨1, false⟩] }
      (∃ c ∈ i.calls, c.pager = 1 ∧ c.declined = false) ∧ (∀ c ∈ i.calls, c.pager ≠ 1 → c.declined = true) ∧
          (one i).incident? 0 = some i := by
  decide +kernel

/-! ### History and office -/

/-- The log unset, with room to its last place, full, full and frozen, and owing a LOST record with 127 and 128 records. -/
theorem witness_AppendFollowsTheModeOfTheLog :
    logPowerOn.mode = none ∧ ((logOf .stop 0 127).lost = 0 ∧ (logOf .stop 0 127).records.length < 128) ∧
      (logOf .roll 0 128).records.length = 128 ∧ (logOf .rollFreeze 0 128).frozen = false ∧
      ((logOf .stop 0 128).mode ≠ some .roll ∧ (logOf .stop 0 128).mode ≠ some .rollFreeze) ∧
      (0 < ({ logOf .stop 0 126 with lost := 255 } : Log).lost ∧ (logOf .stop 0 126).records.length < 127) ∧
      (logOf .stop 0 127).records.length = 127 ∧
      -- a LOST record owed in a log that rolls, with 127 and with 128 records
      (∀ n ∈ [127, 128],
        0 < ({ logOf .roll 0 n with lost := 1 } : Log).lost ∧ ({ logOf .roll 0 n with lost := 1 } : Log).records.length = n ∧
        ({ logOf .roll 0 n with lost := 1 } : Log).mode = some .roll ∧
        0 < ({ logOf .rollFreeze 0 n with lost := 255 } : Log).lost ∧
        ({ logOf .rollFreeze 0 n with lost := 255 } : Log).records.length = n ∧
        ({ logOf .rollFreeze 0 n with lost := 255 } : Log).mode = some .rollFreeze ∧
        ({ logOf .rollFreeze 0 n with lost := 255 } : Log).frozen = false) := by decide +kernel

/-- A drain from the record of count and number 65534 on, for each query of the ends of its range. -/
def drainHeard : State := { base with log := { base.log with
  appended := 65662, records := (List.range 128).map fun i => ⟨65534 + i, ⟨.level, 0, some 1, none, some 0⟩⟩ } }

theorem witness_HistoryQueryBeginsADrain :
    (∀ n ∈ [1, 32], Hears drainHeard (waveOf (burstFrom 30 false (some 5) (.query (.history n))))
        (burstFrom 30 false (some 5) (.query (.history n)))) ∧
      (drainHeard.office.drain = none ∧ drainHeard.log.records ≠ [] ∧ drainHeard.log.records.length ≤ 128 ∧ drainHeard.line.hold = false ∧
        drainHeard.line.queue.length < 8) ∧
      (∀ i : Fin 128, (drainHeard.log.records[i.val]?).map (·.count) = some (65534 + i.val)) := by
  refine ⟨fun n hn => ?_, by decide +kernel, by decide +kernel⟩
  simp only [List.mem_cons, List.not_mem_nil, or_false] at hn
  rcases hn with rfl | rfl <;> exact hears_of _ rfl rfl rfl rfl (by decide +kernel)

theorem witness_IncidentsAndReleaseQueriesAreServed :
    (∀ a ∈ [some 5, some 6], Hears base (waveOf (burstFrom 30 false a (.query .release))) (burstFrom 30 false a (.query .release)) ∧
        Hears base (waveOf (burstFrom 30 false a (.query .incidents))) (burstFrom 30 false a (.query .incidents))) ∧
      base.line.hold = false := by
  refine ⟨fun a ha => ?_, rfl⟩
  simp only [List.mem_cons, List.not_mem_nil, or_false] at ha
  rcases ha with rfl | rfl <;> exact ⟨base_hears (by decide +kernel), base_hears (by decide +kernel)⟩

/-- A CANCEL on every line, of an incident of class 2 and of class 3. -/
theorem witness_CancelClosesTheIncident (i : Incident) : ∀ f ∈ lines,
    Hears (f (one i)) (waveOf (burstFrom 30 false (some 5) (.query (.cancel 7)))) (burstFrom 30 false (some 5) (.query (.cancel 7))) ∧
      ((f (one i)).incident? 0 = some i ∧ inc.serial = 7 ∧ (∀ e' j, (f (one i)).incident? e' = some j → j.serial = 7 → e' = 0)) ∧
      inc.state ≠ .closing ∧ closingInc.state = .closing ∧ 2 < ({ inc with cls := 3 } : Incident).cls ∧
      (∀ m ∈ (f (one i)).engine.pend, m = none) := by
  have h : readsWhole (burstFrom 30 false (some 5) (.query (.cancel 7))) := by decide +kernel
  refine on_lines ⟨?_, ?_, ?_, ?_⟩ <;>
    exact ⟨hears_of _ rfl rfl rfl rfl h, ⟨rfl, rfl, fun _ _ h _ => (one_entry (i := i) h).1⟩, by decide, by decide, by decide,
      fun m hm => (List.mem_replicate.1 (show m ∈ List.replicate 48 none from hm)).2⟩

/-! ### Clock, panel, encoding -/

theorem witness_ClockAndFlashTurn : base.panel.flashAt = some 1500000 := rfl

theorem witness_ShareShowsThePointsOfItsCommon :
    (base.configured = true ∧ 1 ≤ base.panel.commons ∧ base.panel.share + 1 < base.panel.commons) ∧
      (({ base.panel with share := 2 } : Panel).commons ≤ ({ base.panel with share := 2 } : Panel).share + 1) ∧
      State.reset.configured = false := by decide +kernel

theorem witness_PointsAndAlarmShowTheStation : base.configured = true ∧ State.reset.configured = false := ⟨rfl, rfl⟩

/-- A well-formed burst of every kind, with its fields at their ends. -/
theorem witness_SentBurstsAreReadBackWhole :
    (burstFrom 31 true (some 31) (.claim [⟨63, 240⟩])).wellFormed ∧ (burstFrom 0 true none (.call callBody)).wellFormed ∧
      (burstFrom 0 true none (.answer ⟨31, 255, 63, .done⟩)).wellFormed ∧ (burstFrom 0 true none (.settle
          ⟨255, .taken, some 63⟩)).wellFormed ∧
      (burstFrom 0 true none (.duty [⟨63, true⟩])).wellFormed ∧ (burstFrom 0 true none (.zone true)).wellFormed ∧
      (burstFrom 0 true none (.query (.history 32))).wellFormed ∧
      (burstFrom 0 true none (.log [⟨.taken, 4294967295, some 255, some 63, none⟩])).wellFormed ∧
      (burstFrom 0 true none (.state [⟨255, .closing, 3, 4, .chatter, 15, some 63⟩] ⟨65535, 65535, 0, 0, 0, 0⟩)).wellFormed := by
  simp [Burst.wellFormed, Body.wellFormed, CallBody.wellFormed, Query.wellFormed, Record.wellFormed, Summary.wellFormed,
    Counters.wellFormed, burstFrom, callBody, Tag.hasSerial, Tag.hasPager, Tag.hasDetail]

/-! ### Invariants -/

/-- A busy station: an incident that calls, a page on the air, a burst in transmission, a claim stored, a record, a command
waiting. -/
def busy : State := { one inc with
  presence := { base.presence with roster := base.presence.roster.set 1 { pagerOn 240 with claim := 240, claimant := some 31 } }
  relay := { base.relay with
    pages := [{ page 9 255 1 2 .page 8 with state := .onAir }], answers := [⟨⟨6, 52, 1, .accept⟩, 3, 2000000⟩] }
  zone := { base.zone with plan := base.zone.plan.set 2 (some (buildFrame ⟨5, 2⟩ (page 9 255 1 2 .page 8))) }
  line := { base.line with sending := some ⟨List.replicate 9 0, 990000⟩, queue := [duty1, zone0] }
  log := { base.log with records := [⟨0, ⟨.restart, 1, none, none, none⟩⟩], appended := 1 }
  pending := [.slotBoundary] }

theorem witness_EveryStepKeepsTheLogInOrder : LogSound busy ∧ ∃ t, step busy = .next t :=
  ⟨⟨by decide, by decide, by decide, by decide, by decide, 0, rfl, rfl⟩, _, rfl⟩

theorem witness_EveryStepKeepsTheQueueInOrder : (QueueSound busy ∧ CountersSound busy) ∧ ∃ t, step busy = .next t :=
  ⟨by decide +kernel, _, rfl⟩

theorem witness_EveryStepKeepsTheRosterInRange : RosterSound busy ∧ ∃ t, step busy = .next t := ⟨by decide +kernel, _, rfl⟩

theorem witness_EveryStepKeepsTheListsBounded : (PagesSound busy ∧ PlansSound busy ∧ AnswersSound busy) ∧ ∃ t, step busy = .next t :=
  ⟨by decide +kernel, _, rfl⟩

theorem witness_EveryStepKeepsFramesInHomeSlots : ZoneSound busy ∧ ∃ t, step busy = .next t := by
  refine ⟨⟨by decide, by decide, by decide, by decide, by decide, by decide, ?_⟩, _, rfl⟩
  intro slot h f hf
  have hp : ∀ k : Fin 32, ∀ g ∈ busy.zone.plan[k.val]?.join, homeSlot g.key.pager = k.val := by decide +kernel
  exact hp ⟨slot, h⟩ f (by rw [hf]; rfl)

theorem witness_EveryStepKeepsTheIncidentTableSound : (TableSound busy ∧ RestsUntilConfigured busy) ∧ ∃ t, step busy = .next t := by
  refine ⟨⟨?_, fun h => absurd (show busy.configured = true from rfl) (by rw [h]; decide)⟩, _, rfl⟩
  refine ⟨by decide +kernel, by decide +kernel, by decide +kernel, by decide +kernel, fun i hi => ?_⟩
  have : busy.incidents = [inc] := by decide +kernel
  rw [this, List.mem_singleton] at hi
  subst hi
  exact ⟨by decide +kernel, by decide, by decide, fun _ => by decide, fun h => absurd h (by decide), fun h => absurd h (by decide),
    fun h => absurd h (by decide)⟩

theorem witness_OnlyStartsUndoClockHoldAndLoad :
    LogSound (withHold base) ∧ (withHold { base with pending := [.slotBoundary] }).pending = [.slotBoundary] ∧
      (∀ b, Instr.slotBoundary ≠ .powerOn b) ∧ Instr.slotBoundary ≠ .restart ∧ (withHold base).line.hold = true ∧ base.configured = true :=
  ⟨⟨by decide, by decide, by decide, by decide, by decide, 0, rfl, rfl⟩, rfl, fun _ => by simp, by simp, rfl, rfl⟩

end Sys2Proof.Tests
end

section
/-! PROOF. What a restore comes to, by the state of the incident of its source and by its pending-raise mark (R8, R16), and what
entering CLOSING comes to with no raise pending (R18, R19). -/

namespace Sys2Proof.Machine

/-! ### Entering CLOSING -/

/-- An incident as it stands in CLOSING, owing the SETTLE of kind `k` (R18). -/
def Incident.inClosing (i : Incident) (k : SettleKind) : Incident :=
  { i with state := .closing, window := none, callOwed := false, refreshDue := false, settleOwed := some k }

theorem State.incident?_setEntry_self {s : State} {e : Nat} {i : Incident} (h : s.incident? e = some i) (j : Option Incident) :
    (s.setEntry e j).incident? e = j := by
  rw [State.setEntry_incident s e j (incident?_lt h), if_pos rfl]

/-- Entering CLOSING writes the entry, then offers the SETTLE (R18). -/
theorem State.enterClosing_eq {s : State} {e : Nat} {i : Incident} (h : s.incident? e = some i) (k : SettleKind) :
    s.enterClosing e k = (s.setEntry e (some (i.inClosing k))).offerClosing e := by
  unfold State.enterClosing
  rw [State.modifyIncident_eq h]
  rfl

/-- Entering CLOSING with no raise pending: the SETTLE accepted frees the entry with its record, refused it is owed (R18, R19). -/
theorem State.enterClosing_offered {s : State} {e : Nat} {i : Incident} (h : s.incident? e = some i) (k : SettleKind)
    (hp : ∀ m ∈ s.engine.pend, m = none) :
    SettleOffered (s.setEntry e (some (i.inClosing k))) (i.settle k) i.cls
      (fun u => (u.setEntry e none).append (settleTag k) (some i.serial) i.responder none)
      (s.setEntry e (some (i.inClosing k))) (s.enterClosing e k) := by
  rw [State.enterClosing_eq h]
  exact State.offerClosing_offered (i := i.inClosing k) (State.incident?_setEntry_self h _) rfl hp

/-! ### The pending-raise mark -/

theorem State.restoreMark_of_clear {s : State} {n : Nat} {k : SourceKind} (h : s.mark n k = none) : s.restoreMark n k = s := by
  unfold State.restoreMark
  rw [h]

theorem State.restoreMark_of_set {s : State} {n : Nat} {k : SourceKind} {m : Bool} (h : s.mark n k = some m) :
    s.restoreMark n k = s.setMark n k (if s.sourceClass n k ≤ 2 then some true else none) := by
  unfold State.restoreMark
  rw [h, apply_ite (s.setMark n k)]

/-! ### The restore, by the state of the incident -/

/-- With no incident of the source but in CLOSING, a restore goes to the pending-raise mark (R8, R16). -/
theorem State.restore_of_closing {s : State} {n : Nat} {k : SourceKind}
    (h : ∀ i ∈ s.incidents, i.input = n → i.kind = k → i.state = .closing) : s.restore n k = s.restoreMark n k := by
  unfold State.restore
  cases hf : findSource s.engine.table n k with
  | none => rfl
  | some found =>
    obtain ⟨hi, hn, hk⟩ := findSource_some hf
    simp only [h _ (incident?_mem hi) hn hk]

theorem State.restore_of_calling {s : State} {n e : Nat} {k : SourceKind} {i : Incident}
    (hf : findSource s.engine.table n k = some (e, i)) (hs : i.state = .calling ∨ i.state = .unanswered) :
    s.restore n k = if i.cls ≤ 2 then s.setEntry e (some { i with restored := true })
      else (s.setEntry e (some { i with restored := true })).enterClosing e .withdrawn := by
  unfold State.restore
  rw [hf]
  rcases hs with hs | hs <;> simp only [hs]

theorem State.restore_of_taken {s : State} {n e : Nat} {k : SourceKind} {i : Incident}
    (hf : findSource s.engine.table n k = some (e, i)) (hs : i.state = .taken) :
    s.restore n k = if i.done then (s.setEntry e (some { i with restored := true })).enterClosing e .closed
      else s.setEntry e (some { i with restored := true }) := by
  unfold State.restore
  rw [hf]
  simp only [hs]

/-- The restores that close their incident, with their closing kind: class 3 or 4 not taken, or taken and done (R16). -/
theorem State.restore_closes {s : State} {n e : Nat} {k : SourceKind} {i : Incident} {x : SettleKind}
    (hf : findSource s.engine.table n k = some (e, i))
    (hx : (x = .withdrawn ∧ (i.state = .calling ∨ i.state = .unanswered) ∧ 2 < i.cls) ∨
      (x = .closed ∧ i.state = .taken ∧ i.done = true)) :
    s.restore n k = (s.setEntry e (some { i with restored := true })).enterClosing e x := by
  rcases hx with ⟨rfl, hs, hc⟩ | ⟨rfl, hs, hd⟩
  · rw [State.restore_of_calling hf hs, if_neg (Nat.not_le.2 hc)]
  · rw [State.restore_of_taken hf hs, if_pos hd]

/-- A restore that closes its incident offers the SETTLE of an incident that stands restored in CLOSING (R16, R18, R19). -/
theorem State.restore_offered {s : State} {n e : Nat} {k : SourceKind} {i : Incident} {x : SettleKind} (hi : s.incident? e = some i)
    (hf : findSource s.engine.table n k = some (e, i))
    (hx : (x = .withdrawn ∧ (i.state = .calling ∨ i.state = .unanswered) ∧ 2 < i.cls) ∨
      (x = .closed ∧ i.state = .taken ∧ i.done = true))
    (hp : ∀ m ∈ s.engine.pend, m = none) :
    let closing := s.setEntry e (some (({ i with restored := true } : Incident).inClosing x))
    SettleOffered closing (i.settle x) i.cls
      (fun u => (u.setEntry e none).append (settleTag x) (some i.serial) i.responder none) closing (s.restore n k) := by
  have offered := State.enterClosing_offered (State.incident?_setEntry_self hi (some { i with restored := true })) x hp
  rw [State.setEntry_setEntry] at offered
  rw [State.restore_closes hf hx]
  exact offered

/-- Settles O25: the incident found decides by its state; with none but in CLOSING the pending-raise mark decides. -/
theorem restoreMarksOrCloses : Obligations.RestoreMarksOrCloses := by
  intro s n k urgent mark
  refine ⟨fun e i hi hn hk only => ?_, fun h => ?_⟩
  · have hf := findSource_only hi hn hk only
    exact ⟨State.restore_of_calling hf, State.restore_of_taken hf, fun x hx hp => State.restore_offered hi hf hx hp⟩
  · rw [State.restore_of_closing h]
    exact ⟨State.restoreMark_of_clear, fun m => State.restoreMark_of_set⟩

end Sys2Proof.Machine
end

section
/-! PROOF. The pagers a CALL carries and their flood marks (R38). -/

namespace Sys2Proof.Machine

/-- R38's three conditions of a flood mark: UNANSWERED, the flood flag of the level, both scores below the floor of 24. -/
theorem State.floodMark_iff (s : State) (i : Incident) (p : Nat) :
    s.floodMark i p = true ↔ i.state = .unanswered ∨ (s.levelPlan i.cls i.level).flood = true ∨
      ((s.pager p).score < 24 ∧ (s.pager p).claim < 24) := by
  simp only [State.floodMark, Bool.or_eq_true, Bool.and_eq_true, beq_iff_eq, decide_eq_true_eq]
  rw [or_assoc, or_left_comm, floorScore]

/-- The pagers of a CALL are those the incident marks CALLED, in list order (R38). -/
theorem State.buildCall_pagers_numbers (s : State) (i : Incident) :
    (s.buildCall i).pagers.map (·.pager) = (i.calls.filter fun x => !x.declined).map (·.pager) :=
  List.map_map

/-- A pager of a CALL bears the flood mark of its own number. -/
theorem State.flood_of_mem_buildCall {s : State} {i : Incident} {x : CallPager} (hx : x ∈ (s.buildCall i).pagers) :
    x.flood = s.floodMark i x.pager := by
  obtain ⟨c, -, rfl⟩ := List.mem_map.1 hx
  rfl

/-- Settles O29: the values are the incident's by construction; a pager's mark is the flood mark of its number. -/
theorem callCarriesTheCalledPagers : Obligations.CallCarriesTheCalledPagers := by
  intro s i
  refine ⟨⟨rfl, rfl, rfl, rfl, rfl, rfl, rfl, rfl, rfl⟩, beq_iff_eq, s.buildCall_pagers_numbers i, fun x hx => ?_⟩
  rw [State.flood_of_mem_buildCall hx]
  exact s.floodMark_iff i x.pager

end Sys2Proof.Machine
end

section
/-! PROOF. The rank of a page list entry and the choice of the planner for a slot (R94, R95). -/

namespace Sys2Proof.Machine

/-! ### The rank -/

/-- R94: class, then kind, then place in the list. -/
theorem outranks_iff (a b : PageEntry) (i j : Nat) : outranks a i b j = true ↔
    a.cls < b.cls ∨ (a.cls = b.cls ∧ (a.kind = .standdown ∧ b.kind = .page ∨ a.kind = b.kind ∧ i < j)) := by
  cases ha : a.kind <;> cases hb : b.kind <;> simp [outranks, rankClass, ha, hb]

theorem outranks_asymm {a b : PageEntry} {i j : Nat} (h : outranks a i b j = true) : outranks b j a i = false := by
  rw [Bool.eq_false_iff, Ne, outranks_iff]
  rw [outranks_iff] at h
  rintro (hc | ⟨hc, ⟨ks, kp⟩ | ⟨hk, hij⟩⟩)
  · omega
  · simp [ks, kp, hc] at h
  · rcases h with h | ⟨-, ⟨hs, hp⟩ | ⟨-, h⟩⟩
    · omega
    · simp [hk, hs] at hp
    · omega

/-! ### The choice -/

/-- The four conditions of a candidate (R91, R94). -/
theorem candidate_iff {dark : Bool} {slot : Nat} {e : PageEntry} :
    candidate dark slot e = true ↔ dark = false ∧ 1 + e.key.pager % 31 = slot ∧ e.state = .waiting ∧ 0 < e.repeats := by
  simp [candidate, homeSlot, and_assoc]

/-- The better of two that is `x` whenever one of them is and `x` outranks the other. -/
theorem betterOf_eq_of_outranks {x y : PageEntry × Nat} (h : y = x ∨ outranks x.1 x.2 y.1 y.2 = true) :
    betterOf (some x) y = some x ∧ betterOf (some y) x = some x := by
  rcases h with rfl | h
  · simp [betterOf]
  · simp [betterOf, h, outranks_asymm h]

/-- An entry that outranks every other of a row is the best of the row. -/
theorem foldl_betterOf_eq_of_outranks {l : List (PageEntry × Nat)} {x : PageEntry × Nat} {best : Option (PageEntry × Nat)}
    (hx : x ∈ l ∨ best = some x) (hb : ∀ y, best = some y → y = x ∨ outranks x.1 x.2 y.1 y.2 = true)
    (hl : ∀ y ∈ l, y = x ∨ outranks x.1 x.2 y.1 y.2 = true) : l.foldl betterOf best = some x := by
  induction l generalizing best with
  | nil => simpa using hx
  | cons a l ih =>
    obtain ⟨ha, hl⟩ := List.forall_mem_cons.1 hl
    by_cases now : a = x ∨ best = some x
    · -- `x` is the best from here on
      have step : betterOf best a = some x := by
        rcases now with rfl | rfl
        · cases best with
          | none => rfl
          | some y => exact (betterOf_eq_of_outranks (hb y rfl)).2
        · exact (betterOf_eq_of_outranks ha).1
      rw [List.foldl_cons, step]
      exact ih (.inr rfl) (by simp) hl
    · -- `x` is still to come
      have later : x ∈ l := by
        obtain ⟨hax, hbx⟩ := not_or.1 now
        exact List.mem_of_ne_of_mem (Ne.symm hax) (hx.resolve_right hbx)
      refine ih (.inl later) (fun y hy => ?_) hl
      rcases foldl_betterOf_mem [a] best (x := y) hy with h | h
      · exact hb y h
      · exact List.mem_singleton.1 h ▸ ha

/-- The choice is the candidate that outranks every other (R95). -/
theorem bestCandidate_eq_of_outranks {dark : Bool} {slot : Nat} {ps : List PageEntry} {e : PageEntry} {i : Nat} (he : ps[i]? = some e)
    (hc : candidate dark slot e = true)
    (hr : ∀ e' j, ps[j]? = some e' → candidate dark slot e' = true → j ≠ i → outranks e i e' j = true) :
    bestCandidate dark slot ps = some e := by
  have best : (ps.zipIdx.filter fun x => candidate dark slot x.1).foldl betterOf none = some (e, i) := by
    refine foldl_betterOf_eq_of_outranks (.inl ?_) (by simp) fun y hy => ?_
    · exact List.mem_filter.2 ⟨List.mem_zipIdx_iff_getElem?.2 he, hc⟩
    · obtain ⟨hm, hy⟩ := List.mem_filter.1 hy
      have hm := List.mem_zipIdx_iff_getElem?.1 hm
      by_cases hj : y.2 = i
      · rw [hj, he] at hm
        exact .inl (Prod.ext (Option.some.inj hm).symm hj)
      · exact .inr (hr y.1 y.2 hm hy hj)
  rw [bestCandidate, best]
  rfl

/-- With no candidate there is no choice (R95). -/
theorem bestCandidate_eq_none {dark : Bool} {slot : Nat} {ps : List PageEntry} (h : ∀ e ∈ ps, candidate dark slot e ≠ true) :
    bestCandidate dark slot ps = none := by
  rw [Option.eq_none_iff_forall_ne_some]
  intro e he
  obtain ⟨hm, hc⟩ := bestCandidate_spec he
  exact h e hm hc

/-- A change of an entry homed elsewhere leaves the choice for a slot alone. -/
theorem bestCandidate_updateKey {k : PageKey} {f : PageEntry → PageEntry} {slot : Nat} (hf : ∀ e, (f e).key = e.key)
    (hk : homeSlot k.pager ≠ slot) (dark : Bool) (ps : List PageEntry) :
    bestCandidate dark slot (updateKey k f ps) = bestCandidate dark slot ps := by
  have away : ∀ e : PageEntry, e.key = k → candidate dark slot e = false := fun e he =>
    Bool.eq_false_iff.2 fun hc => hk (he ▸ candidate_home hc)
  unfold bestCandidate updateKey
  rw [List.zipIdx_map, List.filter_map]
  congr 2
  have same : ((fun x : PageEntry × Nat => candidate dark slot x.1) ∘ Prod.map (fun e => if e.key = k then f e else e) id) =
      fun x => candidate dark slot x.1 := by
    funext ⟨e, i⟩
    by_cases he : e.key = k
    · simp [he, away e he, away (f e) ((hf e).trans he)]
    · simp [he]
  rw [same]
  conv_rhs => rw [← List.map_id (List.filter _ _)]
  refine List.map_congr_left fun ⟨e, i⟩ hx => ?_
  have he : e.key ≠ k := fun he => by simp [away e he] at hx
  simp [he]

end Sys2Proof.Machine
end

section
/-! PROOF. Filling a half, one slot of it followed through the emptying and the choosing of the others (R95). -/

namespace Sys2Proof.Machine

/-! ### What the work on other slots leaves alone -/

/-- What the choice for a slot is made from: the zone's mode, the identity, the entries at home in the slot. -/
structure SameChoice (slot : Nat) (s t : State) : Prop where
  dark : t.zone.dark = s.zone.dark
  ident : t.ident = s.ident
  planLength : t.zone.plan.length = s.zone.plan.length
  best : ∀ dark, bestCandidate dark slot t.relay.pages = bestCandidate dark slot s.relay.pages
  find : ∀ k : PageKey, homeSlot k.pager = slot → t.relay.find k = s.relay.find k

/-- The choice for a slot and what the plan holds there. -/
structure SameSlot (slot : Nat) (s t : State) : Prop extends SameChoice slot s t where
  plan : t.zone.plan[slot]? = s.zone.plan[slot]?

section
variable {slot : Nat}

theorem SameChoice.trans {s t u : State} (h : SameChoice slot s t) (k : SameChoice slot t u) : SameChoice slot s u where
  dark := k.dark.trans h.dark
  ident := k.ident.trans h.ident
  planLength := k.planLength.trans h.planLength
  best d := (k.best d).trans (h.best d)
  find key hk := (k.find key hk).trans (h.find key hk)

theorem SameSlot.refl (s : State) : SameSlot slot s s := ⟨⟨rfl, rfl, rfl, fun _ => rfl, fun _ _ => rfl⟩, rfl⟩

theorem SameSlot.trans {s t u : State} (h : SameSlot slot s t) (k : SameSlot slot t u) : SameSlot slot s u :=
  ⟨h.toSameChoice.trans k.toSameChoice, k.plan.trans h.plan⟩

theorem SameSlot.foldl {f : State → Nat → State} {l : List Nat} (hf : ∀ s, ∀ t ≠ slot, SameSlot slot s (f s t)) (hl : slot ∉ l)
    (s : State) : SameSlot slot s (l.foldl f s) := by
  induction l generalizing s with
  | nil => exact .refl s
  | cons a l ih =>
    obtain ⟨ha, hl⟩ := List.ne_and_not_mem_of_not_mem_cons hl
    exact (hf s a ha.symm).trans (ih hl _)

/-- Work on a row of slots, seen from one of them: it is the work on that slot, on the state it started from. -/
theorem SameSlot.foldl_through {f : State → Nat → State} {l : List Nat} (hf : ∀ s, ∀ t ≠ slot, SameSlot slot s (f s t))
    (hn : l.Nodup) (hm : slot ∈ l) (s : State) : ∃ u, SameSlot slot s u ∧ SameSlot slot (f u slot) (l.foldl f s) := by
  obtain ⟨before, after, rfl⟩ := List.append_of_mem hm
  obtain ⟨hb, ha⟩ := not_or.1 (List.mem_append.not.1 (List.nodup_cons.1 (List.nodup_middle.1 hn)).1)
  refine ⟨before.foldl f s, .foldl hf hb s, ?_⟩
  rw [List.foldl_append, List.foldl_cons]
  exact .foldl hf ha _

/-! ### Emptying and filling one slot -/

theorem State.emptySlot_sameChoice (s : State) (t : Nat) : SameChoice slot s (s.emptySlot t) :=
  ⟨rfl, rfl, List.length_set, fun _ => rfl, fun _ _ => rfl⟩

theorem State.emptySlot_sameSlot (s : State) (t : Nat) (h : t ≠ slot) : SameSlot slot s (s.emptySlot t) :=
  ⟨s.emptySlot_sameChoice t, List.getElem?_set_ne h⟩

theorem State.placeIn_pages (s : State) (t : Nat) (e : PageEntry) :
    (s.placeIn t e).relay.pages = updateKey e.key (fun x => { x with state := .placed }) s.relay.pages := rfl

/-- Placing an entry makes the entry of its key PLACED and keeps the others. -/
theorem State.placeIn_find (s : State) (t : Nat) (e : PageEntry) (k : PageKey) : (s.placeIn t e).relay.find k =
    if k = e.key then (s.relay.find k).map (fun x => { x with state := .placed }) else s.relay.find k :=
  find_updateKey (f := fun x => { x with state := .placed }) (fun _ => rfl) _ k

/-- An entry placed in its home slot leaves the other slots alone. -/
theorem State.placeIn_sameSlot (s : State) {t : Nat} {e : PageEntry} (he : homeSlot e.key.pager = t) (h : t ≠ slot) :
    SameSlot slot s (s.placeIn t e) where
  dark := rfl
  ident := rfl
  planLength := List.length_set
  best d := by
    rw [State.placeIn_pages]
    exact bestCandidate_updateKey (f := fun x => { x with state := .placed }) (fun _ => rfl) (he ▸ h) d _
  find k hk := (s.placeIn_find t e k).trans (if_neg fun hke => h (by rw [← he, ← hke, hk]))
  plan := List.getElem?_set_ne h

theorem State.fillSlot_of_none {s : State} (h : bestCandidate s.zone.dark slot s.relay.pages = none) : s.fillSlot slot = s := by
  simp only [State.fillSlot, h]

theorem State.fillSlot_of_some {s : State} {e : PageEntry} (h : bestCandidate s.zone.dark slot s.relay.pages = some e) :
    s.fillSlot slot = s.placeIn slot e := by
  simp only [State.fillSlot, h]

theorem State.fillSlot_sameSlot (s : State) (t : Nat) (h : t ≠ slot) : SameSlot slot s (s.fillSlot t) := by
  cases hb : bestCandidate s.zone.dark t s.relay.pages with
  | none =>
    rw [State.fillSlot_of_none hb]
    exact .refl s
  | some e =>
    rw [State.fillSlot_of_some hb]
    exact s.placeIn_sameSlot (candidate_home (bestCandidate_spec hb).2) h

/-- A placed entry's frame stands in the slot (R92, R95). -/
theorem State.placeIn_plan {s : State} (e : PageEntry) (h : slot < s.zone.plan.length) :
    (s.placeIn slot e).zone.plan[slot]? = some (some (buildFrame s.ident e)) :=
  List.getElem?_set_self h

/-! ### Filling a half -/

theorem pageSlots_nodup (h : Half) : (pageSlots h).Nodup := by cases h <;> decide

theorem lt_of_mem_pageSlots {h : Half} (hm : slot ∈ pageSlots h) : slot < 32 := by
  cases h <;> simp only [pageSlots, List.mem_map, List.mem_range] at hm <;> omega

/-- Filling a half, seen from one of its slots: the slot is emptied, then filled from the choice the page list held before. -/
theorem State.fillHalf_through {h : Half} (s : State) (hm : slot ∈ pageSlots h) (hl : slot < s.zone.plan.length) :
    ∃ u, SameChoice slot s u ∧ u.zone.plan[slot]? = some none ∧ SameSlot slot (u.fillSlot slot) (s.fillHalf h) := by
  obtain ⟨v, sv, ve⟩ := SameSlot.foldl_through State.emptySlot_sameSlot (pageSlots_nodup h) hm s
  obtain ⟨u, eu, uf⟩ := SameSlot.foldl_through State.fillSlot_sameSlot (pageSlots_nodup h) hm ((pageSlots h).foldl State.emptySlot s)
  have emptied : (v.emptySlot slot).zone.plan[slot]? = some none := List.getElem?_set_self (sv.planLength ▸ hl)
  refine ⟨u, ?_, ?_, uf⟩
  · exact ((sv.toSameChoice.trans (v.emptySlot_sameChoice slot)).trans ve.toSameChoice).trans eu.toSameChoice
  · rw [eu.plan, ve.plan, emptied]

/-- A page slot with no choice is empty after the filling (R95). -/
theorem State.fillHalf_plan_of_none {s : State} {h : Half} (hm : slot ∈ pageSlots h) (hl : slot < s.zone.plan.length)
    (hb : bestCandidate s.zone.dark slot s.relay.pages = none) : (s.fillHalf h).zone.plan[slot]? = some none := by
  obtain ⟨u, same, empty, filled⟩ := s.fillHalf_through hm hl
  have none_u : bestCandidate u.zone.dark slot u.relay.pages = none := by rw [same.best, same.dark, hb]
  rw [filled.plan, State.fillSlot_of_none none_u, empty]

/-- A page slot with a choice holds its frame after the filling, and the entry chosen is PLACED (R95). -/
theorem State.fillHalf_of_some {s : State} {h : Half} {e : PageEntry} (hm : slot ∈ pageSlots h) (hl : slot < s.zone.plan.length)
    (hb : bestCandidate s.zone.dark slot s.relay.pages = some e) (hf : s.relay.find e.key = some e) :
    (s.fillHalf h).zone.plan[slot]? = some (some (buildFrame s.ident e)) ∧
      (s.fillHalf h).relay.find e.key = some { e with state := .placed } := by
  obtain ⟨u, same, -, filled⟩ := s.fillHalf_through hm hl
  have home : homeSlot e.key.pager = slot := candidate_home (bestCandidate_spec hb).2
  have placed : u.fillSlot slot = u.placeIn slot e := State.fillSlot_of_some (by rw [same.best, same.dark, hb])
  rw [filled.plan, filled.find e.key home, placed]
  constructor
  · rw [State.placeIn_plan e (same.planLength ▸ hl), same.ident]
  · rw [State.placeIn_find, if_pos rfl, same.find e.key home, hf]
    rfl

end

/-- With no key twice, the entry of a key is the one that stands in the list. -/
theorem Relay.find_of_mem {s : State} {e : PageEntry} (hn : s.keysNodup) (he : e ∈ s.relay.pages) :
    s.relay.find e.key = some e := by
  have found : (s.relay.find e.key).isSome := List.find?_isSome.2 ⟨e, he, beq_iff_eq.2 rfl⟩
  obtain ⟨x, hx⟩ := Option.isSome_iff_exists.1 found
  have same : x = e := eq_of_key hn he (List.mem_of_find?_eq_some hx) (Relay.find_key hx)
  rw [hx, same]

/-- Settles O11: `outranks` is R94 read off; filling a half reaches each slot with the choice of R95 as it stood before. -/
theorem filledHalfHoldsTheBestCandidates : Obligations.FilledHalfHoldsTheBestCandidates := by
  refine ⟨outranks_iff, ?_⟩
  intro s h slot hn hplan hm mayTake
  have hl : slot < s.zone.plan.length := hplan ▸ lt_of_mem_pageSlots hm
  refine ⟨fun none_may => ?_, fun e i hi he best => ?_⟩
  · exact State.fillHalf_plan_of_none hm hl (bestCandidate_eq_none fun e he hc => none_may e he (candidate_iff.1 hc))
  · have chosen : bestCandidate s.zone.dark slot s.relay.pages = some e :=
      bestCandidate_eq_of_outranks hi (candidate_iff.2 he) fun e' j hj hc => best e' j hj (candidate_iff.1 hc)
    exact State.fillHalf_of_some hm hl chosen (Relay.find_of_mem hn (List.mem_of_getElem? hi))

end Sys2Proof.Machine
end

section
/-! PROOF. How the transmit queue answers an offer: where a burst is placed, which one is evicted, what is lost (R118 to R120). -/

namespace Sys2Proof.Machine

/-! ### The head in transmission and the bursts behind it -/

/-- The head when it is in transmission, which no offer moves (R118). -/
def Line.sendingHead (l : Line) : List Queued := if l.sending.isSome then l.queue.take 1 else []

theorem Line.sendingHead_append_free (l : Line) : l.sendingHead ++ l.free = l.queue := by
  unfold Line.sendingHead Line.free
  split
  · exact List.take_append_drop 1 l.queue
  · rfl

theorem Line.drop_sendingHead (l : Line) : l.queue.drop l.sendingHead.length = l.free := by
  rw [← l.sendingHead_append_free, List.drop_left]

/-! ### Where a burst is placed -/

theorem Line.place_class1 (l : Line) {b : Queued} (hb : b.cls = .class1) : l.place b = { l with queue := l.queue ++ [b] } := by
  simp only [Line.place, hb]

theorem Line.place_class0 (l : Line) {b : Queued} (hb : b.cls = .class0) :
    l.place b = { l with queue := l.sendingHead ++ placeUrgent b l.free } := by
  simp only [Line.place, Line.sendingHead, Line.free, hb]
  split <;> rfl

/-- With the class 0 bursts first, the queue is cut at the one place a class 0 burst goes to (R117, R118). -/
theorem Line.place_urgent {l : Line} (h : UrgentFirst l.free) {b : Queued} (hb : b.cls = .class0) :
    ∃ urgent ordinary, l.queue = l.sendingHead ++ urgent ++ ordinary ∧ (∀ x ∈ urgent, x.cls = .class0) ∧
      (∀ x ∈ ordinary, x.cls = .class1) ∧ l.place b = { l with queue := l.sendingHead ++ urgent ++ b :: ordinary } := by
  refine ⟨_, _, ?_, takeWhile_class0 l.free, dropWhile_class1 h, ?_⟩
  · rw [List.append_assoc, List.takeWhile_append_dropWhile, l.sendingHead_append_free]
  · rw [l.place_class0 hb, placeUrgent, List.append_assoc]

/-! ### Which burst is evicted -/

/-- The last burst of a queue of more than one is not the head in transmission. -/
theorem Line.free_getLast {l : Line} {rest : List Queued} {out : Queued} (hq : l.queue = rest ++ [out]) (hr : rest ≠ []) :
    l.free.getLast? = some out := by
  obtain ⟨a, rest, rfl⟩ := List.exists_cons_of_ne_nil hr
  unfold Line.free
  rw [hq]
  split <;> exact List.getLast?_concat

theorem Line.evictable_eq_some {l : Line} {rest : List Queued} {out : Queued} (hq : l.queue = rest ++ [out]) (hr : rest ≠ [])
    (ho : out.cls = .class1) : l.evictable = some out := by
  simp only [Line.evictable, Line.free_getLast hq hr, ho, if_true]

theorem Line.evictable_eq_none {l : Line} (h : ∀ b ∈ l.free, b.cls = .class0) : l.evictable = none := by
  unfold Line.evictable
  split
  · next b hb => simp [h b (List.mem_of_getLast? hb)]
  · rfl

/-- An eviction leaves the head in transmission alone. -/
theorem Line.sendingHead_dropLast {l : Line} (h : 1 < l.queue.length) :
    ({ l with queue := l.queue.dropLast } : Line).sendingHead = l.sendingHead := by
  have kept : l.queue.dropLast.take 1 = l.queue.take 1 := by
    rw [List.dropLast_eq_take, List.take_take, Nat.min_eq_left (by omega)]
  simp only [Line.sendingHead, kept]

/-! ### What is told of a lost burst -/

theorem State.reportLost_of_log {b : Queued} {rs : List Record} (s : State) (h : b.body = .log rs) :
    s.reportLost b = s.logLost := by
  simp only [State.reportLost, h]

theorem State.reportLost_of_ne_log {b : Queued} (s : State) (h : ∀ rs, b.body ≠ .log rs) : s.reportLost b = s := by
  unfold State.reportLost
  split
  · next rs hb => exact absurd hb (h rs)
  · rfl

/-- The report of a lost burst changes the office alone. -/
theorem State.reportLost_eq (s : State) (b : Queued) : s.reportLost b = { s with office := (s.reportLost b).office } := by
  rcases s.reportLost_rest b with h | h
  · rw [h]
  · rw [h]
    rfl

/-! ### The answer to an offer -/

/-- In LINE HOLD the burst offered is accepted and lost (R119, R120). -/
theorem State.offer_discarded (s : State) (body : Body) (cls : LineClass) (who : Option Nat) (h : s.line.hold = true) :
    s.offer body cls who = (s.reportLost ⟨body, cls, who, 0⟩, true) := by
  simp only [State.offer, h, if_true]

/-- Settles O31: one clause for each row of R118's table, the line's part of it said by `Line.place` and `Line.evictable`. -/
theorem offerIsAnsweredByTheQueue : Obligations.OfferIsAnsweredByTheQueue := by
  intro s body who sound
  have ⟨_, ordered, _⟩ := sound
  refine ⟨fun hold cls => ?_, fun released room => ?_, fun released room => ?_, fun released full => ?_,
    fun rest out released parts len last => ?_, fun released full urgent => ?_⟩
  · rw [s.offer_discarded body cls who hold]
    cases body <;> rfl
  · rw [s.offer_room body .class1 who released room, s.line.place_class1 rfl]
    rfl
  · obtain ⟨urgent, ordinary, cut, hu, ho, placed⟩ := Line.place_urgent ordered (b := ⟨body, .class0, who, 0⟩) rfl
    refine ⟨urgent, ordinary, cut, hu, ho, ?_⟩
    rw [s.offer_room body .class0 who released room, placed]
    rfl
  · exact s.offer_refused body who released full.ge
  · have full : s.line.queue.length = 8 := by rw [parts, List.length_append, len]; rfl
    have several : rest ≠ [] := List.ne_nil_of_length_pos (by omega)
    have evicts := s.offer_evicts body who released full.ge (Line.evictable_eq_some parts several last)
    have left : s.line.queue.dropLast = rest := by rw [parts, List.dropLast_concat]
    have ⟨_, still, _⟩ := Line.dropLast_sound sound (by omega)
    obtain ⟨urgent, ordinary, cut, hu, ho, placed⟩ := Line.place_urgent still (b := ⟨body, .class0, who, 0⟩) rfl
    rw [Line.sendingHead_dropLast (by omega)] at cut placed
    refine ⟨urgent, ordinary, _, left ▸ cut, hu, ho, evicts, ?_, ?_⟩
    · rw [State.reportLost_eq, placed]
      rfl
    · cases hb : out.body with
      | log rs => rw [State.reportLost_of_log _ hb]; rfl
      | _ => rw [State.reportLost_of_ne_log _ (by simp [hb])]; rfl
  · have behind : ∀ b ∈ s.line.free, b.cls = .class0 := s.line.drop_sendingHead ▸ urgent
    exact s.offer_full body .class0 who released full.ge (Line.evictable_eq_none behind)

end Sys2Proof.Machine
end

section
/-! PROOF. The ALARM output read off its conditions, and each panel point read off the part of the station it shows (R179 to R182). -/

namespace Sys2Proof.Machine

/-! ### The ALARM output -/

/-- A station whose load has not ended CONFIGURED is LOADING or UNCONFIGURED (R183). -/
theorem State.not_configured_iff (s : State) :
    s.configured = false ↔ s.loading = true ∨ s.loader.load = .unconfigured := by
  by_cases failed : s.loader.load = .unconfigured
  · simp [State.configured, failed]
  · simp [State.loading, failed]

/-- A mark is set when it holds a raise (R6). -/
theorem State.anyMark_iff (s : State) : s.engine.pend.any (·.isSome) = true ↔ ∃ m ∈ s.engine.pend, m ≠ none := by
  simp only [List.any_eq_true, Option.isSome_iff_ne_none]

/-- The FREE entries of the table tell no state (R1): its search finds the incidents alone. -/
theorem State.anyUnanswered_iff (s : State) :
    (s.engine.table.any fun x => x.any (·.state == .unanswered)) = true ↔
      ∃ e i, s.incident? e = some i ∧ i.state = .unanswered := by
  simp only [List.any_eq_true, Option.any_eq_true, beq_iff_eq]
  constructor
  · rintro ⟨x, found, i, rfl, unanswered⟩
    obtain ⟨e, at_e⟩ := List.mem_iff_getElem?.1 found
    exact ⟨e, i, incident?_eq.2 at_e, unanswered⟩
  · rintro ⟨e, i, opened, unanswered⟩
    exact ⟨some i, List.mem_of_getElem? (incident?_eq.1 opened), i, rfl, unanswered⟩

/-- The ALARM condition (R23). -/
theorem State.alarmCondition_iff (s : State) :
    s.alarmCondition = true ↔
      (∃ e i, s.incident? e = some i ∧ i.state = .unanswered) ∨ ∃ m ∈ s.engine.pend, m ≠ none := by
  unfold State.alarmCondition
  rw [Bool.or_eq_true, State.anyUnanswered_iff, State.anyMark_iff]

/-- The ALARM output (R182). -/
theorem State.alarmOutput_iff (s : State) :
    s.alarmOutput = true ↔
      ((∃ e i, s.incident? e = some i ∧ i.state = .unanswered) ∨ (∃ m ∈ s.engine.pend, m ≠ none)) ∨
      s.loading = true ∨ s.loader.load = .unconfigured ∨ s.line.hold = true := by
  unfold State.alarmOutput
  rw [Bool.or_eq_true, Bool.or_eq_true, State.alarmCondition_iff, Bool.not_eq_true', State.not_configured_iff]
  simp only [or_assoc]

/-! ### Which part of the station a point shows -/

theorem State.point_entry (s : State) {e : Nat} (h : e < 16) : s.point e = s.entryPoint e := by
  rw [State.point, if_pos h]

theorem State.point_taken (s : State) {e : Nat} (h : e < 16) : s.point (16 + e) = s.takenPoint e := by
  rw [State.point, if_neg (by omega), if_pos (by omega), Nat.add_sub_cancel_left]

theorem State.point_input (s : State) {n : Nat} (h : n < 16) : s.point (32 + n) = s.inputPoint n := by
  rw [State.point, if_neg (by omega), if_neg (by omega), if_pos (by omega), Nat.add_sub_cancel_left]

theorem State.point_station (s : State) {i : Nat} (h : i < 8) : s.point (48 + i) = s.stationPoint i := by
  rw [State.point, if_neg (by omega), if_neg (by omega), if_neg (by omega), if_pos (by omega), Nat.add_sub_cancel_left]

theorem State.point_group (s : State) {g : Nat} (h : g < 8) : s.point (56 + g) = s.groupPoint g := by
  rw [State.point, if_neg (by omega), if_neg (by omega), if_neg (by omega), if_neg (by omega), if_pos (by omega),
    Nat.add_sub_cancel_left]

theorem State.point_pager (s : State) (p : Nat) : s.point (64 + p) = s.pagerPoint p := by
  rw [State.point, if_neg (by omega), if_neg (by omega), if_neg (by omega), if_neg (by omega), if_neg (by omega),
    Nat.add_sub_cancel_left]

/-! ### What each part shows -/

theorem steadyWhile_eq_steady {b : Bool} : steadyWhile b = .steady ↔ b = true := by
  cases b <;> decide

theorem steadyWhile_ne_flashing (b : Bool) : steadyWhile b ≠ .flashing := by
  cases b <;> decide

theorem steadyWhile_beq {α : Type} [DecidableEq α] (a b : α) :
    steadyWhile (a == b) = if a = b then .steady else .dark := by
  simp only [steadyWhile, beq_iff_eq]

theorem State.entryPoint_of_free {s : State} {e : Nat} (h : s.incident? e = none) : s.entryPoint e = .dark := by
  rw [State.entryPoint, h]

/-- An incident lights the point of its entry while it is CALLING, and flashes it while it is UNANSWERED (R179). -/
theorem State.entryPoint_of_incident {s : State} {e : Nat} {i : Incident} (h : s.incident? e = some i) :
    s.entryPoint e = if i.state = .calling then .steady else if i.state = .unanswered then .flashing else .dark := by
  simp only [State.entryPoint, h]
  cases i.state <;> rfl

theorem State.takenPoint_of_free {s : State} {e : Nat} (h : s.incident? e = none) : s.takenPoint e = .dark := by
  rw [State.takenPoint, h]
  rfl

theorem State.takenPoint_of_incident {s : State} {e : Nat} {i : Incident} (h : s.incident? e = some i) :
    s.takenPoint e = if i.state = .taken then .steady else .dark := by
  rw [State.takenPoint, h]
  exact steadyWhile_beq i.state .taken

/-- An input in CHATTER or with a faulted loop flashes its point whatever else holds (R178, R179). -/
theorem State.inputPoint_eq (s : State) (n : Nat) :
    s.inputPoint n =
      if (s.input n).mode = .unused then .dark
      else if (s.input n).inChatter = true ∨ (s.input n).condition = .short ∨ (s.input n).condition = .opened then .flashing
      else if (s.input n).condition = .active then .steady else .dark := by
  simp only [State.inputPoint, InputRecord.used, Condition.faulted, steadyWhile_beq, Bool.not_eq_true', bne_eq_false_iff_eq,
    Bool.or_eq_true, beq_iff_eq]

/-- A group shows that some pager of it is on duty and in reach (R180). -/
theorem State.groupPoint_steady_iff (s : State) (g : Nat) :
    s.groupPoint g = .steady ↔ ∃ r ∈ s.presence.roster, r.group = some g ∧ r.duty = true ∧ 24 ≤ r.score := by
  simp only [State.groupPoint, steadyWhile_eq_steady, List.any_eq_true, Bool.and_eq_true, beq_iff_eq, decide_eq_true_eq,
    and_assoc]
  rfl

/-! ### Before the load ends CONFIGURED -/

theorem State.drivenCommon_of_not_configured (s : State) (h : s.configured = false) : s.drivenCommon = 1 := by
  simp only [State.drivenCommon, h, Bool.false_eq_true, if_false]

/-- The segments are then no reading of the points: SEG16 alone is driven (R181). -/
theorem State.shareSegments_of_not_configured (s : State) (h : s.configured = false) (share : Nat) :
    s.shareSegments share = BitVec.ofNat 32 (2 ^ 16) := by
  simp only [State.shareSegments, h, Bool.false_eq_true, if_false]

/-- Settles O51: each range of points by the part it shows, whose own lemma says when it is lit. -/
theorem pointsAndAlarmShowTheStation : Obligations.PointsAndAlarmShowTheStation := by
  intro s
  refine ⟨s.alarmOutput_iff, fun _ => ⟨fun e he => ?_, fun n hn => ?_, ?_, fun g hg => ?_, fun p _ => ?_⟩, fun unready => ?_⟩
  · rw [s.point_entry he, s.point_taken he]
    cases entry : s.incident? e with
    | none => exact ⟨State.entryPoint_of_free entry, State.takenPoint_of_free entry⟩
    | some i => exact ⟨State.entryPoint_of_incident entry, State.takenPoint_of_incident entry⟩
  · rw [s.point_input hn, s.inputPoint_eq]
  · have unconfigured := (s.point_station (i := 0) (by decide)).trans (steadyWhile_beq s.loader.load .unconfigured)
    exact ⟨unconfigured, s.point_station (i := 1) (by decide), s.point_station (i := 2) (by decide),
      s.point_station (i := 3) (by decide), s.point_station (i := 4) (by decide), s.point_station (i := 5) (by decide),
      s.point_station (i := 6) (by decide), s.point_station (i := 7) (by decide)⟩
  · rw [s.point_group hg]
    exact ⟨s.groupPoint_steady_iff g, steadyWhile_ne_flashing _⟩
  · exact s.point_pager p
  · exact ⟨s.drivenCommon_of_not_configured unready, s.shareSegments_of_not_configured unready⟩

end Sys2Proof.Machine
end

section
/-! PROOF. Each field and each body as bytes and back: what reading a row of bytes gives is what they code, no more and no less
(R137 to R144, R192). -/

namespace Sys2Proof.Machine

/-! ### Bytes -/

theorem byteOf_toNat {n : Nat} (h : n < 256) : (byteOf n).toNat = n := by
  simp only [byteOf, BitVec.toNat_ofNat]
  exact Nat.mod_eq_of_lt h

@[simp] theorem byteOf_of_toNat (b : Byte) : byteOf b.toNat = b := by simp [byteOf]

theorem eq_byteOf_iff {n : Nat} (h : n < 256) (b : Byte) : b = byteOf n ↔ b.toNat = n :=
  ⟨fun e => e ▸ byteOf_toNat h, fun e => by rw [← e, byteOf_of_toNat]⟩

theorem byte_lt (b : Byte) : b.toNat < 256 := b.isLt

theorem flagAt_beq_one {n : Nat} (h : n ≤ 1) : flagAt (n == 1) 1 = n := by
  interval_cases n <;> rfl

/-- A byte read as an optional pager codes it (R142, R192). -/
theorem readOptPager_iff {b : Byte} {p : Option Nat} : readOptPager b = some p ↔ b = optByte p ∧ ∀ n ∈ p, n ≤ 63 := by
  unfold readOptPager
  cases p with
  | none =>
    have absent : b = optByte none ↔ b.toNat = 255 := eq_byteOf_iff (by decide) b
    rw [absent]
    split <;> simp [*]
  | some n =>
    have present : n ≤ 63 → (b = optByte (some n) ↔ b.toNat = n) := fun h => eq_byteOf_iff (by omega) b
    constructor
    · intro h
      split at h
      · simp at h
      · split at h
        · simp only [Option.some.injEq] at h
          subst h
          exact ⟨(byteOf_of_toNat b).symm, by simpa⟩
        · simp at h
    · rintro ⟨hb, hn⟩
      have hn : n ≤ 63 := hn n rfl
      have hb := (present hn).1 hb
      rw [if_neg (by omega), if_pos (by omega), hb]

/-! ### Codes -/

theorem burstKindOf_iff {n : Nat} {k : BurstKind} : burstKindOf n = some k ↔ n = burstKindCode k := by
  constructor
  · intro h
    unfold burstKindOf at h
    split at h <;> simp at h <;> subst h <;> rfl
  · rintro rfl
    cases k <;> rfl

theorem sourceKindOf_iff {n : Nat} {k : SourceKind} : sourceKindOf n = some k ↔ n = sourceKindCode k := by
  constructor
  · intro h
    unfold sourceKindOf at h
    split at h <;> simp at h <;> subst h <;> rfl
  · rintro rfl
    cases k <;> rfl

theorem answerKindOf_iff {n : Nat} {k : AnswerKind} : answerKindOf n = some k ↔ n = answerKindCode k := by
  constructor
  · intro h
    unfold answerKindOf at h
    split at h <;> simp at h <;> subst h <;> rfl
  · rintro rfl
    cases k <;> rfl

theorem settleKindOf_iff {n : Nat} {k : SettleKind} : settleKindOf n = some k ↔ n = settleKindCode k := by
  constructor
  · intro h
    unfold settleKindOf at h
    split at h <;> simp at h <;> subst h <;> rfl
  · rintro rfl
    cases k <;> rfl

theorem tagOf_iff {n : Nat} {k : Tag} : tagOf n = some k ↔ n = tagCode k := by
  constructor
  · intro h
    unfold tagOf at h
    split at h <;> simp at h <;> subst h <;> rfl
  · rintro rfl
    cases k <;> rfl

theorem lineClassOf_iff {n : Nat} {c : LineClass} : lineClassOf n = some c ↔ n = lineClassCode c := by
  constructor
  · intro h
    unfold lineClassOf at h
    split at h <;> simp at h <;> subst h <;> rfl
  · rintro rfl
    cases c <;> rfl

theorem incidentStateOf_iff {n : Nat} (h : n < 4) {x : IncidentState} : incidentStateOf n = x ↔ n = incidentStateCode x := by
  interval_cases n <;> cases x <;> decide

theorem burstKindCode_lt (k : BurstKind) : burstKindCode k < 256 := by cases k <;> decide
theorem sourceKindCode_lt (k : SourceKind) : sourceKindCode k < 3 := by cases k <;> decide
theorem answerKindCode_lt (k : AnswerKind) : answerKindCode k < 256 := by cases k <;> decide
theorem settleKindCode_lt (k : SettleKind) : settleKindCode k < 256 := by cases k <;> decide
theorem tagCode_lt (k : Tag) : tagCode k < 256 := by cases k <;> decide
theorem lineClassCode_lt (c : LineClass) : lineClassCode c < 2 := by cases c <;> decide
theorem incidentStateCode_lt (x : IncidentState) : incidentStateCode x < 4 := by cases x <;> decide

theorem flagAt_eq (b : Bool) (v : Nat) : flagAt b v = 0 ∧ b = false ∨ flagAt b v = v ∧ b = true := by
  cases b <;> simp [flagAt]

/-! ### Bodies of fixed fields -/

theorem readAnswer_iff {bytes : List Byte} {k : AnswerKey} :
    readAnswer bytes = some k ↔ bytes = encodeAnswer k ∧ k.owner ≤ 31 ∧ k.serial ≤ 255 ∧ k.pager ≤ 63 := by
  constructor
  · intro h
    unfold readAnswer at h
    split at h
    · next o s p x =>
      split at h
      · next kind hk =>
        split at h
        · next hr =>
          simp only [Option.some.injEq] at h
          subst h
          have := byte_lt s
          simp [encodeAnswer, ← answerKindOf_iff.1 hk, hr]
          omega
        · simp at h
      · simp at h
    · simp at h
  · rintro ⟨rfl, ho, hs, hp⟩
    have kind : answerKindOf (byteOf (answerKindCode k.kind)).toNat = some k.kind := by
      rw [byteOf_toNat (answerKindCode_lt _), answerKindOf_iff]
    simp only [encodeAnswer, readAnswer, kind, byteOf_toNat (n := k.owner) (by omega), byteOf_toNat (n := k.serial) (by omega),
      byteOf_toNat (n := k.pager) (by omega), ho, hp, and_self, if_true]

theorem readSettle_iff {bytes : List Byte} {b : SettleBody} :
    readSettle bytes = some b ↔ bytes = encodeSettle b ∧ b.serial ≤ 255 ∧ (∀ p ∈ b.responder, p ≤ 63) ∧
      (b.kind = .taken → b.responder.isSome = true) := by
  constructor
  · intro h
    unfold readSettle at h
    split at h
    · next s k r =>
      split at h
      · next kind who hk hr =>
        obtain ⟨hr, hp⟩ := readOptPager_iff.1 hr
        split at h
        · simp at h
        · next hw =>
          simp only [Option.some.injEq] at h
          subst h
          have := byte_lt s
          refine ⟨?_, by simp only; omega, hp, fun ht => ?_⟩
          · simp [encodeSettle, ← settleKindOf_iff.1 hk, hr]
          · rw [Option.isSome_iff_ne_none]
            exact fun hn => hw ⟨ht, hn⟩
      · simp at h
    · simp at h
  · rintro ⟨rfl, hs, hp, ht⟩
    have kind : settleKindOf (byteOf (settleKindCode b.kind)).toNat = some b.kind := by
      rw [byteOf_toNat (settleKindCode_lt _), settleKindOf_iff]
    have who : readOptPager (optByte b.responder) = some b.responder := readOptPager_iff.2 ⟨rfl, hp⟩
    have named : ¬ (b.kind = .taken ∧ b.responder = none) := fun ⟨h1, h2⟩ => by simp [h2] at ht; exact ht h1
    simp only [encodeSettle, readSettle, kind, who, named, if_false, byteOf_toNat (n := b.serial) (by omega)]

theorem readZone_iff {bytes : List Byte} {dark : Bool} : readZone bytes = some dark ↔ bytes = [byteOf (flagAt dark 1)] := by
  constructor
  · intro h
    unfold readZone at h
    split at h
    · next z =>
      split at h
      · next hz =>
        simp only [Option.some.injEq] at h
        subst h
        rw [flagAt_beq_one hz, byteOf_of_toNat]
      · simp at h
    · simp at h
  · rintro rfl
    cases dark <;> rfl

/-- A query is read from its kind and the fields its kind reads; the others hold any coding (R143). -/
theorem readQuery_iff {bytes : List Byte} {q : Query} :
    readQuery bytes = some q ↔ q.wellFormed ∧ ∃ x y, bytes = queryBytes x y q := by
  constructor
  · intro h
    unfold readQuery at h
    split at h
    · next k c s =>
      have code : ∀ n : Nat, n < 256 → k.toNat = n → k = byteOf n := fun n hn hk => (eq_byteOf_iff hn k).2 hk
      have := byte_lt s
      split at h
      · next hk =>
        split at h
        · next hc =>
          simp only [Option.some.injEq] at h
          subst h
          exact ⟨hc, c, s, by rw [code 1 (by decide) hk, queryBytes, byteOf_of_toNat]; rfl⟩
        · simp at h
      · next hk =>
        cases h
        exact ⟨trivial, c, s, by rw [code 2 (by decide) hk]; rfl⟩
      · next hk =>
        cases h
        exact ⟨trivial, c, s, by rw [code 3 (by decide) hk]; rfl⟩
      · next hk =>
        cases h
        refine ⟨show s.toNat ≤ 255 by omega, c, s, ?_⟩
        rw [code 4 (by decide) hk, queryBytes, byteOf_of_toNat]; rfl
      · simp at h
    · simp at h
  · rintro ⟨hq, x, y, rfl⟩
    cases q with
    | history n =>
      obtain ⟨h1, h2⟩ := hq
      simp [queryBytes, readQuery, byteOf_toNat (show n < 256 by omega), h1, h2]
    | incidents => rfl
    | release => rfl
    | cancel serial =>
      have hs : serial ≤ 255 := hq
      simp [queryBytes, readQuery, byteOf_toNat (show serial < 256 by omega)]

/-! ### Rows of entries -/

theorem readClaimEntries_iff {bytes : List Byte} {es : List ClaimEntry} :
    readClaimEntries bytes = some es ↔ bytes = es.flatMap encodeClaimEntry ∧ ∀ e ∈ es, e.pager ≤ 63 ∧ e.score ≤ 240 := by
  constructor
  · intro h
    fun_induction readClaimEntries bytes generalizing es with
    | case1 => cases h; simp
    | case2 => simp at h
    | case3 p v rest hr ih =>
      obtain ⟨more, hm, rfl⟩ := Option.map_eq_some_iff.1 h
      obtain ⟨hb, hall⟩ := ih hm
      refine ⟨by simp [encodeClaimEntry, ← hb], ?_⟩
      rintro e (_ | ⟨_, he⟩)
      · exact hr
      · exact hall e he
    | case4 => simp at h
  · rintro ⟨rfl, hall⟩
    induction es with
    | nil => rfl
    | cons e es ih =>
      obtain ⟨hp, hv⟩ := hall e (by simp)
      simp only [List.flatMap_cons, encodeClaimEntry, List.cons_append, List.nil_append, readClaimEntries,
        byteOf_toNat (show e.pager < 256 by omega), byteOf_toNat (show e.score < 256 by omega), hp, hv, and_self, if_true]
      rw [ih fun x hx => hall x (by simp [hx])]
      rfl

theorem readDutyEntries_iff {bytes : List Byte} {es : List DutyEntry} :
    readDutyEntries bytes = some es ↔ bytes = es.flatMap encodeDutyEntry ∧ ∀ e ∈ es, e.pager ≤ 63 := by
  constructor
  · intro h
    fun_induction readDutyEntries bytes generalizing es with
    | case1 => cases h; simp
    | case2 => simp at h
    | case3 p v rest hr ih =>
      obtain ⟨more, hm, rfl⟩ := Option.map_eq_some_iff.1 h
      obtain ⟨hb, hall⟩ := ih hm
      refine ⟨by simp [encodeDutyEntry, ← hb, flagAt_beq_one hr.2], ?_⟩
      rintro e (_ | ⟨_, he⟩)
      · exact hr.1
      · exact hall e he
    | case4 => simp at h
  · rintro ⟨rfl, hall⟩
    induction es with
    | nil => rfl
    | cons e es ih =>
      have hp := hall e (by simp)
      have flag : (byteOf (flagAt e.on 1)).toNat ≤ 1 ∧ ((byteOf (flagAt e.on 1)).toNat == 1) = e.on := by
        cases e.on <;> decide
      simp only [List.flatMap_cons, encodeDutyEntry, List.cons_append, List.nil_append, readDutyEntries,
        byteOf_toNat (show e.pager < 256 by omega), hp, flag, and_self, if_true]
      rw [ih fun x hx => hall x (by simp [hx])]
      rfl

/-- The byte of a pager in a CALL: its flood mark above the pager (R141). -/
theorem eq_encodeCallPager_iff {b : Byte} {p : CallPager} (h : p.pager ≤ 63) :
    b = encodeCallPager p ↔ b.toNat % 128 = p.pager ∧ decide (128 ≤ b.toNat) = p.flood := by
  have := byte_lt b
  rw [encodeCallPager, eq_byteOf_iff (by rcases flagAt_eq p.flood 128 with h | h <;> omega)]
  rcases flagAt_eq p.flood 128 with ⟨h1, h2⟩ | ⟨h1, h2⟩ <;> rw [h1, h2]
  · rw [decide_eq_false_iff_not]; omega
  · rw [decide_eq_true_eq]; omega

theorem readCallPagers_iff {bytes : List Byte} {ps : List CallPager} :
    readCallPagers bytes = some ps ↔ bytes = ps.map encodeCallPager ∧ ∀ p ∈ ps, p.pager ≤ 63 := by
  constructor
  · intro h
    fun_induction readCallPagers bytes generalizing ps with
    | case1 => cases h; simp
    | case2 b rest hr ih =>
      obtain ⟨more, hm, rfl⟩ := Option.map_eq_some_iff.1 h
      obtain ⟨hb, hall⟩ := ih hm
      refine ⟨?_, ?_⟩
      · rw [List.map_cons, ← hb, ← (eq_encodeCallPager_iff hr).2 ⟨rfl, rfl⟩]
      · rintro p (_ | ⟨_, hp⟩)
        · exact hr
        · exact hall p hp
    | case3 => simp at h
  · rintro ⟨rfl, hall⟩
    induction ps with
    | nil => rfl
    | cons p ps ih =>
      have hp := hall p (by simp)
      obtain ⟨h1, h2⟩ := (eq_encodeCallPager_iff hp).1 rfl
      simp only [List.map_cons, readCallPagers, h1, h2, hp, if_true]
      rw [ih fun x hx => hall x (by simp [hx])]
      rfl

/-! ### The body of a CALL -/

/-- The fields of a CALL, the number of its pagers left open (R141). -/
def CallBody.inRange (c : CallBody) : Prop :=
  c.serial ≤ 255 ∧ c.seq ≤ 255 ∧ 1 ≤ c.cls ∧ c.cls ≤ 4 ∧ c.level ≤ 3 ∧ 1 ≤ c.repeats ∧ c.repeats ≤ 8 ∧ c.group ≤ 7 ∧
  c.msg ≤ 255 ∧ c.input ≤ 15 ∧ ∀ p ∈ c.pagers, p.pager ≤ 63

/-- The third byte of a CALL: class above level (R141). -/
theorem eq_classByte_iff {b : Byte} {cls level : Nat} (hc : cls ≤ 4) (hl : level ≤ 3) :
    b = byteOf (cls * 16 + level) ↔ b.toNat / 16 = cls ∧ b.toNat % 16 = level := by
  have := byte_lt b
  rw [eq_byteOf_iff (by omega)]
  omega

/-- The fourth byte of a CALL: repeats above state above source kind (R141). -/
theorem eq_repeatsByte_iff {b : Byte} {repeats : Nat} {u : Bool} {k : SourceKind} (hr : repeats ≤ 8) :
    b = byteOf (repeats * 16 + flagAt u 4 + sourceKindCode k) ↔
      b.toNat / 16 = repeats ∧ b.toNat / 4 % 4 ≤ 1 ∧ (b.toNat / 4 % 4 == 1) = u ∧ b.toNat % 4 = sourceKindCode k := by
  have := byte_lt b
  have := sourceKindCode_lt k
  rw [eq_byteOf_iff (by rcases flagAt_eq u 4 with h | h <;> omega)]
  rcases flagAt_eq u 4 with ⟨h1, h2⟩ | ⟨h1, h2⟩ <;> rw [h1, h2]
  · rw [beq_eq_false_iff_ne]; omega
  · rw [beq_iff_eq]; omega

theorem readCall_iff {bytes : List Byte} {c : CallBody} : readCall bytes = some c ↔ bytes = encodeCall c ∧ c.inRange := by
  constructor
  · intro h
    unfold readCall at h
    split at h
    · next s q cl rs g m i ps =>
      split at h
      · next k pagers hk hp =>
        obtain ⟨hp, hall⟩ := readCallPagers_iff.1 hp
        have kind := sourceKindOf_iff.1 hk
        split at h
        · next hr =>
          obtain ⟨hc, hc', hl, hr, hr', hu, hg, hi⟩ := hr
          simp only [Option.some.injEq] at h
          subst h
          have := byte_lt s; have := byte_lt q; have := byte_lt m
          refine ⟨?_, by simp only; omega, by simp only; omega, hc, hc', hl, hr, hr', hg, by simp only; omega, hi, hall⟩
          have third := (eq_classByte_iff (b := cl) hc' hl).2 ⟨rfl, rfl⟩
          have fourth := (eq_repeatsByte_iff (b := rs) (k := k) hr').2 ⟨rfl, hu, rfl, kind⟩
          simp only [encodeCall, byteOf_of_toNat, ← third, ← fourth, ← hp]
          rfl
        · simp at h
      · simp at h
    · simp at h
  · rintro ⟨rfl, hs, hq, hc, hc', hl, hr, hr', hg, hm, hi, hall⟩
    obtain ⟨third, third'⟩ := (eq_classByte_iff hc' hl).1 rfl
    obtain ⟨f1, f2, f3, f4⟩ := (eq_repeatsByte_iff (u := c.unanswered) (k := c.kind) hr').1 rfl
    simp only [encodeCall, List.cons_append, List.nil_append, readCall, readCallPagers_iff.2 ⟨rfl, hall⟩, third, third', f1, f2, f3,
      sourceKindOf_iff.2 f4, byteOf_toNat (show c.serial < 256 by omega), byteOf_toNat (show c.seq < 256 by omega),
      byteOf_toNat (show c.group < 256 by omega), byteOf_toNat (show c.msg < 256 by omega),
      byteOf_toNat (show c.input < 256 by omega), hc, hc', hl, hr, hr', hg, hi, and_self, if_true]

end Sys2Proof.Machine
end

section
/-! PROOF. The records of a LOG and the summaries and counters of a STATE as bytes and back (R144, R192). -/

namespace Sys2Proof.Machine

/-! ### Records -/

theorem eq_fourBytes_iff {a b c d : Byte} {n : Nat} (h : n < 4294967296) :
    [a, b, c, d] = fourBytes n ↔ a.toNat * 16777216 + b.toNat * 65536 + c.toNat * 256 + d.toNat = n := by
  have := byte_lt a; have := byte_lt b; have := byte_lt c; have := byte_lt d
  simp only [fourBytes, List.cons.injEq, and_true, ← BitVec.toNat_inj, byteOf, BitVec.toNat_ofNat]
  omega

/-- A field that a tag makes present or absent holds one byte, or is 0FFH (R144; notes/assumptions/21.md). -/
theorem optField_iff {present : Bool} {b : Byte} {x : Option Nat} :
    optionalFits present b = true ∧ (if present then some b.toNat else none) = x ↔
      b = optByte x ∧ x.isSome = present ∧ ∀ n ∈ x, n ≤ 255 := by
  have := byte_lt b
  cases present with
  | false =>
    have absent : optionalFits false b = true ↔ b = optByte none := by simp [optionalFits, optByte]
    rw [absent]
    cases x <;> simp
  | true =>
    cases x with
    | none => simp
    | some n =>
      simp only [optionalFits, Bool.true_or, if_true, true_and, Option.some.injEq, Option.isSome_some, Option.mem_def, optByte]
      constructor
      · rintro rfl
        exact ⟨(byteOf_of_toNat b).symm, by intro n hn; omega⟩
      · rintro ⟨hb, hn⟩
        exact (eq_byteOf_iff (by have := hn n rfl; omega) b).1 hb

/-- The pager field of a record: absent under a tag without one, and 0FFH or 0 to 63 else (R144). -/
theorem pagerField_iff {present : Bool} {b : Byte} {x : Option Nat} :
    optionalFits present b = true ∧ readOptPager b = some x ↔
      b = optByte x ∧ (present = false → x = none) ∧ ∀ n ∈ x, n ≤ 63 := by
  rw [readOptPager_iff]
  cases present with
  | true => simp [optionalFits]
  | false =>
    cases x with
    | none => simp [optionalFits, optByte]
    | some n =>
      constructor
      · rintro ⟨ho, hb, hn⟩
        have hn : n ≤ 63 := hn n rfl
        have hb := (eq_byteOf_iff (by omega) b).1 hb
        simp [optionalFits] at ho
        subst ho
        simp at hb
        omega
      · rintro ⟨-, h, -⟩
        simp at h

theorem readRecord_iff {t a b c d s p x : Byte} {r : Record} :
    readRecord t a b c d s p x = some r ↔ [t, a, b, c, d, s, p, x] = encodeRecord r ∧ r.wellFormed := by
  have bytes : [t, a, b, c, d, s, p, x] = encodeRecord r ↔
      t = byteOf (tagCode r.tag) ∧ [a, b, c, d] = fourBytes r.time ∧ s = optByte r.serial ∧ p = optByte r.pager ∧
        x = optByte r.detail := by
    simp only [encodeRecord, fourBytes, List.cons_append, List.nil_append, List.cons.injEq, and_true, and_assoc]
  have time := byte_lt a; have := byte_lt b; have := byte_lt c; have := byte_lt d
  rw [bytes]
  constructor
  · intro h
    unfold readRecord at h
    split at h
    · next tag pager ht hp =>
      split at h
      · next hf =>
        simp only [Bool.and_eq_true] at hf
        obtain ⟨⟨fs, fp⟩, fx⟩ := hf
        simp only [Option.some.injEq] at h
        obtain ⟨es, is, ls⟩ := optField_iff.1 ⟨fs, rfl⟩
        obtain ⟨ep, ip, lp⟩ := pagerField_iff.1 ⟨fp, hp⟩
        obtain ⟨ex, ix, lx⟩ := optField_iff.1 ⟨fx, rfl⟩
        subst h
        refine ⟨⟨?_, ?_, es, ep, ex⟩, by simp only; omega, is, ls, ip, lp, ix, lx⟩
        · exact (eq_byteOf_iff (tagCode_lt _) t).2 (tagOf_iff.1 ht)
        · exact (eq_fourBytes_iff (by simp only; omega)).2 rfl
      · simp at h
    · simp at h
  · rintro ⟨⟨ht, htime, hs, hp, hx⟩, wt, ws, ls, wp, lp, wx, lx⟩
    obtain ⟨fs, es⟩ := optField_iff.2 ⟨hs, ws, ls⟩
    obtain ⟨fp, ep⟩ := pagerField_iff.2 ⟨hp, wp, lp⟩
    obtain ⟨fx, ex⟩ := optField_iff.2 ⟨hx, wx, lx⟩
    have et : tagOf t.toNat = some r.tag := tagOf_iff.2 ((eq_byteOf_iff (tagCode_lt _) t).1 ht)
    simp only [readRecord, et, ep, fs, fp, fx, Bool.and_true, if_true, es, ex, (eq_fourBytes_iff wt).1 htime]

theorem encodeRecord_length (r : Record) : (encodeRecord r).length = 8 := rfl

theorem readRecords_iff {bytes : List Byte} {rs : List Record} :
    readRecords bytes = some rs ↔ bytes = rs.flatMap encodeRecord ∧ ∀ r ∈ rs, r.wellFormed := by
  constructor
  · intro h
    fun_induction readRecords bytes generalizing rs with
    | case1 => cases h; simp
    | case2 t a b c d s p x rest r more others first ih =>
      simp only [Option.some.injEq] at h
      subst h
      obtain ⟨first, hwf⟩ := readRecord_iff.1 first
      obtain ⟨hb, hall⟩ := ih others
      refine ⟨by rw [List.flatMap_cons, ← first, ← hb]; rfl, ?_⟩
      rintro r (_ | ⟨_, hr⟩)
      · exact hwf
      · exact hall _ hr
    | case3 => simp at h
    | case4 => simp at h
  · rintro ⟨rfl, hall⟩
    induction rs with
    | nil => rfl
    | cons r rs ih =>
      have first := readRecord_iff.2 ⟨rfl, hall r (by simp)⟩
      have more := ih fun x hx => hall x (by simp [hx])
      simp only [List.flatMap_cons, encodeRecord, fourBytes, List.cons_append, List.nil_append, readRecords] at first more ⊢
      rw [first, more]

/-! ### Summaries and counters -/

theorem eq_twoBytes_iff {a b : Byte} {n : Nat} (h : n ≤ 65535) : [a, b] = twoBytes n ↔ a.toNat * 256 + b.toNat = n := by
  have := byte_lt a; have := byte_lt b
  simp only [twoBytes, List.cons.injEq, and_true, ← BitVec.toNat_inj, byteOf, BitVec.toNat_ofNat]
  omega

theorem readSummary_iff {s a b r : Byte} {m : Summary} :
    readSummary s a b r = some m ↔ [s, a, b, r] = encodeSummary m ∧ m.wellFormed := by
  have := byte_lt s; have := byte_lt a; have := byte_lt b
  have bytes : [s, a, b, r] = encodeSummary m ↔ s = byteOf m.serial ∧
      a = byteOf (incidentStateCode m.state * 64 + m.level * 16 + m.cls) ∧ b = byteOf (sourceKindCode m.kind * 16 + m.input) ∧
      r = optByte m.responder := by
    simp only [encodeSummary, List.cons.injEq, and_true]
  rw [bytes]
  constructor
  · intro h
    unfold readSummary at h
    split at h
    · next kind who hk hr =>
      obtain ⟨hr, hp⟩ := readOptPager_iff.1 hr
      have hk := sourceKindOf_iff.1 hk
      split at h
      · next hc =>
        simp only [Option.some.injEq] at h
        subst h
        have state : incidentStateCode (incidentStateOf (a.toNat / 64)) = a.toNat / 64 :=
          ((incidentStateOf_iff (by omega)).1 rfl).symm
        refine ⟨⟨(byteOf_of_toNat s).symm, ?_, ?_, hr⟩, by simp only; omega, by simp only; omega, hc.1, hc.2, by simp only; omega, hp⟩
        · rw [eq_byteOf_iff (by simp only [state]; omega)]; simp only [state]; omega
        · rw [eq_byteOf_iff (by simp only; omega)]; simp only; omega
      · simp at h
    · simp at h
  · rintro ⟨⟨hs, ha, hb, hr⟩, ws, wl, wc, wc', wi, wr⟩
    have := incidentStateCode_lt m.state
    have := sourceKindCode_lt m.kind
    rw [eq_byteOf_iff (by omega)] at hs ha hb
    have kind : sourceKindOf (b.toNat / 16) = some m.kind := sourceKindOf_iff.2 (by omega)
    have state : incidentStateOf (a.toNat / 64) = m.state := (incidentStateOf_iff (by omega)).2 (by omega)
    have cls : a.toNat % 16 = m.cls := by omega
    have level : a.toNat / 16 % 4 = m.level := by omega
    have input : b.toNat % 16 = m.input := by omega
    simp only [readSummary, kind, readOptPager_iff.2 ⟨hr, wr⟩, cls, wc, wc', and_self, if_true, state, level, input, hs]

/-- The twelve bytes of the counters (R144). -/
theorem readState_zero_iff {bytes : List Byte} {ms : List Summary} {c : Counters} :
    readState 0 bytes = some (ms, c) ↔ ms = [] ∧ bytes = encodeCounters c ∧ c.wellFormed := by
  constructor
  · intro h
    unfold readState at h
    split at h
    · next heq => simp at heq
    · next a b c' d e f g h' i j k l _ =>
      simp only [Option.some.injEq, Prod.mk.injEq] at h
      obtain ⟨rfl, rfl⟩ := h
      have := byte_lt a; have := byte_lt b; have := byte_lt c'; have := byte_lt d; have := byte_lt e; have := byte_lt f
      have := byte_lt g; have := byte_lt h'; have := byte_lt i; have := byte_lt j; have := byte_lt k; have := byte_lt l
      have pair : ∀ x y : Byte, [x, y] = twoBytes (x.toNat * 256 + y.toNat) := fun x y =>
        (eq_twoBytes_iff (by have := byte_lt x; have := byte_lt y; omega)).2 rfl
      refine ⟨rfl, ?_, ?_⟩
      · simp only [encodeCounters, ← pair]
        rfl
      · simp only [Counters.wellFormed]
        omega
    · simp at h
  · rintro ⟨rfl, rfl, h1, h2, h3, h4, h5, h6⟩
    have value : ∀ n, n ≤ 65535 → (byteOf (n / 256)).toNat * 256 + (byteOf (n % 256)).toNat = n := fun n hn =>
      (eq_twoBytes_iff hn).1 rfl
    simp only [encodeCounters, twoBytes, List.cons_append, List.nil_append, readState, value _ h1, value _ h2, value _ h3,
      value _ h4, value _ h5, value _ h6]

theorem readState_iff {n : Nat} {bytes : List Byte} {ms : List Summary} {c : Counters} :
    readState n bytes = some (ms, c) ↔ ms.length = n ∧ bytes = ms.flatMap encodeSummary ++ encodeCounters c ∧
      (∀ m ∈ ms, m.wellFormed) ∧ c.wellFormed := by
  induction n generalizing bytes ms with
  | zero =>
    rw [readState_zero_iff, List.length_eq_zero_iff]
    constructor
    · rintro ⟨rfl, hb, hc⟩
      exact ⟨rfl, by simpa using hb, by simp, hc⟩
    · rintro ⟨rfl, hb, -, hc⟩
      exact ⟨rfl, by simpa using hb, hc⟩
  | succ n ih =>
    constructor
    · intro h
      unfold readState at h
      split at h
      · next n' s a b r rest heq =>
        cases heq
        split at h
        · next m ms' c' hm hr =>
          simp only [Option.some.injEq, Prod.mk.injEq] at h
          obtain ⟨rfl, rfl⟩ := h
          obtain ⟨first, hwf⟩ := readSummary_iff.1 hm
          obtain ⟨hl, hb, hall, hc⟩ := ih.1 hr
          refine ⟨by simp [hl], by rw [List.flatMap_cons, ← first, List.append_assoc, ← hb]; rfl, ?_, hc⟩
          rintro r (_ | ⟨_, hr⟩)
          · exact hwf
          · exact hall _ hr
        · simp at h
      · next heq => simp at heq
      · simp at h
    · rintro ⟨hl, rfl, hall, hc⟩
      cases ms with
      | nil => simp at hl
      | cons m ms =>
        have first := readSummary_iff.2 ⟨rfl, hall m (by simp)⟩
        have more := ih.2 ⟨by simpa using hl, rfl, fun x hx => hall x (by simp [hx]), hc⟩
        simp only [List.flatMap_cons, encodeSummary, List.cons_append, List.nil_append, readState] at first more ⊢
        rw [first, more]

end Sys2Proof.Machine
end

section
/-! PROOF. What a row of bytes is judged to be: a body, a header and a check word read back are those a station codes, but for the fields
a QUERY does not read (R130, R137 to R144, R192). -/

namespace Sys2Proof.Machine

/-! ### Bodies -/

/-- The bytes a body may be coded as: a station's own coding, or for a QUERY any in the fields its kind does not read (R143). -/
def Body.codedAs (body : Body) (bytes : List Byte) : Prop :=
  match body with
  | .query q => ∃ x y, bytes = queryBytes x y q
  | body => bytes = encodeBody body

theorem length_flatMap_of_const {α β : Type} {f : α → List β} {n : Nat} (h : ∀ x, (f x).length = n) (l : List α) :
    (l.flatMap f).length = l.length * n := by
  simp [List.length_flatMap, h]

theorem queryBytes_length (x y : Byte) (q : Query) : (queryBytes x y q).length = 3 := by
  cases q <;> rfl

theorem encodeCounters_length (c : Counters) : (encodeCounters c).length = 12 := rfl

theorem encodeCall_length (c : CallBody) : (encodeCall c).length = 7 + c.pagers.length := by
  simp [encodeCall]; omega

theorem shapeFits_iff (k : BurstKind) (count total : Nat) : shapeFits k count total = true ↔
    (kindShape k).2.2.1 ≤ count ∧ count ≤ (kindShape k).2.2.2 ∧ total = 6 + (kindShape k).1 + count * (kindShape k).2.1 + 2 := by
  simp only [shapeFits, Bool.and_eq_true, decide_eq_true_eq, and_assoc]

/-- Every shape of R139 lies in the lengths R130 allows. -/
theorem shapeFits_total {k : BurstKind} {count total : Nat} (h : shapeFits k count total = true) : 9 ≤ total ∧ total ≤ 84 := by
  rw [shapeFits_iff] at h
  cases k <;> simp only [kindShape] at h <;> omega

/-- A row of bytes is a body of a kind, with an entry count and a length that fit it, exactly when it codes a well-formed body of that
kind and count (R139 to R144). -/
theorem readBody_iff {k : BurstKind} {count : Nat} {bytes : List Byte} {body : Body} :
    readBody k count bytes = some body ∧ shapeFits k count (bytes.length + 8) = true ↔
      body.burstKind = k ∧ body.entryCount = count ∧ body.wellFormed ∧ body.codedAs bytes := by
  rw [shapeFits_iff]
  cases k with
  | claim =>
    simp only [readBody, Option.map_eq_some_iff, readClaimEntries_iff, kindShape]
    constructor
    · rintro ⟨⟨es, ⟨rfl, hall⟩, rfl⟩, h1, h2, h3⟩
      rw [length_flatMap_of_const (n := 2) fun _ => rfl] at h3
      have count : es.length = count := by omega
      exact ⟨rfl, count, ⟨count ▸ h1, count ▸ h2, hall⟩, rfl⟩
    · rintro ⟨hk, rfl, hw, hb⟩
      cases body <;> cases hk
      obtain ⟨h1, h2, hall⟩ := hw
      have hb : bytes = _ := hb
      subst hb
      refine ⟨⟨_, ⟨rfl, hall⟩, rfl⟩, h1, h2, ?_⟩
      simp only [encodeBody, Body.entryCount, length_flatMap_of_const (n := 2) (f := encodeClaimEntry) fun _ => rfl]
      omega
  | call =>
    simp only [readBody, Option.map_eq_some_iff, readCall_iff, kindShape]
    constructor
    · rintro ⟨⟨c, ⟨rfl, w1, w2, w3, w4, w5, w6, w7, w8, w9, w10, hall⟩, rfl⟩, h1, h2, h3⟩
      rw [encodeCall_length] at h3
      have count : c.pagers.length = count := by omega
      exact ⟨rfl, count, ⟨w1, w2, w3, w4, w5, w6, w7, w8, w9, w10, count ▸ h1, count ▸ h2, hall⟩, rfl⟩
    · rintro ⟨hk, rfl, hw, hb⟩
      cases body <;> cases hk
      obtain ⟨w1, w2, w3, w4, w5, w6, w7, w8, w9, w10, h1, h2, hall⟩ := hw
      have hb : bytes = _ := hb
      subst hb
      refine ⟨⟨_, ⟨rfl, w1, w2, w3, w4, w5, w6, w7, w8, w9, w10, hall⟩, rfl⟩, h1, h2, ?_⟩
      simp only [encodeBody, Body.entryCount, encodeCall_length]
      omega
  | answer =>
    simp only [readBody, Option.map_eq_some_iff, readAnswer_iff, kindShape]
    constructor
    · rintro ⟨⟨k, ⟨rfl, hw⟩, rfl⟩, h1, h2, -⟩
      exact ⟨rfl, by simp only [Body.entryCount]; omega, hw, rfl⟩
    · rintro ⟨hk, rfl, hw, hb⟩
      cases body <;> cases hk
      have hb : bytes = _ := hb
      subst hb
      exact ⟨⟨_, ⟨rfl, hw⟩, rfl⟩, Nat.le_refl _, Nat.le_refl _, rfl⟩
  | settle =>
    simp only [readBody, Option.map_eq_some_iff, readSettle_iff, kindShape]
    constructor
    · rintro ⟨⟨k, ⟨rfl, hw⟩, rfl⟩, h1, h2, -⟩
      exact ⟨rfl, by simp only [Body.entryCount]; omega, hw, rfl⟩
    · rintro ⟨hk, rfl, hw, hb⟩
      cases body <;> cases hk
      have hb : bytes = _ := hb
      subst hb
      exact ⟨⟨_, ⟨rfl, hw⟩, rfl⟩, Nat.le_refl _, Nat.le_refl _, rfl⟩
  | duty =>
    simp only [readBody, Option.map_eq_some_iff, readDutyEntries_iff, kindShape]
    constructor
    · rintro ⟨⟨es, ⟨rfl, hall⟩, rfl⟩, h1, h2, h3⟩
      rw [length_flatMap_of_const (n := 2) fun _ => rfl] at h3
      have count : es.length = count := by omega
      exact ⟨rfl, count, ⟨count ▸ h1, count ▸ h2, hall⟩, rfl⟩
    · rintro ⟨hk, rfl, hw, hb⟩
      cases body <;> cases hk
      obtain ⟨h1, h2, hall⟩ := hw
      have hb : bytes = _ := hb
      subst hb
      refine ⟨⟨_, ⟨rfl, hall⟩, rfl⟩, h1, h2, ?_⟩
      simp only [encodeBody, Body.entryCount, length_flatMap_of_const (n := 2) (f := encodeDutyEntry) fun _ => rfl]
      omega
  | zone =>
    simp only [readBody, Option.map_eq_some_iff, readZone_iff, kindShape]
    constructor
    · rintro ⟨⟨k, rfl, rfl⟩, h1, h2, -⟩
      exact ⟨rfl, by simp only [Body.entryCount]; omega, trivial, rfl⟩
    · rintro ⟨hk, rfl, hw, hb⟩
      cases body <;> cases hk
      have hb : bytes = _ := hb
      subst hb
      exact ⟨⟨_, rfl, rfl⟩, Nat.le_refl _, Nat.le_refl _, rfl⟩
  | query =>
    simp only [readBody, Option.map_eq_some_iff, readQuery_iff, kindShape]
    constructor
    · rintro ⟨⟨q, ⟨hw, coded⟩, rfl⟩, h1, h2, -⟩
      exact ⟨rfl, by simp only [Body.entryCount]; omega, hw, coded⟩
    · rintro ⟨hk, rfl, hw, hb⟩
      cases body <;> cases hk
      obtain ⟨x, y, hb⟩ := hb
      refine ⟨⟨_, ⟨hw, x, y, hb⟩, rfl⟩, Nat.le_refl _, Nat.le_refl _, ?_⟩
      rw [hb, queryBytes_length]
      rfl
  | log =>
    simp only [readBody, Option.map_eq_some_iff, readRecords_iff, kindShape]
    constructor
    · rintro ⟨⟨rs, ⟨rfl, hall⟩, rfl⟩, h1, h2, h3⟩
      rw [length_flatMap_of_const encodeRecord_length] at h3
      have count : rs.length = count := by omega
      exact ⟨rfl, count, ⟨count ▸ h1, count ▸ h2, hall⟩, rfl⟩
    · rintro ⟨hk, rfl, hw, hb⟩
      cases body <;> cases hk
      obtain ⟨h1, h2, hall⟩ := hw
      have hb : bytes = _ := hb
      subst hb
      refine ⟨⟨_, ⟨rfl, hall⟩, rfl⟩, h1, h2, ?_⟩
      simp only [encodeBody, Body.entryCount, length_flatMap_of_const encodeRecord_length]
      omega
  | state =>
    simp only [readBody, Option.map_eq_some_iff, Prod.exists, readState_iff, kindShape]
    constructor
    · rintro ⟨⟨ms, c, ⟨hl, rfl, hall, hc⟩, rfl⟩, h1, h2, -⟩
      exact ⟨rfl, hl, ⟨hl ▸ h2, hall, hc⟩, rfl⟩
    · rintro ⟨hk, rfl, hw, hb⟩
      cases body <;> cases hk
      obtain ⟨h2, hall, hc⟩ := hw
      have hb : bytes = _ := hb
      subst hb
      refine ⟨⟨_, _, ⟨rfl, rfl, hall, hc⟩, rfl⟩, Nat.zero_le _, h2, ?_⟩
      simp only [encodeBody, Body.entryCount, List.length_append, encodeCounters_length,
        length_flatMap_of_const (n := 4) (f := encodeSummary) fun _ => rfl]
      omega

/-! ### Headers -/

theorem addresseeOf_iff {b : Byte} {a : Option Nat} : addresseeOf b.toNat = some a ↔ b = optByte a ∧ ∀ n ∈ a, n ≤ 31 := by
  unfold addresseeOf
  cases a with
  | none =>
    have absent : b = optByte none ↔ b.toNat = 255 := eq_byteOf_iff (by decide) b
    rw [absent]
    split <;> simp [*]
  | some n =>
    constructor
    · intro h
      split at h
      · simp at h
      · split at h
        · simp only [Option.some.injEq] at h
          subst h
          exact ⟨(byteOf_of_toNat b).symm, by simpa⟩
        · simp at h
    · rintro ⟨hb, hn⟩
      have hn : n ≤ 31 := hn n rfl
      have hb := (eq_byteOf_iff (by omega) b).1 hb
      rw [if_neg (by omega), if_pos (by omega), hb]

theorem readBurst_iff {k : BurstKind} {b1 b2 b3 count total : Nat} {body : List Byte} {b : Burst} :
    readBurst k b1 b2 b3 count total body = some b ↔
      (lineClassOf (b1 / 64) = some b.lineClass ∧ b1 % 64 = b.sender ∧ decide (128 ≤ b2) = b.dark ∧
        (b2 / 64 % 2 == 1) = b.historyHigh ∧ b2 % 64 = b.openIncidents ∧ addresseeOf b3 = some b.addressee) ∧
      (b1 % 64 ≤ 31 ∧ b2 % 64 ≤ 16) ∧ readBody k count body = some b.body ∧ shapeFits k count total = true := by
  constructor
  · intro h
    unfold readBurst at h
    split at h
    · next lc addr bd h1 h2 h3 =>
      split at h
      · next hr =>
        simp only [Option.some.injEq] at h
        subst h
        exact ⟨⟨h1, rfl, rfl, rfl, rfl, h2⟩, ⟨hr.1, hr.2.1⟩, h3, hr.2.2⟩
      · simp at h
    · simp at h
  · rintro ⟨⟨h1, h2, h3, h4, h5, h6⟩, ⟨h7, h8⟩, h9, h10⟩
    unfold readBurst
    rw [h1, h6, h9]
    simp only [h2, h3, h4, h5]
    exact if_pos ⟨h2 ▸ h7, h5 ▸ h8, h10⟩

/-- The six bytes of a header are those of a burst exactly when its fields are read from them (R137, R138). -/
theorem eq_encodeHeader_iff {h0 h1 h2 h3 h4 h5 : Byte} {b : Burst} (hs : b.sender ≤ 31) (ho : b.openIncidents ≤ 16)
    (hc : b.body.entryCount ≤ 255) (ht : (encodeBody b.body).length + 8 ≤ 255) :
    [h0, h1, h2, h3, h4, h5] = encodeHeader b ↔
      h0.toNat = burstKindCode b.body.burstKind ∧
      (h1.toNat / 64 = lineClassCode b.lineClass ∧ h1.toNat % 64 = b.sender) ∧
      (decide (128 ≤ h2.toNat) = b.dark ∧ (h2.toNat / 64 % 2 == 1) = b.historyHigh ∧ h2.toNat % 64 = b.openIncidents) ∧
      h3 = optByte b.addressee ∧ h4.toNat = b.body.entryCount ∧ h5.toNat = (encodeBody b.body).length + 8 := by
  have second : h1 = byteOf (lineClassCode b.lineClass * 64 + b.sender) ↔
      h1.toNat / 64 = lineClassCode b.lineClass ∧ h1.toNat % 64 = b.sender := by
    have := lineClassCode_lt b.lineClass
    have := byte_lt h1
    rw [eq_byteOf_iff (by omega)]
    omega
  have third : h2 = byteOf (flagAt b.dark 128 + flagAt b.historyHigh 64 + b.openIncidents) ↔
      decide (128 ≤ h2.toNat) = b.dark ∧ (h2.toNat / 64 % 2 == 1) = b.historyHigh ∧ h2.toNat % 64 = b.openIncidents := by
    have := byte_lt h2
    rcases flagAt_eq b.dark 128 with ⟨d1, d2⟩ | ⟨d1, d2⟩ <;> rcases flagAt_eq b.historyHigh 64 with ⟨e1, e2⟩ | ⟨e1, e2⟩ <;>
      rw [eq_byteOf_iff (by omega), d1, d2, e1, e2] <;>
      simp only [decide_eq_false_iff_not, decide_eq_true_eq, beq_eq_false_iff_ne, beq_iff_eq] <;> omega
  have sixth : h5 = byteOf (6 + (encodeBody b.body).length + 2) ↔ h5.toNat = (encodeBody b.body).length + 8 := by
    rw [eq_byteOf_iff (by omega)]; omega
  simp only [encodeHeader, List.cons.injEq, and_true, second, third, sixth, eq_byteOf_iff (burstKindCode_lt _),
    eq_byteOf_iff (show b.body.entryCount < 256 by omega)]

/-! ### Whole bursts -/

theorem withCheck_length (l : List Byte) : (withCheck l).length = l.length + 2 := by
  simp [withCheck, twoBytes]

/-- The five tests of R130, in the order of its table. -/
theorem judge_valid_iff {bytes : List Byte} {b : Burst} :
    judge bytes = .valid b ↔
      (6 ≤ bytes.length ∧ (bytes.getD 5 0).toNat ≤ bytes.length) ∧
      (9 ≤ (bytes.getD 5 0).toNat ∧ (bytes.getD 5 0).toNat ≤ 84 ∧ bytes.length ≤ (bytes.getD 5 0).toNat) ∧
      twoBytes (checkWord (bytes.take ((bytes.getD 5 0).toNat - 2))).toNat = bytes.drop ((bytes.getD 5 0).toNat - 2) ∧
      ∃ k, burstKindOf (bytes.getD 0 0).toNat = some k ∧
        readBurst k (bytes.getD 1 0).toNat (bytes.getD 2 0).toNat (bytes.getD 3 0).toNat (bytes.getD 4 0).toNat
          (bytes.getD 5 0).toNat ((bytes.take ((bytes.getD 5 0).toNat - 2)).drop 6) = some b := by
  unfold judge
  simp only
  by_cases h1 : bytes.length < 6 ∨ bytes.length < (bytes.getD 5 0).toNat
  · rw [if_pos h1]
    simp only [reduceCtorEq, false_iff]
    omega
  rw [if_neg h1]
  by_cases h2 : (bytes.getD 5 0).toNat < 9 ∨ 84 < (bytes.getD 5 0).toNat ∨ (bytes.getD 5 0).toNat < bytes.length
  · rw [if_pos h2]
    simp only [reduceCtorEq, false_iff]
    omega
  rw [if_neg h2]
  by_cases h3 : twoBytes (checkWord (bytes.take ((bytes.getD 5 0).toNat - 2))).toNat = bytes.drop ((bytes.getD 5 0).toNat - 2)
  · rw [if_neg (not_not.2 h3)]
    have length : 6 ≤ bytes.length ∧ (bytes.getD 5 0).toNat ≤ bytes.length := by omega
    have total : 9 ≤ (bytes.getD 5 0).toNat ∧ (bytes.getD 5 0).toNat ≤ 84 ∧ bytes.length ≤ (bytes.getD 5 0).toNat := by omega
    simp only [length, total, h3, and_self, true_and]
    cases burstKindOf (bytes.getD 0 0).toNat with
    | none => simp
    | some k =>
      simp only [Option.some.injEq, exists_eq_left']
      split
      · next b' read => simp only [read, Judgement.valid.injEq, Option.some.injEq]
      · next read => simp only [read, reduceCtorEq]
  · rw [if_pos h3]
    simp only [h3, false_and, and_false, reduceCtorEq]

/-- The bytes a burst may be coded as: header, body and check word (R137, R192). -/
def Burst.codedAs (b : Burst) (bytes : List Byte) : Prop :=
  ∃ body, b.body.codedAs body ∧ bytes = withCheck (encodeHeader b ++ body)

theorem Body.codedAs_length {body : Body} {bytes : List Byte} (h : body.codedAs bytes) : bytes.length = (encodeBody body).length := by
  cases body with
  | query q =>
    obtain ⟨x, y, rfl⟩ := h
    rw [queryBytes_length]
    cases q <;> rfl
  | _ => exact congrArg List.length h

/-- A station codes the fields a query does not carry as absent (R143, R192). -/
theorem Body.codedAs_encodeBody (body : Body) : body.codedAs (encodeBody body) := by
  cases body with
  | query q => cases q <;> exact ⟨0xFF, 0xFF, rfl⟩
  | _ => rfl

theorem exists_six_of_le_length {l : List Byte} (h : 6 ≤ l.length) :
    ∃ a b c d e f rest, l = a :: b :: c :: d :: e :: f :: rest := by
  match l, h with
  | a :: b :: c :: d :: e :: f :: rest, _ => exact ⟨a, b, c, d, e, f, rest, rfl⟩

/-- A row of bytes is judged a valid burst exactly when it codes that burst, well-formed (R130, R137 to R144). -/
theorem judge_iff {bytes : List Byte} {b : Burst} : judge bytes = .valid b ↔ b.wellFormed ∧ b.codedAs bytes := by
  rw [judge_valid_iff]
  constructor
  · rintro ⟨⟨long, whole⟩, ⟨low, high, -⟩, check, k, kind, read⟩
    obtain ⟨h0, h1, h2, h3, h4, h5, rest, rfl⟩ := exists_six_of_le_length long
    simp only [List.getD_cons_zero, List.getD_cons_succ, List.length_cons] at *
    obtain ⟨⟨lineClass, sender, dark, high', opened, who⟩, ⟨hs, ho⟩, body, shape⟩ := readBurst_iff.1 read
    have front : [h0, h1, h2, h3, h4, h5] ++ ((h0 :: h1 :: h2 :: h3 :: h4 :: h5 :: rest).take (h5.toNat - 2)).drop 6 =
        (h0 :: h1 :: h2 :: h3 :: h4 :: h5 :: rest).take (h5.toNat - 2) := by
      obtain ⟨n, hn⟩ : ∃ n, h5.toNat - 2 = n + 6 := ⟨h5.toNat - 8, by omega⟩
      rw [hn]
      rfl
    have bodyLength : (((h0 :: h1 :: h2 :: h3 :: h4 :: h5 :: rest).take (h5.toNat - 2)).drop 6).length + 8 = h5.toNat := by
      rw [List.length_drop, List.length_take_of_le (by simp only [List.length_cons]; omega)]
      omega
    generalize ((h0 :: h1 :: h2 :: h3 :: h4 :: h5 :: rest).take (h5.toNat - 2)).drop 6 = own at body bodyLength front
    obtain ⟨hk, hc, hw, coded⟩ := readBody_iff.1 ⟨body, bodyLength.symm ▸ shape⟩
    have codedLength := Body.codedAs_length coded
    obtain ⟨fits, hwho⟩ := addresseeOf_iff.1 who
    refine ⟨⟨sender ▸ hs, opened ▸ ho, hwho, hw⟩, _, coded, ?_⟩
    have header : [h0, h1, h2, h3, h4, h5] = encodeHeader b :=
      (eq_encodeHeader_iff (sender ▸ hs) (opened ▸ ho) (by have := byte_lt h4; omega) (by omega)).2
        ⟨hk ▸ burstKindOf_iff.1 kind, ⟨lineClassOf_iff.1 lineClass, sender⟩, ⟨dark, high', opened⟩, fits, hc.symm, by omega⟩
    rw [← header, front, withCheck, check, List.take_append_drop]
  · rintro ⟨⟨hs, ho, hwho, hw⟩, body, coded, rfl⟩
    obtain ⟨read, shape⟩ := readBody_iff.2 ⟨rfl, rfl, hw, coded⟩
    have codedLength := Body.codedAs_length coded
    obtain ⟨low, high⟩ := shapeFits_total shape
    have count : b.body.entryCount ≤ 255 := by
      have := (shapeFits_iff _ _ _).1 shape
      generalize b.body.burstKind = k at this
      cases k <;> simp only [kindShape] at this <;> omega
    obtain ⟨h0, h1, h2, h3, h4, h5, header⟩ : ∃ h0 h1 h2 h3 h4 h5, encodeHeader b = [h0, h1, h2, h3, h4, h5] :=
      ⟨_, _, _, _, _, _, rfl⟩
    obtain ⟨kind, ⟨lineClass, sender⟩, ⟨dark, high', opened⟩, who, hc, total⟩ :=
      (eq_encodeHeader_iff hs ho count (by omega)).1 header.symm
    have total : h5.toNat = body.length + 8 := by omega
    have frontLength : h5.toNat - 2 = (encodeHeader b ++ body).length := by
      rw [header, total]; simp
    have front : (withCheck (encodeHeader b ++ body)).take (h5.toNat - 2) = encodeHeader b ++ body := by
      rw [withCheck, frontLength, List.take_left]
    have back : (withCheck (encodeHeader b ++ body)).drop (h5.toNat - 2) = twoBytes (checkWord (encodeHeader b ++ body)).toNat := by
      rw [withCheck, frontLength, List.drop_left]
    have bytes : ∀ i < 6, (withCheck (encodeHeader b ++ body)).getD i 0 = [h0, h1, h2, h3, h4, h5].getD i 0 := by
      intro i hi
      rw [withCheck, header]
      interval_cases i <;> rfl
    have length : (withCheck (encodeHeader b ++ body)).length = body.length + 8 := by
      rw [withCheck_length, header]; simp
    rw [bytes 5 (by decide), bytes 0 (by decide), bytes 1 (by decide), bytes 2 (by decide), bytes 3 (by decide), bytes 4 (by decide)]
    simp only [List.getD_cons_zero, List.getD_cons_succ]
    rw [front, back, length]
    refine ⟨by omega, by omega, rfl, _, burstKindOf_iff.2 kind, readBurst_iff.2 ⟨⟨lineClassOf_iff.2 lineClass, sender, dark, high',
      opened, addresseeOf_iff.2 ⟨who, hwho⟩⟩, by omega, ?_, ?_⟩⟩
    · rw [hc, header]
      exact read
    · rw [hc, total]
      exact shape

/-- Settles O37: a valid row codes the well-formed burst read from it, and the tests of R130 are those of `judge` in their order. -/
theorem receptionIsJudgedByFiveTests : Obligations.ReceptionIsJudgedByFiveTests := by
  refine ⟨fun bytes b h => ?_, fun bytes => ?_⟩
  · obtain ⟨hw, body, coded, rfl⟩ := judge_iff.1 h
    refine ⟨hw, fun no_query => ?_, fun q hq => ?_⟩
    · have own : body = encodeBody b.body := by
        unfold Body.codedAs at coded
        split at coded
        · next q hq => exact absurd hq (no_query q)
        · exact coded
      rw [own]
      rfl
    · rw [hq] at coded
      obtain ⟨x, y, rfl⟩ := coded
      exact ⟨x, y, rfl⟩
  · intro total
    simp only [judge_valid_iff, readBurst_iff]
    constructor
    · rintro ⟨b, length, range, check, k, kind, ⟨hl, hs, hd, hh, ho, ha⟩, ⟨hs', ho'⟩, body, shape⟩
      refine ⟨length, range, check, k, kind, ⟨_, body⟩, shape, hs', ?_, ho', ?_⟩
      · have := lineClassCode_lt b.lineClass
        have := lineClassOf_iff.1 hl
        omega
      · unfold addresseeOf at ha
        split at ha
        · next all => exact .inr all
        · split at ha
          · next one => exact .inl one
          · simp at ha
    · rintro ⟨length, range, check, k, kind, ⟨body, hb⟩, shape, hs, hl, ho, ha⟩
      obtain ⟨lc, hl⟩ : ∃ lc, lineClassOf ((bytes.getD 1 0).toNat / 64) = some lc := by
        generalize (bytes.getD 1 0).toNat / 64 = n at hl
        interval_cases n <;> exact ⟨_, rfl⟩
      obtain ⟨who, ha⟩ : ∃ who, addresseeOf (bytes.getD 3 0).toNat = some who := by
        unfold addresseeOf
        split
        · exact ⟨_, rfl⟩
        · exact ⟨_, if_pos (by omega)⟩
      exact ⟨⟨lc, _, _, _, _, who, body⟩, length, range, check, k, kind, ⟨hl, rfl, rfl, rfl, rfl, ha⟩, ⟨hs, ho⟩, hb, shape⟩

/-- Settles O52: a burst coded as a station codes it, or a QUERY in any coding, is judged to be that burst. -/
theorem sentBurstsAreReadBackWhole : Obligations.SentBurstsAreReadBackWhole := by
  refine fun b hw => ⟨judge_iff.2 ⟨hw, encodeBody b.body, b.body.codedAs_encodeBody, rfl⟩, fun q x y hq => judge_iff.2 ⟨hw, queryBytes x y q, ?_, rfl⟩⟩
  rw [hq]
  exact ⟨x, y, rfl⟩

end Sys2Proof.Machine
end

section
/-! PROOF. What an operation keeps: the soundness of every block, the timebase, the clock, LINE HOLD and CONFIGURED. One lemma for each
operation that a command is made of, composed as the operations are. -/

namespace Sys2Proof.Machine

/-- What every command but a power-on or a restart keeps. -/
structure Keeps (s t : State) : Prop where
  now : s.now ≤ t.now
  configured : s.configured = true → t.configured = true
  hold : s.line.hold = true → t.line.hold = true
  log : s.log.Sound → t.log.Sound ∧ s.log.seconds ≤ t.log.seconds
  queue : QueueSound s → QueueSound t
  counters : CountersSound s → CountersSound t
  roster : RosterSound s → RosterSound t
  lists : PagesSound s ∧ PlansSound s ∧ AnswersSound s → PagesSound t ∧ PlansSound t ∧ AnswersSound t
  zone : ZoneSound s → ZoneSound t

/-- What an operation keeps besides that neither loads an image nor begins a burst: the identity, and that nothing is sent. -/
structure Calm (s t : State) : Prop extends Keeps s t where
  ident : t.ident = s.ident
  sending : s.line.sending = none → t.line.sending = none

/-- A calm operation that keeps the incident table sound too. -/
structure Steady (s t : State) : Prop extends Calm s t where
  table : KeepsTable s t

theorem Keeps.refl (s : State) : Keeps s s :=
  ⟨Nat.le_refl _, id, id, fun h => ⟨h, Nat.le_refl _⟩, id, id, id, id, id⟩

theorem Keeps.trans {s t u : State} (h : Keeps s t) (k : Keeps t u) : Keeps s u where
  now := h.now.trans k.now
  configured := k.configured ∘ h.configured
  hold := k.hold ∘ h.hold
  log hs := ⟨(k.log (h.log hs).1).1, (h.log hs).2.trans (k.log (h.log hs).1).2⟩
  queue := k.queue ∘ h.queue
  counters := k.counters ∘ h.counters
  roster := k.roster ∘ h.roster
  lists := k.lists ∘ h.lists
  zone := k.zone ∘ h.zone

theorem Calm.trans {s t u : State} (h : Calm s t) (k : Calm t u) : Calm s u :=
  ⟨h.toKeeps.trans k.toKeeps, k.ident.trans h.ident, k.sending ∘ h.sending⟩

theorem Steady.refl (s : State) : Steady s s := ⟨⟨.refl s, rfl, id⟩, .refl s⟩

theorem Steady.trans {s t u : State} (h : Steady s t) (k : Steady t u) : Steady s u :=
  ⟨h.toCalm.trans k.toCalm, h.table.trans k.table⟩

/-- `Steady.trans` with the later operation first, which the goal names. -/
theorem Steady.after {s t u : State} (k : Steady t u) (h : Steady s t) : Steady s u := h.trans k

/-- A row of operations, each steady while `I` holds, which each keeps. -/
theorem Steady.foldl_of {α : Type} {f : State → α → State} (I : State → Prop) {l : List α}
    (h : ∀ s, I s → ∀ a ∈ l, Steady s (f s a) ∧ I (f s a)) : ∀ s, I s → Steady s (l.foldl f s) := by
  induction l with
  | nil => exact fun s _ => .refl s
  | cons a l ih =>
    intro s hs
    obtain ⟨first, hi⟩ := h s hs a (by simp)
    exact first.trans (ih (fun u hu b hb => h u hu b (by simp [hb])) _ hi)

theorem Steady.foldl {α : Type} {f : State → α → State} (h : ∀ s a, Steady s (f s a)) (l : List α) (s : State) :
    Steady s (l.foldl f s) :=
  Steady.foldl_of (fun _ => True) (fun s _ a _ => ⟨h s a, trivial⟩) s trivial

/-! ### One block changed -/

theorem zoneSound_iff (s : State) : ZoneSound s ↔ PlanSound s.zone.plan ∧ s.zone.slot < 32 ∧ s.zone.cycle < 256 ∧
    s.zone.lateCount ≤ 2 ∧ s.zone.beaconCount ≤ 1 ∧ s.zone.partialReturns ≤ counterMax := by
  constructor
  · rintro ⟨h1, h2, h3, h4, h5, h6, h7⟩
    exact ⟨⟨h1, h7⟩, h2, h3, h4, h5, h6⟩
  · rintro ⟨⟨h1, h7⟩, h2, h3, h4, h5, h6⟩
    exact ⟨h1, h2, h3, h4, h5, h6, h7⟩

theorem State.reach_steady (s : State) (t : Nat) : Steady s (s.reach t) :=
  ⟨⟨⟨Nat.le_max_left .., id, id, fun h => ⟨h, Nat.le_refl _⟩, id, id, id, id, id⟩, rfl, id⟩, id⟩

theorem State.withZone_steady (s : State) (z : Zone) (h : ZoneSound s → ZoneSound (s.withZone z)) : Steady s (s.withZone z) :=
  ⟨⟨⟨Nat.le_refl _, id, id, fun h => ⟨h, Nat.le_refl _⟩, id, id, id, id, h⟩, rfl, id⟩, id⟩

/-- The counts of the zone within their bounds (R90, R104, R107, R110); the plan is kept. -/
theorem State.withZone_steady_of {s : State} {z : Zone}
    (h : s.zone.slot < 32 ∧ s.zone.cycle < 256 ∧ s.zone.lateCount ≤ 2 ∧ s.zone.beaconCount ≤ 1 ∧ s.zone.partialReturns ≤ counterMax →
      z.slot < 32 ∧ z.cycle < 256 ∧ z.lateCount ≤ 2 ∧ z.beaconCount ≤ 1 ∧ z.partialReturns ≤ counterMax := by exact id)
    (hp : z.plan = s.zone.plan := by rfl) : Steady s (s.withZone z) := by
  refine s.withZone_steady z fun hs => (zoneSound_iff _).2 ?_
  obtain ⟨plan, counts⟩ := (zoneSound_iff s).1 hs
  exact ⟨(show z.plan = _ from hp) ▸ plan, h counts⟩

theorem State.withPresence_steady (s : State) (p : Presence) (h : RosterSound s → RosterSound (s.withPresence p) := by exact id) :
    Steady s (s.withPresence p) :=
  ⟨⟨⟨Nat.le_refl _, id, id, fun h => ⟨h, Nat.le_refl _⟩, id, id, h, id, id⟩, rfl, id⟩, id⟩

theorem State.withRelay_steady (s : State) (r : Relay) (h : PagesSound s ∧ PlansSound s ∧ AnswersSound s → PageListSound r.pages ∧ AnswersSound (s.withRelay r))
    (hr : s.relay.refused ≤ counterMax → r.refused ≤ counterMax := by exact id) :
    Steady s (s.withRelay r) :=
  ⟨⟨⟨Nat.le_refl _, id, id, fun h => ⟨h, Nat.le_refl _⟩, id, fun ⟨h1, h2, h3, h4, h5⟩ => ⟨h1, h2, h3, h4, hr h5⟩, id,
    fun hs => ⟨(h hs).1, hs.2.1, (h hs).2⟩, id⟩, rfl, id⟩, id⟩

theorem State.withScanner_steady (s : State) (c : Scanner) : Steady s (s.withScanner c) :=
  ⟨⟨⟨Nat.le_refl _, id, id, fun h => ⟨h, Nat.le_refl _⟩, id, id, id, id, id⟩, rfl, id⟩, id⟩

theorem State.withOffice_steady (s : State) (o : Office) : Steady s (s.withOffice o) :=
  ⟨⟨⟨Nat.le_refl _, id, id, fun h => ⟨h, Nat.le_refl _⟩, id, id, id, id, id⟩, rfl, id⟩, id⟩

theorem State.withPanel_steady (s : State) (p : Panel) : Steady s (s.withPanel p) :=
  ⟨⟨⟨Nat.le_refl _, id, id, fun h => ⟨h, Nat.le_refl _⟩, id, id, id, id, id⟩, rfl, id⟩, id⟩

theorem State.withLoader_steady (s : State) (l : Loader) (h : s.configured = true → (s.withLoader l).configured = true) :
    Steady s (s.withLoader l) :=
  ⟨⟨⟨Nat.le_refl _, h, id, fun h => ⟨h, Nat.le_refl _⟩, id, id, id, id, id⟩, rfl, id⟩, id⟩

theorem State.withLog_steady (s : State) (l : Log) (h : s.log.Sound → l.Sound ∧ s.log.seconds ≤ l.seconds) :
    Steady s (s.withLog l) :=
  ⟨⟨⟨Nat.le_refl _, id, id, h, id, id, id, id, id⟩, rfl, id⟩, id⟩

/-- The counters of the line (R134). -/
abbrev Line.CountersSound (l : Line) : Prop :=
  l.checkFaults ≤ counterMax ∧ l.framingAborts ≤ counterMax ∧ l.collisions ≤ counterMax ∧ l.drops ≤ counterMax

theorem State.withLine_keeps (s : State) (l : Line) (hh : s.line.hold = true → l.hold = true) (hq : s.line.Sound → l.Sound)
    (hc : s.line.CountersSound → l.CountersSound) : Keeps s (s.withLine l) :=
  ⟨Nat.le_refl _, id, hh, fun h => ⟨h, Nat.le_refl _⟩, hq, fun ⟨h1, h2, h3, h4, h5⟩ =>
    have ⟨k1, k2, k3, k4⟩ := hc ⟨h1, h2, h3, h4⟩
    ⟨k1, k2, k3, k4, h5⟩, id, id, id⟩

theorem State.withLine_steady (s : State) (l : Line) (hh : s.line.hold = true → l.hold = true) (hq : s.line.Sound → l.Sound)
    (hc : s.line.CountersSound → l.CountersSound) (hs : s.line.sending = none → l.sending = none) : Steady s (s.withLine l) :=
  ⟨⟨s.withLine_keeps l hh hq hc, rfl, hs⟩, id⟩

/-! ### The work of the Incident Engine, of the Relay Unit and of the transmit queue -/

theorem Works.calm {s t : State} (w : Works s t) : Calm s t where
  now := w.now.ge
  configured h := by simpa only [State.configured, w.loader] using h
  hold h := by rw [w.line]; exact h
  log h := ⟨w.log.sound h, w.log.seconds.ge⟩
  queue := w.queueSound
  counters := fun ⟨h1, h2, h3, h4, h5⟩ => by
    have refused := w.refused h5
    have l := w.line
    unfold CountersSound
    rw [l]
    exact ⟨h1, h2, h3, h4, refused⟩
  roster h := by
    unfold RosterSound
    rw [w.presence, w.ident]
    exact h
  lists := fun ⟨h1, h2, h3⟩ => ⟨w.pages h2 h1, h2.of_plans w.plans, w.answers h3⟩
  zone h := by
    obtain ⟨plan, rest⟩ := (zoneSound_iff s).1 h
    refine (zoneSound_iff t).2 ⟨w.plan plan, ?_⟩
    rw [w.zone]
    exact rest
  ident := w.ident
  sending h := by rw [w.line]; exact h

/-- Work of the engine that keeps the incident table sound is steady. -/
theorem Works.steady {s t : State} (w : Works s t) (k : KeepsTable s t) : Steady s t := ⟨w.calm, k⟩

theorem Paged.steady {s t : State} (h : Paged (PlansSound s) s t) : Steady s t := h.works.steady (.of_engine h.engine)

theorem Offered.steady {s t : State} (h : Offered s t) : Steady s t := h.works.steady (.of_engine h.engine)

theorem State.append_steady (s : State) (tag : Tag) (se pa de : Option Nat) : Steady s (s.append tag se pa de) :=
  (s.append_works tag se pa de).steady (.of_engine rfl)

theorem State.offer_steady (s : State) (body : Body) (cls : LineClass) (who : Option Nat) : Steady s (s.offer body cls who).1 :=
  (s.offer_spec body cls who).steady

theorem State.reportLost_steady (s : State) (b : Queued) : Steady s (s.reportLost b) := by
  rcases s.reportLost_rest b with h | h <;> rw [h]
  · exact .refl s
  · exact s.withOffice_steady _

theorem State.answerForOther_steady (s : State) (k : AnswerKey) : Steady s (s.answerForOther k) := by
  refine (s.answerForOther_works k).steady (.of_engine ?_)
  have relayed : ∀ r, (s.relayOn k r).engine = s.engine := by
    intro r
    unfold State.relayOn
    split
    · rfl
    · simp only [State.offerAnswer, State.offer_engine]
      show State.engine (State.placeAnswer _ k) = _
      unfold State.placeAnswer
      simp only [State.withRelay_engine]
      split
      · split
        · rfl
        · exact (State.changePage_paged (P := False) s _ markAnswered markAnswered_key (fun h => h.elim)).engine
      · rfl
  have late : ∀ pk note, (s.lateAccept pk note).engine = s.engine := fun pk note => (s.lateAccept_paged (P := False) pk note).engine
  unfold State.answerForOther
  split
  · exact relayed _
  · split
    · split
      · exact relayed _
      · rfl
    · split
      · exact late _ _
      · rfl
  · split
    · exact late _ _
    · rfl

theorem State.reportClaim_steady (s : State) (p : Nat) : Steady s (s.reportClaim p) :=
  (s.reportClaim_works p).steady (s.reportClaim_keeps p)

theorem State.raise_steady (s : State) (n : Nat) (k : SourceKind) : Steady s (s.raise n k) :=
  (s.raise_works n k).steady (s.raise_keeps n k)

theorem State.restore_steady (s : State) (n : Nat) (k : SourceKind) : Steady s (s.restore n k) :=
  (s.restore_works n k).steady (s.restore_keeps n k)

theorem State.takeAnswer_steady (s : State) (k : AnswerKey) : Steady s (s.takeAnswer k) :=
  (s.takeAnswer_works k).steady (s.takeAnswer_keeps k)

theorem State.engineBoundary_steady (s : State) : Steady s s.engineBoundary :=
  s.engineBoundary_works.steady s.engineBoundary_keeps

theorem State.cancel_steady (s : State) (serial : Nat) : Steady s (s.cancel serial) := by
  refine ⟨?_, s.cancel_keeps serial⟩
  unfold State.cancel
  split
  · exact (Steady.refl s).toCalm
  · next e _ =>
    split
    · exact (Steady.refl s).toCalm
    · split
      · exact (Steady.refl s).toCalm
      · exact (s.withScanner_steady _).toCalm.trans (State.enterClosing_works _ e .cancelled).calm

theorem State.windowExpires_steady (s : State) (e : Nat) : Steady s (s.windowExpires e) := by
  refine ⟨?_, s.windowExpires_keeps e⟩
  unfold State.windowExpires
  split
  · exact (Steady.refl s).toCalm
  · split
    · exact (Steady.refl s).toCalm
    · exact (s.reach_steady _).toCalm.trans
        ((State.modifyIncident_works _ e _).trans (State.stepIncident_works _ e)).calm

theorem State.refreshLimitEnds_steady (s : State) (e : Nat) : Steady s (s.refreshLimitEnds e) := by
  refine ⟨?_, s.refreshLimitEnds_keeps e⟩
  unfold State.refreshLimitEnds
  split
  · exact (Steady.refl s).toCalm
  · split
    · exact (Steady.refl s).toCalm
    · simp only
      split
      · exact (s.reach_steady _).toCalm.trans (State.refresh_works _ e).calm
      · exact (s.reach_steady _).toCalm

/-! ### The Relay Unit -/

theorem State.offerAnswer_steady (s : State) (k : AnswerKey) : Steady s (s.offerAnswer k) := s.offer_steady _ _ _

/-- What the repeat timer of key `k` makes of an answer list entry: one of that key has a send less, and leaves with its last (R87). -/
def AnswerEntry.repeated (k : AnswerKey) (x : AnswerEntry) : Option AnswerEntry :=
  if x.key = k then
    if 1 < x.sendsLeft then some { x with sendsLeft := x.sendsLeft - 1, timer := x.timer + answerRepeat } else none
  else some x

/-- The repeat timer of an entry changes the answer list, then offers the ANSWER (R87). -/
theorem State.repeatAnswer_of_find {s : State} {k : AnswerKey} {a : AnswerEntry} (h : s.relay.answers.find? (·.key == k) = some a) :
    s.repeatAnswer k = ((s.reach a.timer).withRelay { s.relay with
      answers := s.relay.answers.filterMap (AnswerEntry.repeated k) }).offerAnswer k := by
  unfold State.repeatAnswer
  rw [h]
  rfl

theorem AnswerEntry.repeated_spec {k : AnswerKey} {x y : AnswerEntry} (h : x.repeated k = some y) :
    y.key = x.key ∧ (1 ≤ x.sendsLeft ∧ x.sendsLeft ≤ 3 → 1 ≤ y.sendsLeft ∧ y.sendsLeft ≤ 3) := by
  unfold AnswerEntry.repeated at h
  split at h
  · split at h
    · cases h
      exact ⟨rfl, fun _ => by simp only; omega⟩
    · cases h
  · cases h
    exact ⟨rfl, id⟩

theorem repeated_keys_sublist (k : AnswerKey) (l : List AnswerEntry) :
    ((l.filterMap (AnswerEntry.repeated k)).map (·.key)).Sublist (l.map (·.key)) := by
  induction l with
  | nil => exact .slnil
  | cons x l ih =>
    rw [List.filterMap_cons]
    split
    · exact ih.cons _
    · next y hy =>
      rw [List.map_cons, (AnswerEntry.repeated_spec hy).1]
      exact ih.cons_cons _

theorem State.repeatAnswer_steady (s : State) (k : AnswerKey) : Steady s (s.repeatAnswer k) := by
  cases h : s.relay.answers.find? (·.key == k) with
  | none =>
    rw [State.repeatAnswer, h]
    exact .refl s
  | some a =>
    rw [State.repeatAnswer_of_find h]
    refine (State.offerAnswer_steady _ k).after ((State.withRelay_steady _ _ ?_).after (s.reach_steady _))
    rintro ⟨pages, -, short, nodup, sends⟩
    refine ⟨pages, (List.length_filterMap_le ..).trans short, nodup.sublist (repeated_keys_sublist k _), fun y hy => ?_⟩
    obtain ⟨x, hx, hxy⟩ := List.mem_filterMap.1 hy
    exact (AnswerEntry.repeated_spec hxy).2 (sends x hx)

/-! ### The Presence Unit -/

/-- The bounds of R45 on a roster alone. -/
abbrev RosterOk (station : Nat) (roster : List PagerRecord) : Prop :=
  roster.length = 64 ∧ ∀ r ∈ roster, PagerSound station r

theorem RosterOk.map {station : Nat} {roster : List PagerRecord} (h : RosterOk station roster) {f : PagerRecord → PagerRecord}
    (hf : ∀ r, PagerSound station r → PagerSound station (f r)) : RosterOk station (roster.map f) := by
  obtain ⟨length, sound⟩ := h
  refine ⟨by rw [List.length_map, length], fun r hr => ?_⟩
  obtain ⟨x, hx, rfl⟩ := List.mem_map.1 hr
  exact hf x (sound x hx)

theorem RosterOk.modify {station : Nat} {roster : List PagerRecord} (h : RosterOk station roster) {f : PagerRecord → PagerRecord}
    (hf : ∀ r, PagerSound station r → PagerSound station (f r)) (p : Nat) : RosterOk station (roster.modify p f) := by
  obtain ⟨length, sound⟩ := h
  refine ⟨by rw [List.length_modify, length], fun r hr => ?_⟩
  obtain ⟨i, hi⟩ := List.mem_iff_getElem?.1 hr
  rw [List.getElem?_modify] at hi
  obtain ⟨x, hx, rfl⟩ := Option.map_eq_some_iff.1 hi
  have hx := sound x (List.mem_of_getElem? hx)
  split
  · exact hf x hx
  · exact hx

theorem State.modifyPager_steady (s : State) (p : Nat) {f : PagerRecord → PagerRecord}
    (hf : ∀ r, PagerSound s.ident.station r → PagerSound s.ident.station (f r)) : Steady s (s.modifyPager p f) :=
  s.withPresence_steady _ fun h => RosterOk.modify h hf p

/-- A roster changed record by record, with the reports of the claimants lost (R49, R53). -/
theorem State.changeRoster_steady (s : State) {f : PagerRecord → PagerRecord}
    (hf : ∀ r, PagerSound s.ident.station r → PagerSound s.ident.station (f r)) : Steady s (s.changeRoster f) :=
  (Steady.foldl State.reportClaim_steady _ _).after (s.withPresence_steady _ fun h => RosterOk.map h hf)

theorem setScore_sound {station score : Nat} {r : PagerRecord} (h : PagerSound station r) (hs : score ≤ 240) :
    PagerSound station (setScore score r) := ⟨hs, h.2⟩

theorem agePager_sound {station : Nat} (r : PagerRecord) (h : PagerSound station r) : PagerSound station (agePager r) := by
  obtain ⟨h1, h2, h3, h4, h5⟩ := h
  have score : aged r.score ≤ 240 := by unfold aged; omega
  have claim : aged r.claim ≤ 240 := by unfold aged; omega
  refine ⟨score, claim, h3, ?_, ?_⟩
  · simp only [agePager]
    by_cases gone : aged r.claim = 0
    · simp [gone]
    · have held : 0 < r.claim := by unfold aged at gone; omega
      simp [gone, h4.2 held, Nat.pos_of_ne_zero gone]
  · simp only [agePager]
    split
    · simp
    · exact h5

theorem meetClaim_sound {station j v : Nat} (hj : j ≠ station) (hv : v ≤ 240) (r : PagerRecord) (h : PagerSound station r) :
    PagerSound station (meetClaim j v r) := by
  obtain ⟨h1, h2, h3, h4, h5⟩ := h
  unfold meetClaim
  split
  · refine ⟨h1, hv, h3, ?_, ?_⟩
    · by_cases none : v = 0
      · simp [none]
      · simp [none, Nat.pos_of_ne_zero none]
    · simp only
      split
      · simp
      · simpa using hj
  · split
    · next higher => exact ⟨h1, hv, h3, by simp; omega, by simpa using hj⟩
    · exact ⟨h1, h2, h3, h4, h5⟩

theorem dropClaim_sound {station k : Nat} (r : PagerRecord) (h : PagerSound station r) : PagerSound station (dropClaim k r) := by
  obtain ⟨h1, h2, h3, h4, h5⟩ := h
  unfold dropClaim
  split
  · exact ⟨h1, Nat.zero_le _, h3, by simp, by simp⟩
  · exact ⟨h1, h2, h3, h4, h5⟩

theorem State.agingExpires_steady (s : State) : Steady s s.agingExpires := by
  unfold State.agingExpires
  split
  · exact .refl s
  · exact (State.changeRoster_steady _ agePager_sound).after ((State.withPresence_steady _ _).after (s.reach_steady _))

theorem State.darkStatus_steady (s : State) (k : Nat) : Steady s (s.darkStatus k) := s.changeRoster_steady dropClaim_sound

theorem State.takeClaimEntry_steady {j : Nat} (s : State) (c : ClaimEntry) (hj : j ≠ s.ident.station) (hv : c.score ≤ 240) :
    Steady s (State.takeClaimEntry j s c) := by
  have met := s.modifyPager_steady c.pager (meetClaim_sound hj hv)
  unfold State.takeClaimEntry
  simp only
  split
  · exact met.trans (State.reportClaim_steady _ _)
  · exact met

theorem State.takeClaim_steady {j : Nat} (s : State) (dark : Bool) (entries : List ClaimEntry) (hj : j ≠ s.ident.station)
    (hv : ∀ c ∈ entries, c.score ≤ 240) : Steady s (s.takeClaim j dark entries) := by
  unfold State.takeClaim
  split
  · exact .refl s
  · refine Steady.foldl_of (fun u => u.ident = s.ident) (fun u hu c hc => ?_) s rfl
    have entry := u.takeClaimEntry_steady c (hu ▸ hj) (hv c hc)
    exact ⟨entry, entry.ident.trans hu⟩

theorem State.hearing_steady (s : State) (p grade : Nat) (hg : grade ≤ 15) : Steady s (s.hearing p grade) := by
  unfold State.hearing
  split
  · exact .refl s
  · refine s.modifyPager_steady p fun r hr => setScore_sound hr ?_
    have := hr.1
    unfold heardScore
    omega

theorem State.setDuty_steady (s : State) (d : DutyEntry) : Steady s (s.setDuty d) := s.modifyPager_steady _ fun _ h => h

theorem State.offerDuty_steady (s : State) : Steady s s.offerDuty := by
  have offered := s.offer_steady (.duty s.presence.owedDuty) .class1 none
  unfold State.offerDuty
  simp only
  split
  · exact offered.trans (State.withPresence_steady _ _)
  · exact offered

theorem State.sign_steady (s : State) (d : DutyEntry) : Steady s (s.sign d) :=
  (State.offerDuty_steady _).after ((State.withPresence_steady _ _).after (s.setDuty_steady d))

/-- A pager's score is in range, in the roster or not (R45). -/
theorem RosterSound.score_le {s : State} (h : RosterSound s) (p : Nat) : (s.pager p).score ≤ 240 := by
  unfold State.pager
  rw [List.getD_eq_getElem?_getD]
  cases hp : s.presence.roster[p]? with
  | none => exact Nat.zero_le _
  | some r => exact (h.2 r (List.mem_of_getElem? hp)).1

/-- The roster once a CLAIM entry has been announced (R58). -/
def announcedIn (roster : List PagerRecord) (c : ClaimEntry) : List PagerRecord :=
  roster.modify c.pager fun r => { r with announced := c.score, belowOwed := false }

/-- Announcing a row of entries changes the roster alone (R58). -/
theorem foldl_announce (entries : List ClaimEntry) : ∀ s : State, entries.foldl announce s =
    s.withPresence { s.presence with roster := entries.foldl announcedIn s.presence.roster } := by
  induction entries with
  | nil => exact fun s => rfl
  | cons c entries ih => exact fun s => ih (announce s c)

theorem RosterOk.foldl_announcedIn {station : Nat} {entries : List ClaimEntry} (h : ∀ c ∈ entries, c.score ≤ 240) :
    ∀ {roster : List PagerRecord}, RosterOk station roster → RosterOk station (entries.foldl announcedIn roster) := by
  induction entries with
  | nil => exact id
  | cons c entries ih =>
    intro roster hr
    refine ih (fun x hx => h x (by simp [hx])) (hr.modify (fun r hr => ?_) c.pager)
    obtain ⟨h1, h2, -, h4, h5⟩ := hr
    exact ⟨h1, h2, h c (by simp), h4, h5⟩

theorem State.mem_buildClaim_score {s : State} {c : ClaimEntry} (h : c ∈ s.buildClaim) : c.score = (s.pager c.pager).score := by
  obtain ⟨p, -, rfl⟩ := List.mem_map.1 h
  rfl

theorem State.offerClaim_steady (s : State) : Steady s s.offerClaim := by
  have offered := s.offer_steady (.claim s.buildClaim) .class1 none
  have rest := (s.offer_spec (.claim s.buildClaim) .class1 none).rest
  unfold State.offerClaim
  simp only
  split
  · exact .refl s
  · split
    · rw [foldl_announce]
      refine (State.withPresence_steady _ _).after ((State.withPresence_steady _ _ fun h => ?_).after offered)
      have sound : RosterSound s := by
        rw [rest] at h
        exact h
      exact RosterOk.foldl_announcedIn (fun c hc => State.mem_buildClaim_score hc ▸ sound.score_le _) h
    · exact offered

theorem State.claimExpires_steady (s : State) : Steady s s.claimExpires := by
  unfold State.claimExpires
  split
  · exact .refl s
  · next t _ =>
    have timed : Steady s ((s.reach t).withPresence { (s.reach t).presence with claimAt := some (t + claimPeriod) }) :=
      (State.withPresence_steady _ _).after (s.reach_steady t)
    have duty : ∀ u, Steady u (if u.presence.owedDuty.isEmpty then u else u.offerDuty) := by
      intro u
      split
      · exact .refl u
      · exact u.offerDuty_steady
    have claim : ∀ u, Steady u (if u.zone.dark then u else u.offerClaim) := by
      intro u
      split
      · exact .refl u
      · exact u.offerClaim_steady
    exact (claim _).after ((duty _).after timed)

/-! ### The Zone Cycle Unit -/

theorem State.offerZone_steady (s : State) : Steady s s.offerZone :=
  Steady.after State.withZone_steady_of (s.offer_steady (.zone s.zone.dark) .class0 none)

theorem State.reofferZone_steady (s : State) : Steady s s.reofferZone := by
  unfold State.reofferZone
  split
  · exact s.offerZone_steady
  · exact .refl s

theorem State.presenceDark_steady (s : State) : Steady s s.presenceDark :=
  s.withPresence_steady _ fun h => RosterOk.map h fun _ ⟨_, h2, _, h4⟩ => ⟨Nat.zero_le _, h2, Nat.zero_le _, h4⟩

theorem State.goDark_steady (s : State) : Steady s s.goDark := by
  have dark : Steady s (s.withZone { s.zone with dark := true, lateCount := 0, beaconCount := 0 }) :=
    State.withZone_steady_of fun ⟨h1, h2, _, _, h5⟩ => ⟨h1, h2, Nat.zero_le _, Nat.zero_le _, h5⟩
  exact (State.emptyOffAir_paged _).steady.after ((State.relayDark_paged _).steady.after ((State.offerZone_steady _).after
    ((State.presenceDark_steady _).after ((State.append_steady _ _ _ _ _).after dark))))

theorem State.goLive_steady (s : State) : Steady s s.goLive := by
  have live : Steady s (s.withZone { s.zone with dark := false, lateCount := 0, beaconCount := 0 }) :=
    State.withZone_steady_of fun ⟨h1, h2, _, _, h5⟩ => ⟨h1, h2, Nat.zero_le _, Nat.zero_le _, h5⟩
  exact (State.fillHalf_paged _ _).steady.after ((State.offerZone_steady _).after ((State.append_steady _ _ _ _ _).after live))

theorem State.dropFrame_steady (s : State) : Steady s s.dropFrame := State.withZone_steady_of

theorem State.slotLate_steady (s : State) : Steady s s.slotLate := by
  have late : ∀ u : State, Steady u (if u.zone.dark then u.withZone { u.zone with beaconCount := 0 }
      else if u.zone.lateCount < 2 then u.withZone { u.zone with lateCount := u.zone.lateCount + 1 } else u.goDark) := by
    intro u
    split
    · exact State.withZone_steady_of fun ⟨h1, h2, h3, _, h5⟩ => ⟨h1, h2, h3, Nat.zero_le _, h5⟩
    · split
      · next few => exact State.withZone_steady_of fun ⟨h1, h2, _, h4, h5⟩ => ⟨h1, h2, few, h4, h5⟩
      · exact u.goDark_steady
  exact (late _).after s.dropFrame_steady

theorem State.slotOnTime_steady (s : State) : Steady s s.slotOnTime := by
  have counted : ∀ u : State, Steady u (if u.zone.slot = 0 then u else u.countSlot) := by
    intro u
    split
    · exact .refl u
    · exact u.countSlot_paged.steady
  have settled : ∀ u : State, Steady u (if u.zone.dark then
      (if u.zone.slot ≠ 0 then u else if u.zone.beaconCount = 0 then u.withZone { u.zone with beaconCount := 1 } else u.goLive)
      else u.withZone { u.zone with lateCount := 0 }) := by
    intro u
    split
    · split
      · exact .refl u
      · split
        · exact State.withZone_steady_of fun ⟨h1, h2, h3, _, h5⟩ => ⟨h1, h2, h3, Nat.le_refl _, h5⟩
        · exact u.goLive_steady
    · exact State.withZone_steady_of fun ⟨h1, h2, _, h4, h5⟩ => ⟨h1, h2, Nat.zero_le _, h4, h5⟩
  exact (settled _).after ((counted _).after s.dropFrame_steady)

theorem State.startHandover_steady (s : State) : Steady s s.startHandover := State.withZone_steady_of

theorem State.byteTaken_steady (s : State) : Steady s s.byteTaken := by
  unfold State.byteTaken
  split
  · exact .refl s
  · split
    · exact State.withZone_steady_of
    · exact s.slotOnTime_steady

theorem State.firstByteDue_steady (s : State) : Steady s s.firstByteDue := by
  unfold State.firstByteDue
  split
  · exact .refl s
  · split
    · exact (State.slotLate_steady _).after (s.reach_steady _)
    · exact .refl s

theorem State.wholeFrameDue_steady (s : State) : Steady s s.wholeFrameDue := by
  unfold State.wholeFrameDue
  split
  · exact .refl s
  · exact (State.slotLate_steady _).after (s.reach_steady _)

theorem State.halfOnAir_steady (s : State) (h : Half) : Steady s (s.halfOnAir h) :=
  (Paged.steady (Paged.setPages fun _ hs => goOnAir_sound h hs)).after State.withZone_steady_of

theorem State.startSlotZero_steady (s : State) : Steady s s.startSlotZero := by
  have zero : Steady s (s.withZone { s.zone with slot := 0 }) :=
    State.withZone_steady_of fun ⟨_, h⟩ => ⟨Nat.zero_lt_succ _, h⟩
  exact (State.fillHalf_paged _ _).steady.after (Steady.after State.withZone_steady_of ((State.halfOnAir_steady _ _).after zero))

theorem State.endCycle_steady (s : State) : Steady s s.endCycle := by
  have advanced : Steady s (s.withZone { s.zone with cycle := (s.zone.cycle + 1) % 256 }) :=
    State.withZone_steady_of fun ⟨h1, _, h⟩ => ⟨h1, Nat.mod_lt _ (by decide), h⟩
  exact (State.relayCycleEnd_paged _).steady.after advanced

theorem State.nextSlot_steady (s : State) : Steady s s.nextSlot := by
  unfold State.nextSlot
  split
  · exact (State.startSlotZero_steady _).after s.endCycle_steady
  · next last =>
    have next : Steady s (s.withZone { s.zone with slot := s.zone.slot + 1 }) :=
      State.withZone_steady_of fun ⟨h1, h⟩ => ⟨by simp only; omega, h⟩
    simp only
    split
    · exact (State.fillHalf_paged _ _).steady.after ((State.halfOnAir_steady _ _).after next)
    · exact next

theorem State.boundary_steady (s : State) : Steady s s.boundary := by
  unfold State.boundary
  split
  · exact .refl s
  · exact (State.reofferZone_steady _).after ((State.engineBoundary_steady _).after ((State.startHandover_steady _).after
      ((State.nextSlot_steady _).after (Steady.after State.withZone_steady_of ((State.reach_steady _ _).after
        s.wholeFrameDue_steady)))))

theorem readReturnWord_grade (a b c d : Byte) : (readReturnWord a b c d).grade ≤ 15 := by
  show b.toNat % 16 ≤ 15
  omega

theorem State.routeWord_steady (s : State) (w : ReturnWord) : Steady s (s.routeWord w) := by
  unfold State.routeWord
  split
  · exact .refl s
  · exact .refl s
  · exact s.sign_steady _
  · split
    · exact .refl s
    · split
      · exact s.takeAnswer_steady _
      · exact s.answerForOther_steady _

theorem State.takeWord_steady (s : State) (w : ReturnWord) (hg : w.grade ≤ 15) : Steady s (s.takeWord w) := by
  unfold State.takeWord
  split
  · exact .refl s
  · exact (State.routeWord_steady _ w).after (s.hearing_steady _ _ hg)

theorem State.setAssembler_steady (s : State) (a : Assembler) (gap : Option Nat) : Steady s (s.setAssembler a gap) :=
  State.withZone_steady_of

theorem State.countPartial_steady (s : State) : Steady s s.countPartial :=
  State.withZone_steady_of fun ⟨h1, h2, h3, h4, _⟩ => ⟨h1, h2, h3, h4, Nat.min_le_right ..⟩

theorem State.latch_steady (s : State) (b : Byte) : Steady s (s.latch b) := by
  have latched : Steady s (s.withZone { s.zone with inFullUntil := some (s.now + inFullTime) }) := State.withZone_steady_of
  unfold State.latch
  refine Steady.after ?_ latched
  simp only
  split
  · exact State.setAssembler_steady _ _ _
  · exact (State.takeWord_steady _ _ (readReturnWord_grade ..)).after (State.setAssembler_steady _ _ _)
  · exact State.setAssembler_steady _ _ _
  · exact State.setAssembler_steady _ _ _

theorem State.strobe_steady (s : State) (b : Byte) : Steady s (s.strobe b) := by
  unfold State.strobe
  split
  · split
    · refine (State.setAssembler_steady _ _ _).after ?_
      split
      · exact .refl s
      · exact s.countPartial_steady
    · exact s.latch_steady b
  · exact .refl s

theorem State.gapExpires_steady (s : State) : Steady s s.gapExpires := by
  unfold State.gapExpires
  split
  · exact .refl s
  · next t _ =>
    refine (State.setAssembler_steady _ _ _).after (Steady.after ?_ (s.reach_steady t))
    split
    · exact State.countPartial_steady _
    · exact .refl _

theorem State.inFullEnds_steady (s : State) : Steady s s.inFullEnds := by
  unfold State.inFullEnds
  split
  · exact .refl s
  · next t _ => exact Steady.after State.withZone_steady_of (s.reach_steady t)

/-! ### The Input Scanner -/

theorem State.reportRaise_steady (s : State) (n : Nat) (k : SourceKind) : Steady s (s.reportRaise n k) := by
  unfold State.reportRaise
  split
  · exact .refl s
  · exact s.raise_steady n k

theorem State.reportRestore_steady (s : State) (n : Nat) (k : SourceKind) : Steady s (s.reportRestore n k) := by
  unfold State.reportRestore
  split
  · exact .refl s
  · exact s.restore_steady n k

theorem State.reportWiring_steady (s : State) (n : Nat) (old new : Condition) : Steady s (s.reportWiring n old new) := by
  unfold State.reportWiring
  split
  · exact s.reportRaise_steady n .wiring
  · split
    · exact s.reportRestore_steady n .wiring
    · exact .refl s

theorem State.reportAlarm_steady (s : State) (n : Nat) (old new : Condition) : Steady s (s.reportAlarm n old new) := by
  unfold State.reportAlarm
  split
  · exact s.reportRaise_steady n .alarm
  · split
    · exact s.reportRestore_steady n .alarm
    · exact .refl s

theorem State.modifyInput_steady (s : State) (n : Nat) (f : InputRecord → InputRecord) : Steady s (s.modifyInput n f) :=
  s.withScanner_steady _

theorem State.enterChatter_steady (s : State) (n : Nat) : Steady s (s.enterChatter n) := by
  unfold State.enterChatter
  simp only
  split
  · exact (State.reportRaise_steady _ n .chatter).after (s.modifyInput_steady n _)
  · exact .refl s

theorem State.changeAccepted_steady (s : State) (n : Nat) (old new : Condition) : Steady s (s.changeAccepted n old new) :=
  (State.reportAlarm_steady _ n old new).after ((State.reportWiring_steady _ n old new).after
    ((State.enterChatter_steady _ n).after (s.modifyInput_steady n _)))

theorem State.scanInput_steady (s : State) (x : Band × Nat) : Steady s (s.scanInput x) := by
  unfold State.scanInput
  simp only
  split
  · exact .refl s
  · split
    · exact s.modifyInput_steady _ _
    · exact (State.changeAccepted_steady _ _ _ _).after (s.modifyInput_steady _ _)

theorem State.releaseKind_steady (n : Nat) (s : State) (k : SourceKind) : Steady s (State.releaseKind n s k) := by
  unfold State.releaseKind
  split
  · split
    · split
      · exact s.reportRaise_steady n k
      · exact .refl s
    · exact s.reportRaise_steady n k
  · exact .refl s

theorem State.releaseInput_steady (s : State) (n : Nat) : Steady s (s.releaseInput n) := by
  unfold State.releaseInput
  simp only
  split
  · exact .foldl (State.releaseKind_steady n) _ s
  · exact .refl s

theorem State.scanLockout_steady (s : State) (level : Bool) : Steady s (s.scanLockout level) := by
  unfold State.scanLockout
  simp only
  split
  · exact s.withScanner_steady _
  · split
    · exact s.withScanner_steady _
    · exact (Steady.foldl State.releaseInput_steady _ _).after (s.withScanner_steady _)

theorem State.scanOnce_steady (s : State) (lockout : Bool) (bands : Vector Band 16) : Steady s (s.scanOnce lockout bands) := by
  unfold State.scanOnce
  split
  · exact .refl s
  · next t _ =>
    exact (Steady.foldl State.scanInput_steady _ _).after ((State.scanLockout_steady _ lockout).after
      ((State.withScanner_steady _ _).after (s.reach_steady t)))

theorem State.reportPresent_steady (s : State) (n : Nat) : Steady s (s.reportPresent n) := by
  have wired : Steady s (if (s.input n).mode = .supervised then
      (if (s.input n).condition.faulted then s.reportRaise n .wiring else s.reportRestore n .wiring) else s) := by
    split
    · split
      · exact s.reportRaise_steady n .wiring
      · exact s.reportRestore_steady n .wiring
    · exact .refl s
  have alarmed : ∀ u : State, Steady u
      (if (s.input n).condition = .active then u.reportRaise n .alarm else u.reportRestore n .alarm) := by
    intro u
    split
    · exact u.reportRaise_steady n .alarm
    · exact u.reportRestore_steady n .alarm
  exact (alarmed _).after wired

theorem State.leaveChatter_steady (s : State) (n : Nat) : Steady s (s.leaveChatter n) := by
  unfold State.leaveChatter
  simp only
  split
  · exact (State.reportPresent_steady _ n).after ((State.reportRestore_steady _ n .chatter).after (s.modifyInput_steady n _))
  · exact .refl s

theorem State.windowEnds_steady (s : State) : Steady s s.windowEnds := by
  unfold State.windowEnds
  split
  · exact .refl s
  · next t _ =>
    exact (State.withScanner_steady _ _).after ((Steady.foldl State.leaveChatter_steady _ _).after
      ((State.withScanner_steady _ _).after (s.reach_steady t)))

/-! ### The Office Service and the clock -/

theorem State.nextLog_steady (s : State) : Steady s s.nextLog := by
  unfold State.nextLog
  split
  · exact .refl s
  · next d _ =>
    simp only
    split
    · exact s.withOffice_steady _
    · next last _ =>
      have offered := (State.offer_steady _ (.log ((drainRecords d s.log.records).map (·.record))) .class1 (some d.addressee)).after
        (s.withOffice_steady { s.office with drain := some { d with cursorAt := last.count + 1 } })
      split
      · exact offered
      · exact (State.withOffice_steady _ _).after offered

theorem State.history_steady (s : State) (sender count : Nat) : Steady s (s.history sender count) := by
  unfold State.history
  split
  · exact .refl s
  · split
    · exact .refl s
    · exact (State.nextLog_steady _).after (s.withOffice_steady _)

/-- A log without its oldest records is sound (R164, R175). -/
theorem Log.Sound.filter {l : Log} (h : l.Sound) (c : Nat) :
    ({ l with records := l.records.filter fun x => decide (c ≤ x.count) } : Log).Sound := by
  obtain ⟨short, ordered, past, lost, seconds, first, appended, counts⟩ := h
  have sub : (l.records.filter fun x => decide (c ≤ x.count)).Sublist l.records := List.filter_sublist
  have rest := numbered_filter c counts
  refine ⟨sub.length_le.trans short, ordered.sublist sub, fun x hx => past x (sub.mem hx), lost, seconds, ?_⟩
  simp only [rest]
  by_cases some : c - first ≤ l.records.length
  · exact ⟨first + (c - first), by simp only [List.length_drop]; omega, by rw [numbered_drop _ counts, List.length_drop]⟩
  · have none : l.records.drop (c - first) = [] := List.drop_eq_nil_of_le (by omega)
    exact ⟨l.appended, by rw [none]; rfl, by rw [none]; rfl⟩

theorem State.logSent_steady (s : State) : Steady s s.logSent := by
  unfold State.logSent
  split
  · exact .refl s
  · next d _ => exact (State.nextLog_steady _).after (s.withLog_steady _ fun h => ⟨h.filter d.cursorAt, Nat.le_refl _⟩)

theorem State.takeQuery_steady (s : State) (sender : Nat) (q : Query) : Steady s (s.takeQuery sender q) := by
  cases q with
  | history n => exact s.history_steady sender n
  | incidents => exact s.offer_steady _ _ _
  | release => exact s.withLog_steady _ fun h => ⟨h, Nat.le_refl _⟩
  | cancel serial => exact s.cancel_steady serial

theorem State.secondPasses_steady (s : State) : Steady s s.secondPasses := by
  refine (State.withLog_steady _ _ fun h => ?_).after (s.reach_steady s.log.secondAt)
  obtain ⟨short, ordered, past, lost, seconds, numbered⟩ := h
  have later : s.log.seconds ≤ raised secondsMax s.log.seconds := Nat.le_min.2 ⟨Nat.le_succ _, seconds⟩
  exact ⟨⟨short, ordered, fun x hx => (past x hx).trans later, lost, Nat.min_le_right .., numbered⟩, later⟩

/-! ### The Line Controller -/

theorem Line.free_of_idle {l : Line} (h : l.sending = none) : l.free = l.queue := by
  simp [Line.free, h]

theorem Line.free_of_sending {l : Line} {x : Sending} {b : Queued} {rest : List Queued} (h : l.sending = some x)
    (hq : l.queue = b :: rest) : l.free = rest := by
  simp [Line.free, h, hq]

/-- The head of the queue begins to be sent (R122, R124). -/
theorem Line.Sound.begins {l : Line} (h : l.Sound) (hs : l.sending = none) {b : Queued} {rest : List Queued} (hq : l.queue = b :: rest)
    (x : Sending) (r : Reader) : ({ l with sending := some x, reader := r } : Line).Sound := by
  obtain ⟨short, ordered, attempts, -, held⟩ := h
  refine ⟨short, ?_, attempts, fun _ => by simp [hq], held⟩
  rw [Line.free_of_idle hs, hq] at ordered
  rw [Line.free_of_sending (l := { l with sending := some x, reader := r }) rfl hq]
  exact ordered.tail

theorem State.begin_keeps (s : State) : Keeps s s.begin := by
  unfold State.begin
  split
  · exact .refl s
  · next b rest hq =>
    split
    · next ready =>
      simp only [Bool.and_eq_true, Option.isNone_iff_eq_none] at ready
      exact (s.reach_steady _).toKeeps.trans
        (State.withLine_keeps _ _ (by exact id) (fun h => h.begins ready.1.2 hq _ _) (by exact id))
    · exact .refl s

/-- The head of the queue has left it (R126, R127). -/
theorem Line.Sound.sent {l m : Line} (h : l.Sound) {x : Sending} (hs : l.sending = some x) {b : Queued} {rest : List Queued}
    (hq : l.queue = b :: rest) (hm : m.sending = none) (hr : m.queue = rest) (hh : m.hold = l.hold) : m.Sound := by
  obtain ⟨short, ordered, attempts, -, held⟩ := h
  rw [Line.free_of_sending hs hq] at ordered
  rw [hq] at short attempts held
  refine ⟨?_, ?_, fun y hy => attempts y (by simp [← hr, hy]), by simp [hm], fun hold => ?_⟩
  · rw [hr]
    exact (Nat.le_succ _).trans short
  · rw [Line.free_of_idle hm, hr]
    exact ordered
  · exact absurd (held (hh ▸ hold)) (List.cons_ne_nil _ _)

theorem State.sentWhole_steady (s : State) : Steady s s.sentWhole := by
  unfold State.sentWhole
  split
  · next x b rest hx hq =>
    have sent : ∀ t, Steady s ((s.reach t).withLine { s.line with
        queue := rest, sending := none, lastSender := some s.ident.station, degraded := false
        reader := readerStart (s.reach t).now }) := fun t =>
      Steady.after (State.withLine_steady _ _ (by exact id) (by exact fun h => h.sent hx hq rfl rfl rfl) (by exact id)
        (by exact fun _ => rfl)) (s.reach_steady t)
    simp only
    split
    · exact (State.logSent_steady _).after (sent _)
    · exact sent _
  · exact .refl s

theorem urgentFirst_requeue {b : Queued} {rest : List Queued} (h : UrgentFirst rest) : UrgentFirst (requeue b rest) := by
  unfold requeue
  split
  · next urgent => exact List.pairwise_cons.2 ⟨fun x _ hb => (by rw [urgent] at hb; cases hb), h⟩
  · exact urgentFirst_placeUrgent h b

theorem mem_requeue {b x : Queued} {rest : List Queued} (h : x ∈ requeue b rest) : x = b ∨ x ∈ rest := by
  unfold requeue at h
  split at h
  · exact List.mem_cons.1 h
  · exact mem_placeUrgent h

theorem requeue_length (b : Queued) (rest : List Queued) : (requeue b rest).length = rest.length + 1 := by
  unfold requeue
  split
  · rfl
  · exact placeUrgent_length b rest

/-- The head of the queue takes its place anew after a failed attempt (R117, R125). -/
theorem Line.Sound.requeued {l m : Line} (h : l.Sound) {x : Sending} (hs : l.sending = some x) {b b' : Queued} {rest : List Queued}
    (hq : l.queue = b :: rest) (ha : b'.attempts < attemptMax) (hm : m.sending = none) (hr : m.queue = requeue b' rest)
    (hh : m.hold = l.hold) : m.Sound := by
  obtain ⟨short, ordered, attempts, -, held⟩ := h
  rw [Line.free_of_sending hs hq] at ordered
  rw [hq] at short attempts held
  refine ⟨?_, ?_, fun y hy => ?_, by simp [hm], fun hold => ?_⟩
  · rw [hr, requeue_length]
    exact short
  · rw [Line.free_of_idle hm, hr]
    exact urgentFirst_requeue ordered
  · rw [hr] at hy
    rcases mem_requeue hy with rfl | hy
    · exact ha
    · exact attempts y (by simp [hy])
  · exact absurd (held (hh ▸ hold)) (List.cons_ne_nil _ _)

theorem raised_le (top n : Nat) : raised top n ≤ top := Nat.min_le_right ..

theorem State.collide_steady (s : State) (bit : Nat) : Steady s (s.collide bit) := by
  unfold State.collide
  split
  · next x b rest hx hq =>
    split
    · simp only
      split
      · next again =>
        exact Steady.after (State.withLine_steady _ _ (by exact id) (by exact fun h => h.requeued hx hq again rfl rfl rfl)
          (by exact fun ⟨h1, h2, _, h4⟩ => ⟨h1, h2, raised_le .., h4⟩) (by exact fun _ => rfl)) (s.reach_steady _)
      · refine (State.reportLost_steady _ b).after ((State.append_steady _ _ _ _ _).after (Steady.after ?_ (s.reach_steady (x.startAt + bitTime * (bit + 1)))))
        exact State.withLine_steady _ _ id (fun h => h.sent hx hq rfl rfl rfl)
          (fun ⟨h1, h2, _, _⟩ => ⟨h1, h2, raised_le .., raised_le ..⟩) fun _ => rfl
    · exact .refl s
  · exact .refl s

theorem State.checkFault_steady (s : State) : Steady s s.checkFault :=
  s.withLine_steady _ id id (fun ⟨_, h⟩ => ⟨raised_le .., h⟩) id

theorem State.framingAbort_steady (s : State) : Steady s s.framingAbort :=
  s.withLine_steady _ id id (fun ⟨h1, _, h⟩ => ⟨h1, raised_le .., h⟩) id

/-- The burst is a LOG, whose loss ends the drain (R120). -/
def Queued.isLog (b : Queued) : Bool :=
  match b.body with
  | .log _ => true
  | _ => false

theorem State.reportLost_eq_ite (s : State) (b : Queued) : s.reportLost b = if b.isLog then s.logLost else s := by
  unfold State.reportLost Queued.isLog
  split <;> simp [*]

/-- Bursts lost together end the drain when one of them is a LOG (R120). -/
theorem State.foldl_reportLost (q : List Queued) : ∀ s : State,
    q.foldl State.reportLost s = if q.any Queued.isLog then s.logLost else s := by
  induction q with
  | nil => exact fun s => rfl
  | cons b q ih =>
    intro s
    rw [List.foldl_cons, ih, s.reportLost_eq_ite, List.any_cons]
    cases b.isLog <;> cases q.any Queued.isLog <;> rfl

/-- A station that sends nothing enters LINE HOLD (R132). -/
theorem State.enterHold_steady (s : State) (hs : s.line.sending = none) : Steady s s.enterHold := by
  unfold State.enterHold
  split
  · exact .refl s
  · refine (State.append_steady _ _ _ _ _).after (Steady.after ?_ (.foldl State.reportLost_steady s.line.queue s))
    have line : (s.line.queue.foldl State.reportLost s).line = s.line := by
      rw [State.foldl_reportLost]
      split <;> rfl
    refine State.withLine_steady _ _ (fun _ => rfl) (fun _ => ?_) (fun h => line ▸ h) (fun _ => hs)
    exact ⟨Nat.zero_le _, by rw [Line.free_of_idle (l := { s.line with hold := true, queue := [] }) hs]; exact .nil, by simp, by simp [hs], fun _ => rfl⟩

/-- What a valid burst brings is in range (R140, R141). -/
theorem State.deliver_steady (s : State) {b : Burst} (hb : b.wellFormed) (hp : b.sender ≠ s.ident.station) : Steady s (s.deliver b) := by
  obtain ⟨-, -, -, fits⟩ := hb
  unfold State.deliver
  split
  · next entries body =>
    rw [body] at fits
    exact s.takeClaim_steady b.dark entries hp fun c hc => (fits.2.2 c hc).2
  · next c body =>
    rw [body] at fits
    obtain ⟨_, _, _, _, _, _, repeats, _⟩ := fits
    split
    · exact ((s.takeCall_paged b.sender c).mono fun _ => repeats).steady
    · exact .refl s
  · split
    · exact s.takeAnswer_steady _
    · exact .refl s
  · split
    · exact (s.applySettle_paged _ _).steady
    · exact .refl s
  · split
    · exact .foldl State.setDuty_steady _ s
    · exact .refl s
  · split
    · exact s.darkStatus_steady _
    · exact .refl s
  · split
    · exact s.takeQuery_steady _ _
    · exact .refl s
  · exact .refl s
  · exact .refl s

theorem State.handOn_steady (s : State) {b : Burst} (hb : b.wellFormed) (hs : s.line.sending = none) : Steady s (s.handOn b) := by
  have noted : Steady s (s.withLine { s.line with lastSender := some b.sender }) := s.withLine_steady _ id id id id
  refine Steady.after ?_ noted
  unfold State.handOn
  simp only
  split
  · exact State.enterHold_steady _ hs
  · next peer =>
    have dark : Steady (s.withLine { s.line with lastSender := some b.sender })
        (if b.dark then (s.withLine { s.line with lastSender := some b.sender }).darkStatus b.sender
          else s.withLine { s.line with lastSender := some b.sender }) := by
      split
      · exact State.darkStatus_steady _ _
      · exact .refl _
    exact dark.trans (State.deliver_steady _ hb (dark.ident ▸ peer))

/-- What the receive assembler reports is taken by a station that sends nothing (R128 to R131). -/
theorem State.heard_steady (s : State) (x : Heard) (hs : s.line.sending = none) : Steady s (s.heard x) := by
  cases x with
  | aborted => exact s.framingAbort_steady
  | badLength => exact s.checkFault_steady
  | ended bytes =>
    unfold State.heard State.judged
    simp only
    split
    · next b hb => exact s.handOn_steady (judge_iff.1 hb).1 hs
    · exact s.checkFault_steady

theorem State.hear_steady (s : State) (line : List Bool) : Steady s (s.hear line) := by
  unfold State.hear
  split
  · next listens =>
    simp only [State.listens, Bool.and_eq_true, Option.isNone_iff_eq_none] at listens
    have taken : ∀ (l : List Heard) (u : State), u.line.sending = none → Steady u (l.foldl State.heard u) := fun l u hu =>
      Steady.foldl_of (fun u => u.line.sending = none)
        (fun u hu x _ => ⟨u.heard_steady x hu, (u.heard_steady x hu).sending hu⟩) u hu
    have read := s.reach_steady ((s.line.reader.resume s.now line.length).read line).1.readTo
    have noted := State.withLine_steady (s.reach ((s.line.reader.resume s.now line.length).read line).1.readTo)
      { s.line with reader := ((s.line.reader.resume s.now line.length).read line).1 } id id id id
    exact (taken _ _ (by exact listens.2)).after (noted.after read)
  · exact .refl s

/-! ### The Panel Driver and the Start Loader -/

theorem State.nextShare_steady (s : State) : Steady s s.nextShare := by
  unfold State.nextShare
  simp only
  split <;> exact (State.withPanel_steady _ _).after ((State.withPanel_steady _ _).after (s.reach_steady _))

theorem State.flashTurns_steady (s : State) : Steady s s.flashTurns := by
  unfold State.flashTurns
  split
  · exact .refl s
  · exact (State.withPanel_steady _ _).after (s.reach_steady _)

theorem State.restartReleased_steady (s : State) : Steady s s.restartReleased := by
  unfold State.restartReleased
  split
  · refine s.withLoader_steady _ fun h => ?_
    have load : s.loader.load = .configured := by simpa [State.configured] using h
    simp [State.configured, load]
  · exact .refl s

theorem State.waitEnds_steady (s : State) : Steady s s.waitEnds := by
  unfold State.waitEnds
  split
  · next t load =>
    refine (State.withLoader_steady _ _ fun h => ?_).after (s.reach_steady t)
    have configured : (s.reach t).loader.load = .configured := by simpa [State.configured] using h
    exact absurd (load.symm.trans configured) nofun
  · exact .refl s

end Sys2Proof.Machine
end

section
/-! PROOF. What every step keeps: the invariants of the blocks, of the incident table and of a station at rest, and what the starts
alone undo. -/

namespace Sys2Proof.Machine

/-! ### The end of a load -/

theorem imagePager_sound (img : Image) (station p : Nat) : PagerSound station (imagePager img p) :=
  ⟨Nat.zero_le _, Nat.zero_le _, Nat.zero_le _, by simp [imagePager, pagerStart], nofun⟩

theorem clamp_mem {lo hi n : Nat} (h : lo ≤ hi) : lo ≤ clamp lo hi n ∧ clamp lo hi n ≤ hi := by
  unfold clamp
  omega

theorem imagePlan_repeats {img : Image} {c : Nat} {l : LevelPlan} (h : l ∈ imagePlan img c) : 1 ≤ l.repeats ∧ l.repeats ≤ 8 := by
  obtain ⟨i, -, rfl⟩ := List.mem_map.1 h
  exact clamp_mem (by decide)

theorem Log.loaded_grows {l : Log} {mode : LogMode} {watermark : Nat} {afterRestart : Bool} (h : l.Sound) :
    (l.loaded mode watermark afterRestart).Sound ∧ l.seconds ≤ (l.loaded mode watermark afterRestart).seconds := by
  unfold Log.loaded
  simp only
  split
  · have grows := Log.append_grows { l with mode := some mode, watermark := some watermark } .restart none none none false
    exact ⟨grows.sound h, grows.seconds.ge⟩
  · exact ⟨h, Nat.le_refl _⟩

theorem State.takeImage_keeps (s : State) (img : Image) : Keeps s (s.takeImage img) where
  now := Nat.le_refl _
  configured _ := rfl
  hold := id
  log := Log.loaded_grows
  queue := id
  counters := id
  roster _ := ⟨by simp [State.takeImage], fun r hr => by
    obtain ⟨p, -, rfl⟩ := List.mem_map.1 hr
    exact imagePager_sound img _ p⟩
  lists := fun ⟨pages, _, answers⟩ => ⟨pages, fun p hp l hl => by
    obtain ⟨c, -, rfl⟩ := List.mem_map.1 hp
    exact imagePlan_repeats hl, answers⟩
  zone := id

theorem State.readShare_steady (s : State) : Steady s s.readShare := s.withPanel_steady _

/-- What follows the hand-over of the image: the first slot and the first share begin (R190). -/
theorem State.firstSlot_steady (s : State) : Steady s s.startSlotZero.startHandover.engineBoundary.reofferZone.readShare :=
  (State.readShare_steady _).after <| (State.reofferZone_steady _).after <| (State.engineBoundary_steady _).after <|
    (State.startHandover_steady _).after s.startSlotZero_steady

theorem State.loadConfigured_keeps (s : State) (img : Image) : Keeps s (s.loadConfigured img) :=
  (s.takeImage_keeps img).trans (s.takeImage img).firstSlot_steady.toKeeps

theorem State.loadConfigured_configured (s : State) (img : Image) : (s.loadConfigured img).configured = true :=
  (s.takeImage img).firstSlot_steady.configured rfl

theorem State.readEnds_keeps (s : State) (img : Image) : Keeps s (s.readEnds img) := by
  unfold State.readEnds
  split
  · next t load =>
    simp only
    split
    · refine (s.reach_steady t).toKeeps.trans (State.withLoader_steady _ _ fun h => ?_).toKeeps
      have configured : (s.reach t).loader.load = .configured := by simpa [State.configured] using h
      exact absurd (load.symm.trans configured) nofun
    · exact (s.reach_steady t).toKeeps.trans (State.loadConfigured_keeps _ img)
  · exact .refl s

/-! ### The commands -/

/-- The commands by what they keep: the starts and the end of a load stand apart, and the begin of a burst; every other is steady. -/
theorem exec_cases (c : Instr) (s : State) : (∃ t, exec c s = .next t ∧ Steady s t) ∨
    (∃ b, c = .powerOn b) ∨ c = .restart ∨ (∃ mdi, c = .loadReadEnd mdi) ∨ c = .beginBurst := by
  cases c with
  | powerOn b => exact .inr (.inl ⟨b, rfl⟩)
  | restart => exact .inr (.inr (.inl rfl))
  | loadReadEnd mdi => exact .inr (.inr (.inr (.inl ⟨mdi, rfl⟩)))
  | beginBurst => exact .inr (.inr (.inr (.inr rfl)))
  | restartRelease => exact .inl ⟨_, rfl, s.restartReleased_steady⟩
  | loadWaitEnd => exact .inl ⟨_, rfl, s.waitEnds_steady⟩
  | slotBoundary => exact .inl ⟨_, rfl, s.boundary_steady⟩
  | outTaken => exact .inl ⟨_, rfl, s.byteTaken_steady⟩
  | firstByteDeadline => exact .inl ⟨_, rfl, s.firstByteDue_steady⟩
  | wholeFrameDeadline => exact .inl ⟨_, rfl, s.wholeFrameDue_steady⟩
  | inStrobe b => exact .inl ⟨_, rfl, s.strobe_steady b⟩
  | inFullEnd => exact .inl ⟨_, rfl, s.inFullEnds_steady⟩
  | gapTimerExpiry => exact .inl ⟨_, rfl, s.gapExpires_steady⟩
  | agingTimerExpiry => exact .inl ⟨_, rfl, s.agingExpires_steady⟩
  | claimTimerExpiry => exact .inl ⟨_, rfl, s.claimExpires_steady⟩
  | scan lockout bands => exact .inl ⟨_, rfl, s.scanOnce_steady lockout bands⟩
  | chatterWindowEnd => exact .inl ⟨_, rfl, s.windowEnds_steady⟩
  | secondsClockTick => exact .inl ⟨_, rfl, s.secondPasses_steady⟩
  | flashPhaseTurn => exact .inl ⟨_, rfl, s.flashTurns_steady⟩
  | panelShareStart => exact .inl ⟨_, rfl, s.nextShare_steady⟩
  | windowExpiry e => exact .inl ⟨_, rfl, s.windowExpires_steady _⟩
  | refreshLimitEnd e => exact .inl ⟨_, rfl, s.refreshLimitEnds_steady _⟩
  | answerRepeatTimer k => exact .inl ⟨_, rfl, s.repeatAnswer_steady k⟩
  | collision bit => exact .inl ⟨_, rfl, s.collide_steady bit⟩
  | burstSentWhole => exact .inl ⟨_, rfl, s.sentWhole_steady⟩
  | _ => exact .inl ⟨_, rfl, s.hear_steady _⟩

theorem State.begin_engine (s : State) : s.begin.engine = s.engine := by
  unfold State.begin
  split
  · rfl
  · simp only
    split <;> rfl

/-- Every command but the starts keeps every invariant of a block. -/
theorem exec_keeps {c : Instr} {s t : State} (h : exec c s = .next t) (hp : ∀ b, c ≠ .powerOn b) (hr : c ≠ .restart) : Keeps s t := by
  rcases exec_cases c s with ⟨u, hu, steady⟩ | ⟨b, rfl⟩ | rfl | ⟨mdi, rfl⟩ | rfl
  · cases hu.symm.trans h
    exact steady.toKeeps
  · exact absurd rfl (hp b)
  · exact absurd rfl hr
  · cases h
    exact s.readEnds_keeps _
  · cases h
    exact s.begin_keeps

/-- Every command but the starts and the end of a load keeps the incident table sound. -/
theorem exec_keepsTable {c : Instr} {s t : State} (h : exec c s = .next t) (hp : ∀ b, c ≠ .powerOn b) (hr : c ≠ .restart)
    (hl : ∀ mdi, c ≠ .loadReadEnd mdi) : KeepsTable s t := by
  rcases exec_cases c s with ⟨u, hu, steady⟩ | ⟨b, rfl⟩ | rfl | ⟨mdi, rfl⟩ | rfl
  · cases hu.symm.trans h
    exact steady.table
  · exact absurd rfl (hp b)
  · exact absurd rfl hr
  · exact absurd rfl (hl mdi)
  · cases h
    exact .of_engine s.begin_engine

/-! ### The starts -/

/-- Every block but the log, the loader and the panel holds its start values, and the flash phase does not run. -/
structure Started (s : State) : Prop where
  ident : s.ident = identityStart
  engine : s.engine = engineStart
  presence : s.presence = presenceStart
  relay : s.relay = relayStart
  zone : s.zone = zoneStart
  line : s.line = lineStart
  scanner : s.scanner = scannerStart
  office : s.office = officeStart
  flash : s.panel.flashAt = none

theorem powerOnState_started (restartAsserted : Bool) (queue : List Instr) : Started (powerOnState restartAsserted queue) :=
  ⟨rfl, rfl, rfl, rfl, rfl, rfl, rfl, rfl, rfl⟩

theorem State.restarted_started (s : State) : Started s.restarted := ⟨rfl, rfl, rfl, rfl, rfl, rfl, rfl, rfl, rfl⟩

theorem logPowerOn_sound : logPowerOn.Sound := by
  refine ⟨by decide, .nil, ?_, by decide, by decide, 0, rfl, rfl⟩
  simp [logPowerOn]

namespace Started
variable {s : State} (h : Started s)
include h

theorem resting : Resting s :=
  ⟨by rw [h.engine], by rw [h.engine], h.presence, h.relay, h.zone, h.line, h.scanner, h.office, h.flash⟩

theorem queue : QueueSound s := by
  unfold QueueSound
  rw [h.line]
  exact ⟨by decide, .nil, by simp [lineStart], by simp [lineStart], fun _ => rfl⟩

theorem counters : CountersSound s := by
  unfold CountersSound
  rw [h.line, h.relay]
  decide

theorem roster : RosterSound s := by
  unfold RosterSound
  rw [h.presence]
  refine ⟨rfl, fun r hr => ?_⟩
  rw [List.eq_of_mem_replicate hr]
  exact ⟨by decide, by decide, by decide, by decide, nofun⟩

theorem lists : PagesSound s ∧ PlansSound s ∧ AnswersSound s := by
  unfold PagesSound PlansSound AnswersSound
  rw [h.relay, h.engine]
  refine ⟨⟨by decide, .nil, ?_⟩, fun p hp l hl => ?_, by decide, .nil, ?_⟩
  · simp [relayStart]
  · rw [List.eq_of_mem_replicate hp] at hl
    cases hl
  · simp [relayStart]

theorem zoneSound : ZoneSound s := by
  unfold ZoneSound
  rw [h.zone]
  refine ⟨rfl, by decide, by decide, by decide, by decide, by decide, fun slot _ f hf => ?_⟩
  have member : some f ∈ List.replicate 32 (none : Option PageFrame) := List.mem_of_getElem? hf
  simp at member

end Started

/-- A table with every entry FREE is sound, whatever the level plans. -/
theorem tableSound_of_start {s : State} (ht : s.engine.table = engineStart.table) (hp : s.engine.pend = engineStart.pend) : TableSound s := by
  have none' : s.incidents = [] := by
    unfold State.incidents
    rw [ht]
    rfl
  unfold TableSound
  rw [none', ht, hp]
  exact ⟨by decide, by decide, .nil, .nil, by simp⟩

/-! ### A station at rest -/

theorem State.incident?_none_of_start {s : State} (h : s.engine.table = engineStart.table) (e : Nat) : s.incident? e = none := by
  unfold State.incident?
  rw [h]
  simp [engineStart, List.getElem?_replicate]
  split <;> rfl

/-- At rest every command but the starts, those of the load, the clock and the panel changes nothing. -/
theorem exec_of_resting {s : State} (hc : s.configured = false) (h : Resting s) (c : Instr) : exec c s = .next s ∨
    (∃ b, c = .powerOn b) ∨ c = .restart ∨ (∃ mdi, c = .loadReadEnd mdi) ∨
    c = .restartRelease ∨ c = .loadWaitEnd ∨ c = .secondsClockTick ∨ c = .panelShareStart := by
  obtain ⟨table, -, presence, relay, zone, line, scanner, -, flash⟩ := h
  have free := State.incident?_none_of_start table
  have deaf : ∀ l, s.hear l = s := fun l => by simp [State.hear, State.listens, hc]
  cases c with
  | powerOn b => exact .inr (.inl ⟨b, rfl⟩)
  | restart => exact .inr (.inr (.inl rfl))
  | loadReadEnd mdi => exact .inr (.inr (.inr (.inl ⟨mdi, rfl⟩)))
  | restartRelease => simp
  | loadWaitEnd => simp
  | secondsClockTick => simp
  | panelShareStart => simp
  | slotBoundary => exact .inl (by simp [exec, execSlotBoundary, State.boundary, zone, zoneStart])
  | outTaken => exact .inl (by simp [exec, execOutTaken, State.byteTaken, zone, zoneStart])
  | firstByteDeadline => exact .inl (by simp [exec, execFirstByteDeadline, State.firstByteDue, zone, zoneStart])
  | wholeFrameDeadline => exact .inl (by simp [exec, execWholeFrameDeadline, State.wholeFrameDue, zone, zoneStart])
  | inStrobe b => exact .inl (by simp [exec, execInStrobe, State.strobe, hc])
  | inFullEnd => exact .inl (by simp [exec, execInFullEnd, State.inFullEnds, zone, zoneStart])
  | gapTimerExpiry => exact .inl (by simp [exec, execGapTimerExpiry, State.gapExpires, zone, zoneStart])
  | agingTimerExpiry => exact .inl (by simp [exec, execAgingTimerExpiry, State.agingExpires, presence, presenceStart])
  | claimTimerExpiry => exact .inl (by simp [exec, execClaimTimerExpiry, State.claimExpires, presence, presenceStart])
  | scan lockout bands => exact .inl (by simp [exec, execScan, State.scanOnce, scanner, scannerStart])
  | chatterWindowEnd => exact .inl (by simp [exec, execChatterWindowEnd, State.windowEnds, scanner, scannerStart])
  | flashPhaseTurn => exact .inl (by simp [exec, execFlashPhaseTurn, State.flashTurns, flash])
  | windowExpiry e => exact .inl (by simp [exec, execWindowExpiry, State.windowExpires, free])
  | refreshLimitEnd e => exact .inl (by simp [exec, execRefreshLimitEnd, State.refreshLimitEnds, free])
  | answerRepeatTimer k => exact .inl (by simp [exec, execAnswerRepeatTimer, State.repeatAnswer, relay, relayStart])
  | beginBurst => exact .inl (by simp [exec, execBeginBurst, State.begin, line, lineStart])
  | collision bit => exact .inl (by simp [exec, execCollision, State.collide, line, lineStart])
  | burstSentWhole => exact .inl (by simp [exec, execBurstSentWhole, State.sentWhole, line, lineStart])
  | _ => exact .inl (congrArg Host.Outcome.next (deaf _))

theorem State.restartReleased_resting {s : State} (h : Resting s) : Resting s.restartReleased := by
  unfold State.restartReleased
  split <;> exact h

theorem State.waitEnds_resting {s : State} (h : Resting s) : Resting s.waitEnds := by
  unfold State.waitEnds
  split <;> exact h

theorem State.nextShare_resting {s : State} (h : Resting s) : Resting s.nextShare := by
  unfold State.nextShare
  simp only
  split <;> exact h

/-- The end of a load leaves a resting station resting, or CONFIGURED (R187, R190). -/
theorem State.readEnds_resting {s : State} (h : Resting s) (img : Image) :
    Resting (s.readEnds img) ∨ (s.readEnds img).configured = true := by
  unfold State.readEnds
  split
  · simp only
    split
    · exact .inl h
    · exact .inr (State.loadConfigured_configured _ img)
  · exact .inl h

/-- A station that is not CONFIGURED rests, or is CONFIGURED by the end of its load, after every command (R25, R187). -/
theorem exec_resting {c : Instr} {s t : State} (hc : s.configured = false) (h : Resting s) (ht : exec c s = .next t) :
    Resting t ∨ t.configured = true := by
  rcases exec_of_resting hc h c with same | ⟨b, rfl⟩ | rfl | ⟨mdi, rfl⟩ | rfl | rfl | rfl | rfl
  · cases same.symm.trans ht
    exact .inl h
  all_goals cases ht
  · exact .inl (powerOnState_started b s.pending).resting
  · unfold State.restartAsserted
    split
    · exact .inl h
    · exact .inl s.restarted_started.resting
  · exact State.readEnds_resting h _
  · exact .inl (State.restartReleased_resting h)
  · exact .inl (State.waitEnds_resting h)
  · exact .inl h
  · exact .inl (State.nextShare_resting h)

/-- The table stays sound through the end of a load: the station it ends rests (R187, R190). -/
theorem State.readEnds_table {s : State} (h : TableSound s ∧ RestsUntilConfigured s) (img : Image) : TableSound (s.readEnds img) := by
  unfold State.readEnds
  split
  · next t load =>
    simp only
    split
    · exact h.1
    · have rests : Resting s := h.2 (by simp [State.configured, load])
      obtain ⟨table, pend, -⟩ := rests
      have taken : TableSound ((s.reach t).takeImage img) := tableSound_of_start table pend
      exact (tableSound_iff _).2 (((s.reach t).takeImage img).firstSlot_steady.table ((tableSound_iff _).1 taken))
  · exact h.1

/-! ### A step -/

/-- A step answers a state by the command at the front of the queue, or idles. -/
theorem step_cases {s t : State} (h : step s = .next t) :
    (s.pending = [] ∧ t = s.idle) ∨ ∃ c rest, s.pending = c :: rest ∧ exec c (s.withPending rest) = .next t := by
  unfold step at h
  split at h
  · next hp =>
    cases h
    exact .inl ⟨hp, rfl⟩
  · next c rest hp => exact .inr ⟨c, rest, hp, h⟩

theorem State.idle_steady (s : State) : Steady s s.idle := by
  unfold State.idle
  split
  · exact .refl s
  · have tick := s.reach_steady (s.now + Config.tickMicros)
    rwa [State.reach, Nat.max_eq_right (Nat.le_add_right ..)] at tick

theorem State.withPending_keeps (s : State) (rest : List Instr) : Keeps s (s.withPending rest) :=
  ⟨Nat.le_refl _, id, id, fun h => ⟨h, Nat.le_refl _⟩, id, id, id, id, id⟩

/-- What a step does to the blocks: it starts them anew, or asserts RESTART once more, or keeps what every other command keeps. -/
theorem step_keeps {s t : State} (h : step s = .next t) : Keeps s t ∨ Started t ∧ (t.log = logPowerOn ∨ t.log = s.log) := by
  rcases step_cases h with ⟨-, rfl⟩ | ⟨c, rest, -, ht⟩
  · exact .inl s.idle_steady.toKeeps
  · have kept : Keeps s (s.withPending rest) := s.withPending_keeps rest
    cases c with
    | powerOn b =>
      cases ht
      exact .inr ⟨powerOnState_started b rest, .inl rfl⟩
    | restart =>
      cases ht
      unfold State.restartAsserted
      split
      · exact .inl kept
      · exact .inr ⟨State.restarted_started _, .inr rfl⟩
    | _ => exact .inl (kept.trans (exec_keeps ht (by simp) (by simp)))

/-- An invariant that the starts meet and every other command keeps is kept by every step. -/
theorem step_preserves {I : State → Prop} (start : ∀ t, Started t → I t) (keep : ∀ s t, Keeps s t → I s → I t) {s t : State}
    (hs : I s) (h : step s = .next t) : I t := by
  rcases step_keeps h with k | ⟨started, -⟩
  · exact keep s t k hs
  · exact start t started

theorem step_keeps_log {s t : State} (hs : LogSound s) (h : step s = .next t) : LogSound t := by
  rcases step_keeps h with k | ⟨-, log⟩
  · exact (k.log hs).1
  · rw [logSound_iff]
    rcases log with log | log <;> rw [log]
    · exact logPowerOn_sound
    · exact hs

/-- The next number stands behind the newest record (R164). -/
theorem Log.Numbered.next {l : Log} (h : l.Numbered) {x : Held} (hx : l.records.getLast? = some x) : l.next = (x.number + 1) % 65536 := by
  obtain ⟨first, appended, counts⟩ := h
  rw [List.getLast?_eq_getElem?] at hx
  obtain ⟨inside, -⟩ := List.getElem?_eq_some_iff.1 hx
  have count : x.count = first + (l.records.length - 1) := by
    have at' := congrArg (·[l.records.length - 1]?) counts
    simp only [List.getElem?_map, hx, Option.map_some, List.getElem?_range' inside, Option.some.injEq] at at'
    omega
  rw [Log.next, Held.number, count, appended, ← recordNumber_add]
  congr 1
  omega

/-- Settles O53: every step keeps the log sound, and the numbers follow from the counts. -/
theorem everyStepKeepsTheLogInOrder : Obligations.EveryStepKeepsTheLogInOrder := by
  unfold Obligations.EveryStepKeepsTheLogInOrder
  intro s t hs h
  have sound := step_keeps_log hs h
  obtain ⟨-, -, -, -, -, numbered⟩ := (logSound_iff t).1 sound
  exact ⟨sound, fun i g x hg hx => numbered.succ hg hx, fun x hx => numbered.next hx⟩

/-- Settles O54. -/
theorem everyStepKeepsTheQueueInOrder : Obligations.EveryStepKeepsTheQueueInOrder := by
  unfold Obligations.EveryStepKeepsTheQueueInOrder
  intro s t
  exact step_preserves (I := fun s => QueueSound s ∧ CountersSound s) (fun t h => ⟨h.queue, h.counters⟩)
    (fun s t k hs => ⟨k.queue hs.1, k.counters hs.2⟩)

/-- Settles O55. -/
theorem everyStepKeepsTheRosterInRange : Obligations.EveryStepKeepsTheRosterInRange := by
  unfold Obligations.EveryStepKeepsTheRosterInRange
  intro s t
  exact step_preserves (I := RosterSound) (fun t h => h.roster) (fun s t k => k.roster)

/-- Settles O56. -/
theorem everyStepKeepsTheListsBounded : Obligations.EveryStepKeepsTheListsBounded := by
  unfold Obligations.EveryStepKeepsTheListsBounded
  intro s t
  exact step_preserves (I := fun s => PagesSound s ∧ PlansSound s ∧ AnswersSound s) (fun t h => h.lists) (fun s t k => k.lists)

/-- Settles O57. -/
theorem everyStepKeepsFramesInHomeSlots : Obligations.EveryStepKeepsFramesInHomeSlots := by
  unfold Obligations.EveryStepKeepsFramesInHomeSlots
  intro s t
  exact step_preserves (I := ZoneSound) (fun t h => h.zoneSound) (fun s t k => k.zone)

/-- The incident table after a command (R1, R2, R10, R25). -/
theorem exec_tableSound {c : Instr} {s t : State} (hs : TableSound s ∧ RestsUntilConfigured s) (h : exec c s = .next t) : TableSound t := by
  cases c with
  | powerOn b =>
    cases h
    exact tableSound_of_start rfl rfl
  | restart =>
    cases h
    unfold State.restartAsserted
    split
    · exact hs.1
    · exact tableSound_of_start rfl rfl
  | loadReadEnd mdi =>
    cases h
    exact State.readEnds_table hs _
  | _ => exact (tableSound_iff t).2 (exec_keepsTable h (by simp) (by simp) (by simp) ((tableSound_iff s).1 hs.1))

/-- A station that is not CONFIGURED after a command rests (R25). -/
theorem exec_restsUntilConfigured {c : Instr} {s t : State} (hs : RestsUntilConfigured s) (h : exec c s = .next t) :
    RestsUntilConfigured t := by
  intro unconfigured
  cases hc : s.configured with
  | false => exact (exec_resting hc (hs hc) h).resolve_right (by simp [unconfigured])
  | true =>
    cases c with
    | powerOn b =>
      cases h
      exact (powerOnState_started b s.pending).resting
    | restart =>
      cases h
      unfold State.restartAsserted at unconfigured ⊢
      split
      · next pin => exact absurd hc (by simpa [pin] using unconfigured)
      · exact s.restarted_started.resting
    | _ => exact absurd ((exec_keeps h (by simp) (by simp)).configured hc) (by simp [unconfigured])

/-- Settles O58. -/
theorem everyStepKeepsTheIncidentTableSound : Obligations.EveryStepKeepsTheIncidentTableSound := by
  unfold Obligations.EveryStepKeepsTheIncidentTableSound
  intro s t hs h
  rcases step_cases h with ⟨-, rfl⟩ | ⟨c, rest, -, ht⟩
  · refine ⟨(tableSound_iff _).2 (s.idle_steady.table ((tableSound_iff s).1 hs.1)), ?_⟩
    unfold State.idle
    split
    · exact hs.2
    · exact hs.2
  · exact ⟨exec_tableSound (s := s.withPending rest) hs ht, exec_restsUntilConfigured (s := s.withPending rest) hs.2 ht⟩

/-- Settles O59. -/
theorem resetMeetsEveryInvariant : Obligations.ResetMeetsEveryInvariant := by
  unfold Obligations.ResetMeetsEveryInvariant
  have started : Started State.reset := powerOnState_started false []
  obtain ⟨pages, plans, answers⟩ := started.lists
  exact ⟨logPowerOn_sound, started.queue, started.counters, started.roster, pages, plans, answers, started.zoneSound,
    tableSound_of_start rfl rfl, fun _ => started.resting⟩

/-- Settles O60: every command but the starts keeps timebase, clock, LINE HOLD and CONFIGURED, and a restart the first two. -/
theorem onlyStartsUndoClockHoldAndLoad : Obligations.OnlyStartsUndoClockHoldAndLoad := by
  unfold Obligations.OnlyStartsUndoClockHoldAndLoad
  intro s t c rest hs pending h hp
  unfold step at h
  rw [pending] at h
  by_cases hr : c = .restart
  · subst hr
    cases h
    refine ⟨?_, fun ne => absurd rfl ne⟩
    unfold State.restartAsserted
    split <;> exact ⟨Nat.le_refl _, Nat.le_refl _⟩
  · have k := exec_keeps h hp hr
    exact ⟨⟨k.now, (k.log hs).2⟩, fun _ => ⟨k.hold, k.configured⟩⟩

end Sys2Proof.Machine
end

section
/-! PROOF. A step, the starts, the clock and the panel. -/

namespace Sys2Proof.Machine

/-- Settles O1. -/
theorem stepRunsTheFrontCommand : Obligations.StepRunsTheFrontCommand := by
  unfold Obligations.StepRunsTheFrontCommand
  intro s c rest pending
  rw [step, pending]
  rfl

theorem State.timerDue_iff (s : State) : s.timerDue = true ↔ ∃ T ∈ s.timers, T ≤ s.now := by
  simp [State.timerDue]

/-- Settles O2. -/
theorem idleStepPassesOneMicrosecond : Obligations.IdleStepPassesOneMicrosecond := by
  unfold Obligations.IdleStepPassesOneMicrosecond
  intro s pending
  have idle : step s = .next s.idle := by rw [step, pending]
  rw [idle, State.idle]
  constructor
  · intro due
    rw [if_pos ((State.timerDue_iff s).2 due)]
  · intro ahead
    have none' : ¬ s.timerDue = true := fun due => by
      obtain ⟨T, hT, past⟩ := (State.timerDue_iff s).1 due
      exact absurd (ahead T hT) (Nat.not_lt.2 past)
    rw [if_neg none']
    rfl

/-- A started station at the begin of a load, with the panel at its start, has the start values of every block. -/
theorem Started.values {s : State} (h : Started s) {t : Nat} {pin restart : Bool} (loader : s.loader = loaderStart t pin restart)
    (panel : s.panel = panelStart s.now) : StartValues s := by
  obtain ⟨-, engine, presence, relay, zone, line, scanner, office, -⟩ := h
  have still : s.configured = false ∧ s.loading = true ∧ s.mselPin = false ∧ s.mclkPin = false := by
    unfold State.loading State.mclkPin State.readTime State.mselPin State.configured
    rw [loader]
    cases pin <;> simp [loaderStart]
  obtain ⟨unconfigured, loading, msel, mclk⟩ := still
  refine ⟨by rw [engine]; exact ⟨rfl, rfl, rfl, rfl⟩, ?_, by rw [relay]; exact ⟨rfl, rfl, rfl⟩, ?_, ?_, ?_, by rw [office]; rfl, ?_,
    loading, by simp [State.alarmOutput, unconfigured], msel, mclk⟩
  · rw [presence]
    refine ⟨rfl, fun r hr => ?_, rfl, rfl, rfl, rfl⟩
    rw [List.eq_of_mem_replicate hr]
    exact ⟨rfl, rfl, rfl, rfl, rfl⟩
  · unfold State.framePin State.outFullPin State.dataLines State.inFullPin
    rw [zone]
    exact ⟨rfl, rfl, rfl, rfl, rfl, rfl, rfl, rfl, rfl, rfl, rfl, rfl, rfl, rfl, rfl, rfl⟩
  · unfold State.lineDrive
    rw [line]
    exact ⟨rfl, rfl, rfl, rfl, rfl, rfl, rfl, rfl, rfl, rfl, rfl, rfl, rfl⟩
  · rw [scanner]
    refine ⟨rfl, fun r hr => ?_, rfl, rfl, rfl, rfl, rfl⟩
    rw [List.eq_of_mem_replicate hr]
    exact ⟨rfl, rfl, rfl, rfl, rfl, rfl, rfl, rfl⟩
  · rw [State.drivenCommon, unconfigured, panel]
    exact ⟨rfl, rfl, rfl, rfl⟩

theorem powerOnState_values (restart : Bool) (queue : List Instr) : StartValues (powerOnState restart queue) :=
  (powerOnState_started restart queue).values rfl rfl

/-- Settles O3. -/
theorem resetHoldsTheStartValues : Obligations.ResetHoldsTheStartValues := by
  unfold Obligations.ResetHoldsTheStartValues
  exact ⟨powerOnState_values false [], rfl, rfl, rfl, rfl, rfl, rfl, rfl, rfl, rfl, rfl, rfl, rfl, rfl⟩

/-- Settles O4. -/
theorem powerOnStartsEveryBlockAnew : Obligations.PowerOnStartsEveryBlockAnew := by
  unfold Obligations.PowerOnStartsEveryBlockAnew
  intro restart s
  exact ⟨_, rfl, powerOnState_values restart s.pending, rfl, rfl, rfl, by cases restart <;> rfl, rfl⟩

/-- Settles O5. -/
theorem restartKeepsTheLogAndClock : Obligations.RestartKeepsTheLogAndClock := by
  unfold Obligations.RestartKeepsTheLogAndClock
  intro s
  have asserted : exec .restart s = .next (if s.loader.restartPin then s else s.restarted) := rfl
  rw [asserted]
  constructor <;> intro pin <;> rw [pin]
  · exact ⟨s.restarted, rfl, s.restarted_started.values rfl rfl, rfl, rfl, rfl, rfl⟩
  · rfl

/-- Settles O49. -/
theorem clockAndFlashTurn : Obligations.ClockAndFlashTurn := by
  unfold Obligations.ClockAndFlashTurn
  refine fun s => ⟨rfl, fun T flash => ?_⟩
  have turns : exec .flashPhaseTurn s = .next s.flashTurns := rfl
  rw [turns, State.flashTurns, flash]
  rfl

/-! ### The panel -/

/-- A row of flags as a number: a sum of the powers of two whose flag is set. -/
theorem foldl_flagAt_lt (f : Nat → Bool) (k : Nat) : (List.range k).foldl (fun n j => n + flagAt (f j) (2 ^ j)) 0 < 2 ^ k := by
  induction k with
  | zero => exact Nat.zero_lt_one
  | succ k ih =>
    rw [List.range_succ, List.foldl_append, List.foldl_cons, List.foldl_nil, flagAt, Nat.pow_succ]
    split <;> omega

theorem testBit_foldl_flagAt (f : Nat → Bool) (k j : Nat) (hj : j < k) :
    ((List.range k).foldl (fun n j => n + flagAt (f j) (2 ^ j)) 0).testBit j = f j := by
  induction k with
  | zero => exact absurd hj (Nat.not_lt_zero j)
  | succ k ih =>
    have below := foldl_flagAt_lt f k
    rw [List.range_succ, List.foldl_append, List.foldl_cons, List.foldl_nil, Nat.add_comm, flagAt]
    rcases Nat.lt_succ_iff_lt_or_eq.1 hj with inside | rfl
    · cases f k
      · simpa using ih inside
      · simpa [Nat.testBit_two_pow_add_gt inside] using ih inside
    · cases f j
      · simpa using Nat.testBit_lt_two_pow below
      · simp [Nat.testBit_two_pow_add_eq, Nat.testBit_lt_two_pow below]

/-- A share of a CONFIGURED station drives segment `j` for point `32 c + j` as it is lit (R178). -/
theorem State.shareSegments_getLsbD {s : State} (h : s.configured = true) (share : Nat) {j : Nat} (hj : j < 32) :
    (s.shareSegments share).getLsbD j = s.lit (32 * share + j) := by
  rw [State.shareSegments, if_pos h, BitVec.getLsbD_ofNat, testBit_foldl_flagAt _ 32 j hj]
  simp [hj]

/-- The share a frame goes on with, and the frame it stands in (R177). -/
theorem State.nextShare_eq (s : State) : s.nextShare = { s with
    now := max s.now s.nextShareAt
    panel := { s.panel with
      share := if s.panel.share + 1 < s.shares then s.panel.share + 1 else 0
      frameStart := if s.panel.share + 1 < s.shares then s.panel.frameStart else s.panel.frameStart + panelFrame
      segments := s.shareSegments (if s.panel.share + 1 < s.shares then s.panel.share + 1 else 0) } } := by
  unfold State.nextShare
  simp only
  split <;> rfl

/-- Settles O50. -/
theorem shareShowsThePointsOfItsCommon : Obligations.ShareShowsThePointsOfItsCommon := by
  unfold Obligations.ShareShowsThePointsOfItsCommon
  intro s
  refine ⟨s.nextShare, rfl, ?_⟩
  rw [State.nextShare_eq]
  refine ⟨rfl, rfl, fun configured _ => ?_, fun unconfigured => ⟨?_, fun j hj => ?_⟩⟩
  · have shares : s.shares = s.panel.commons := by rw [State.shares, if_pos configured]
    rw [shares]
    refine ⟨rfl, fun inside => if_pos inside, fun last => if_neg (Nat.not_lt.2 last), fun j hj => ?_⟩
    exact State.shareSegments_getLsbD configured _ hj
  · exact State.drivenCommon_of_not_configured _ unconfigured
  · show (s.shareSegments _).getLsbD j = _
    rw [s.shareSegments_of_not_configured unconfigured, BitVec.getLsbD_ofNat]
    rw [Nat.testBit_two_pow]
    simp [hj, eq_comm]

/-! ### The load -/

theorem shiftIn_eight (f : Nat → Bool) :
    shiftIn ((List.range 8).map f) = ((List.range 8).map fun k => if f k then 2 ^ (7 - k) else 0).sum := by
  have row : List.range 8 = [0, 1, 2, 3, 4, 5, 6, 7] := by decide
  simp only [row, shiftIn, flagAt, List.map_cons, List.map_nil, List.foldl_cons, List.foldl_nil, List.sum_cons, List.sum_nil]
  grind

/-- A fold that adds is a sum. -/
theorem foldl_add_toNat (l : List Byte) : ∀ n, l.foldl (fun n b => n + b.toNat) n = n + (l.map BitVec.toNat).sum := by
  induction l with
  | nil => exact fun n => rfl
  | cons b l ih => intro n; rw [List.foldl_cons, ih, List.map_cons, List.sum_cons, Nat.add_assoc]

/-- The bytes of the image behind its header, as `imgByte` reads them. -/
theorem drop_four_image (img : Image) :
    (img.toList.drop 4).map BitVec.toNat = (List.range 267).map fun i => imgByte img (i + 4) := by
  refine List.ext_getElem (by simp) fun i h1 h2 => ?_
  have inside : i + 4 < 271 := by simp at h2; omega
  simp [imgByte, List.getD_eq_getElem?_getD, inside, Nat.add_comm 4 i]

/-- The four checks of an image: its length, its sum, the station number and the channel (R186). -/
theorem imageFails_iff (img : Image) : imageFails img = true ↔
    (imgByte img 0 * 256 + imgByte img 1 ≠ 271 ∨
      ((List.range 267).map fun i => imgByte img (i + 4)).sum % 65536 ≠ imgByte img 2 * 256 + imgByte img 3 ∨
      31 < imgByte img 4 ∨ 15 < imgByte img 5) := by
  simp only [imageFails, Bool.or_eq_true, decide_eq_true_eq, foldl_add_toNat, Nat.zero_add, drop_four_image, or_assoc]

theorem State.startSlotZero_loader (s : State) : s.startSlotZero.loader = s.loader := by
  have filled := (State.fillHalf_paged (((s.withZone { s.zone with slot := 0 }).halfOnAir .a).buildBeacon) .b).works.loader
  exact filled

theorem State.reofferZone_loader (s : State) : s.reofferZone.loader = s.loader := by
  unfold State.reofferZone
  split
  · exact (s.offer_spec (.zone s.zone.dark) .class0 none).works.loader
  · rfl

/-- What follows the hand-over of the image leaves the loader alone (R190). -/
theorem State.loadConfigured_loader (s : State) (img : Image) : (s.loadConfigured img).loader = { s.loader with load := .configured } := by
  rw [State.loadConfigured, State.readShare, State.withPanel_loader, State.reofferZone_loader, (State.engineBoundary_works _).loader,
    State.startHandover, State.withZone_loader, State.startSlotZero_loader]
  rfl

/-- Settles O6. -/
theorem loadWaitsReadsAndChecks : Obligations.LoadWaitsReadsAndChecks := by
  unfold Obligations.LoadWaitsReadsAndChecks
  intro s
  refine ⟨fun pin held => ?_, fun T load => ?_, fun mdi i hi => ?_, fun T mdi load => ⟨_, rfl, ?_⟩⟩
  · have released : exec .restartRelease s = .next s.restartReleased := rfl
    rw [released, State.restartReleased, if_pos pin, held]
    rfl
  · have ends : exec .loadWaitEnd s = .next s.waitEnds := rfl
    rw [ends, State.waitEnds, load]
    refine ⟨_, rfl, rfl, ?_, rfl⟩
    rw [State.mselPin, load]
  · rw [imgByte_imageRead mdi i hi, shiftIn_eight]
  · intro img
    rw [State.readEnds, load]
    simp only [← imageFails_iff]
    split
    · rfl
    · exact State.loadConfigured_loader (s.reach T) img


/-! ### The first slot of a station at rest -/

theorem bestCandidate_nil (dark : Bool) (slot : Nat) : bestCandidate dark slot [] = none := rfl

/-- Filling a half with no page to place in a plan that is empty changes nothing (R95). -/
theorem State.fillHalf_of_no_pages {s : State} (pages : s.relay.pages = []) (plan : s.zone.plan = List.replicate 32 none) (h : Half) :
    s.fillHalf h = s := by
  have emptied : ∀ slot, s.emptySlot slot = s := fun slot => by
    unfold State.emptySlot State.setPlan
    rw [plan, List.set_replicate_self, ← plan]
    rfl
  have filled : ∀ slot, s.fillSlot slot = s := fun slot => by
    unfold State.fillSlot
    rw [pages, bestCandidate_nil]
  unfold State.fillHalf
  rw [List.foldl_fixed' emptied, List.foldl_fixed' filled]

/-- An entry with no SETTLE owed offers none at a slot boundary (R20). -/
theorem State.reofferSettle_of_none {s : State} {e : Nat} (h : ∀ i, s.incident? e = some i → i.settleOwed = none) :
    s.reofferSettle e = s := by
  unfold State.reofferSettle
  split
  · rfl
  · next i hi =>
    have none' := h i hi
    split
    · rw [State.offerClosing, hi]
      simp [none']
    · rw [if_neg (by simp [none'])]
    · rfl

/-- An entry with no CALL owed offers none at a slot boundary (R20). -/
theorem State.reofferCall_of_none {s : State} {e : Nat} (h : ∀ i, s.incident? e = some i → i.callOwed = false) :
    s.reofferCall e = s := by
  unfold State.reofferCall
  split
  · rfl
  · next i hi => rw [if_neg (by simp [h i hi])]

/-- With nothing owed the Incident Engine does nothing at a slot boundary (R20). -/
theorem State.engineBoundary_of_none {s : State} (h : ∀ i ∈ s.incidents, i.settleOwed = none ∧ i.callOwed = false) :
    s.engineBoundary = s := by
  unfold State.engineBoundary
  rw [List.foldl_fixed' fun e => State.reofferSettle_of_none fun i hi => (h i (incident?_mem hi)).1,
    List.foldl_fixed' fun e => State.reofferCall_of_none fun i hi => (h i (incident?_mem hi)).2]

theorem State.reofferZone_of_not_owed {s : State} (h : s.zone.zoneOwed = false) : s.reofferZone = s := by
  rw [State.reofferZone, if_neg (by simp [h])]

/-- The zone with the beacon of its first slot 0 in the port (R90, R92, R100). -/
def firstSlot (ident : Identity) (start : Nat) : Zone :=
  { zoneStart with
    onAir := some .a, slot := 0, slotStart := start, slotAt := some (start + slotTime)
    beacon := some ⟨ident.channel, ident.station, 0⟩, handover := some ⟨beaconBytes ⟨ident.channel, ident.station, 0⟩, 0⟩ }

/-- The end of the load of a station at rest: the image handed on, and the first slot with its beacon begun (R190). -/
theorem State.loadConfigured_of_resting {s : State} (h : Resting s) (img : Image) : s.loadConfigured img =
    ((s.takeImage img).withZone (firstSlot (s.takeImage img).ident s.now)).readShare := by
  obtain ⟨table, -, -, relay, zone, -, -, -, -⟩ := h
  have began : (s.takeImage img).startSlotZero.startHandover = (s.takeImage img).withZone (firstSlot (s.takeImage img).ident s.now) := by
    have started : (s.takeImage img).startSlotZero = (s.takeImage img).withZone
        { firstSlot (s.takeImage img).ident s.now with handover := none } := by
      unfold State.startSlotZero
      rw [State.fillHalf_of_no_pages]
      · simp only [State.halfOnAir, State.buildBeacon, State.setPages, goOnAir, State.takeImage, State.withZone, State.withRelay, relay, zone]
        rfl
      · show goOnAir .a s.relay.pages = []
        rw [relay]
        rfl
      · show s.zone.plan = _
        rw [zone]
        rfl
    rw [started]
    rfl
  have idle : ∀ i ∈ ((s.takeImage img).withZone (firstSlot (s.takeImage img).ident s.now)).incidents,
      i.settleOwed = none ∧ i.callOwed = false := by
    have none' : ((s.takeImage img).withZone (firstSlot (s.takeImage img).ident s.now)).incidents = [] := by
      show s.engine.table.filterMap id = []
      rw [table]
      rfl
    simp [none']
  unfold State.loadConfigured
  rw [began, State.engineBoundary_of_none idle, State.reofferZone_of_not_owed rfl]

theorem imageModeAlone_eq (img : Image) (n : Nat) : imageModeAlone img n =
    if 7 < imgByte img (209 + 4 * n) then .unused
    else if imgByte img (207 + 4 * n) % 16 = 1 then .contact
    else if imgByte img (207 + 4 * n) % 16 = 2 ∧ n < 8 then .supervised
    else .unused := by
  unfold imageModeAlone
  split
  · rfl
  · split
    · next one => rw [if_pos one]
    · next two =>
      by_cases low : n < 8
      · simp [two, low, Nat.not_le.2 low]
      · simp [two, low, Nat.not_lt.1 low]
    · next h1 h2 => rw [if_neg h1, if_neg (fun ⟨h, _⟩ => h2 h)]

theorem getD_range_map {α : Type} (f : Nat → α) (d : α) {k n : Nat} (h : n < k) : ((List.range k).map f).getD n d = f n := by
  simp [List.getD_eq_getElem?_getD, h]

theorem State.takeImage_levels (s : State) (img : Image) {c : Nat} (h1 : 1 ≤ c) (h2 : c ≤ 4) :
    (s.takeImage img).levels c = imagePlan img c := by
  have classes : [1, 2, 3, 4] = (List.range 4).map (· + 1) := by decide
  show ([1, 2, 3, 4].map (imagePlan img)).getD (c - 1) [] = _
  rw [classes, List.map_map, getD_range_map _ _ (by omega)]
  show imagePlan img (c - 1 + 1) = _
  rw [Nat.sub_add_cancel h1]

theorem imagePlan_length (img : Image) (c : Nat) : (imagePlan img c).length = max 1 (min (imgByte img (11 + 17 * (c - 1))) 4) := by
  simp [imagePlan, clamp]

theorem State.takeImage_levelPlan (s : State) (img : Image) {c l : Nat} (h1 : 1 ≤ c) (h2 : c ≤ 4)
    (hl : l < ((s.takeImage img).levels c).length) : (s.takeImage img).levelPlan c l = imageLevel img c l := by
  rw [s.takeImage_levels img h1 h2] at hl
  rw [State.levelPlan, s.takeImage_levels img h1 h2, imagePlan, getD_range_map _ _ (by simpa [imagePlan] using hl)]

theorem State.takeImage_pager (s : State) (img : Image) {p : Nat} (h : p < 64) : (s.takeImage img).pager p = imagePager img p :=
  getD_range_map _ _ h

theorem State.takeImage_input (s : State) (img : Image) {n : Nat} (h : n < 16) : (s.takeImage img).input n = imageInput img n :=
  getD_range_map _ _ h

/-- Settles O7. -/
theorem passedLoadHandsTheImageOn : Obligations.PassedLoadHandsTheImageOn := by
  unfold Obligations.PassedLoadHandsTheImageOn
  intro s T mdi load passed rests img alone
  have ends : exec (.loadReadEnd mdi) s = .next ((s.reach T).loadConfigured img) := by
    show Host.Outcome.next (s.readEnds img) = _
    rw [State.readEnds, load]
    simp only [img, passed, Bool.false_eq_true, if_false]
  refine ⟨_, ends, ?_⟩
  rw [State.loadConfigured_of_resting (s := s.reach T) rests]
  obtain ⟨table, pend, presence, relay, zone, line, scanner, office, -⟩ := rests
  refine ⟨rfl, rfl, rfl, rfl, rfl, ?_, ⟨rfl, rfl, ?_⟩, ⟨?_, ?_, ?_, rfl, rfl, ?_⟩, ?_, rfl, ⟨rfl, ?_, ?_⟩, ?_, rfl, rfl, rfl, rfl, rfl⟩
  · simp only [State.alarmOutput, State.alarmCondition, State.readShare, State.configured, State.takeImage, State.reach, State.withNow,
      State.withZone, State.withPanel, table, pend, line]
    rfl
  · intro c h1 h2
    have levels : ∀ x y, (((s.reach T).takeImage img).withZone x).readShare.levels y = ((s.reach T).takeImage img).levels y := fun _ _ => rfl
    simp only [levels]
    refine ⟨by rw [State.takeImage_levels _ img h1 h2, imagePlan_length], fun l hl => ?_⟩
    have level : ∀ x, (((s.reach T).takeImage img).withZone x).readShare.levelPlan c l = imageLevel img c l :=
      fun _ => State.takeImage_levelPlan _ img h1 h2 hl
    rw [level]
    exact ⟨rfl, rfl, rfl, rfl, rfl⟩
  · simp [State.readShare, State.takeImage]
  · show s.presence.pointer = 0
    rw [presence]
    rfl
  · show s.presence.owedDuty = []
    rw [presence]
    rfl
  · intro p hp
    exact State.takeImage_pager _ img hp
  · rw [zone]
    rfl
  · simp [State.readShare, State.takeImage]
  · intro n hn
    refine (State.takeImage_input _ img hn).trans ?_
    have both : alone = imageModeAlone img := funext fun n => (imageModeAlone_eq img n).symm
    rw [both]
    rfl
  · rfl

end Sys2Proof.Machine
end

section
/-! PROOF. The handover of a frame, its deadlines, and what LIVE and DARK come to (R100 to R108). -/

namespace Sys2Proof.Machine

/-! ### The ZONE burst -/

/-- A ZONE burst offered to a queue with room is placed and owed no longer (R108, R118). -/
theorem State.offerZone_room {s : State} (h : s.line.hold = false) (room : s.line.queue.length < queueMax) :
    s.offerZone = (s.withLine (s.line.place ⟨.zone s.zone.dark, .class0, none, 0⟩)).withZone { s.zone with zoneOwed := false } := by
  unfold State.offerZone
  rw [s.offer_room _ _ _ h room]
  rfl

/-- A ZONE burst that a full queue of class 0 bursts refuses is owed (R108, R118). -/
theorem State.offerZone_full {s : State} (h : s.line.hold = false) (full : queueMax ≤ s.line.queue.length)
    (none' : s.line.evictable = none) : s.offerZone = s.withZone { s.zone with zoneOwed := true } := by
  unfold State.offerZone
  rw [s.offer_full _ _ _ h full none']
  rfl

/-- In LINE HOLD a ZONE burst is discarded and owed no longer (R119). -/
theorem State.offerZone_discarded {s : State} (h : s.line.hold = true) : s.offerZone = s.withZone { s.zone with zoneOwed := false } := by
  unfold State.offerZone
  rw [s.offer_discarded _ _ _ h]
  rfl

/-- What an offer of a ZONE burst can change: the queue, the drain a lost LOG ends, and the owed mark (R108). -/
theorem State.offerZone_rest (s : State) : s.offerZone = { s with
    line := s.offerZone.line, office := s.offerZone.office, zone := { s.zone with zoneOwed := s.offerZone.zone.zoneOwed } } := by
  have offered := (s.offer_spec (.zone s.zone.dark) .class0 none).rest
  have owed : ∀ u : State, u = { s with line := u.line, office := u.office } → ∀ o, u.withZone { u.zone with zoneOwed := o } =
      { s with line := u.line, office := u.office, zone := { s.zone with zoneOwed := o } } := by
    intro u hu o
    rw [hu]
    rfl
  exact owed _ offered _

/-! ### A slot on time -/

theorem State.byteTaken_of_last {s : State} {h : Handover} (hh : s.zone.handover = some h) (last : h.bytes.length ≤ h.taken + 1) :
    s.byteTaken = s.slotOnTime := by
  unfold State.byteTaken
  rw [hh]
  simp only
  rw [if_neg (Nat.not_lt.2 last)]

/-- An on-time slot 0: a LIVE zone ends its row of late slots, a DARK one counts its on-time beacon or returns to LIVE (R104, R107). -/
theorem State.slotOnTime_of_beacon {s : State} (zero : s.zone.slot = 0) : s.slotOnTime =
    if s.zone.dark = true then
      if s.zone.beaconCount = 0 then s.withZone { s.zone with handover := none, beaconCount := 1 } else s.dropFrame.goLive
    else s.withZone { s.zone with handover := none, lateCount := 0 } := by
  have slot : s.dropFrame.zone.slot = 0 := zero
  unfold State.slotOnTime
  simp only
  rw [if_pos slot, if_neg (not_not.2 slot)]
  rfl

/-- An on-time page slot of a LIVE zone counts the airing of its frame and ends the row of late slots (R103, R104). -/
theorem State.slotOnTime_of_page {s : State} {f : PageFrame} (live : s.zone.dark = false) (slot : s.zone.slot ≠ 0)
    (plan : s.zone.plan[s.zone.slot]? = some (some f)) : s.slotOnTime =
    (s.withZone { s.zone with handover := none, lateCount := 0 }).setPages (s.relay.pages.map (countAiring f)) := by
  have counted : s.dropFrame.countSlot = s.dropFrame.setPages (s.relay.pages.map (countAiring f)) := by
    have frame : (s.dropFrame.zone.plan[s.dropFrame.zone.slot]?).join = some f := by
      show (s.zone.plan[s.zone.slot]?).join = some f
      rw [plan]
      rfl
    rw [State.countSlot, frame]
    rfl
  have bright : ¬ (s.dropFrame.setPages (s.relay.pages.map (countAiring f))).zone.dark = true := by
    show ¬ s.zone.dark = true
    rw [live]
    exact Bool.false_ne_true
  unfold State.slotOnTime
  simp only
  rw [if_neg (show ¬ s.dropFrame.zone.slot = 0 from slot), counted, if_neg bright]
  rfl

/-- Settles O12. -/
theorem outTakenHandsTheFrameByteByByte : Obligations.OutTakenHandsTheFrameByteByByte := by
  unfold Obligations.OutTakenHandsTheFrameByteByByte
  intro s
  have taken : exec .outTaken s = .next s.byteTaken := rfl
  rw [taken]
  refine ⟨fun none' => by rw [State.byteTaken, none'], fun h hh => ⟨fun inside => ?_, fun last live zero => ?_,
    fun f last live slot plan => ?_, fun last dark zero count => ?_⟩⟩
  · rw [State.byteTaken, hh]
    simp only
    rw [if_pos inside]
    rfl
  · rw [State.byteTaken_of_last hh last, State.slotOnTime_of_beacon zero, live]
    rfl
  · rw [State.byteTaken_of_last hh last, State.slotOnTime_of_page live slot plan]
    rfl
  · rw [State.byteTaken_of_last hh last, State.slotOnTime_of_beacon zero, dark, if_pos rfl, if_pos count]
    rfl

/-- The zone once it has returned to LIVE with its record, before the ZONE burst is offered (R107). -/
def State.liveAgain (s : State) : State :=
  (s.withZone { s.zone with dark := false, lateCount := 0, beaconCount := 0 }).append .zoneLive none none none

theorem State.goLive_eq (s : State) : s.goLive = s.liveAgain.offerZone.fillHalf .b := rfl

/-- Settles O13: the zone goes LIVE and offers its ZONE burst, then half B is filled. -/
theorem secondOnTimeBeaconReturnsTheZoneToLive : Obligations.SecondOnTimeBeaconReturnsTheZoneToLive := by
  unfold Obligations.SecondOnTimeBeaconReturnsTheZoneToLive
  intro s h hh last dark zero count
  have taken : exec .outTaken s = .next s.dropFrame.goLive := by
    show Host.Outcome.next s.byteTaken = _
    rw [State.byteTaken_of_last hh last, State.slotOnTime_of_beacon zero, dark, if_pos rfl, if_neg count]
  rw [taken]
  rw [State.goLive_eq]
  have offered := s.dropFrame.liveAgain.offerZone_rest
  have room := State.offerZone_room (s := s.dropFrame.liveAgain)
  have full := State.offerZone_full (s := s.dropFrame.liveAgain)
  generalize s.dropFrame.liveAgain.offerZone = u at offered room full ⊢
  obtain ⟨t, filling⟩ : ∃ t, t = u.fillHalf .b := ⟨_, rfl⟩
  have filled : Paged True u t := filling ▸ State.fillHalf_paged u .b
  rw [← filling]
  have log : t.log = s.log.append .zoneLive none none none false := by
    rw [filled.log, offered]
    rfl
  have zone : t.zone = { s.zone with
      dark := false, lateCount := 0, beaconCount := 0, handover := none, zoneOwed := u.zone.zoneOwed, plan := t.zone.plan } := by
    rw [filled.zone, offered]
    rfl
  refine ⟨t, u, rfl, ?_, by rw [zone], by rw [zone], by rw [zone], by rw [zone], log, ⟨?_, ?_, ?_, ?_, by rw [filling], by rw [filling]⟩,
    fun hold inside => ?_, fun hold last' none' => ?_⟩
  · have rest := filled.rest
    rw [offered] at rest
    rw [filled.line, filled.office, log]
    exact rest
  · rw [offered]
    rfl
  · rw [offered]
    rfl
  · rw [offered]
    rfl
  · rw [offered]
    rfl
  · have placed := room hold inside
    rw [zone, filled.line, filled.office, placed]
    exact ⟨rfl, rfl, rfl⟩
  · have refused := full hold last' none'
    rw [zone, filled.line, refused]
    exact ⟨rfl, rfl⟩

/-! ### A slot late -/

/-- A late slot of a DARK zone, or of a LIVE one with fewer than two late slots behind it (R104, R107). -/
theorem State.slotLate_of_few {s : State} (few : s.zone.dark = true ∨ s.zone.lateCount < 2) : s.slotLate = s.withZone
    (if s.zone.dark then { s.zone with handover := none, beaconCount := 0 }
      else { s.zone with handover := none, lateCount := s.zone.lateCount + 1 }) := by
  unfold State.slotLate
  simp only
  by_cases dark : s.zone.dark = true
  · rw [if_pos dark]
    exact if_pos dark
  · have count : s.dropFrame.zone.lateCount < 2 := few.resolve_left dark
    rw [if_neg dark]
    exact (if_neg dark).trans (if_pos count)

theorem State.slotLate_of_two {s : State} (live : s.zone.dark = false) (two : s.zone.lateCount = 2) : s.slotLate = s.dropFrame.goDark := by
  have bright : ¬ s.dropFrame.zone.dark = true := by
    show ¬ s.zone.dark = true
    simp [live]
  have count : ¬ s.dropFrame.zone.lateCount < 2 := by
    show ¬ s.zone.lateCount < 2
    omega
  unfold State.slotLate
  simp only
  rw [if_neg bright, if_neg count]

theorem State.firstByteDue_of_none_taken {s : State} {h : Handover} (hh : s.zone.handover = some h) (first : h.taken = 0) :
    s.firstByteDue = (s.reach (s.zone.slotStart + firstByteTime)).slotLate := by
  unfold State.firstByteDue
  rw [hh]
  exact if_pos first

theorem State.wholeFrameDue_of_some {s : State} {h : Handover} (hh : s.zone.handover = some h) :
    s.wholeFrameDue = (s.reach (s.zone.slotStart + wholeFrameTime)).slotLate := by
  unfold State.wholeFrameDue
  rw [hh]

/-- Settles O14. -/
theorem missedDeadlineMakesTheSlotLate : Obligations.MissedDeadlineMakesTheSlotLate := by
  unfold Obligations.MissedDeadlineMakesTheSlotLate
  intro s
  have first : exec .firstByteDeadline s = .next s.firstByteDue := rfl
  have whole : exec .wholeFrameDeadline s = .next s.wholeFrameDue := rfl
  rw [first, whole]
  refine ⟨fun none' => ⟨by rw [State.firstByteDue, none'], by rw [State.wholeFrameDue, none']⟩, fun h hh => ⟨fun taken => ?_,
    fun none' few => ?_, fun few => ?_⟩⟩
  · rw [State.firstByteDue, hh]
    exact congrArg Host.Outcome.next (if_neg taken)
  · rw [State.firstByteDue_of_none_taken hh none', State.slotLate_of_few (by exact few)]
    rfl
  · rw [State.wholeFrameDue_of_some hh, State.slotLate_of_few (by exact few)]
    rfl

/-! ### The zone goes DARK -/

theorem foldl_emptySlot (l : List Nat) : ∀ s : State, l.foldl State.emptySlot s = s.setPlan (l.foldl (fun pl slot => pl.set slot none)
    s.zone.plan) := by
  induction l with
  | nil => exact fun s => rfl
  | cons slot l ih =>
    intro s
    rw [List.foldl_cons, List.foldl_cons, ih]
    rfl

/-- The slots of a row emptied, and the others as they were. -/
theorem foldl_set_none (l : List Nat) : ∀ (plan : List (Option PageFrame)) (slot : Nat), slot < plan.length →
    (l.foldl (fun pl slot => pl.set slot none) plan)[slot]? = if slot ∈ l then some none else plan[slot]? := by
  induction l with
  | nil => exact fun plan slot _ => rfl
  | cons x l ih =>
    intro plan slot inside
    rw [List.foldl_cons, ih _ slot (by simpa using inside), List.getElem?_set]
    by_cases hx : x = slot
    · subst hx
      simp [inside]
    · simp [hx, Ne.symm hx]

theorem State.emptyOffAir_rest (s : State) : s.emptyOffAir = s.setPlan s.emptyOffAir.zone.plan := by
  unfold State.emptyOffAir
  split
  · rfl
  · rw [foldl_emptySlot]
    rfl

/-- The plan once the page slots of the off-air half are emptied (R105). -/
theorem State.emptyOffAir_plan {s : State} {h : Half} (off : s.zone.offAir = some h) {slot : Nat} (inside : slot < s.zone.plan.length) :
    s.emptyOffAir.zone.plan[slot]? = if slot ∈ pageSlots h then some none else s.zone.plan[slot]? := by
  unfold State.emptyOffAir
  rw [off]
  simp only
  rw [foldl_emptySlot]
  exact foldl_set_none _ _ _ inside

/-- A page slot lies in one half only (R91). -/
theorem not_mem_pageSlots_both {slot : Nat} (a : slot ∈ pageSlots .a) (b : slot ∈ pageSlots .b) : False := by
  simp only [pageSlots, List.mem_map, List.mem_range] at a b
  omega

/-- The zone once it has gone DARK with its record and cleared scores, before the ZONE burst is offered (R63, R105). -/
def State.darkened (s : State) : State :=
  ((s.withZone { s.zone with dark := true, lateCount := 0, beaconCount := 0 }).append .zoneDark none none none).presenceDark

/-- Settles O15: the zone goes DARK and offers its ZONE burst, then the pages return to WAITING and the off-air half is emptied. -/
theorem thirdLateSlotDarkensTheZone : Obligations.ThirdLateSlotDarkensTheZone := by
  unfold Obligations.ThirdLateSlotDarkensTheZone
  intro s h c T hh live two length which
  have late : exec c s = .next (s.reach (s.zone.slotStart + T)).dropFrame.goDark := by
    rcases which with ⟨rfl, none', rfl⟩ | ⟨rfl, rfl⟩
    · show Host.Outcome.next s.firstByteDue = _
      rw [State.firstByteDue_of_none_taken hh none', State.slotLate_of_two (by exact live) (by exact two)]
      rfl
    · show Host.Outcome.next s.wholeFrameDue = _
      rw [State.wholeFrameDue_of_some hh, State.slotLate_of_two (by exact live) (by exact two)]
      rfl
  rw [late]
  have emptied : (s.reach (s.zone.slotStart + T)).dropFrame.goDark =
      (s.reach (s.zone.slotStart + T)).dropFrame.darkened.offerZone.relayDark.setPlan
        (s.reach (s.zone.slotStart + T)).dropFrame.goDark.zone.plan := State.emptyOffAir_rest _
  have offered := (s.reach (s.zone.slotStart + T)).dropFrame.darkened.offerZone_rest
  have room := State.offerZone_room (s := (s.reach (s.zone.slotStart + T)).dropFrame.darkened)
  have full := State.offerZone_full (s := (s.reach (s.zone.slotStart + T)).dropFrame.darkened)
  have plan : ∀ {h : Half}, (s.reach (s.zone.slotStart + T)).dropFrame.darkened.offerZone.relayDark.zone.offAir = some h → ∀ {slot : Nat},
      slot < (s.reach (s.zone.slotStart + T)).dropFrame.darkened.offerZone.relayDark.zone.plan.length →
      (s.reach (s.zone.slotStart + T)).dropFrame.goDark.zone.plan[slot]? = if slot ∈ pageSlots h then some none
        else (s.reach (s.zone.slotStart + T)).dropFrame.darkened.offerZone.relayDark.zone.plan[slot]? :=
    State.emptyOffAir_plan
  generalize (s.reach (s.zone.slotStart + T)).dropFrame.goDark = t at emptied plan ⊢
  generalize (s.reach (s.zone.slotStart + T)).dropFrame.darkened.offerZone = u at emptied plan offered room full
  have zone : u.zone = { s.zone with
      dark := true, lateCount := 0, beaconCount := 0, handover := none, zoneOwed := u.zone.zoneOwed } := by
    rw [offered]
    rfl
  have line : t.line = u.line := by rw [emptied]; rfl
  have office : t.office = u.office := by rw [emptied]; rfl
  have owed : t.zone.zoneOwed = u.zone.zoneOwed := by rw [emptied]; rfl
  have presence : t.presence = (s.reach (s.zone.slotStart + T)).dropFrame.darkened.presence := by
    rw [emptied, offered]
    rfl
  have log : t.log = (s.reach (s.zone.slotStart + T)).dropFrame.darkened.log := by
    rw [emptied, offered]
    rfl
  have offAir : ∀ slot h, s.zone.offAir = some h → slot ∈ pageSlots .a ∨ slot ∈ pageSlots .b →
      t.zone.plan[slot]? = if slot ∈ pageSlots h then some none else s.zone.plan[slot]? := by
    intro slot h off inside
    have inPlan : slot < s.zone.plan.length := by
      rw [length]
      exact inside.elim lt_of_mem_pageSlots lt_of_mem_pageSlots
    have samePlan : u.zone.plan = s.zone.plan := by rw [zone]
    have empties := plan (h := h) (by show u.zone.offAir = _; rw [zone]; exact off) (slot := slot) (by
      show slot < u.zone.plan.length
      rw [samePlan]
      exact inPlan)
    rw [empties]
    show (if slot ∈ pageSlots h then some none else u.zone.plan[slot]?) = _
    rw [samePlan]
  refine ⟨t, rfl, ?_, ?_, ?_, ?_, ?_, ?_, ?_, fun hold inside => ?_, fun hold last none' => ?_⟩
  · have rest : t = { u with relay := t.relay, zone := t.zone } := by
      conv_lhs => rw [emptied]
      rw [congrArg State.relay emptied, congrArg State.zone emptied]
      rfl
    rw [offered] at rest
    rw [line, office, presence, log]
    exact rest
  · have kept : t.zone = { u.zone with plan := t.zone.plan } := congrArg State.zone emptied
    rw [zone] at kept
    rw [owed]
    exact kept
  · rw [emptied, offered]
    rfl
  · rw [emptied, offered]
    rfl
  · rw [emptied, offered]
    rfl
  · rintro slot (⟨on, inside⟩ | ⟨on, inside⟩)
    · rw [offAir slot .b (by rw [Zone.offAir, on]; rfl) (.inr inside), if_pos inside]
    · rw [offAir slot .a (by rw [Zone.offAir, on]; rfl) (.inl inside), if_pos inside]
  · rintro slot (⟨on, inside⟩ | ⟨on, inside⟩)
    · rw [offAir slot .b (by rw [Zone.offAir, on]; rfl) (.inl inside), if_neg fun other => not_mem_pageSlots_both inside other]
    · rw [offAir slot .a (by rw [Zone.offAir, on]; rfl) (.inr inside), if_neg fun other => not_mem_pageSlots_both other inside]
  · have placed := room hold inside
    rw [line, owed, office, placed]
    exact ⟨rfl, rfl, rfl⟩
  · have refused := full hold last none'
    rw [line, owed, refused]
    exact ⟨rfl, rfl⟩

end Sys2Proof.Machine
end

section
/-! PROOF. The return assembler and what a return word comes to (R109 to R113), and the owed duty list (R60, R61). -/

namespace Sys2Proof.Machine

/-! ### Strobes and the gap timer -/

theorem State.strobe_latched {s : State} (b : Byte) (hc : s.configured = true) (out : s.outFullPin = false) (inn : s.inFullPin = false) :
    s.strobe b = s.latch b := by
  unfold State.strobe
  rw [if_pos hc, out, inn]
  rfl

theorem State.strobe_refused {s : State} (b : Byte) (hc : s.configured = true) (full : s.outFullPin = true ∨ s.inFullPin = true) :
    s.strobe b = s.refuseStrobe := by
  unfold State.strobe
  rw [if_pos hc, if_pos (by simpa using full)]

/-- Settles O16. -/
theorem strobesAndTimersDriveThePort : Obligations.StrobesAndTimersDriveThePort := by
  unfold Obligations.StrobesAndTimersDriveThePort
  intro s b
  have strobe : exec (.inStrobe b) s = .next (s.strobe b) := rfl
  have fall : exec .inFullEnd s = .next s.inFullEnds := rfl
  have gap : exec .gapTimerExpiry s = .next s.gapExpires := rfl
  rw [strobe, fall, gap]
  refine ⟨fun hc => ?_, fun hc out inn => ?_, fun hc full => ?_, fun T hT => ?_, fun T hT => ?_⟩
  · rw [State.strobe, if_neg (by simp [hc])]
  · rw [State.strobe_latched b hc out inn]
    unfold State.latch
    simp only [State.withZone_zone]
    refine ⟨fun h => ?_, fun x h => ?_, fun x y h => ?_, fun h => ?_⟩ <;> rw [h] <;> rfl
  · rw [State.strobe_refused b hc full]
    unfold State.refuseStrobe
    by_cases resync : s.zone.assembler = .resync
    · simp only [if_pos resync]
      rfl
    · simp only [if_neg resync]
      rfl
  · rw [State.inFullEnds, hT]
    rfl
  · rw [State.gapExpires, hT]
    have same : (s.reach T).zone = s.zone := rfl
    simp only [same]
    cases h : s.zone.assembler <;> rfl

/-! ### The owed duty list -/

/-- A class 1 burst that is no LOG: discarded in LINE HOLD, last in a queue with room, refused by a full one (R117 to R119). -/
theorem State.offer_class1 (s : State) (body : Body) (who : Option Nat) (h : ∀ rs, body ≠ .log rs) : s.offer body .class1 who =
    if s.line.hold = true then (s, true)
    else if s.line.queue.length < queueMax then
      (s.withLine { s.line with queue := s.line.queue ++ [⟨body, .class1, who, 0⟩] }, true)
    else (s, false) := by
  by_cases hold : s.line.hold = true
  · rw [if_pos hold, s.offer_discarded _ _ _ hold, State.reportLost_of_ne_log _ h]
  · have free : s.line.hold = false := by simpa using hold
    rw [if_neg hold]
    by_cases room : s.line.queue.length < queueMax
    · rw [if_pos room, s.offer_room _ _ _ free room, Line.place_class1 _ rfl]
    · rw [if_neg room, s.offer_refused _ _ free (Nat.not_lt.1 room)]

/-- The owed duty list offered: emptied when its DUTY burst is accepted, and kept when it is refused (R61). -/
theorem State.offerDuty_eq (s : State) : s.offerDuty =
    if s.line.hold = true then s.withPresence { s.presence with owedDuty := [] }
    else if s.line.queue.length < queueMax then
      (s.withLine { s.line with queue := s.line.queue ++ [⟨.duty s.presence.owedDuty, .class1, none, 0⟩] }).withPresence
        { s.presence with owedDuty := [] }
    else s := by
  unfold State.offerDuty
  rw [State.offer_class1 s _ _ (by simp)]
  split
  · rfl
  · split <;> rfl

/-! ### Return words -/

theorem returnKindOf_none_iff (n : Nat) : returnKindOf n = none ↔ 6 ≤ n := by
  constructor
  · intro h
    by_contra low
    have small : n < 6 := Nat.not_le.1 low
    interval_cases n <;> cases h
  · intro h
    unfold returnKindOf
    split <;> first | omega | rfl

theorem returnKindOf_answer {n : Nat} {kind : AnswerKind} (h : n = answerKindCode kind) : returnKindOf n = some (.answer kind) := by
  subst h
  cases kind <;> rfl

theorem returnKindOf_sign {n : Nat} (h : n = 4 ∨ n = 5) : returnKindOf n = some (.sign (n == 4)) := by
  rcases h with rfl | rfl <;> rfl

/-- A new score, and the mark it may set, in one condition (R47, R50). -/
theorem setScore_eq (v : Nat) (r : PagerRecord) : setScore v r =
    { r with score := v, belowOwed := r.belowOwed || decide (24 ≤ r.score ∧ v < 24 ∧ 24 ≤ r.announced) } := by
  simp only [setScore, floorScore, Bool.decide_and, Bool.and_assoc]
  rfl

/-- The fourth byte latched completes the word (R109, R112). -/
theorem State.latch_fourth {s : State} {x y z : Byte} (b : Byte) (h : s.zone.assembler = .assembling [x, y, z]) :
    s.latch b = (s.withZone { s.zone with inFullUntil := some (s.now + inFullTime), assembler := .idle, gapAt := none }).takeWord
      (readReturnWord x y z b) := by
  unfold State.latch
  simp only [State.withZone_zone]
  rw [h]
  rfl

/-- A word of a known kind and a good check, of a pager on the roster, is a hearing and is routed (R112). -/
theorem State.takeWord_of_good {s : State} {w : ReturnWord} {k : ReturnKind} (good : w.bad = false) (pager : w.pager < 64)
    (kind : w.kind = some k) : s.takeWord w = (s.hearing w.pager w.grade).routeWord w := by
  unfold State.takeWord
  rw [if_neg (by simp [good, kind, pager])]

theorem State.takeWord_of_bad {s : State} {w : ReturnWord} (bad : w.bad = true ∨ w.kind = none ∨ 64 ≤ w.pager) : s.takeWord w = s := by
  unfold State.takeWord
  rw [if_pos (by rcases bad with h | h | h <;> simp [h])]

theorem State.routeWord_checkin {s : State} {w : ReturnWord} (h : w.kind = some .checkin) : s.routeWord w = s := by
  rw [State.routeWord, h]

theorem State.routeWord_sign {s : State} {w : ReturnWord} {on : Bool} (h : w.kind = some (.sign on)) :
    s.routeWord w = s.sign ⟨w.pager, on⟩ := by
  rw [State.routeWord, h]

theorem State.routeWord_answer {s : State} {w : ReturnWord} {k : AnswerKind} {o : Nat} (h : w.kind = some (.answer k))
    (ho : w.owner = some o) : s.routeWord w =
      if o = s.ident.station then s.takeAnswer ⟨o, w.serial, w.pager, k⟩ else s.answerForOther ⟨o, w.serial, w.pager, k⟩ := by
  rw [State.routeWord, h]
  simp only
  rw [ho]

theorem State.routeWord_ownerless {s : State} {w : ReturnWord} {k : AnswerKind} (h : w.kind = some (.answer k)) (ho : w.owner = none) :
    s.routeWord w = s := by
  rw [State.routeWord, h]
  simp only
  rw [ho]

/-- A SIGNON or SIGNOFF: the duty set, and the owed duty list with its new entry offered at once (R60, R61). -/
theorem State.sign_eq (s : State) (d : DutyEntry) : s.sign d =
    (if s.line.hold = true then (s.setDuty d).withPresence { (s.setDuty d).presence with owedDuty := [] }
    else if s.line.queue.length < queueMax then
      ((s.setDuty d).withPresence { (s.setDuty d).presence with owedDuty := [] }).withLine
        { s.line with queue := s.line.queue ++ [⟨.duty (placeDuty d s.presence.owedDuty), .class1, none, 0⟩] }
    else (s.setDuty d).withPresence { (s.setDuty d).presence with owedDuty := placeDuty d s.presence.owedDuty }) := by
  unfold State.sign
  rw [State.offerDuty_eq]
  rfl

/-- Settles O17: the fourth byte completes the word, which is heard and routed by its kind. -/
theorem returnWordIsHeardThenRouted : Obligations.ReturnWordIsHeardThenRouted := by
  unfold Obligations.ReturnWordIsHeardThenRouted
  intro s x y z b hc out inn held base p grade heard
  have word : exec (.inStrobe b) s = .next (base.takeWord (readReturnWord x y z b)) := by
    show Host.Outcome.next (s.strobe b) = _
    rw [State.strobe_latched b hc out inn, State.latch_fourth b held]
    rfl
  have pager : x.toNat < 64 → p = x.toNat := fun h => Nat.mod_eq_of_lt (by omega)
  have hears : x.toNat < 64 → base.hearing p grade = heard := fun h => by
    unfold State.hearing
    by_cases dark : s.zone.dark = true
    · rw [if_pos (.inr dark)]
      exact (if_pos dark).symm
    · rw [if_neg (by rw [pager h]; exact fun c => c.elim (by omega) dark)]
      have scores : (fun r => setScore (heardScore r.score grade) r) = fun r : PagerRecord => { r with
          score := (3 * r.score + 16 * grade + 2) / 4
          belowOwed := r.belowOwed || decide (24 ≤ r.score ∧ (3 * r.score + 16 * grade + 2) / 4 < 24 ∧ 24 ≤ r.announced) } :=
        funext fun r => setScore_eq _ r
      rw [scores]
      exact (if_neg dark).symm
  have routed : ∀ k, x.toNat < 64 → returnKindOf (y.toNat / 16) = some k →
      exec (.inStrobe b) s = .next (heard.routeWord (readReturnWord x y z b)) := fun k low kind => by
    rw [word, State.takeWord_of_good (k := k) (by simp [readReturnWord]; omega) (by show p < 64; rw [pager low]; exact low) kind]
    exact congrArg (fun u : State => Host.Outcome.next (u.routeWord (readReturnWord x y z b))) (hears low)
  refine ⟨fun bad => ?_, fun low kind => ?_, fun low kind => ?_, fun kind low code => ?_⟩
  · rw [word, State.takeWord_of_bad]
    rcases bad with h | h | h
    · exact .inl (by simpa [readReturnWord] using h)
    · exact .inr (.inl ((returnKindOf_none_iff _).2 h))
    · exact .inr (.inr h)
  · have checkin : returnKindOf (y.toNat / 16) = some .checkin := by rw [kind]; rfl
    rw [routed _ low checkin, State.routeWord_checkin checkin]
  · intro d list owed signed
    rw [routed _ low (returnKindOf_sign kind), State.routeWord_sign (returnKindOf_sign kind)]
    show Host.Outcome.next (heard.sign d) = _
    have line : heard.line = s.line := by
      simp only [heard]
      split <;> rfl
    have duty : heard.presence.owedDuty = list := by
      simp only [heard]
      split <;> rfl
    clear_value heard
    rw [State.sign_eq, line, duty]
    split
    · simp only [signed, ← line]
      rfl
    · by_cases room : s.line.queue.length < queueMax
      · rw [if_pos room, if_pos (show s.line.queue.length < 8 from room)]
        rfl
      · rw [if_neg room, if_neg (show ¬ s.line.queue.length < 8 from room)]
        simp only [signed, ← line]
        rfl
  · have answer : returnKindOf (y.toNat / 16) = some (.answer kind) := returnKindOf_answer code
    have ident : heard.ident = s.ident := by
      simp only [heard]
      split <;> rfl
    by_cases known : z.toNat ≤ 31
    · rw [routed _ low answer, State.routeWord_answer answer (o := z.toNat) (if_pos known)]
      show Host.Outcome.next (if z.toNat = heard.ident.station then _ else _) = _
      rw [ident]
      by_cases own : z.toNat = s.ident.station
      · rw [if_pos own, if_pos ⟨own, known⟩]
        rfl
      · rw [if_neg own, if_neg (fun h => own h.1), if_pos known]
        rfl
    · rw [routed _ low answer, State.routeWord_ownerless answer (if_neg known), if_neg (fun h => known h.2), if_neg known]

end Sys2Proof.Machine
end

section
/-! PROOF. The slot boundary with nothing owed, and what the cycle end makes of the page list (R81, R90 to R99). -/

namespace Sys2Proof.Machine

/-! ### Filling a half looks at pages, plan, mode and identity alone -/

/-- Two states that the planner cannot tell apart (R92, R94, R95). -/
structure PlansAlike (s t : State) : Prop where
  relay : t.relay = s.relay
  ident : t.ident = s.ident
  dark : t.zone.dark = s.zone.dark
  plan : t.zone.plan = s.zone.plan

theorem PlansAlike.foldl {f : State → Nat → State} (h : ∀ s t a, PlansAlike s t → PlansAlike (f s a) (f t a)) (l : List Nat) :
    ∀ s t, PlansAlike s t → PlansAlike (l.foldl f s) (l.foldl f t) := by
  induction l with
  | nil => exact fun s t => id
  | cons a l ih => exact fun s t alike => ih _ _ (h s t a alike)

theorem State.emptySlot_alike (s t : State) (slot : Nat) (h : PlansAlike s t) : PlansAlike (s.emptySlot slot) (t.emptySlot slot) := by
  obtain ⟨relay, ident, dark, plan⟩ := h
  exact ⟨relay, ident, dark, congrArg (List.set · slot none) plan⟩

theorem State.fillSlot_alike (s t : State) (slot : Nat) (h : PlansAlike s t) : PlansAlike (s.fillSlot slot) (t.fillSlot slot) := by
  have alike := h
  obtain ⟨relay, ident, dark, plan⟩ := h
  unfold State.fillSlot
  rw [dark, relay]
  split
  · exact alike
  · unfold State.placeIn
    rw [relay, ident, plan]
    refine ⟨?_, ident, dark, rfl⟩
    simp only [State.setPlan, State.setPages, State.withZone_relay, State.withRelay_relay, relay]

theorem State.fillHalf_alike {s t : State} (h : PlansAlike s t) (half : Half) : PlansAlike (s.fillHalf half) (t.fillHalf half) :=
  PlansAlike.foldl State.fillSlot_alike _ _ _ (PlansAlike.foldl State.emptySlot_alike _ _ _ h)

/-! ### A half goes on the air -/

theorem mem_pageSlots_homeSlot (p : Nat) (h : Half) : homeSlot p ∈ pageSlots h ↔ halfOf (homeSlot p) = h := by
  have low : 1 ≤ homeSlot p ∧ homeSlot p ≤ 31 := by unfold homeSlot; omega
  unfold halfOf
  cases h <;> simp only [pageSlots, List.mem_map, List.mem_range]
  · constructor
    · rintro ⟨a, ha, hp⟩
      rw [if_pos (by omega)]
    · intro half
      split at half
      · exact ⟨homeSlot p - 1, by omega, by omega⟩
      · cases half
  · constructor
    · rintro ⟨a, ha, hp⟩
      rw [if_neg (by omega)]
    · intro half
      split at half
      · cases half
      · exact ⟨homeSlot p - 16, by omega, by omega⟩

/-- The PLACED entries of a half go on the air with the mark of an update clear (R98, R99). -/
theorem goOnAir_eq (h : Half) (ps : List PageEntry) : goOnAir h ps = ps.map fun e =>
    if e.state = .placed ∧ 1 + e.key.pager % 31 ∈ pageSlots h then { e with state := .onAir, updated := false } else e := by
  refine List.map_congr_left fun e _ => ?_
  have home : 1 + e.key.pager % 31 ∈ pageSlots h ↔ halfOf (homeSlot e.key.pager) = h := mem_pageSlots_homeSlot _ h
  simp only [home]

/-! ### The slot boundary -/

/-- The next slot has begun at `T`, before it is counted (R90). -/
def State.slotBegun (s : State) (T : Nat) : State := (s.reach T).withZone { s.zone with slotStart := T, slotAt := some (T + slotTime) }

/-- A boundary with no frame left in the port (R90). -/
theorem State.boundary_eq {s : State} {T : Nat} (at' : s.zone.slotAt = some T) (free : s.zone.handover = none) :
    s.boundary = (s.slotBegun T).nextSlot.startHandover.engineBoundary.reofferZone := by
  have idle : s.wholeFrameDue = s := by rw [State.wholeFrameDue, free]
  unfold State.boundary
  rw [at', idle]
  rfl

/-- The state of the next slot once its half is on the air, before the other half is filled (R90, R92, R98, R99). -/
def State.aired (s : State) (T : Nat) : State := { s.reach T with
  relay := { s.relay with pages :=
    if s.zone.slot = 31 then goOnAir .a (s.relay.pages.filterMap cycleEndPage)
    else if s.zone.slot = 15 then goOnAir .b s.relay.pages else s.relay.pages }
  zone := { s.zone with
    slotStart := T, slotAt := some (T + slotTime), slot := (s.zone.slot + 1) % 32
    cycle := if s.zone.slot = 31 then (s.zone.cycle + 1) % 256 else s.zone.cycle
    onAir := if s.zone.slot = 31 then some .a else if s.zone.slot = 15 then some .b else s.zone.onAir
    beacon := if s.zone.slot = 31 then some ⟨s.ident.channel, s.ident.station, (s.zone.cycle + 1) % 256⟩ else s.zone.beacon } }

/-- The next slot: at slots 0 and 16 the half that is now off the air is filled (R98, R99). -/
theorem State.nextSlot_eq {s : State} (T : Nat) (low : s.zone.slot < 32) : (s.slotBegun T).nextSlot =
    if s.zone.slot = 31 then (s.aired T).fillHalf .b else if s.zone.slot = 15 then (s.aired T).fillHalf .a else s.aired T := by
  by_cases last : s.zone.slot = 31
  · have begun : (s.slotBegun T).nextSlot = (s.slotBegun T).endCycle.startSlotZero := if_pos last
    rw [begun, if_pos last]
    unfold State.startSlotZero
    congr 1
    unfold State.aired
    simp only [if_pos last]
    rw [last]
    rfl
  · have begun : (s.slotBegun T).nextSlot = (let s1 := (s.slotBegun T).withZone { (s.slotBegun T).zone with slot := s.zone.slot + 1 }
        if s1.zone.slot = 16 then (s1.halfOnAir .b).fillHalf .a else s1) := if_neg last
    rw [begun, if_neg last]
    have next : (s.zone.slot + 1) % 32 = s.zone.slot + 1 := Nat.mod_eq_of_lt (by omega)
    by_cases half : s.zone.slot = 15
    · refine (if_pos (by show s.zone.slot + 1 = 16; omega)).trans ?_
      rw [if_pos half]
      congr 1
      unfold State.aired
      simp only [if_pos half, if_neg last, next]
      rfl
    · refine (if_neg (by show ¬ s.zone.slot + 1 = 16; omega)).trans ?_
      rw [if_neg half]
      unfold State.aired
      simp only [if_neg half, if_neg last, next]
      rfl

/-- Whatever the slot, the planner moves entries of the page list after the half has gone on the air (R98, R99). -/
theorem State.nextSlot_moves {s : State} (T : Nat) (low : s.zone.slot < 32) :
    Moves PageEntry.placedFrom (s.aired T) (s.slotBegun T).nextSlot := by
  rw [State.nextSlot_eq T low]
  split
  · exact State.fillHalf_moves _ _
  · split
    · exact State.fillHalf_moves _ _
    · exact .refl placedFrom_rel _

/-- A boundary with nothing owed is the next slot with its frame in the port (R90, R100). -/
theorem State.boundary_of_none {s : State} {T : Nat} (low : s.zone.slot < 32) (at' : s.zone.slotAt = some T) (free : s.zone.handover = none)
    (owes : ∀ i ∈ s.incidents, i.settleOwed = none ∧ i.callOwed = false) (zone : s.zone.zoneOwed = false) :
    s.boundary = (s.slotBegun T).nextSlot.startHandover := by
  have rest := (State.nextSlot_moves T low).rest
  have idle : ∀ i ∈ (s.slotBegun T).nextSlot.startHandover.incidents, i.settleOwed = none ∧ i.callOwed = false := by
    have same : (s.slotBegun T).nextSlot.startHandover.incidents = s.incidents := by
      show (s.slotBegun T).nextSlot.incidents = _
      rw [rest]
      rfl
    rw [same]
    exact owes
  have owed : (s.slotBegun T).nextSlot.startHandover.zone.zoneOwed = false := by
    show (s.slotBegun T).nextSlot.zone.zoneOwed = false
    rw [rest]
    exact zone
  rw [State.boundary_eq at' free, State.engineBoundary_of_none idle, State.reofferZone_of_not_owed owed]

/-- The frame that the slot of `s` offers, by its number and mode (R92, R100, R102). -/
theorem State.slotFrame_eq (s : State) : s.slotFrame.map (fun bytes => (⟨bytes, 0⟩ : Handover)) =
    if s.zone.slot = 0 then s.zone.beacon.map fun b => ⟨beaconBytes b, 0⟩
    else if s.zone.dark then none
    else (s.zone.plan[s.zone.slot]?).join.map fun f => ⟨pageFrameBytes f, 0⟩ := by
  unfold State.slotFrame
  split
  · rw [Option.map_map]
    rfl
  · split
    · rfl
    · rw [Option.map_map]
      rfl

/-- Settles O8. -/
theorem slotBoundaryStartsTheNextSlot : Obligations.SlotBoundaryStartsTheNextSlot := by
  unfold Obligations.SlotBoundaryStartsTheNextSlot
  intro s T at' low free owes zone airing
  have boundary : exec .slotBoundary s = .next (s.slotBegun T).nextSlot.startHandover := by
    show Host.Outcome.next s.boundary = _
    rw [State.boundary_of_none low at' free owes zone]
  have rest := (State.nextSlot_moves T low).rest
  have next := State.nextSlot_eq T low
  obtain ⟨u, hu⟩ : ∃ u, u = (s.slotBegun T).nextSlot := ⟨_, rfl⟩
  rw [← hu] at boundary rest next
  have zoneOf : u.zone = { (s.aired T).zone with plan := u.zone.plan } := congrArg State.zone rest
  have dark : u.zone.dark = s.zone.dark := by rw [zoneOf]; rfl
  refine ⟨u.startHandover, boundary, ?_, ?_, ?_, fun h31 h15 => ?_, fun h15 => ?_, fun h31 => ?_⟩
  · have moved : ∀ z, u.withZone z = { s.aired T with relay := { (s.aired T).relay with pages := u.relay.pages }, zone := z } := by
      intro z
      conv_lhs => rw [rest]
      rfl
    exact moved _
  · have handed : ∀ h, { u.zone with handover := h } = { (s.aired T).zone with plan := u.zone.plan, handover := h } := by
      intro h
      conv_lhs => rw [zoneOf]
    exact handed _
  · have frame := u.slotFrame_eq
    rw [dark] at frame
    exact frame
  · rw [if_neg h31, if_neg h15] at next
    have relay : (s.aired T).relay = s.relay := by
      unfold State.aired
      simp only [if_neg h31, if_neg h15]
    rw [next]
    exact ⟨relay, rfl⟩
  · have h31 : s.zone.slot ≠ 31 := by omega
    rw [if_neg h31, if_pos h15] at next
    have alike : PlansAlike (airing .b s.relay.pages) (s.aired T) := by
      refine ⟨?_, rfl, rfl, rfl⟩
      unfold State.aired
      simp only [if_neg h31, if_pos h15, goOnAir_eq]
      rfl
    have filled := State.fillHalf_alike alike .a
    show u.relay = _ ∧ u.zone.plan = _
    rw [next]
    exact ⟨filled.relay, filled.plan⟩
  · rw [if_pos h31] at next
    have alike : PlansAlike (airing .a (s.relay.pages.filterMap cycleEndPage)) (s.aired T) := by
      refine ⟨?_, rfl, rfl, rfl⟩
      unfold State.aired
      simp only [if_pos h31, goOnAir_eq]
      rfl
    have filled := State.fillHalf_alike alike .b
    show u.relay = _ ∧ u.zone.plan = _
    rw [next]
    exact ⟨filled.relay, filled.plan⟩

/-! ### The cycle end -/

/-- The cycle end makes no second entry of a key (R67, R81). -/
theorem nodup_cycleEnd {ps : List PageEntry} (h : (ps.map (·.key)).Nodup) : ((ps.filterMap cycleEndPage).map (·.key)).Nodup := by
  refine h.sublist ?_
  clear h
  induction ps with
  | nil => exact .slnil
  | cons e ps ih =>
    rw [List.filterMap_cons]
    split
    · exact ih.cons _
    · next x hx =>
      rw [List.map_cons, (cycleEndPage_spec hx).1]
      exact ih.cons_cons _

theorem map_key_goOnAir (h : Half) (ps : List PageEntry) : (goOnAir h ps).map (·.key) = ps.map (·.key) := by
  rw [goOnAir, List.map_map]
  refine List.map_congr_left fun e _ => ?_
  simp only [Function.comp_apply]
  split <;> rfl

/-- What the moves of the plan behind a cycle end make of one entry: WAITING may become PLACED, PLACED may go on the air (R95, R99). -/
theorem placedFrom_onAir {c : Prop} [Decidable c] {e x : PageEntry}
    (h : (if e.state = .placed ∧ c then { e with state := .onAir, updated := false } else e).placedFrom x) :
    (x = { e with state := x.state } ∧ (x.state = e.state ∨ (e.state = .waiting ∧ x.state = .placed))) ∨
      (e.state = .placed ∧ x = { e with state := .onAir, updated := false }) := by
  split at h
  · next placed =>
    obtain ⟨same, state⟩ := h
    have onAir : x.state = .onAir := state.resolve_right fun w => nomatch w.1
    rw [onAir] at same
    exact .inr ⟨placed.1, same⟩
  · exact .inl h

/-- Settles O10: the cases of the cycle end, and the moves of the plan that follow it at the end of slot 31. -/
theorem cycleEndTreatsEveryPage : Obligations.CycleEndTreatsEveryPage := by
  unfold Obligations.CycleEndTreatsEveryPage
  refine ⟨fun e => ?_, fun s T at' last free owes zone nodup => ?_⟩
  · unfold cycleEndPage
    refine ⟨fun h more => ?_, fun h kind zero => ?_, fun h kind zero => ?_, fun h => ?_, fun h more => ?_, fun h one => ?_,
      fun h more => ?_, fun h => ?_⟩
    · simp only [h, if_pos more]
    · rcases h with h | h <;> simp [h, kind, zero, spentLinger]
    · rcases h with h | h <;> simp [h, kind, zero]
    · simp only [h]
    · simp only [h, if_pos more]
    · simp [h, one]
    · simp only [h, if_pos more]
      rw [← h]
    · simp only [h]
  · have low : s.zone.slot < 32 := by omega
    have boundary : exec .slotBoundary s = .next (s.slotBegun T).nextSlot.startHandover := by
      show Host.Outcome.next s.boundary = _
      rw [State.boundary_of_none low at' free owes zone]
    refine ⟨_, boundary, ?_⟩
    have pages : (s.aired T).relay.pages = goOnAir .a (s.relay.pages.filterMap cycleEndPage) := if_pos last
    have moves := (State.nextSlot_moves T low).pages (by
      show ((s.aired T).relay.pages.map (·.key)).Nodup
      rw [pages, map_key_goOnAir]
      exact nodup_cycleEnd nodup)
    rw [pages, goOnAir, List.forall₂_map_left_iff] at moves
    exact moves.imp fun e x h => placedFrom_onAir h

end Sys2Proof.Machine
end

section
/-! PROOF. What entering levels makes of an incident, the timers of an incident, and the raise (R5 to R9, R27 to R43). -/

namespace Sys2Proof.Machine

/-! ### The selection of a level, by the roster's records -/

theorem filter_zipIdx_eq {α : Type} (d : α) (l : List α) (f : α → Nat → Bool) :
    (l.zipIdx.filter fun x => f x.1 x.2).map (·.2) = (List.range l.length).filter fun p => f (l.getD p d) p := by
  have rows : l.zipIdx = (List.range l.length).map fun p => (l.getD p d, p) := by
    refine List.ext_getElem (by simp) fun p h1 h2 => ?_
    have inside : p < l.length := by simpa using h1
    simp [List.getD_eq_getElem?_getD, inside]
  rw [rows, List.filter_map, List.map_map]
  simp [Function.comp_def]

/-- The pagers a selection adds are those the statements name (R28). -/
theorem runSelection_eq {s : State} (h : s.presence.roster.length = 64) (i : Incident) (lv : LevelPlan) :
    runSelection s.presence.roster i lv = { i with calls := i.calls ++ s.newlyCalled i lv } := by
  unfold runSelection State.newlyCalled selected
  rw [filter_zipIdx_eq pagerStart s.presence.roster fun r p => selects i lv p r, h]
  rfl

/-! ### One level entered -/

/-- The incident `j` stands in entry `e`, with its LEVEL record (R29, R30). -/
def State.atLevel (s : State) (e : Nat) (j : Incident) (detail : Nat) : State :=
  (s.setEntry e (some j)).append .level (some j.serial) none (some detail)

theorem State.atLevel_sets (s : State) (e : Nat) (j : Incident) (detail : Nat) : Sets e j s (s.atLevel e j detail) := ⟨rfl, rfl⟩

/-- The incident as the selection of a level leaves it, its window stopped (R28, R30). -/
def State.chosenFor (s : State) (i : Incident) (l : Nat) (lv : LevelPlan) : Incident :=
  runSelection s.presence.roster { i with level := l, window := none } lv

/-- A level with a pager CALLED starts its window and issues its CALL (R29). -/
theorem State.enterLevels_called {s : State} {e : Nat} {i : Incident} (h : s.incident? e = some i) (lv : LevelPlan) (rest : List LevelPlan)
    (l : Nat) (called : (s.chosenFor i l lv).someCalled = true) : State.enterLevels e (lv :: rest) l s =
      (s.atLevel e { s.chosenFor i l lv with window := some (s.now + second * lv.window) } l).issueCall e := by
  have found : (s.setEntry e (some (s.chosenFor i l lv))).incident? e = some (s.chosenFor i l lv) :=
    (s.setEntry_sets e _).lookup (incident?_lt h)
  rw [State.enterLevels, h]
  refine (if_pos called).trans ?_
  rw [← State.chosenFor, State.modifyIncident_eq found, State.setEntry_setEntry]
  rfl

/-- A level with no pager CALLED is recorded and stepped over (R30). -/
theorem State.enterLevels_empty {s : State} {e : Nat} {i : Incident} (h : s.incident? e = some i) (lv : LevelPlan) (rest : List LevelPlan)
    (l : Nat) (none' : (s.chosenFor i l lv).someCalled = false) : State.enterLevels e (lv :: rest) l s =
      State.enterLevels e rest (l + 1) (s.atLevel e (s.chosenFor i l lv) (l + 4)) := by
  rw [State.enterLevels, h]
  exact if_neg (by rw [← State.chosenFor, none']; exact Bool.false_ne_true)

/-! ### What a climb leaves of an incident -/

/-- The incident `j` that climbs leave of `i`: its source, its notes and its refresh time are kept, and it still calls. -/
structure Climbs (e : Nat) (i j : Incident) (s t : State) : Prop where
  engine : t.engine = { s.engine with table := s.engine.table.set e (some j), seqCounter := t.engine.seqCounter }
  same : j = { i with
    state := j.state, level := j.level, calls := j.calls, pageSeq := j.pageSeq, window := j.window, callOwed := j.callOwed
    refreshDue := j.refreshDue }

theorem Climbs.trans {e : Nat} {i j k : Incident} {s t u : State} (h : Climbs e i j s t) (g : Climbs e j k t u) : Climbs e i k s u := by
  have first := h.same
  have second := g.same
  rw [first] at second
  refine ⟨?_, second⟩
  rw [g.engine, h.engine]
  simp

theorem Climbs.sets {e : Nat} {i j : Incident} {s t : State} (h : Climbs e i j s t) : Sets e j s t := by
  constructor <;> rw [h.engine]

theorem State.atLevel_climbs (s : State) (e : Nat) (i : Incident) (calls : List Called) (l : Nat) (window : Option Nat) (detail : Nat) :
    Climbs e i { i with level := l, calls := calls, window := window } s
      (s.atLevel e { i with level := l, calls := calls, window := window } detail) := ⟨rfl, rfl⟩

/-- Issuing a CALL keeps the incident calling (R27, R39). -/
theorem State.issueCall_climbs {s : State} {e : Nat} {i : Incident} (h : s.incident? e = some i) :
    ∃ owed, Climbs e i (s.issued i owed) s (s.issueCall e) := by
  obtain ⟨owed, issues⟩ := State.issueCall_issues h
  exact ⟨owed, by rw [issues.engine], rfl⟩

/-- The UNANSWERED entry of an incident, before its CALL (R35, R36). -/
def State.recalled (s : State) (i : Incident) : Incident :=
  { (s.levels i.cls).foldl (runSelection s.presence.roster)
      { i with calls := i.calls.map fun c => { c with declined := false } } with
    window := some (s.now + second * (s.levelPlan i.cls (s.lastLevel i.cls)).window) }

theorem foldl_runSelection_same (roster : List PagerRecord) (lvs : List LevelPlan) : ∀ i : Incident,
    lvs.foldl (runSelection roster) i = { i with calls := (lvs.foldl (runSelection roster) i).calls } := by
  induction lvs with
  | nil => exact fun i => rfl
  | cons lv lvs ih =>
    intro i
    rw [List.foldl_cons, ih]
    rfl

theorem State.recalled_same (s : State) (i : Incident) : s.recalled i = { i with
    calls := (s.recalled i).calls, window := (s.recalled i).window } := by
  unfold State.recalled
  rw [foldl_runSelection_same]

/-- The UNANSWERED entry: its record, and its CALL unless the call list is empty (R35, R36). -/
theorem State.unansweredEntry_eq {s : State} {e : Nat} {i : Incident} (h : s.incident? e = some i) : s.unansweredEntry e =
    if (s.recalled i).calls.isEmpty then
      (s.setEntry e (some (s.recalled i))).append .unanswered (some i.serial) none (some (s.recalled i).calls.length)
    else ((s.setEntry e (some (s.recalled i))).append .unanswered (some i.serial) none (some (s.recalled i).calls.length)).issueCall e := by
  rw [State.unansweredEntry, h]
  rfl

theorem State.unansweredEntry_climbs {s : State} {e : Nat} {i : Incident} (h : s.incident? e = some i) :
    ∃ j, Climbs e i j s (s.unansweredEntry e) ∧ j.state = i.state ∧ j.window.isSome = true := by
  have entered : Climbs e i (s.recalled i) s
      ((s.setEntry e (some (s.recalled i))).append .unanswered (some i.serial) none (some (s.recalled i).calls.length)) :=
    ⟨rfl, by rw [s.recalled_same i]⟩
  have state : (s.recalled i).state = i.state := by rw [s.recalled_same i]
  rw [State.unansweredEntry_eq h]
  split
  · exact ⟨_, entered, state, rfl⟩
  · obtain ⟨owed, issued⟩ := State.issueCall_climbs (entered.sets.lookup (incident?_lt h))
    exact ⟨_, entered.trans issued, state, rfl⟩

/-- Entering levels leaves the incident in CALLING or UNANSWERED with its window running (R29, R30, R35). -/
theorem State.enterLevels_climbs (e : Nat) (lvs : List LevelPlan) : ∀ (l : Nat) (s : State) (i : Incident),
    s.incident? e = some i → i.state = .calling →
    ∃ j, Climbs e i j s (State.enterLevels e lvs l s) ∧ (j.state = .calling ∨ j.state = .unanswered) ∧ j.window.isSome = true := by
  induction lvs with
  | nil =>
    intro l s i h _
    have found : (s.setEntry e (some { i with state := .unanswered })).incident? e = some { i with state := .unanswered } :=
      (s.setEntry_sets e _).lookup (incident?_lt h)
    obtain ⟨j, climbs, state, window⟩ := State.unansweredEntry_climbs found
    have eq : State.enterLevels e [] l s = (s.setEntry e (some { i with state := .unanswered })).unansweredEntry e := by
      rw [State.enterLevels, State.enterUnanswered, State.modifyIncident_eq h]
    have first : Climbs e i { i with state := .unanswered } s (s.setEntry e (some { i with state := .unanswered })) := ⟨rfl, rfl⟩
    exact ⟨j, eq ▸ first.trans climbs, .inr state, window⟩
  | cons lv rest ih =>
    intro l s i h calling
    cases called : (s.chosenFor i l lv).someCalled with
    | true =>
      have entered := s.atLevel_climbs e i (s.chosenFor i l lv).calls l (some (s.now + second * lv.window)) l
      obtain ⟨owed, issued⟩ := State.issueCall_climbs (entered.sets.lookup (incident?_lt h))
      rw [State.enterLevels_called h lv rest l called]
      exact ⟨_, entered.trans issued, .inl calling, rfl⟩
    | false =>
      have entered := s.atLevel_climbs e i (s.chosenFor i l lv).calls l none (l + 4)
      obtain ⟨j, climbs, state, window⟩ := ih (l + 1) _ _ (entered.sets.lookup (incident?_lt h)) calling
      rw [State.enterLevels_empty h lv rest l called]
      exact ⟨j, entered.trans climbs, state, window⟩

/-! ### The timers of an incident -/

theorem State.windowExpires_eq {s : State} {e : Nat} {i : Incident} {T : Nat} (h : s.incident? e = some i) (w : i.window = some T) :
    s.windowExpires e = ((s.reach T).setEntry e (some { i with window := none })).stepIncident e := by
  have found : (s.reach T).incident? e = some i := h
  unfold State.windowExpires
  rw [h]
  simp only
  rw [w]
  simp only
  rw [State.modifyIncident_eq found]

theorem State.stepIncident_calling {s : State} {e : Nat} {i : Incident} (h : s.incident? e = some i) (calling : i.state = .calling) :
    s.stepIncident e = State.enterLevels e ((s.levels i.cls).drop (i.level + 1)) (i.level + 1) s := by
  rw [State.stepIncident, h]
  simp only
  rw [calling]

theorem State.stepIncident_unanswered {s : State} {e : Nat} {i : Incident} (h : s.incident? e = some i) (h' : i.state = .unanswered) :
    s.stepIncident e = s.unansweredEntry e := by
  rw [State.stepIncident, h]
  simp only
  rw [h']

/-- The levels from `l` on, when there is one. -/
theorem drop_levels {lvs : List LevelPlan} {l : Nat} (h : l < lvs.length) : lvs.drop l = lvs.getD l blankLevel :: lvs.drop (l + 1) := by
  rw [List.drop_eq_getElem_cons h, List.getD_eq_getElem?_getD, List.getElem?_eq_getElem h, Option.getD_some]

theorem someCalled_iff (i : Incident) : i.someCalled = i.calls.any fun c => !c.declined := rfl

/-- An empty level whose window ends at once steps on as the chain of steps does (R30; the model's choice, notes/assumptions/22.md). -/
theorem State.enterLevels_as_expiry {s : State} {e : Nat} {i : Incident} (h : s.incident? e = some i) (calling : i.state = .calling)
    (calls : List Called) (l : Nat) (detail : Nat) :
    (s.atLevel e { i with level := l, calls := calls, window := some s.now } detail).windowExpires e =
      State.enterLevels e ((s.levels i.cls).drop (l + 1)) (l + 1)
        (s.atLevel e { i with level := l, calls := calls, window := none } detail) := by
  have inside := incident?_lt h
  have found : (s.atLevel e { i with level := l, calls := calls, window := some s.now } detail).incident? e =
      some { i with level := l, calls := calls, window := some s.now } := (s.atLevel_sets e _ detail).lookup inside
  have stopped : ((s.atLevel e { i with level := l, calls := calls, window := some s.now } detail).reach s.now).setEntry e
      (some { i with level := l, calls := calls, window := none }) =
      s.atLevel e { i with level := l, calls := calls, window := none } detail := by
    unfold State.reach
    rw [show max (s.atLevel e _ detail).now s.now = s.now from Nat.max_self _]
    simp only [State.atLevel, State.append, State.setEntry, State.withNow, State.withEngine, State.withLog, List.set_set]
  rw [State.windowExpires_eq found rfl, stopped, State.stepIncident_calling ((s.atLevel_sets e _ detail).lookup inside) (by exact calling)]
  rfl

/-- A refresh CALL notes its time and is issued (R42). -/
theorem State.refresh_issued {s : State} {e : Nat} {i : Incident} (h : s.incident? e = some i) :
    CallIssued s e { i with lastRefresh := some s.now } (s.refresh e) := by
  rw [State.refresh, State.modifyIncident_eq h]
  have issued := State.issueCall_issued ((s.setEntry_sets e { i with lastRefresh := some s.now }).lookup (incident?_lt h))
  simp only [CallIssued, CallOffered, State.setEntry, State.withEngine, List.set_set] at issued ⊢
  exact issued

/-- Settles O26: the window's end is a chain of steps, which enters the next level or steps over it. -/
theorem windowExpiryEntersTheNextLevel : Obligations.WindowExpiryEntersTheNextLevel := by
  unfold Obligations.WindowExpiryEntersTheNextLevel
  intro s e i T h w calling more roster lv now calls entered
  have expires : ∀ u : State, exec (.windowExpiry e) u = .next (u.windowExpires e.val) := fun u => rfl
  have inside := incident?_lt h
  have found : ((s.reach T).setEntry e (some { i with window := none })).incident? e = some { i with window := none } :=
    ((s.reach T).setEntry_sets e _).lookup inside
  have chosen : ((s.reach T).setEntry e (some { i with window := none })).chosenFor { i with window := none } (i.level + 1) lv =
      { i with level := i.level + 1, calls := calls, window := none } := runSelection_eq (s := s) roster _ lv
  have steps : s.windowExpires e = State.enterLevels e (lv :: (s.levels i.cls).drop (i.level + 2)) (i.level + 1)
      ((s.reach T).setEntry e (some { i with window := none })) := by
    rw [State.windowExpires_eq h w, State.stepIncident_calling found calling]
    exact congrArg (fun l => State.enterLevels e l (i.level + 1) _) (drop_levels more)
  -- the state entered, as the statement writes it
  have atLevel : ∀ window detail, ((s.reach T).setEntry e (some { i with window := none })).atLevel e
      { i with level := i.level + 1, calls := calls, window := window } detail =
      { s with
        now := now
        engine := { s.engine with table := s.engine.table.set e (some { i with
          level := i.level + 1, calls := calls, window := window }) }
        log := s.log.append .level (some i.serial) none (some detail) false } := by
    intro window detail
    simp only [State.atLevel, State.append, State.setEntry, State.reach, State.withNow, State.withEngine, State.withLog, List.set_set]
    rfl
  rw [expires, steps]
  refine ⟨fun called => ⟨_, rfl, ?_⟩, fun none' => ⟨?_, _, rfl⟩⟩
  · rw [State.enterLevels_called found lv _ _ (by rw [chosen]; exact called), chosen, atLevel]
    exact State.issueCall_issued (incident?_eq.2 (List.getElem?_set_self inside))
  · rw [State.enterLevels_empty found lv _ _ (by rw [chosen]; exact none'), chosen, expires]
    have again := State.enterLevels_as_expiry found (by exact calling) calls (i.level + 1) (i.level + 1 + 4)
    exact congrArg Host.Outcome.next (again.symm.trans (congrArg (State.windowExpires · e) (atLevel _ _)))

/-- Selections look at the group and the call list of an incident alone (R28). -/
theorem foldl_runSelection_calls (roster : List PagerRecord) (lvs : List LevelPlan) : ∀ {i j : Incident}, i.group = j.group →
    i.calls = j.calls → (lvs.foldl (runSelection roster) i).calls = (lvs.foldl (runSelection roster) j).calls := by
  induction lvs with
  | nil => exact fun _ calls => calls
  | cons lv lvs ih =>
    intro i j group calls
    have selected' : selected roster i lv = selected roster j lv := by
      unfold selected selects Incident.inList
      rw [group, calls]
    refine ih group ?_
    unfold runSelection
    rw [selected', calls]

/-- Settles O27: the last level left, or the window of UNANSWERED ended, makes the UNANSWERED entry. -/
theorem windowExpiryAtTheLastLevelLeavesUnanswered : Obligations.WindowExpiryAtTheLastLevelLeavesUnanswered := by
  unfold Obligations.WindowExpiryAtTheLastLevelLeavesUnanswered
  intro s e i T h w which now last chosen j entered
  have inside := incident?_lt h
  have found : ((s.reach T).setEntry e (some { i with window := none })).incident? e = some { i with window := none } :=
    ((s.reach T).setEntry_sets e _).lookup inside
  -- the incident in UNANSWERED, its window stopped, before the steps of the entry
  have unanswered : ((s.reach T).setEntry e (some { i with state := .unanswered, window := none })).incident? e =
      some { i with state := .unanswered, window := none } := ((s.reach T).setEntry_sets e _).lookup inside
  have steps : s.windowExpires e =
      ((s.reach T).setEntry e (some { i with state := .unanswered, window := none })).unansweredEntry e := by
    rw [State.windowExpires_eq h w]
    rcases which with ⟨calling, atLast⟩ | state
    · have left : (s.levels i.cls).drop (i.level + 1) = [] := List.drop_eq_nil_of_le atLast.ge
      rw [State.stepIncident_calling found (by exact calling)]
      have ended : State.enterLevels e [] (i.level + 1) ((s.reach T).setEntry e (some { i with window := none })) =
          ((s.reach T).setEntry e (some { i with state := .unanswered, window := none })).unansweredEntry e := by
        rw [State.enterLevels, State.enterUnanswered, State.modifyIncident_eq found, State.setEntry_setEntry]
      rw [← ended]
      exact congrArg (fun l => State.enterLevels e l (i.level + 1) _) left
    · have same : { i with window := none } = { i with state := .unanswered, window := none } := by rw [← state]
      rw [State.stepIncident_unanswered found (by exact state), same]
  have recalled : ((s.reach T).setEntry e (some { i with state := .unanswered, window := none })).recalled
      { i with state := .unanswered, window := none } = j := by
    unfold State.recalled
    rw [foldl_runSelection_same]
    have calls := foldl_runSelection_calls s.presence.roster (s.levels i.cls)
      (i := { i with state := .unanswered, window := none, calls := i.calls.map fun c => { c with declined := false } })
      (j := { i with calls := i.calls.map fun c => { c with declined := false } }) rfl rfl
    simp only [j, chosen, ← calls]
    rfl
  have entry : ((s.reach T).setEntry e (some { i with state := .unanswered, window := none })).unansweredEntry e =
      if chosen.calls.isEmpty then entered else entered.issueCall e := by
    rw [State.unansweredEntry_eq unanswered, recalled, State.setEntry_setEntry]
    rfl
  have inEntry : entered.incident? e = some j := incident?_eq.2 (List.getElem?_set_self inside)
  have expires : exec (.windowExpiry e) s = .next (if chosen.calls.isEmpty then entered else entered.issueCall e) := by
    show Host.Outcome.next (s.windowExpires e) = _
    rw [steps, entry]
  refine ⟨_, expires, ?_, fun some' => ?_, fun none' => by rw [none']; rfl⟩
  · rw [State.alarmCondition_iff]
    refine .inl ?_
    split
    · exact ⟨e, j, inEntry, rfl⟩
    · obtain ⟨owed, issued⟩ := State.issueCall_climbs inEntry
      exact ⟨e, _, issued.sets.lookup (incident?_lt inEntry), rfl⟩
  · rw [if_neg (by simpa using some')]
    exact State.issueCall_issued inEntry

/-- Settles O28. -/
theorem refreshLimitEndIssuesTheDueRefresh : Obligations.RefreshLimitEndIssuesTheDueRefresh := by
  unfold Obligations.RefreshLimitEndIssuesTheDueRefresh
  intro s e i h
  have ends : exec (.refreshLimitEnd e) s = .next (s.refreshLimitEnds e.val) := rfl
  rw [ends]
  refine ⟨fun T0 last => ?_, fun none' => ?_⟩
  · intro ended
    have found : ended.incident? e = some i := h
    have limit : s.refreshLimitEnds e = if i.stillCalling && i.refreshDue then ended.refresh e else ended := by
      rw [State.refreshLimitEnds, h]
      simp only
      rw [last]
      rfl
    rw [limit]
    refine ⟨fun calls due => ⟨_, rfl, ?_⟩, fun idle => ?_⟩
    · rw [(stillCalling_iff i).2 calls, due]
      exact State.refresh_issued found
    · have not : (i.stillCalling && i.refreshDue) = false := by
        rcases idle with h | h | h <;> simp [Incident.stillCalling, h]
      rw [not]
      rfl
  · rw [State.refreshLimitEnds, h]
    simp only
    rw [none']

/-! ### The raise -/

theorem holdsSerial_iff {table : List (Option Incident)} {n : Nat} :
    holdsSerial table n = true ↔ ∃ i ∈ table.filterMap id, i.serial = n := by
  simp only [holdsSerial, List.any_eq_true, List.mem_filterMap, id, exists_eq_right, Option.any_eq_true, beq_iff_eq]
  constructor
  · rintro ⟨x, hx, i, rfl, hi⟩
    exact ⟨i, hx, hi⟩
  · rintro ⟨i, hi, h⟩
    exact ⟨_, hi, i, rfl, h⟩

/-- The serial of an opening is the first from the counter on that no open incident holds (R3). -/
theorem freshSerial_first {table : List (Option Incident)} (hl : table.length = tableSize) (counter : Nat) :
    ∃ m < 256, freshSerial table counter = (counter + m) % 256 ∧ ∀ m' < m, holdsSerial table ((counter + m') % 256) = true := by
  cases hf : ((List.range 256).map fun i => (counter + i) % 256).find? fun n => !holdsSerial table n with
  | some n =>
    obtain ⟨-, m, hm, at', before⟩ := List.find?_eq_some_iff_getElem.1 hf
    have low : m < 256 := by simpa using hm
    refine ⟨m, low, ?_, fun m' hm' => ?_⟩
    · rw [freshSerial, hf, Option.getD_some, ← at']
      simp
    · simpa using before m' hm'
  | none =>
    have all : ∀ n < 256, holdsSerial table n = true := fun n hn => by
      have member : n ∈ (List.range 256).map fun i => (counter + i) % 256 :=
        List.mem_map.2 ⟨(n + 256 - counter % 256) % 256, List.mem_range.2 (Nat.mod_lt _ (by decide)), by omega⟩
      simpa using List.find?_eq_none.1 hf n member
    have zero : freshSerial table 0 = 0 := by
      have none' : ((List.range 256).map fun i => (0 + i) % 256).find? (fun n => !holdsSerial table n) = none := by
        refine List.find?_eq_none.2 fun n hn => ?_
        obtain ⟨m, -, rfl⟩ := List.mem_map.1 hn
        have held := all ((0 + m) % 256) (Nat.mod_lt _ (by decide))
        rw [held]
        decide
      rw [freshSerial, none', Option.getD_none]
    have new := freshSerial_new hl 0
    rw [zero] at new
    exact absurd (List.mem_map.2 (holdsSerial_iff.1 (all 0 (by decide)))) new

theorem incident?_none_iff {s : State} {e : Nat} (h : e < s.engine.table.length) : s.incident? e = none ↔ s.engine.table[e] = none := by
  unfold State.incident?
  rw [List.getElem?_eq_getElem h]
  exact Iff.rfl

theorem lowestFree_eq_some {s : State} {e : Nat} (h : e < s.engine.table.length) (free : s.incident? e = none)
    (before : ∀ e' < e, s.incident? e' ≠ none) : lowestFree s.engine.table = some e := by
  unfold lowestFree
  rw [List.findIdx?_eq_some_iff_getElem]
  refine ⟨h, by simp [(incident?_none_iff h).1 free], fun e' he' => ?_⟩
  have taken : s.engine.table[e'] ≠ none := fun none' => before e' he' ((incident?_none_iff (by omega)).2 none')
  simpa using taken

theorem lowestFree_eq_none {s : State} (h : ∀ e < s.engine.table.length, s.incident? e ≠ none) : lowestFree s.engine.table = none := by
  unfold lowestFree
  rw [List.findIdx?_eq_none_iff]
  intro x hx
  obtain ⟨e, he, rfl⟩ := List.getElem_of_mem hx
  have taken : s.engine.table[e] ≠ none := fun none' => h e he ((incident?_none_iff he).2 none')
  simpa [Option.isSome_iff_ne_none] using taken

/-- The station with the new incident in entry `e` and its RAISED record, before level 0 is entered (R3, R5). -/
def State.raised (s : State) (e n : Nat) (k : SourceKind) (restored : Bool) : State := { s with
  engine := { s.engine with
    table := s.engine.table.set e (some (s.newIncident n k restored)), serialCounter := ((s.newIncident n k restored).serial + 1) % 256 }
  log := s.log.append .raised (some (s.newIncident n k restored).serial) none (some n) (s.sourceClass n k == 1) }

theorem State.openIncident_eq (s : State) (e n : Nat) (k : SourceKind) (restored : Bool) : s.openIncident e n k restored =
    State.enterLevels e (s.levels (s.sourceClass n k)) 0 (s.raised e n k restored) := rfl

/-- An opening leaves a new incident in its entry that calls, with its window running (R5, R9). -/
theorem State.openIncident_opens {s : State} {e : Nat} (h : e < s.engine.table.length) (n : Nat) (k : SourceKind) (restored : Bool) :
    ∃ j, Climbs e (s.newIncident n k restored) j (s.raised e n k restored) (s.openIncident e n k restored) ∧
      (j.state = .calling ∨ j.state = .unanswered) ∧ j.window.isSome = true :=
  State.enterLevels_climbs e _ 0 _ _ (incident?_eq.2 (List.getElem?_set_self h)) rfl

theorem State.raise_of_found {s : State} {n e : Nat} {k : SourceKind} {i : Incident} (h : findSource s.engine.table n k = some (e, i)) :
    s.raise n k = if i.state = .closing then (match s.mark n k with | some _ => s.setMark n k (some false) | none => s.pendRaise n k)
      else s.setEntry e (some { i with restored := false }) := by
  rw [State.raise, h] <;> rfl

theorem State.raise_of_absent {s : State} {n : Nat} {k : SourceKind} (h : findSource s.engine.table n k = none) :
    s.raise n k = match s.mark n k with
      | some _ => s.setMark n k (some false)
      | none => match lowestFree s.engine.table with | some e => s.openIncident e n k false | none => s.pendRaise n k := by
  rw [State.raise, h] <;> rfl

theorem sourceClass_eq (s : State) (n : Nat) (k : SourceKind) : s.sourceClass n k = if k = .alarm then (s.input n).cls else 3 := by
  cases k <;> rfl

theorem sourceMsg_eq (s : State) (n : Nat) (k : SourceKind) :
    s.sourceMsg n k = if k = .alarm then (s.input n).msg else if k = .wiring then 254 else 255 := by
  cases k <;> rfl

/-- A row of newly called pagers has one CALLED exactly when it is not empty (R28). -/
theorem newlyCalled_any (s : State) (i : Incident) (lv : LevelPlan) :
    (s.newlyCalled i lv).any (fun c => !c.declined) = !(s.newlyCalled i lv).isEmpty := by
  unfold State.newlyCalled
  generalize ((List.range 64).filter _).take _ = l
  cases l <;> simp

/-- What an opening does at level 0: its CALL is issued, or the level is stepped over as at a window's end (R5, R29, R30). -/
theorem State.openIncident_first {s : State} {e n : Nat} {k : SourceKind} {restored : Bool} (h : e < s.engine.table.length)
    (roster : s.presence.roster.length = 64) (levels : 0 < (s.levels (s.sourceClass n k)).length) :
    let lv := s.levelPlan (s.sourceClass n k) 0
    let fresh := s.newIncident n k restored
    let opened (j : Incident) (detail : Nat) : State := { s with
      engine := { s.engine with table := s.engine.table.set e (some j), serialCounter := (fresh.serial + 1) % 256 }
      log := (s.log.append .raised (some fresh.serial) none (some n) (fresh.cls == 1)).append .level (some fresh.serial) none
        (some detail) false }
    let called : Incident := { fresh with calls := s.newlyCalled fresh lv, window := some (s.now + 1000000 * lv.window) }
    (s.newlyCalled fresh lv ≠ [] → CallIssued (opened called 0) e called (s.openIncident e n k restored)) ∧
    (s.newlyCalled fresh lv = [] → (opened { fresh with window := some s.now } 4).windowExpires e = s.openIncident e n k restored) := by
  intro lv fresh opened called
  have found : (s.raised e n k restored).incident? e = some fresh := incident?_eq.2 (List.getElem?_set_self h)
  have chosen : (s.raised e n k restored).chosenFor fresh 0 lv = { fresh with calls := s.newlyCalled fresh lv } :=
    runSelection_eq (s := s) roster _ lv
  have some' : ((s.raised e n k restored).chosenFor fresh 0 lv).someCalled = !(s.newlyCalled fresh lv).isEmpty := by
    rw [chosen]
    exact newlyCalled_any s fresh lv
  have enters : s.openIncident e n k restored =
      State.enterLevels e (lv :: (s.levels (s.sourceClass n k)).drop 1) 0 (s.raised e n k restored) := by
    rw [State.openIncident_eq]
    exact congrArg (fun l => State.enterLevels e l 0 _) (drop_levels levels)
  have atLevel : ∀ calls window detail, (s.raised e n k restored).atLevel e { fresh with calls := calls, window := window } detail =
      opened { fresh with calls := calls, window := window } detail := by
    intro calls window detail
    simp only [State.atLevel, State.append, State.setEntry, State.withEngine, State.withLog, State.raised, List.set_set]
    rfl
  rw [enters]
  refine ⟨fun some'' => ?_, fun none' => ?_⟩
  · rw [State.enterLevels_called found lv _ _ (by rw [some']; simpa using some''), chosen]
    have entered : (s.raised e n k restored).atLevel e called 0 = opened called 0 := atLevel _ _ _
    have issued := State.issueCall_issued (s := opened called 0) (i := called) (incident?_eq.2 (List.getElem?_set_self h))
    rw [← entered] at issued ⊢
    exact issued
  · rw [State.enterLevels_empty found lv _ _ (by rw [some', none']; rfl), chosen, none']
    have again := State.enterLevels_as_expiry found rfl [] 0 4
    rw [← atLevel]
    exact again

/-- Settles O24. -/
theorem raiseOpensRetripsOrPends : Obligations.RaiseOpensRetripsOrPends := by
  unfold Obligations.RaiseOpensRetripsOrPends
  intro s n k length pends low mark overflow
  refine ⟨fun e i h input kind only => ?_, fun absent => ?_⟩
  · have found := findSource_only h input kind only
    rw [State.raise_of_found found]
    refine ⟨fun notClosing => if_neg notClosing, fun closing none' => ?_, fun m closing some' => ?_⟩
    · rw [if_pos closing, none']
      rfl
    · rw [if_pos closing, some']
      rfl
  · have absent' := findSource_absent absent
    rw [State.raise_of_absent absent']
    refine ⟨fun m some' => ?_, fun none' full => ?_, fun e none' free before => ?_⟩
    · rw [some']
      rfl
    · rw [none', lowestFree_eq_none (by rwa [length])]
      rfl
    · have inside : e.val < s.engine.table.length := by rw [length]; exact e.isLt
      rw [none', lowestFree_eq_some inside free before]
      simp only
      obtain ⟨j, climbs, state, window⟩ := State.openIncident_opens inside n k false
      obtain ⟨m, hm, first, held⟩ := freshSerial_first length s.engine.serialCounter
      have same := climbs.same
      have serial : j.serial = freshSerial s.engine.table s.engine.serialCounter := by rw [same]; rfl
      have cls : j.cls = s.sourceClass n k := by rw [same]; rfl
      have msg : j.msg = s.sourceMsg n k := by rw [same]; rfl
      have group : j.group = (s.input n).group := by rw [same]; rfl
      refine ⟨j, ?_, by rw [same]; rfl, by rw [same]; rfl, group, by rw [cls, sourceClass_eq], by rw [msg, sourceMsg_eq], state,
        by rw [same]; rfl, by rw [same]; rfl, by rw [same]; rfl, by rw [same]; rfl, window, by rw [same]; rfl, fun x hx eq => ?_, ?_,
        ⟨m, hm, serial.trans first, fun m' hm' => holdsSerial_iff.1 (held m' hm')⟩, fun levels roster => ?_⟩
      · rw [climbs.sets.table]
        exact List.set_set ..
      · exact freshSerial_new length s.engine.serialCounter (List.mem_map.2 ⟨x, hx, eq.trans serial⟩)
      · rw [climbs.engine, serial]
        rfl
      · rw [cls, serial, group, msg] at *
        have first := State.openIncident_first (restored := false) inside roster levels
        exact ⟨first.1, fun none'' => congrArg Host.Outcome.next (first.2 none'')⟩

end Sys2Proof.Machine
end

section
/-! PROOF. The reports of an input and what suppresses them (R152), the repeat timer of an answer (R87), and how a burst begins
(R122, R124). -/

namespace Sys2Proof.Machine

/-! ### Reports -/

theorem Condition.faulted_iff (c : Condition) : c.faulted = true ↔ c = .short ∨ c = .opened := by
  cases c <;> decide

theorem Condition.faulted_false (c : Condition) : c.faulted = false ↔ c ≠ .short ∧ c ≠ .opened := by
  rw [← Bool.not_eq_true, c.faulted_iff, not_or]

/-- A raise by what bars it: CHATTER and LOCKOUT, but not CHATTER its own raise, and its cancel hold (R152). -/
theorem State.reportRaise_eq (s : State) (n : Nat) (k : SourceKind) : s.reportRaise n k =
    if (k != .chatter && (s.input n).inChatter) || ((s.input n).lockable && s.scanner.lockout) || (s.input n).holdOf k then s
    else s.raise n k := rfl

theorem State.reportRestore_eq (s : State) (n : Nat) (k : SourceKind) :
    s.reportRestore n k = if k != .chatter && (s.input n).inChatter then s else s.restore n k := rfl

theorem State.reportWiring_faults (s : State) (n : Nat) {old new : Condition} (ho : old.faulted = false) (hn : new.faulted = true) :
    s.reportWiring n old new = s.reportRaise n .wiring := if_pos (by rw [ho, hn]; rfl)

theorem State.reportWiring_mends (s : State) (n : Nat) {old new : Condition} (ho : old.faulted = true) (hn : new.faulted = false) :
    s.reportWiring n old new = s.reportRestore n .wiring := by
  rw [State.reportWiring, ho, hn]
  rfl

theorem State.reportWiring_same (s : State) (n : Nat) {old new : Condition} (h : old.faulted = new.faulted) :
    s.reportWiring n old new = s := by
  rw [State.reportWiring, h]
  cases new.faulted <;> rfl

theorem State.reportAlarm_same (s : State) (n : Nat) {old new : Condition} (h : old = .active ↔ new = .active) :
    s.reportAlarm n old new = s := by
  rw [State.reportAlarm, if_neg fun ⟨now, before⟩ => before (h.2 now), if_neg fun ⟨now, before⟩ => now (h.1 before)]

/-- Settles O23, by the branches of the two reports of a change. -/
theorem reportsOfAChangeAreTested : Obligations.ReportsOfAChangeAreTested := by
  intro s n
  refine ⟨fun old new h1 h2 hn => ?_, fun old new h1 h2 ho => ?_, fun old new same => ?_, fun old ho => if_pos ⟨rfl, ho⟩,
    fun new hn => ?_, fun old new same => s.reportAlarm_same n same, rfl, rfl, rfl, rfl, rfl, rfl⟩
  · exact s.reportWiring_faults n (old.faulted_false.2 ⟨h1, h2⟩) (new.faulted_iff.2 hn)
  · exact s.reportWiring_mends n (old.faulted_iff.2 ho) (new.faulted_false.2 ⟨h1, h2⟩)
  · exact s.reportWiring_same n (by rw [Bool.eq_iff_iff, old.faulted_iff, new.faulted_iff, same])
  · rw [State.reportAlarm, if_neg fun both => hn both.1, if_pos ⟨hn, rfl⟩]
    rfl

/-! ### The repeat timer of an answer -/

theorem AnswerEntry.repeated_other {k : AnswerKey} {x : AnswerEntry} (h : x.key ≠ k) : x.repeated k = some x := if_neg h

theorem filterMap_repeated_other {k : AnswerKey} {l : List AnswerEntry} (h : ∀ x ∈ l, x.key ≠ k) :
    l.filterMap (AnswerEntry.repeated k) = l := by
  rw [List.filterMap_congr fun x hx => AnswerEntry.repeated_other (h x hx), List.filterMap_some]

theorem find?_key_eq {l before after : List AnswerEntry} {a : AnswerEntry} (h : l = before ++ a :: after)
    (others : ∀ x ∈ before, x.key ≠ a.key) : l.find? (·.key == a.key) = some a := by
  rw [h, List.find?_append, List.find?_eq_none.2 fun x hx => by simpa using others x hx, Option.none_or,
    List.find?_cons_of_pos (by simp)]

/-- Settles O30: one entry has the key, and the repeat treats it alone. -/
theorem repeatTimerOffersTheAnswerAgain : Obligations.RepeatTimerOffersTheAnswerAgain := by
  intro s k
  refine ⟨fun absent => ?_, fun before after a held hk once hold => ?_⟩
  · have none : s.relay.answers.find? (·.key == k) = none := List.find?_eq_none.2 fun x hx => by simpa using absent x hx
    show Host.Outcome.next (s.repeatAnswer k) = _
    rw [State.repeatAnswer, none]
  · subst hk
    intro left kept
    rw [held, List.map_append, List.map_cons, List.nodup_append] at once
    obtain ⟨-, later, earlier⟩ := once
    have inBefore : ∀ x ∈ before, x.key ≠ a.key := fun x hx =>
      earlier _ (List.mem_map_of_mem hx) _ List.mem_cons_self
    have inAfter : ∀ x ∈ after, x.key ≠ a.key := fun x hx same =>
      (List.nodup_cons.1 later).1 (List.mem_map.2 ⟨x, hx, same⟩)
    have repeats : s.relay.answers.filterMap (AnswerEntry.repeated a.key) = before ++ left ++ after := by
      have own : ([a] : List AnswerEntry).filterMap (AnswerEntry.repeated a.key) = left := by
        show ([a] : List AnswerEntry).filterMap (AnswerEntry.repeated a.key) = if 1 < a.sendsLeft then _ else _
        rw [List.filterMap_cons, AnswerEntry.repeated, if_pos rfl]
        by_cases more : 1 < a.sendsLeft
        · rw [if_pos more, if_pos more]
          rfl
        · rw [if_neg more, if_neg more]
          rfl
      rw [held, show before ++ a :: after = before ++ [a] ++ after by simp, List.filterMap_append, List.filterMap_append, own,
        filterMap_repeated_other inBefore, filterMap_repeated_other inAfter]
    have offered : exec (.answerRepeatTimer a.key) s = .next (kept.offerAnswer a.key) := by
      show Host.Outcome.next (s.repeatAnswer a.key) = _
      rw [State.repeatAnswer_of_find (find?_key_eq held inBefore), repeats]
      rfl
    refine ⟨fun room => ?_, fun full noVictim => ?_⟩
    · rw [offered, State.offerAnswer, kept.offer_room _ _ _ hold room]
      rfl
    · rw [offered, State.offerAnswer, kept.offer_full _ _ _ hold full noVictim]

/-! ### A burst begins -/

theorem byteWave_length (b : Byte) : (byteWave b).length = 10 := by simp [byteWave]

theorem burstWave_length (bytes : List Byte) : (burstWave bytes).length = 25 + 10 * bytes.length := by
  have bytewise : (bytes.flatMap byteWave).length = 10 * bytes.length := by
    induction bytes with
    | nil => rfl
    | cons b rest ih => rw [List.flatMap_cons, List.length_append, ih, List.length_cons, byteWave_length]; omega
  unfold burstWave
  simp [bytewise, startMarkBits]
  omega

/-- A station that may not send begins no burst (R122). -/
theorem State.begin_barred {s : State}
    (h : s.line.queue = [] ∨ (s.configured && !s.line.hold && s.line.sending.isNone && !s.line.reader.busy) = false) : s.begin = s := by
  unfold State.begin
  split
  · rfl
  next b rest queued =>
    rcases h with h | h
    · rw [queued] at h
      cases h
    · rw [h]
      rfl

/-- The burst at the head begins, its header completed from the state (R122, R124). -/
theorem State.begin_eq {s : State} {b : Queued} {rest : List Queued} (queued : s.line.queue = b :: rest)
    (may : (s.configured && !s.line.hold && s.line.sending.isNone && !s.line.reader.busy) = true) : s.begin =
      let now := max s.now (s.line.reader.quietAt + bitTime * holdoff s.ident.station s.line.lastSender b.cls)
      { s with
        now := now
        line := { s.line with
          sending := some { bytes := encodeBurst (s.completed b), startAt := now }
          reader := { s.line.reader with reception := none } } } := by
  unfold State.begin
  rw [queued]
  exact if_pos may

theorem Reader.busy_iff (r : Reader) : r.busy = false ↔
    r.run = 0 ∧ r.frame = none ∧ (r.reception = none ∨ r.reception = some []) := by
  unfold Reader.busy Reader.held
  cases r.reception <;> cases r.frame <;> simp

/-- Settles O32. -/
theorem beginBurstCompletesTheHeader : Obligations.BeginBurstCompletesTheHeader := by
  refine ⟨burstWave_length, fun s => ⟨fun barred => ?_, fun b rest conf hold idle run frame empty queued => ?_⟩⟩
  · refine congrArg Host.Outcome.next (State.begin_barred ?_)
    rcases barred with h | h | h | h | h | h | ⟨got, h, byte⟩
    · exact .inr (by rw [h]; rfl)
    · exact .inr (by simp [h])
    · exact .inr (by simp [← Option.not_isSome, h])
    · exact .inl h
    all_goals
      have driven : s.line.reader.busy = true := by
        rw [← Bool.not_eq_false, s.line.reader.busy_iff]
        rintro ⟨hr, hf, hg⟩
        simp_all
      exact .inr (by rw [driven]; simp)
  · intro r holdoff now
    have released : s.line.reader.busy = false := s.line.reader.busy_iff.2 ⟨run, frame, empty⟩
    have may : (s.configured && !s.line.hold && s.line.sending.isNone && !s.line.reader.busy) = true := by
      rw [conf, hold, idle, released]
      rfl
    show Host.Outcome.next s.begin = _
    have lasts : Machine.holdoff s.ident.station s.line.lastSender b.cls = holdoff := by
      show _ = 8 * turn s.ident.station s.line.lastSender + if b.cls = .class0 then 0 else 256
      rw [Machine.holdoff.eq_def]
      cases b.cls <;> rfl
    have moment : max s.now (s.line.reader.quietAt + bitTime * Machine.holdoff s.ident.station s.line.lastSender b.cls) = now := by
      rw [lasts]
      exact congrArg (max s.now) (by rw [Reader.quietAt, bitTime, quietBits]; ring)
    rw [State.begin_eq queued may, moment]
    rfl

end Sys2Proof.Machine
end

section
/-! PROOF. What the receive assembler makes of marks, noise, byte frames and gaps, and of whole bursts (R115, R116, R128, R129). -/

namespace Sys2Proof.Machine

/-! ### What a report of the assembler comes to -/

/-- A command of the line, of which the assembler makes one report. -/
theorem exec_line_one {s : State} {line : List Bool} {c : Instr} {x : Heard} (hc : c ∈ lineCommands line) (conf : s.configured = true)
    (idle : s.line.sending = none) (h : (s.assembler line).2 = [x]) : exec c s = .next ((s.afterReading line).heard x) := by
  rw [exec_line line s c hc, State.hear_eq conf idle, h]
  rfl

theorem exec_line_none {s : State} {line : List Bool} {c : Instr} (hc : c ∈ lineCommands line) (conf : s.configured = true)
    (idle : s.line.sending = none) (h : (s.assembler line).2 = []) : exec c s = .next (s.afterReading line) := by
  rw [exec_line line s c hc, State.hear_eq conf idle, h]
  rfl

/-! ### Byte frames -/

theorem runAfter_released (run : Nat) (bits : List Bool) : runAfter run (bits ++ [false]) = 0 := by
  simp [runAfter]

theorem byteWave_data (b : Byte) : (byteWave b).take 9 = true :: ((byteWave b).take 9).tail := by
  simp [byteWave]

theorem byteWave_data_length (b : Byte) : ((byteWave b).take 9).tail.length = 8 := by
  simp [byteWave_length]

/-- The byte frame of `b`, with any level in its stop bit position (R115, R116). -/
theorem Reader.read_byteFrame (r : Reader) (b : Byte) (stop : Bool) (hr : r.run = 0) (hf : r.frame = none) :
    r.read ((byteWave b).take 9 ++ [stop]) =
      (let x := Reader.add { r with
          run := runAfter 1 (((byteWave b).take 9).tail ++ [stop]), frame := none
          quietFrom := r.readTo + 160, readTo := r.readTo + 160 } b
       (x.1, x.2.toList)) := by
  rw [byteWave_data, r.read_frame _ stop hr hf (byteWave_data_length b), frameByte_wave]
  rfl

theorem byteWave_stop (b : Byte) : byteWave b = (byteWave b).take 9 ++ [false] := by
  rw [byteWave_data]
  exact byteWave_eq b

/-- A byte that is not a failing sixth one joins the reception (R116). -/
theorem Reader.add_joins {r : Reader} {b : Byte} {got : List Byte} (h : r.reception = some got)
    (fits : got.length ≠ 5 ∨ 9 ≤ b.toNat ∧ b.toNat ≤ 84) : r.add b = ({ r with reception := some (got ++ [b]) }, none) := by
  unfold Reader.add
  rw [h]
  exact if_neg fun ⟨sixth, bad⟩ => by rcases fits with no | ok <;> omega

/-- A sixth byte below 9 or above 84 fails the reception (R128). -/
theorem Reader.add_fails {r : Reader} {b : Byte} {got : List Byte} (h : r.reception = some got) (sixth : got.length = 5)
    (bad : b.toNat < 9 ∨ 84 < b.toNat) : r.add b = ({ r with reception := none }, some .badLength) := by
  unfold Reader.add
  rw [h]
  exact if_pos ⟨sixth, bad⟩

/-- A byte framed outside a reception is dropped (R116). -/
theorem Reader.add_drops {r : Reader} {b : Byte} (h : r.reception = none) : r.add b = (r, none) := by
  unfold Reader.add
  rw [h]

/-! ### Start marks -/

/-- The release of a run of 24 or more while fewer than 6 bytes are held: a start mark (R116, R129). -/
theorem Reader.bit_mark {r : Reader} (run : 24 ≤ r.run) (held : r.held < 6) : r.bit false =
    ({ r with run := 0, frame := none, reception := some [], quietFrom := r.readTo, readTo := r.readTo + 16 },
      if r.reception.isSome then some .aborted else none) := by
  have marks : r.marks false = true := by simp [Reader.marks, startMarkBits, run, held]
  unfold Reader.bit
  rw [if_pos marks]
  rfl

theorem Reader.read_one (r : Reader) (d : Bool) : r.read [d] = ((r.bit d).1, (r.bit d).2.toList) := by
  simp [Reader.read]

/-- A mark of `n` driven bit times that brings no reception to its sixth byte (R116, R129). -/
theorem Reader.read_mark {r : Reader} {n : Nat} (hf : r.frame = none) (long : 24 ≤ r.run + n)
    (short : r.reception = none ∨ r.held + n / 10 < 6) :
    r.read (List.replicate n true ++ [false]) =
      ({ run := 0, frame := none, reception := some [], quietFrom := r.readTo + 16 * n, readTo := r.readTo + 16 * (n + 1) },
        if r.reception.isSome then [.aborted] else []) := by
  have driven := r.read_driven hf n (short.imp_right .inr)
  rw [Reader.read_append, driven, Reader.read_one, Reader.bit_mark long]
  · have moment : r.readTo + 16 * n + 16 = r.readTo + 16 * (n + 1) := by ring
    rw [moment]
    cases r.reception <;> rfl
  · rcases short with none | few
    · simp [Reader.held, none]
    · show ((r.reception.map (· ++ List.replicate (n / 10) 0)).getD []).length < 6
      have held : r.held = (r.reception.getD []).length := rfl
      cases got : r.reception with
      | none => simp
      | some got =>
        rw [got] at held
        simp at held ⊢
        omega

/-! ### Gaps -/

/-- The fifth released bit time after a byte ends the reception (R128). -/
theorem Reader.bit_gap {r : Reader} {got : List Byte} (hr : r.run = 0) (hf : r.frame = none) (hg : r.reception = some got) (some' : got ≠ [])
    (quiet : r.quietFrom + 80 ≤ r.readTo + 16) :
    r.bit false = ({ r with reception := none, readTo := r.readTo + 16 }, some (.ended got)) := by
  obtain ⟨b, rest, rfl⟩ := List.exists_cons_of_ne_nil some'
  obtain ⟨run, frame, reception, quietFrom, readTo⟩ := r
  subst hr hf hg
  exact if_pos quiet

theorem Reader.read_gapEnd {r : Reader} {got : List Byte} (hr : r.run = 0) (hf : r.frame = none) (hg : r.reception = some got)
    (some' : got ≠ []) (quiet : r.quietFrom = r.readTo) :
    r.read (List.replicate 5 false) = ({ r with reception := none, readTo := r.readTo + 80 }, [.ended got]) := by
  have last : ({ r with readTo := r.readTo + 16 * 4 } : Reader).bit false =
      ({ r with reception := none, readTo := r.readTo + 16 * 4 + 16 }, some (.ended got)) :=
    Reader.bit_gap hr hf hg some' (show r.quietFrom + 80 ≤ r.readTo + 16 * 4 + 16 by omega)
  rw [List.replicate_succ', Reader.read_append, r.read_gap hf hr 4 (by omega), Reader.read_one]
  simp only [last]
  rfl

/-! ### The receptions that fail -/

/-- A burst from its start mark to its last stop bit is a reception of its bytes, while the sixth is a total length of 9 to 84 (R115,
R116, R128). -/
theorem Reader.read_burst {r : Reader} {bytes : List Byte} (hr : r.run = 0) (hf : r.frame = none) (hg : r.reception = none)
    (total : ∀ b, bytes[5]? = some b → 9 ≤ b.toNat ∧ b.toNat ≤ 84) : r.read (burstWave bytes) =
      (⟨0, none, some bytes, if bytes = [] then r.readTo + 384 else r.readTo + 400 + 160 * bytes.length,
        r.readTo + 400 + 160 * bytes.length⟩, []) := by
  have mark := Reader.read_mark (n := 24) hf (by omega) (.inl hg)
  have body := Reader.read_bytes bytes ⟨0, none, some [], r.readTo + 384, r.readTo + 400⟩ [] rfl rfl rfl total
  rw [hg] at mark
  rw [burstWave, startMarkBits, Reader.read_append, mark]
  simp only [Option.isSome_none, Bool.false_eq_true, if_false, body, List.nil_append]

/-- Settles O36: the reports one by one, then the sixth byte, the gap and the whole burst. -/
theorem failedReceptionIsOneCheckFault : Obligations.FailedReceptionIsOneCheckFault := by
  refine ⟨fun s line conf idle => ?_, fun r run frame => ⟨fun b got reading five bad => ?_, fun got reading quiet byte => ⟨?_, ?_⟩,
    fun n empty => ?_, fun bytes idle some' total => ?_⟩⟩
  · intro faulted c hc
    refine ⟨fun h => exec_line_one hc conf idle h, fun bytes why h fails => ?_⟩
    rw [exec_line_one hc conf idle h, State.heard, fails]
    rfl
  · rw [byteWave_stop, r.read_byteFrame b false run frame, runAfter_released, Reader.add_fails (by exact reading) five bad, ← run, ← frame]
    rfl
  · exact r.read_gap frame run 4 (by omega)
  · exact Reader.read_gapEnd run frame reading byte quiet
  · rw [r.read_released frame (by omega) empty, ← run, ite_self]
  · have ends := Reader.read_gapEnd (r := ⟨0, none, some bytes, r.readTo + 400 + 160 * bytes.length,
      r.readTo + 400 + 160 * bytes.length⟩) rfl rfl rfl some' rfl
    rw [Reader.read_append, Reader.read_burst run frame idle total, if_neg some', ends]
    have quiet : r.readTo + 400 + 160 * bytes.length = r.readTo + 16 * (25 + 10 * bytes.length) := by ring
    have done : r.readTo + 16 * (25 + 10 * bytes.length) + 80 = r.readTo + 16 * (30 + 10 * bytes.length) := by ring
    rw [quiet, done, ← idle, ← run, ← frame]
    rfl

/-! ### Driven runs -/

theorem Reader.marks_short {r : Reader} {d : Bool} (h : r.run < 24) : r.marks d = false := by
  unfold Reader.marks
  rw [decide_eq_false (show ¬ startMarkBits ≤ r.run from Nat.not_le.2 h)]
  simp

/-- The stop bit position ends a byte frame (R116). -/
theorem Reader.bit_frameEnd {r : Reader} {bits : List Bool} {d : Bool} (hf : r.frame = some bits) (whole : bits.length = 8)
    (no : r.marks d = false) : r.bit d = Reader.add
      { r with run := if d then r.run + 1 else 0, frame := none, quietFrom := r.readTo + 16, readTo := r.readTo + 16 } (frameByte bits) := by
  unfold Reader.bit
  rw [if_neg (by simp [no]), hf]
  exact if_neg (by omega)

/-- A mark that brings a reception of fewer than 6 bytes to its sixth fails it by length, for that byte is 0; it begins a reception all
the same (R128, R129). -/
theorem Reader.read_mark_sixth {r : Reader} {n : Nat} {got : List Byte} (hf : r.frame = none) (hg : r.reception = some got)
    (long : 24 ≤ n) (few : got.length < 6) (sixth : 6 ≤ got.length + n / 10) :
    r.read (List.replicate n true ++ [false]) =
      ({ run := 0, frame := none, reception := some [], quietFrom := r.readTo + 16 * n, readTo := r.readTo + 16 * (n + 1) },
        [.badLength]) := by
  obtain ⟨k, hk⟩ : ∃ k, k = 5 - got.length := ⟨_, rfl⟩
  obtain ⟨p, hp⟩ : ∃ p, p = 10 * k + 9 := ⟨_, rfl⟩
  obtain ⟨m, rfl⟩ : ∃ m, n = p + (1 + m) := ⟨n - (p + 1), by omega⟩
  have held : r.held = got.length := by simp [Reader.held, hg]
  have start := r.read_driven hf p (.inr (.inr (by omega)))
  have open' : runFrame p = some (List.replicate 8 true) := by
    rw [runFrame, show p % 10 = 9 by omega]
    rfl
  rw [open', hg, show p / 10 = k by omega] at start
  obtain ⟨q, hq⟩ : ∃ q, q = if p < 10 then r.quietFrom else r.readTo + 160 * k := ⟨_, rfl⟩
  rw [← hq] at start
  have fails : Reader.bit ⟨r.run + p, some (List.replicate 8 true), some (got ++ List.replicate k 0), q, r.readTo + 16 * p⟩ true =
      (⟨r.run + p + 1, none, none, r.readTo + 16 * p + 16, r.readTo + 16 * p + 16⟩, some .badLength) := by
    rw [Reader.bit_frameEnd rfl rfl (by simp [Reader.marks])]
    exact Reader.add_fails (b := frameByte (List.replicate 8 true)) (got := got ++ List.replicate k 0) rfl (by simp; omega)
      (.inl (by decide))
  have rest := Reader.read_mark (n := m)
    (r := ⟨r.run + p + 1, none, none, r.readTo + 16 * p + 16, r.readTo + 16 * p + 16⟩) rfl (by show 24 ≤ r.run + p + 1 + m; omega)
    (.inl rfl)
  have quiet : r.readTo + 16 * p + 16 + 16 * m = r.readTo + 16 * (p + (1 + m)) := by ring
  have moment : r.readTo + 16 * p + 16 + 16 * (m + 1) = r.readTo + 16 * (p + (1 + m) + 1) := by ring
  have parts : List.replicate (p + (1 + m)) true ++ [false] = List.replicate p true ++ true :: (List.replicate m true ++ [false]) := by
    rw [List.replicate_add, Nat.add_comm 1 m, List.replicate_succ, List.append_assoc]
    rfl
  rw [parts, Reader.read_append, start]
  simp only [Option.map_some, Reader.read, fails, rest, quiet, moment]
  rfl

/-- A mark is ignored by a reception of 6 bytes or more, to which it is two byte frames of zeros and an open one (R129). -/
theorem Reader.read_mark_ignored {r : Reader} {got : List Byte} (hr : r.run = 0) (hf : r.frame = none) (hg : r.reception = some got)
    (many : 6 ≤ got.length) : r.read (List.replicate 24 true ++ [false]) =
      (⟨0, some [true, true, true, false], some (got ++ [0, 0]), r.readTo + 320, r.readTo + 400⟩, []) := by
  have driven := r.read_driven hf 24 (.inr (.inl (by simpa [Reader.held, hg] using many)))
  have released : Reader.bit ⟨24, some [true, true, true], some (got ++ [0, 0]), r.readTo + 320, r.readTo + 384⟩ false =
      (⟨0, some [true, true, true, false], some (got ++ [0, 0]), r.readTo + 320, r.readTo + 400⟩, none) := by
    unfold Reader.bit
    rw [if_neg (by simp [Reader.marks, Reader.held]; omega)]
    rfl
  rw [Reader.read_append, driven, hr, hg, Reader.read_one]
  show ((Reader.bit ⟨24, some [true, true, true], some (got ++ [0, 0]), r.readTo + 320, r.readTo + 384⟩ false).1,
    [] ++ (Reader.bit ⟨24, some [true, true, true], some (got ++ [0, 0]), r.readTo + 320, r.readTo + 384⟩ false).2.toList) = _
  rw [released]
  rfl

/-- Released bit times let an open byte frame run out: outside a reception its byte is dropped, and the quiet counts from its end
(R116, R123). -/
theorem Reader.read_runOut {r : Reader} {bits : List Bool} {k : Nat} (hg : r.reception = none) (run : r.run < 24)
    (hf : r.frame = some bits) (whole : bits.length + k = 8) :
    r.read (List.replicate (k + 1) false) =
      ({ r with run := 0, frame := none, quietFrom := r.readTo + 16 * (k + 1), readTo := r.readTo + 16 * (k + 1) }, []) := by
  have data := r.read_data (List.replicate k false) bits hf (by simpa using whole.le) (.inr ⟨run, by simp⟩)
  rw [List.length_replicate] at data
  have low : runAfter r.run (List.replicate k false) < 24 := by
    cases k with
    | zero => exact run
    | succ k => rw [List.replicate_succ', runAfter_released]; omega
  have stop : ({ r with
      run := runAfter r.run (List.replicate k false), frame := some (bits ++ List.replicate k false)
      readTo := r.readTo + 16 * k } : Reader).bit false =
      ({ r with run := 0, frame := none, quietFrom := r.readTo + 16 * k + 16, readTo := r.readTo + 16 * k + 16 }, none) := by
    rw [Reader.bit_frameEnd rfl (by simpa using whole) (Reader.marks_short low), Reader.add_drops (by exact hg)]
    rfl
  rw [List.replicate_succ', Reader.read_append, data, Reader.read_one]
  simp only [stop]
  rfl

/-- A driven run too short for a mark, outside a reception, and the released bit times that let its byte frames run out: the quiet
counts from the end of the last (R123). -/
theorem Reader.read_noise {r : Reader} {n m : Nat} (hr : r.run = 0) (hf : r.frame = none) (hg : r.reception = none) (some' : 1 ≤ n)
    (short : n < 24) (released : 1 ≤ m) (past : 10 * ((n + 9) / 10) ≤ n + m) :
    r.read (List.replicate n true ++ List.replicate m false) =
      ({ r with quietFrom := r.readTo + 160 * ((n + 9) / 10), readTo := r.readTo + 16 * (n + m) }, []) := by
  have driven := r.read_driven hf n (.inl hg)
  rw [hg, Option.map_none, hr] at driven
  by_cases closed : n % 10 = 0
  · have none' : runFrame n = none := if_pos closed
    rw [none', if_neg (by omega)] at driven
    have quiet := Reader.read_released ⟨0 + n, none, none, r.readTo + 160 * (n / 10), r.readTo + 16 * n⟩ rfl (by show 0 + n < 24; omega)
      (.inl rfl) m
    rw [Reader.read_append, driven]
    simp only [quiet]
    rw [if_neg (by omega), show n / 10 = (n + 9) / 10 by omega, show r.readTo + 16 * n + 16 * m = r.readTo + 16 * (n + m) by ring,
      ← hr, ← hf, ← hg]
    rfl
  · obtain ⟨k, j, hk, rfl⟩ : ∃ k j, n % 10 + k = 9 ∧ m = (k + 1) + j := ⟨9 - n % 10, m - (10 - n % 10), by omega, by omega⟩
    have open' : runFrame n = some (List.replicate (n % 10 - 1) true) := if_neg closed
    rw [open'] at driven
    obtain ⟨q, hq⟩ : ∃ q, q = if n < 10 then r.quietFrom else r.readTo + 160 * (n / 10) := ⟨_, rfl⟩
    rw [← hq] at driven
    have out := Reader.read_runOut (r := ⟨0 + n, some (List.replicate (n % 10 - 1) true), none, q, r.readTo + 16 * n⟩) (k := k) rfl
      (by show 0 + n < 24; omega) rfl (by rw [List.length_replicate]; omega)
    have quiet := Reader.read_released ⟨0, none, none, r.readTo + 16 * n + 16 * (k + 1), r.readTo + 16 * n + 16 * (k + 1)⟩ rfl
      (Nat.zero_lt_succ _) (.inl rfl) j
    rw [List.replicate_add, Reader.read_append, driven, Reader.read_append]
    simp only [out, quiet, ite_self]
    rw [show r.readTo + 16 * n + 16 * (k + 1) + 16 * j = r.readTo + 16 * (n + (k + 1 + j)) by ring,
      show r.readTo + 16 * n + 16 * (k + 1) = r.readTo + 160 * ((n + 9) / 10) by omega, ← hr, ← hf, ← hg]
    rfl

/-- Settles O35: the reports of the assembler, then byte frames, marks by what the reception holds, and noise. -/
theorem drivenRunsAreMarksOrNoise : Obligations.DrivenRunsAreMarksOrNoise := by
  refine ⟨fun s line conf idle c hc => ⟨fun h => exec_line_none hc conf idle h, fun h => exec_line_one hc conf idle h⟩,
    fun r run frame => ⟨fun b stop got reading fits => ?_, fun n long => ?_, fun got reading many => ?_,
      fun n m idle some' short released past => Reader.read_noise run frame idle some' short released past⟩⟩
  · refine ⟨runAfter 1 (((byteWave b).take 9).tail ++ [stop]), fun h => by rw [h, runAfter_released], ?_⟩
    rw [r.read_byteFrame b stop run frame, Reader.add_joins (by exact reading) fits, ← frame]
    rfl
  · intro marked
    refine ⟨fun idle => ?_, fun got reading few => ?_, fun got reading few sixth => Reader.read_mark_sixth frame reading long few sixth⟩
    · rw [Reader.read_mark frame (by omega) (.inl idle), idle]
      rfl
    · rw [Reader.read_mark frame (by omega) (.inr (by simpa [Reader.held, reading] using few)), reading]
      rfl
  · rw [Reader.read_mark_ignored run frame reading many, ← run]

end Sys2Proof.Machine
end

section
/-! PROOF. Valid bursts at the blocks that take the simplest of them: this station's own number (R132), duties (R62), incident listings and
releases (R172, R176). -/

namespace Sys2Proof.Machine

/-! ### This station's own number -/

theorem exec_reception {line : List Bool} {c : Instr} (hc : c ∈ receptionCommands line) (s : State) : exec c s = .next (s.hear line) :=
  exec_line line s c (mem_lineCommands hc)

theorem State.enterHold_held {s : State} (h : s.line.hold = true) : s.enterHold = s := if_pos h

/-- A station that enters LINE HOLD: its queue is discarded, and a LOG in it ends the drain (R120, R132). -/
theorem State.enterHold_eq {s : State} (h : s.line.hold = false) : s.enterHold = { s with
    line := { s.line with hold := true, queue := [] }
    log := s.log.append .lineHold none none none false
    office := { drain := if s.line.queue.any Queued.isLog then none else s.office.drain } } := by
  unfold State.enterHold
  rw [if_neg (by simp [h]), State.foldl_reportLost]
  split <;> rfl

/-- Settles O38, by whether the station is in LINE HOLD. -/
theorem ownNumberHeardEntersLineHold : Obligations.OwnNumberHeardEntersLineHold := by
  intro s line b hears own c hc
  refine ⟨(s.afterReception line b).enterHold, ?_, fun held => ?_, fun released => ?_, ?_⟩
  · rw [exec_reception hc, State.hear_hears hears, if_pos own]
  · exact State.enterHold_held held
  · rw [State.enterHold_eq (s := s.afterReception line b) released]
    exact ⟨rfl, rfl⟩
  · have hold : (s.afterReception line b).enterHold.line.hold = true := by
      cases h : s.line.hold with
      | true => rw [State.enterHold_held (s := s.afterReception line b) h]; exact h
      | false => rw [State.enterHold_eq (s := s.afterReception line b) h]
    rw [State.alarmOutput, hold, Bool.or_true]

/-! ### Duties -/

theorem foldl_setDuty (entries : List DutyEntry) : ∀ s : State, entries.foldl State.setDuty s = s.withPresence { s.presence with
    roster := entries.foldl (fun roster d => roster.modify d.pager fun r => { r with duty := d.on }) s.presence.roster } := by
  induction entries with
  | nil => exact fun s => rfl
  | cons d entries ih => exact fun s => ih (s.setDuty d)

theorem State.deliver_duty {s : State} {b : Burst} {entries : List DutyEntry} (body : b.body = .duty entries) :
    s.deliver b = if b.addressee = none ∨ b.addressee = some s.ident.station then entries.foldl State.setDuty s else s := by
  rw [State.deliver, body]
  exact if_congr (s.addressed_iff b) rfl rfl

/-- Settles O43. -/
theorem dutyEntriesSetTheRoster : Obligations.DutyEntriesSetTheRoster := by
  intro s line b entries hears peer body none'
  show Host.Outcome.next (s.hear line) = _
  rw [State.hear_clearsNone hears peer none', State.deliver_duty body, foldl_setDuty]
  rfl

/-! ### Queries -/

theorem State.deliver_query {s : State} {b : Burst} {q : Query} (body : b.body = .query q) :
    s.deliver b = if b.addressee = some s.ident.station then s.takeQuery b.sender q else s := by
  rw [State.deliver, body]

theorem State.summaries_eq (s : State) : s.summaries = s.incidents.map Incident.summary := by
  rw [State.incidents, filterMap_id_map, List.filterMap_map]
  rfl

/-- The listing of the open incidents, offered in a STATE burst (R176). -/
theorem State.listing_eq {s : State} (hold : s.line.hold = false) (sender : Nat) : s.listing sender =
    if s.line.queue.length < 8 then { s with line := { s.line with
      queue := s.line.queue ++ [⟨.state (s.incidents.map Incident.summary) s.counters, .class1, some sender, 0⟩] } }
    else s := by
  rw [State.listing, s.summaries_eq, State.offer_class1 _ _ _ (by simp), if_neg (by simp [hold]), apply_ite Prod.fst]
  rfl

theorem ite_ite_and {α : Type} (p q : Prop) [Decidable p] [Decidable q] (x y : α) :
    (if p then if q then x else y else y) = if p ∧ q then x else y := by
  by_cases hp : p <;> simp [hp]

/-- Settles O47. -/
theorem incidentsAndReleaseQueriesAreServed : Obligations.IncidentsAndReleaseQueriesAreServed := by
  intro s line b hears peer none'
  refine ⟨fun body => ?_, fun body hold => ?_⟩
  · show Host.Outcome.next (s.hear line) = _
    rw [State.hear_clearsNone hears peer none', State.deliver_query body]
    rfl
  · show Host.Outcome.next (s.hear line) = _
    rw [State.hear_clearsNone hears peer none', State.deliver_query body, State.takeQuery,
      State.listing_eq (s := s.afterReception line b) hold, ite_ite_and]
    rfl

end Sys2Proof.Machine
end

section
/-! PROOF. Appends by mode, room and lost count (R164, R166, R167), and the drain: its start, its LOG bursts and what one sent whole
removes (R173 to R175). -/

namespace Sys2Proof.Machine

/-! ### Appends -/

/-- A full log of this mode loses its oldest record for a new one (R164). -/
def Log.Rolls (l : Log) : Prop := l.mode = some .roll ∨ (l.mode = some .rollFreeze ∧ l.frozen = false)

theorem Log.takes_iff (l : Log) : l.takes = true ↔ l.records.length < 128 ∨ l.Rolls := by
  rw [Log.takes, Bool.or_eq_true, Bool.or_eq_true, decide_eq_true_eq, or_assoc]
  exact or_congr Iff.rfl (by simp [Log.Rolls])

theorem Log.add_room {l : Log} (r : Record) (h : l.records.length < 128) :
    l.add r = { l with records := l.records ++ [⟨l.appended, r⟩], appended := l.appended + 1 } := by
  have room : l.records.length < logMax := h
  rw [Log.add, if_pos room]

theorem Log.add_full {l : Log} (r : Record) (h : 128 ≤ l.records.length) :
    l.add r = { l with records := l.records.drop 1 ++ [⟨l.appended, r⟩], appended := l.appended + 1 } := by
  have full : ¬ l.records.length < logMax := Nat.not_lt.2 h
  rw [Log.add, if_neg full]

theorem Log.take_taken {l : Log} (r : Record) (urgent : Bool) (h : l.takes = true) :
    l.take r urgent = { l.add r with frozen := l.frozen || (urgent && l.mode == some .rollFreeze) } := by
  rw [Log.take, if_pos h]
  cases urgent && l.mode == some .rollFreeze with
  | true => rw [Bool.or_true]; rfl
  | false => rw [Bool.or_false]; rfl

theorem Log.take_lost {l : Log} (r : Record) (urgent : Bool) (h : ¬ l.takes = true) :
    l.take r urgent = { l with lost := min (l.lost + 1) 255 } := if_neg h

theorem Log.payLost_owed {l : Log} (owed : 0 < l.lost) (h : l.takes = true) :
    l.payLost = { l.add ⟨.lost, l.seconds, none, none, some l.lost⟩ with lost := 0 } := if_pos ⟨owed, h⟩

theorem Log.payLost_barred {l : Log} (h : l.lost = 0 ∨ ¬ l.takes = true) : l.payLost = l :=
  if_neg fun ⟨owed, takes⟩ => h.elim (fun none => by omega) (· takes)

theorem Log.append_set {l : Log} (tag : Tag) (serial pager detail : Option Nat) (urgent : Bool) (h : l.mode ≠ none) :
    l.append tag serial pager detail urgent = l.payLost.take ⟨tag, l.seconds, serial, pager, detail⟩ urgent := if_neg h

theorem Log.Rolls.set {l : Log} (h : l.Rolls) : l.mode ≠ none := by
  rcases h with h | ⟨h, -⟩ <;> simp [h]

/-- The log with the LOST record it owed behind `old` (R166). -/
def Log.paidBehind (l : Log) (old : List Held) : Log := { l with
  records := old ++ [⟨l.appended, ⟨.lost, l.seconds, none, none, some l.lost⟩⟩], appended := l.appended + 1, lost := 0 }

theorem Log.append_paid_room {l : Log} (tag : Tag) (serial pager detail : Option Nat) (urgent : Bool) (set : l.mode ≠ none)
    (owed : 0 < l.lost) (room : l.records.length < 128) : l.append tag serial pager detail urgent =
      (l.paidBehind l.records).take ⟨tag, l.seconds, serial, pager, detail⟩ urgent := by
  rw [Log.append_set _ _ _ _ _ set, Log.payLost_owed owed (l.takes_iff.2 (.inl room)), Log.add_room _ room]
  rfl

theorem Log.append_paid_full {l : Log} (tag : Tag) (serial pager detail : Option Nat) (urgent : Bool) (owed : 0 < l.lost)
    (full : 128 ≤ l.records.length) (rolling : l.Rolls) : l.append tag serial pager detail urgent =
      (l.paidBehind (l.records.drop 1)).take ⟨tag, l.seconds, serial, pager, detail⟩ urgent := by
  rw [Log.append_set _ _ _ _ _ rolling.set, Log.payLost_owed owed (l.takes_iff.2 (.inr rolling)), Log.add_full _ full]
  rfl

theorem Log.paidBehind_length (l : Log) (old : List Held) : (l.paidBehind old).records.length = old.length + 1 := by
  simp [Log.paidBehind]

/-- Settles O45: by the lost count, the room and whether the log rolls. -/
theorem appendFollowsTheModeOfTheLog : Obligations.AppendFollowsTheModeOfTheLog := by
  intro l tag serial pager detail urgent r after rolls freezes
  have taken : ∀ m : Log, m.mode = l.mode → m.frozen = l.frozen → m.takes = true →
      m.take r urgent = { m.add r with frozen := l.frozen || freezes } := fun m mode frozen takes => by
    rw [Log.take_taken r urgent takes, mode, frozen]
  refine ⟨Log.append_unset l tag serial pager detail urgent, fun set none' room => ?_, fun none' full rolling => ?_,
    fun set full still => ?_, fun set owed room => ?_, fun set owed last still => ?_, fun owed last rolling => ?_,
    fun owed full rolling => ?_, ?_⟩
  · rw [show after = _ from Log.append_set tag serial pager detail urgent set, Log.payLost_barred (.inl none'),
      taken l rfl rfl (l.takes_iff.2 (.inl room)), Log.add_room r room]
  · rw [show after = _ from Log.append_set tag serial pager detail urgent (Log.Rolls.set rolling), Log.payLost_barred (.inl none'),
      taken l rfl rfl (l.takes_iff.2 (.inr rolling)), Log.add_full r full.ge]
  · have barred : ¬ l.takes = true := by
      rw [l.takes_iff]
      exact not_or.2 ⟨by omega, still⟩
    rw [show after = _ from Log.append_set tag serial pager detail urgent set, Log.payLost_barred (.inr barred), Log.take_lost r urgent barred]
  · have short : (l.paidBehind l.records).records.length < 128 := by rw [l.paidBehind_length]; omega
    rw [show after = _ from Log.append_paid_room tag serial pager detail urgent set owed (by omega),
      taken (l.paidBehind l.records) rfl rfl ((Log.takes_iff _).2 (.inl short)), Log.add_room r short]
    simp [Log.paidBehind]
  · have barred : ¬ (l.paidBehind l.records).takes = true := by
      rw [Log.takes_iff, l.paidBehind_length]
      exact not_or.2 ⟨by omega, still⟩
    rw [show after = _ from Log.append_paid_room tag serial pager detail urgent set owed (by omega), Log.take_lost r urgent barred]
    rfl
  · have full : 128 ≤ (l.paidBehind l.records).records.length := by rw [l.paidBehind_length]; omega
    rw [show after = _ from Log.append_paid_room tag serial pager detail urgent (Log.Rolls.set rolling) owed (by omega),
      taken (l.paidBehind l.records) rfl rfl ((Log.takes_iff _).2 (.inr rolling)), Log.add_full r full]
    simp [Log.paidBehind, List.drop_append, last]
  · have full : 128 ≤ (l.paidBehind (l.records.drop 1)).records.length := by rw [l.paidBehind_length, List.length_drop]; omega
    rw [show after = _ from Log.append_paid_full tag serial pager detail urgent owed (by omega) rolling,
      taken (l.paidBehind (l.records.drop 1)) rfl rfl ((Log.takes_iff _).2 (.inr rolling)), Log.add_full r full]
    simp [Log.paidBehind, List.drop_append, *]
  · obtain ⟨added, few, counts, held⟩ := l.append_adds tag serial pager detail urgent
    refine ⟨added, few, ?_, fun h hh => (held h hh).imp_right fun ⟨k, less, count⟩ => ⟨k, less, ?_⟩⟩
    · rw [Log.next, counts, recordNumber_add]
      rfl
    · rw [Held.number, count, recordNumber_add]
      rfl

/-! ### The LOG bursts of a drain -/

theorem State.nextLog_ends {s : State} {d : Drain} (h : s.office.drain = some d) (none' : drainRecords d s.log.records = []) :
    s.nextLog = { s with office := { drain := none } } := by
  rw [State.nextLog, h]
  simp only
  rw [none']
  rfl

/-- The next LOG is offered in a queue with room (R174). -/
theorem State.nextLog_offers {s : State} {d : Drain} {last : Held} (h : s.office.drain = some d)
    (ends : (drainRecords d s.log.records).getLast? = some last) (hold : s.line.hold = false) (room : s.line.queue.length < 8) :
    s.nextLog = { s with
      office := { drain := some { d with cursorAt := last.count + 1 } }
      line := { s.line with queue := s.line.queue ++ [⟨.log ((drainRecords d s.log.records).map (·.record)), .class1, some d.addressee, 0⟩] } } := by
  rw [State.nextLog, h]
  simp only
  rw [ends]
  simp only
  rw [State.offer_room _ _ _ _ (by exact hold) (by exact room), Line.place_class1 _ rfl]
  rfl

/-- Counts that run on from `first` lie before a place exactly in the oldest records. -/
theorem filter_count_lt {q : List Held} : ∀ {first : Nat} (stop : Nat), (∀ i h, q[i]? = some h → h.count = first + i) →
    q.filter (fun h => decide (h.count < stop)) = q.take (stop - first) := by
  induction q with
  | nil => simp
  | cons x q ih =>
    intro first stop counts
    have own : x.count = first := counts 0 x rfl
    have rest := ih (first := first + 1) stop fun i h hh => by rw [counts (i + 1) h hh]; ring
    rw [List.filter_cons, rest, own]
    by_cases before : first < stop
    · rw [if_pos (decide_eq_true before), show stop - first = stop - (first + 1) + 1 by omega, List.take_succ_cons]
    · rw [if_neg (by simpa using before), show stop - first = 0 by omega, show stop - (first + 1) = 0 by omega, List.take_zero,
        List.take_zero]

/-- The records of a LOG whose cursor is the oldest record (R173, R174). -/
theorem drainRecords_first {q : List Held} {first : Nat} (counts : ∀ i h, q[i]? = some h → h.count = first + i) (who n : Nat) :
    drainRecords ⟨who, first, first + n⟩ q = q.take (min 4 n) := by
  have oldest : ∀ h ∈ q, first ≤ h.count := fun h hh => by
    obtain ⟨i, at'⟩ := List.mem_iff_getElem?.1 hh
    rw [counts i h at']
    exact Nat.le_add_right first i
  rw [drainRecords, List.filter_congr fun h hh => by rw [decide_eq_true (oldest h hh), Bool.true_and],
    filter_count_lt _ counts, Nat.add_sub_cancel_left, List.take_take]
  rfl

/-- A HISTORY query begins a drain from the oldest record (R173). -/
theorem State.history_starts {s : State} {oldest : Held} (idle : s.office.drain = none) (first : s.log.records.head? = some oldest)
    (sender n : Nat) : s.history sender n = (s.withOffice
      { drain := some ⟨sender, oldest.count, oldest.count + min n s.log.records.length⟩ }).nextLog := by
  rw [State.history, idle]
  simp only
  rw [first]

/-- Settles O46: the drain starts at the oldest record, and its first LOG holds the 4 oldest at most. -/
theorem historyQueryBeginsADrain : Obligations.HistoryQueryBeginsADrain := by
  intro s line b n hears peer body none'
  have taken : exec (.queryHistory line) s = .next (
      if b.addressee = some s.ident.station then (s.afterReception line b).history b.sender n else s.afterReception line b) := by
    show Host.Outcome.next (s.hear line) = _
    rw [State.hear_clearsNone hears peer none', State.deliver_query body]
    rfl
  refine ⟨fun barred => ?_, fun first here idle some' few asks counts hold room => ?_⟩
  · rw [taken]
    rcases barred with elsewhere | drains | empty
    · rw [if_neg elsewhere]
    · obtain ⟨d, drains⟩ := Option.ne_none_iff_exists'.1 drains
      have same : (s.afterReception line b).history b.sender n = s.afterReception line b := by
        rw [State.history, show (s.afterReception line b).office.drain = some d from drains]
      rw [same, ite_self]
    · have same : (s.afterReception line b).history b.sender n = s.afterReception line b := by
        rw [State.history, show (s.afterReception line b).log.records = [] from empty]
        split <;> rfl
      rw [same, ite_self]
  · intro count copied
    obtain ⟨oldest, later, held⟩ := List.exists_cons_of_ne_nil some'
    have own : oldest.count = first := counts 0 oldest (by rw [held]; rfl)
    have copies : drainRecords ⟨b.sender, first, first + count⟩ s.log.records = copied := drainRecords_first counts _ _
    have size : copied.length = min 4 count := by
      rw [List.length_take]
      omega
    have more : 0 < copied.length := by
      have : 0 < s.log.records.length := List.length_pos_of_ne_nil some'
      omega
    obtain ⟨last, ends⟩ : ∃ last, copied.getLast? = some last := by
      cases h : copied.getLast? with
      | none => rw [List.getLast?_eq_none_iff.1 h] at more; cases more
      | some last => exact ⟨last, rfl⟩
    have cursor : last.count + 1 = first + min 4 count := by
      have at' : s.log.records[copied.length - 1]? = some last := by
        rw [List.getLast?_eq_getElem?, List.getElem?_take] at ends
        rw [← ends, if_pos (by omega)]
      rw [counts _ _ at']
      omega
    have oldest' : (s.afterReception line b).log.records.head? = some oldest := by
      show s.log.records.head? = _
      rw [held]
      rfl
    rw [taken, if_pos here, State.history_starts (s := s.afterReception line b) idle oldest' b.sender n, own]
    have offers := State.nextLog_offers (last := last)
      (s := (s.afterReception line b).withOffice { drain := some ⟨b.sender, first, first + count⟩ }) rfl
      (by rw [← ends, ← copies]; rfl) hold room
    rw [← copies, ← cursor]
    exact congrArg Host.Outcome.next offers

/-! ### A burst sent whole -/

/-- The station with the burst at its head sent whole, before a LOG is reported SENT (R126). -/
def State.sentOff (s : State) (x : Sending) (rest : List Queued) : State :=
  let now := max s.now (x.startAt + 16 * (25 + 10 * x.bytes.length))
  { s with
    now := now
    line := { s.line with queue := rest, sending := none, lastSender := some s.ident.station, degraded := false, reader := readerStart now } }

theorem State.sentWhole_eq {s : State} {x : Sending} {b : Queued} {rest : List Queued} (sending : s.line.sending = some x)
    (queued : s.line.queue = b :: rest) :
    s.sentWhole = match b.body with | .log _ => (s.sentOff x rest).logSent | _ => s.sentOff x rest := by
  unfold State.sentWhole
  rw [sending, queued]
  rfl

theorem State.logSent_eq {s : State} {d : Drain} (h : s.office.drain = some d) :
    s.logSent = (s.withLog { s.log with records := s.log.records.filter fun h => decide (d.cursorAt ≤ h.count) }).nextLog := by
  rw [State.logSent, h]

/-- Once the records before the cursor are gone, the next LOG takes its records from the oldest held (R175). -/
theorem drainRecords_held (d : Drain) (q : List Held) : drainRecords d (q.filter fun h => decide (d.cursorAt ≤ h.count)) =
    ((q.filter fun h => decide (d.cursorAt ≤ h.count)).filter fun h => decide (h.count < d.stopAt)).take 4 := by
  have cursor : ∀ h ∈ q.filter fun h => decide (d.cursorAt ≤ h.count), decide (d.cursorAt ≤ h.count) = true := fun h hh =>
    (List.mem_filter.1 hh).2
  rw [drainRecords, List.filter_congr fun h hh => by rw [cursor h hh, Bool.true_and]]
  rfl

/-- Settles O34, by whether the burst is a LOG and whether its drain has records left. -/
theorem burstSentWholeLeavesTheQueue : Obligations.BurstSentWholeLeavesTheQueue := by
  intro s x b rest sending queued now sent
  refine ⟨fun other => ?_, fun rs d log drains => ?_⟩
  · show Host.Outcome.next s.sentWhole = .next (s.sentOff x rest)
    rw [State.sentWhole_eq sending queued]
    split
    · next rs log => exact absurd log (other rs)
    · rfl
  · intro held next
    obtain ⟨gone, hg⟩ : ∃ gone, gone = (s.sentOff x rest).withLog { s.log with records := held } := ⟨_, rfl⟩
    have drain : gone.office.drain = some d := by rw [hg]; exact drains
    have records : drainRecords d gone.log.records = next := by rw [hg]; exact drainRecords_held d s.log.records
    have line : gone.line = sent.line := by rw [hg]; rfl
    have ran : exec .burstSentWhole s = .next gone.nextLog := by
      show Host.Outcome.next s.sentWhole = _
      rw [State.sentWhole_eq sending queued, log, hg]
      exact congrArg Host.Outcome.next (State.logSent_eq (s := s.sentOff x rest) drains)
    refine ⟨fun none' => ?_, fun last ends hold room => ?_⟩
    · rw [ran, State.nextLog_ends drain (records.trans none'), hg]
      rfl
    · rw [ran, State.nextLog_offers drain (by rw [records]; exact ends) (by rw [line]; exact hold) (by rw [line]; exact room), records, hg]
      rfl

end Sys2Proof.Machine
end

section
/-! PROOF. The collision: what the assembler has read of the attempt (R125), and what becomes of the burst (R117, R127). -/

namespace Sys2Proof.Machine

/-! ### The assembler after a collision -/

/-- The assembler a bit time later, its run counted on or ended (R116). -/
def Reader.passed (r : Reader) (d : Bool) : Reader := { r with run := if d then r.run + 1 else 0, readTo := r.readTo + 16 }

theorem Reader.bit_marked {r : Reader} {d : Bool} (h : r.marks d = true) : r.bit d =
    ({ r.passed d with reception := some [], frame := none, quietFrom := r.readTo }, if r.reception.isSome then some .aborted else none) :=
  if_pos h

theorem Reader.bit_unmarked {r : Reader} {d : Bool} (h : r.marks d = false) : r.bit d = match r.frame with
    | none => if d then ({ r.passed d with frame := some [] }, none) else (r.passed d).gap
    | some bits =>
      if bits.length < 8 then ({ r.passed d with frame := some (bits ++ [d]) }, none)
      else Reader.add { r.passed d with frame := none, quietFrom := r.readTo + 16 } (frameByte bits) := by
  unfold Reader.bit
  rw [if_neg (by simp [h])]
  rfl

theorem Reader.add_readTo (r : Reader) (b : Byte) : (r.add b).1.readTo = r.readTo := by
  unfold Reader.add
  split
  · rfl
  · split <;> rfl

theorem Reader.gap_readTo (r : Reader) : r.gap.1.readTo = r.readTo := by
  unfold Reader.gap
  split
  · split <;> rfl
  · rfl

/-- Each bit read is a bit time (R116). -/
theorem Reader.bit_readTo (r : Reader) (d : Bool) : (r.bit d).1.readTo = r.readTo + 16 := by
  by_cases marked : r.marks d = true
  · rw [Reader.bit_marked marked]
    rfl
  · rw [Reader.bit_unmarked (by simpa using marked)]
    split
    · split
      · rfl
      · exact Reader.gap_readTo _
    · split
      · rfl
      · exact Reader.add_readTo _ _

theorem Reader.read_readTo (bits : List Bool) : ∀ r : Reader, (r.read bits).1.readTo = r.readTo + 16 * bits.length := by
  induction bits with
  | nil => exact fun r => rfl
  | cons d bits ih =>
    intro r
    rw [Reader.read]
    simp only
    rw [ih, r.bit_readTo, List.length_cons]
    ring

/-- Outside a reception a run too short for a mark leaves none (R116). -/
theorem Reader.bit_no_reception {r : Reader} (d : Bool) (h : r.reception = none) (short : r.run < 24 ∨ d = true) :
    (r.bit d).1.reception = none := by
  have unmarked : r.marks d = false := by
    rcases short with short | rfl
    · exact Reader.marks_short short
    · rfl
  rw [Reader.bit_unmarked unmarked]
  split
  · split
    · exact h
    · rw [Reader.gap]
      split
      · next got => rw [show r.reception = _ from got] at h; cases h
      · exact h
  · split
    · exact h
    · rw [Reader.add_drops (by exact h)]
      exact h

/-- The attempt as it was read: as sent before the bit of the collision, which was read the other way (R125). -/
def collided (bytes : List Byte) (bit : Nat) : List Bool := (burstWave bytes).take bit ++ [!(burstWave bytes).getD bit false]

theorem collided_length {bytes : List Byte} {bit : Nat} (h : bit < 25 + 10 * bytes.length) : (collided bytes bit).length = bit + 1 := by
  have := burstWave_length bytes
  simp only [collided, List.length_append, List.length_take, List.length_singleton]
  omega

/-- A collision in the start mark or its release. -/
theorem collided_mark {bytes : List Byte} {bit : Nat} (h : bit < 25) :
    collided bytes bit = List.replicate bit true ++ [decide (bit = 24)] := by
  have wave : burstWave bytes = List.replicate 24 true ++ ([false] ++ bytes.flatMap byteWave) := by
    rw [burstWave, List.append_assoc]
    rfl
  rw [collided, wave]
  by_cases last : bit = 24
  · subst last
    rfl
  · have inside : bit < 24 := by omega
    rw [List.take_append_of_le_length (by simpa using inside.le), List.getD_append _ _ _ _ (by simpa using inside), List.take_replicate,
      Nat.min_eq_left inside.le, List.getD_replicate _ inside, decide_eq_false last]
    rfl

/-- A collision in bit time `p` of byte `j`. -/
theorem collided_byte {bytes : List Byte} {j p : Nat} {b : Byte} (h : bytes[j]? = some b) (hp : p < 10) :
    collided bytes (25 + 10 * j + p) = burstWave (bytes.take j) ++ ((byteWave b).take p ++ [!(byteWave b).getD p false]) := by
  obtain ⟨inside, at'⟩ := List.getElem?_eq_some_iff.1 h
  have cut : bytes = bytes.take j ++ b :: bytes.drop (j + 1) := by
    rw [← at', List.getElem_cons_drop, List.take_append_drop]
  have wave : burstWave bytes = burstWave (bytes.take j) ++ (byteWave b ++ (bytes.drop (j + 1)).flatMap byteWave) := by
    conv_lhs => rw [cut]
    simp [burstWave]
  have front : (burstWave (bytes.take j)).length = 25 + 10 * j := by
    rw [burstWave_length, List.length_take, Nat.min_eq_left inside.le]
  have within : p < (byteWave b).length := by rw [byteWave_length]; exact hp
  rw [collided, wave, List.take_append, List.take_of_length_le (by omega), front, Nat.add_sub_cancel_left,
    List.take_append_of_le_length within.le, List.getD_append_right _ _ _ _ (by omega), front, Nat.add_sub_cancel_left,
    List.getD_append _ _ _ _ within, List.append_assoc]

section
variable (quiet startAt : Nat) (bytes : List Byte)

/-- The assembler before the attempt, with nothing read (R125). -/
def beforeAttempt : Reader := { run := 0, frame := none, reception := none, quietFrom := quiet, readTo := startAt }

theorem attemptReader_eq (bit : Nat) : attemptReader quiet startAt bytes bit =
    { ((beforeAttempt quiet startAt).read (collided bytes bit)).1 with
      reception := some (((beforeAttempt quiet startAt).read (collided bytes bit)).1.reception.getD []) } := rfl

theorem attemptReader_readTo {bit : Nat} (h : bit < 25 + 10 * bytes.length) :
    (attemptReader quiet startAt bytes bit).readTo = startAt + 16 * (bit + 1) := by
  have read := Reader.read_readTo (collided bytes bit) (beforeAttempt quiet startAt)
  rw [collided_length h] at read
  exact read

/-- A collision before the release of the mark leaves no byte (R125). -/
theorem attemptReader_mark {bit : Nat} (h : bit < 25) : (attemptReader quiet startAt bytes bit).reception = some [] := by
  have driven := Reader.read_driven (beforeAttempt quiet startAt) rfl bit (.inl rfl)
  have none' : ((beforeAttempt quiet startAt).read (collided bytes bit)).1.reception = none := by
    rw [collided_mark h, Reader.read_append, driven, Reader.read_one]
    refine Reader.bit_no_reception _ rfl ?_
    by_cases last : bit = 24
    · exact .inr (decide_eq_true last)
    · exact .inl (show 0 + bit < 24 by omega)
  rw [attemptReader_eq, none']
  rfl

/-- The assembler at the first bit time of byte `j` of the attempt. -/
def atByte (j : Nat) : Reader :=
  ⟨0, none, some (bytes.take j), if bytes.take j = [] then startAt + 384 else startAt + 400 + 160 * (bytes.take j).length,
    startAt + 400 + 160 * (bytes.take j).length⟩

variable {bytes} {j p : Nat} {b : Byte}

/-- A collision in a byte: the bytes before it are read whole (R125). -/
theorem attemptReader_byte (total : ∀ b, bytes[5]? = some b → 9 ≤ b.toNat ∧ b.toNat ≤ 84) (at' : bytes[j]? = some b) (hp : p < 10) :
    ∀ r, ((atByte startAt bytes j).read ((byteWave b).take p ++ [!(byteWave b).getD p false])).1 = r →
      attemptReader quiet startAt bytes (25 + 10 * j + p) = { r with reception := some (r.reception.getD []) } := by
  rintro r rfl
  have front : ∀ x, (bytes.take j)[5]? = some x → 9 ≤ x.toNat ∧ x.toNat ≤ 84 := fun x hx => total x (by
    rw [List.getElem?_take] at hx
    split at hx
    · exact hx
    · cases hx)
  rw [attemptReader_eq, collided_byte at' hp, Reader.read_append, Reader.read_burst (r := beforeAttempt quiet startAt) rfl rfl rfl front]
  rfl

theorem attemptReader_start (total : ∀ b, bytes[5]? = some b → 9 ≤ b.toNat ∧ b.toNat ≤ 84) (at' : bytes[j]? = some b) :
    attemptReader quiet startAt bytes (25 + 10 * j + 0) = { atByte startAt bytes j with readTo := startAt + 400 + 160 * (bytes.take j).length + 16 } := by
  have released : (atByte startAt bytes j).read (List.replicate 1 false) =
      ({ atByte startAt bytes j with readTo := startAt + 400 + 160 * (bytes.take j).length + 16 }, []) := by
    refine Reader.read_gap (atByte startAt bytes j) rfl rfl 1 ?_
    show startAt + 400 + 160 * (bytes.take j).length + 16 * 1 < (if bytes.take j = [] then _ else _) + 80
    split
    · next none' => rw [none', List.length_nil]; omega
    · omega
  exact attemptReader_byte quiet startAt (p := 0) total at' (by omega) _ (congrArg Prod.fst released)

/-- Data bit times after a start bit stand in an open byte frame (R116). -/
theorem Reader.read_open {r : Reader} {bits : List Bool} (hr : r.run = 0) (hf : r.frame = none) (few : bits.length ≤ 8) :
    r.read (true :: bits) =
      ({ r with run := runAfter 1 bits, frame := some bits, readTo := r.readTo + 16 + 16 * bits.length }, []) := by
  have start : r.bit true = ({ r with run := 1, frame := some [], readTo := r.readTo + 16 }, none) := by
    rw [Reader.bit_unmarked (Reader.marks_short (by omega)), hf, Reader.passed, hr]
    rfl
  have data := Reader.read_data bits { r with run := 1, frame := some [], readTo := r.readTo + 16 } [] rfl (by simpa using few)
    (.inl (show 1 + bits.length < 24 by omega))
  rw [Reader.read, start]
  simp only [data, List.nil_append]
  rfl

theorem attemptReader_data (total : ∀ b, bytes[5]? = some b → 9 ≤ b.toNat ∧ b.toNat ≤ 84) (at' : bytes[j]? = some b) (some' : 1 ≤ p)
    (hp : p ≤ 8) : (attemptReader quiet startAt bytes (25 + 10 * j + p)).reception = some (bytes.take j) ∧
      (attemptReader quiet startAt bytes (25 + 10 * j + p)).frame =
        some (((byteWave b).take p).drop 1 ++ [!(byteWave b).getD p false]) := by
  have wave : (byteWave b).take p ++ [!(byteWave b).getD p false] = true :: (((byteWave b).take p).drop 1 ++ [!(byteWave b).getD p false]) := by
    obtain ⟨m, rfl⟩ : ∃ m, p = m + 1 := ⟨p - 1, by omega⟩
    rfl
  have size : (((byteWave b).take p).drop 1 ++ [!(byteWave b).getD p false]).length ≤ 8 := by
    simp [byteWave_length]
    omega
  have opened := Reader.read_open (r := atByte startAt bytes j) rfl rfl size
  rw [← wave] at opened
  rw [attemptReader_byte quiet startAt total at' (by omega) _ (congrArg Prod.fst opened)]
  exact ⟨rfl, rfl⟩

theorem attemptReader_stop (total : ∀ b, bytes[5]? = some b → 9 ≤ b.toNat ∧ b.toNat ≤ 84) (at' : bytes[j]? = some b) :
    (attemptReader quiet startAt bytes (25 + 10 * j + 9)).reception = some (bytes.take (j + 1)) ∧
      (attemptReader quiet startAt bytes (25 + 10 * j + 9)).frame = none ∧
      (attemptReader quiet startAt bytes (25 + 10 * j + 9)).quietFrom = startAt + 400 + 160 * (j + 1) := by
  obtain ⟨inside, own⟩ := List.getElem?_eq_some_iff.1 at'
  have size : (bytes.take j).length = j := by rw [List.length_take, Nat.min_eq_left inside.le]
  have fits : (bytes.take j).length ≠ 5 ∨ 9 ≤ b.toNat ∧ b.toNat ≤ 84 := by
    rw [size]
    by_cases sixth : j = 5
    · exact .inr (total b (sixth ▸ at'))
    · exact .inl sixth
  have next : bytes.take (j + 1) = bytes.take j ++ [b] := by rw [List.take_add_one, at']; rfl
  have framed := Reader.read_byteFrame (atByte startAt bytes j) b true rfl rfl
  rw [Reader.add_joins (got := bytes.take j) (by rfl) fits] at framed
  rw [attemptReader_byte quiet startAt total at' (by omega) _ (congrArg Prod.fst framed), next]
  refine ⟨rfl, rfl, ?_⟩
  show startAt + 400 + 160 * (bytes.take j).length + 160 = _
  rw [size]
  ring

end

/-! ### The burst of a failed attempt -/

theorem placeUrgent_between {b : Queued} {urgent ordinary : List Queued} (first : ∀ y ∈ urgent, y.cls = .class0)
    (then' : ∀ y ∈ ordinary, y.cls = .class1) : placeUrgent b (urgent ++ ordinary) = urgent ++ b :: ordinary := by
  have stops : ordinary.takeWhile (·.cls == .class0) = [] ∧ ordinary.dropWhile (·.cls == .class0) = ordinary := by
    cases ordinary with
    | nil => exact ⟨rfl, rfl⟩
    | cons y ordinary =>
      have ordinary' : ¬ (y.cls == LineClass.class0) = true := by rw [then' y List.mem_cons_self]; decide
      exact ⟨List.takeWhile_cons_of_neg ordinary', List.dropWhile_cons_of_neg ordinary'⟩
  have urgent' : ∀ y ∈ urgent, (y.cls == LineClass.class0) = true := fun y hy => by rw [first y hy]; rfl
  rw [placeUrgent, List.takeWhile_append_of_pos urgent', List.dropWhile_append_of_pos urgent', stops.1, stops.2, List.append_nil]

/-- The line once an attempt has ended by a collision (R125). -/
def Line.hit (l : Line) (x : Sending) (bit : Nat) : Line := { l with
  sending := none, collisions := min (l.collisions + 1) 65535, lastSender := none
  reader := attemptReader l.reader.quietFrom x.startAt x.bytes bit }

section
variable {s : State} {x : Sending} {b : Queued} {rest : List Queued} {bit : Nat}

/-- A burst with attempts left is queued again (R117, R125). -/
theorem State.collide_again (sending : s.line.sending = some x) (queued : s.line.queue = b :: rest) (inside : bit < 25 + 10 * x.bytes.length)
    (left : b.attempts + 1 < 16) : s.collide bit = { s with
      now := max s.now (x.startAt + 16 * (bit + 1))
      line := { s.line.hit x bit with queue := requeue { b with attempts := b.attempts + 1 } rest } } := by
  have within : bit < burstBits x.bytes.length := inside
  have few : b.attempts + 1 < attemptMax := left
  unfold State.collide
  rw [sending, queued]
  simp only
  rw [if_pos within, if_pos few]
  rfl

/-- A burst with none left is dropped (R127). -/
theorem State.collide_drops (sending : s.line.sending = some x) (queued : s.line.queue = b :: rest) (inside : bit < 25 + 10 * x.bytes.length)
    (out : 16 ≤ b.attempts + 1) : s.collide bit = State.reportLost { s with
      now := max s.now (x.startAt + 16 * (bit + 1))
      line := { s.line.hit x bit with queue := rest, drops := min (s.line.drops + 1) 65535, degraded := true }
      log := s.log.append .lineDrop none none none false } b := by
  have within : bit < burstBits x.bytes.length := inside
  have none' : ¬ b.attempts + 1 < attemptMax := Nat.not_lt.2 out
  unfold State.collide
  rw [sending, queued]
  simp only
  rw [if_pos within, if_neg none']
  rfl

end

/-- What the assembler has read of the attempt, by the bit of the collision (R125). -/
theorem attemptReader_spec (quiet startAt bit : Nat) (bytes : List Byte) (inside : bit < 25 + 10 * bytes.length)
    (total : ∀ b, bytes[5]? = some b → 9 ≤ b.toNat ∧ b.toNat ≤ 84) :
    (attemptReader quiet startAt bytes bit).reception = some (bytes.take ((bit - 24) / 10)) ∧
    (∀ j p b, bit = 25 + 10 * j + p → 1 ≤ p → p ≤ 8 → bytes[j]? = some b →
      (attemptReader quiet startAt bytes bit).frame = some (((byteWave b).take p).drop 1 ++ [!(byteWave b).getD p false])) ∧
    (∀ j, bit = 25 + 10 * j ∨ bit = 34 + 10 * j → (attemptReader quiet startAt bytes bit).frame = none ∧
      (attemptReader quiet startAt bytes bit).quietFrom = if bit = 25 then startAt + 384 else startAt + 400 + 160 * ((bit - 24) / 10)) := by
  by_cases mark : bit < 25
  · rw [attemptReader_mark quiet startAt bytes mark, show (bit - 24) / 10 = 0 by omega, List.take_zero]
    exact ⟨rfl, fun j p b at' => by omega, fun j at' => by omega⟩
  · obtain ⟨j, p, hp, rfl⟩ : ∃ j p, p < 10 ∧ bit = 25 + 10 * j + p := ⟨(bit - 25) / 10, (bit - 25) % 10, by omega, by omega⟩
    have short : j < bytes.length := by omega
    have at' : bytes[j]? = some bytes[j] := List.getElem?_eq_getElem short
    obtain rfl | rfl | ⟨some', few⟩ : p = 0 ∨ p = 9 ∨ (1 ≤ p ∧ p ≤ 8) := by omega
    · have size : (bytes.take j).length = j := by rw [List.length_take, Nat.min_eq_left short.le]
      have count : (25 + 10 * j + 0 - 24) / 10 = j := by omega
      rw [attemptReader_start quiet startAt total at', count]
      refine ⟨rfl, fun j p b at' => by omega, fun j' _ => ⟨rfl, ?_⟩⟩
      show (if bytes.take j = [] then startAt + 384 else startAt + 400 + 160 * (bytes.take j).length) = _
      rw [size]
      refine if_congr ?_ rfl rfl
      rw [← List.length_eq_zero_iff, size]
      omega
    · obtain ⟨held, closed, quiet'⟩ := attemptReader_stop quiet startAt total at'
      have count : (25 + 10 * j + 9 - 24) / 10 = j + 1 := by omega
      rw [held, closed, quiet', count, if_neg (by omega)]
      exact ⟨rfl, fun j p b at' => by omega, fun j' _ => ⟨rfl, rfl⟩⟩
    · obtain ⟨held, open'⟩ := attemptReader_data quiet startAt total at' some' few
      rw [held, open', show (25 + 10 * j + p - 24) / 10 = j by omega]
      refine ⟨rfl, fun j' p' b same some'' few' byte => ?_, fun j' at' => by omega⟩
      obtain ⟨rfl, rfl⟩ : j' = j ∧ p' = p := by omega
      obtain rfl : bytes[j'] = b := Option.some.inj (at'.symm.trans byte)
      rfl

/-- Settles O33: what was read of the attempt, then the burst by its failed attempts and class. -/
theorem collisionReleasesAndCounts : Obligations.CollisionReleasesAndCounts := by
  refine ⟨fun quiet startAt bit bytes inside total => ?_, fun s x b rest bit sending queued inside => ?_⟩
  · obtain ⟨held, data, ends⟩ := attemptReader_spec quiet startAt bit bytes inside total
    exact ⟨held, attemptReader_readTo quiet startAt bytes inside, data, ends⟩
  · intro hit now
    have again : b.attempts + 1 < 16 → exec (.collision bit) s = .next { s with
        now := now, line := { hit with queue := requeue { b with attempts := b.attempts + 1 } rest } } := fun left =>
      congrArg Host.Outcome.next (State.collide_again sending queued inside left)
    refine ⟨fun left first => ?_, fun urgent ordinary left low parts urgent' ordinary' => ?_, fun out => ?_⟩
    · have place : requeue { b with attempts := b.attempts + 1 } rest = { b with attempts := b.attempts + 1 } :: rest := by
        rcases first with high | low
        · rw [requeue, high]
        · rw [requeue]
          split
          · rfl
          · exact placeUrgent_between (urgent := []) (by simp) low
      rw [again left, place]
    · have place : requeue { b with attempts := b.attempts + 1 } rest = urgent ++ { b with attempts := b.attempts + 1 } :: ordinary := by
        rw [requeue, low, parts]
        exact placeUrgent_between urgent' ordinary'
      rw [again left, place]
    · refine ⟨_, congrArg Host.Outcome.next (State.collide_drops sending queued inside out), ?_⟩
      unfold State.reportLost
      cases b.body <;> exact ⟨rfl, rfl⟩

end Sys2Proof.Machine
end

section
/-! PROOF. What an answer and a cancellation make of the incident of their serial (R11 to R19). -/

namespace Sys2Proof.Machine

/-! ### The three answers -/

/-- The incident taken by pager `p` (R12). -/
def Incident.takenBy (i : Incident) (p : Nat) : Incident :=
  { i with state := .taken, responder := some p, window := none, callOwed := false, refreshDue := false }

/-- The incident with pager `p` DECLINED (R14). -/
def Incident.declinedBy (i : Incident) (p : Nat) : Incident :=
  { i with calls := i.calls.map fun c => if c.pager = p then { c with declined := true } else c }

/-- Entry `e` holds `j`, and a record of it and pager `p` has been appended. -/
def State.recorded (s : State) (e : Nat) (j : Incident) (tag : Tag) (p : Nat) : State :=
  (s.setEntry e (some j)).append tag (some j.serial) (some p) none

theorem Incident.inList_iff (i : Incident) (p : Nat) : i.inList p = true ↔ ∃ c ∈ i.calls, c.pager = p := by
  simp [Incident.inList]

theorem State.accept_takes {s : State} {e : Nat} {i : Incident} {p : Nat} (h : s.incident? e = some i)
    (calls : i.state = .calling ∨ i.state = .unanswered) (listed : ∃ c ∈ i.calls, c.pager = p) :
    s.accept e p = (s.recorded e (i.takenBy p) .taken p).offerTaken e := by
  unfold State.accept
  rw [h]
  exact if_pos (by rw [Bool.and_eq_true, stillCalling_iff, i.inList_iff]; exact ⟨calls, listed⟩)

theorem State.accept_ignored {s : State} {e : Nat} {i : Incident} {p : Nat} (h : s.incident? e = some i)
    (idle : ¬ (i.state = .calling ∨ i.state = .unanswered) ∨ ∀ c ∈ i.calls, c.pager ≠ p) : s.accept e p = s := by
  unfold State.accept
  rw [h]
  refine if_neg ?_
  rw [Bool.and_eq_true, stillCalling_iff, i.inList_iff]
  rintro ⟨calls, c, member, same⟩
  exact idle.elim (· calls) (· c member same)

theorem called_iff (i : Incident) (p : Nat) :
    (i.calls.any fun c => c.pager == p && !c.declined) = true ↔ ∃ c ∈ i.calls, c.pager = p ∧ c.declined = false := by
  simp

/-- After a DECLINE a pager is still CALLED exactly when another was (R14, R30). -/
theorem Incident.declinedBy_someCalled (i : Incident) (p : Nat) :
    (i.declinedBy p).someCalled = true ↔ ∃ c ∈ i.calls, c.pager ≠ p ∧ c.declined = false := by
  unfold Incident.someCalled Incident.declinedBy
  rw [List.any_map, List.any_eq_true]
  refine exists_congr fun c => and_congr_right fun _ => ?_
  by_cases own : c.pager = p <;> simp [own]

theorem State.decline_marks {s : State} {e : Nat} {i : Incident} {p : Nat} (h : s.incident? e = some i)
    (calls : i.state = .calling ∨ i.state = .unanswered) (called : ∃ c ∈ i.calls, c.pager = p ∧ c.declined = false) :
    s.decline e p = if (i.declinedBy p).someCalled then s.recorded e (i.declinedBy p) .declined p
      else (s.recorded e (i.declinedBy p) .declined p).stepIncident e := by
  unfold State.decline
  rw [h]
  exact if_pos (by rw [Bool.and_eq_true, stillCalling_iff, called_iff]; exact ⟨calls, called⟩)

theorem State.decline_ignored {s : State} {e : Nat} {i : Incident} {p : Nat} (h : s.incident? e = some i)
    (idle : ¬ (i.state = .calling ∨ i.state = .unanswered) ∨ ∀ c ∈ i.calls, c.pager = p → c.declined = true) : s.decline e p = s := by
  unfold State.decline
  rw [h]
  refine if_neg ?_
  rw [Bool.and_eq_true, stillCalling_iff, called_iff]
  rintro ⟨calls, c, member, same, called⟩
  refine idle.elim (· calls) fun declined => ?_
  rw [declined c member same] at called
  cases called

theorem State.doneBy_marks {s : State} {e : Nat} {i : Incident} {p : Nat} (h : s.incident? e = some i) (taken : i.state = .taken)
    (own : i.responder = some p) (first : i.done = false) :
    s.doneBy e p = if i.restored then (s.recorded e { i with done := true } .done p).enterClosing e .closed
      else s.recorded e { i with done := true } .done p := by
  unfold State.doneBy
  rw [h]
  exact if_pos ⟨taken, own, first⟩

theorem State.doneBy_ignored {s : State} {e : Nat} {i : Incident} {p : Nat} (h : s.incident? e = some i)
    (idle : i.state ≠ .taken ∨ i.responder ≠ some p ∨ i.done = true) : s.doneBy e p = s := by
  unfold State.doneBy
  rw [h]
  refine if_neg ?_
  rintro ⟨taken, own, first⟩
  rcases idle with no | no | no
  · exact no taken
  · exact no own
  · rw [first] at no
    cases no

theorem State.takeAnswer_none {s : State} {k : AnswerKey} (h : k.owner ≠ s.ident.station ∨ findSerial s.engine.table k.serial = none) :
    s.takeAnswer k = s := by
  unfold State.takeAnswer
  split
  · next own =>
    rw [h.resolve_left fun no => no own]
  · rfl

theorem State.takeAnswer_found {s : State} {k : AnswerKey} {e : Nat} (own : k.owner = s.ident.station)
    (found : findSerial s.engine.table k.serial = some e) : s.takeAnswer k =
      match k.kind with | .accept => s.accept e k.pager | .decline => s.decline e k.pager | .done => s.doneBy e k.pager := by
  unfold State.takeAnswer
  rw [if_pos own, found] <;> rfl

theorem State.deliver_answer {s : State} {b : Burst} {k : AnswerKey} (body : b.body = .answer k) :
    s.deliver b = if b.addressee = none ∨ b.addressee = some s.ident.station then s.takeAnswer k else s := by
  rw [State.deliver, body]
  exact if_congr (s.addressed_iff b) rfl rfl

/-! ### What an entry comes to -/

theorem State.recorded_incident {s : State} {e : Nat} {i : Incident} (h : s.incident? e = some i) (j : Incident) (tag : Tag) (p : Nat) :
    (s.recorded e j tag p).incident? e = some j := State.incident?_setEntry_self h _

/-- An entry set again. -/
theorem State.recorded_setEntry (s : State) (e : Nat) (j k : Incident) (tag : Tag) (p : Nat) : (s.recorded e j tag p).setEntry e (some k) =
    { s.recorded e j tag p with engine := { s.engine with table := s.engine.table.set e (some k) } } := by
  show ({ s.recorded e j tag p with engine := { s.engine with table := (s.engine.table.set e (some j)).set e (some k) } } : State) = _
  rw [List.set_set]

/-- An incident whose last pager CALLED has DECLINED steps as at a window expiry (R14, R30). -/
theorem State.decline_steps {s : State} {e : Nat} {i : Incident} {p : Nat} (h : s.incident? e = some i)
    (calls : i.state = .calling ∨ i.state = .unanswered) : (s.recorded e (i.declinedBy p) .declined p).stepIncident e =
      ((s.recorded e (i.declinedBy p) .declined p).setEntry e (some { i.declinedBy p with window := some s.now })).windowExpires e := by
  obtain ⟨v, hv⟩ : ∃ v, v = s.recorded e (i.declinedBy p) .declined p := ⟨_, rfl⟩
  have own : v.incident? e = some (i.declinedBy p) := hv ▸ State.recorded_incident h _ _ _
  obtain ⟨w, hw⟩ : ∃ w, w = v.setEntry e (some { i.declinedBy p with window := some s.now }) := ⟨_, rfl⟩
  have now : w.reach s.now = w := by
    have same : w.now = s.now := by rw [hw, hv]; rfl
    rw [State.reach, same, max_self, ← same]
    exact w.withNow_same
  rw [← hv, ← hw, State.windowExpires_eq (hw ▸ State.incident?_setEntry_self own _) rfl, now, hw, State.setEntry_setEntry]
  exact (State.stepIncident_window own none rfl calls).symm

/-- Settles O44: who the answer is for, then its kind and the state of the incident. -/
theorem answerMovesTheIncident : Obligations.AnswerMovesTheIncident := by
  intro s line b k hears peer body none'
  obtain ⟨u, hu⟩ : ∃ u, u = s.afterReception line b := ⟨_, rfl⟩
  have station : u.ident = s.ident := by rw [hu]; rfl
  have engine : u.engine = s.engine := by rw [hu]; rfl
  have ran : exec (.receiveAnswer line) s = .next
      (if b.addressee = none ∨ b.addressee = some s.ident.station then u.takeAnswer k else u) := by
    show Host.Outcome.next (s.hear line) = _
    rw [State.hear_clearsNone hears peer none', State.deliver_answer body, hu]
    rfl
  rw [← hu]
  refine ⟨fun other => ?_, fun e i here own h serial only => ?_⟩
  · rw [ran]
    rcases other with ⟨no, no'⟩ | other | other
    · rw [if_neg (not_or.2 ⟨no, no'⟩)]
    · rw [State.takeAnswer_none (.inl (station ▸ other)), ite_self]
    · rw [State.takeAnswer_none (.inr (by rw [engine]; exact findSerial_none other)), ite_self]
  · intro p open' heard
    have found : findSerial u.engine.table k.serial = some e := by rw [engine]; exact findSerial_only h serial only
    have entry : u.incident? e = some i := by rw [State.incident?, engine]; exact h
    rw [ran, if_pos here, State.takeAnswer_found (station ▸ own) found]
    refine ⟨fun kind calls listed => ?_, fun kind idle => ?_, fun kind calls called others => ?_, fun he kind calls called others => ?_,
      fun kind idle => ?_, fun kind taken own first standing => ?_, fun kind taken own first restored clear => ?_, fun kind idle => ?_⟩
    all_goals rw [kind]
    · have offered := State.offerTaken_offered (State.recorded_incident entry (i.takenBy p) .taken p)
      rw [State.recorded_setEntry] at offered
      subst hu
      exact ⟨_, congrArg Host.Outcome.next (State.accept_takes entry calls listed), offered⟩
    · exact congrArg Host.Outcome.next (State.accept_ignored entry idle)
    · have still : u.decline e p = u.recorded e (i.declinedBy p) .declined p := by
        rw [State.decline_marks entry calls called, if_pos ((i.declinedBy_someCalled p).2 others)]
      subst hu
      exact ⟨_, congrArg Host.Outcome.next still, rfl, rfl⟩
    · have last : ¬ (i.declinedBy p).someCalled = true := by
        rw [i.declinedBy_someCalled p]
        rintro ⟨c, member, other, called⟩
        rw [others c member other] at called
        cases called
      have steps : u.decline e p = _ := State.decline_marks entry calls called
      rw [if_neg last, State.decline_steps entry calls, State.recorded_setEntry] at steps
      subst hu
      exact congrArg Host.Outcome.next steps
    · exact congrArg Host.Outcome.next (State.decline_ignored entry idle)
    · have marked : u.doneBy e p = _ := State.doneBy_marks entry taken own first
      rw [if_neg (by simp [standing])] at marked
      subst hu
      exact congrArg Host.Outcome.next marked
    · have marked : u.doneBy e p = _ := State.doneBy_marks entry taken own first
      rw [if_pos restored] at marked
      have offered := State.enterClosing_offered (State.recorded_incident entry { i with done := true } .done p) .closed
        (show ∀ m ∈ u.engine.pend, m = none by rw [engine]; exact clear)
      rw [State.recorded_setEntry] at offered
      subst hu
      cases i
      dsimp only at own
      subst own
      exact ⟨_, congrArg Host.Outcome.next marked, offered⟩
    · exact congrArg Host.Outcome.next (State.doneBy_ignored entry idle)

/-! ### A cancellation -/

theorem setCancelHold_eq (k : SourceKind) (r : InputRecord) : setCancelHold k r = { r with
    holdAlarm := r.holdAlarm || (k == .alarm && r.condition == .active)
    holdWiring := r.holdWiring || (k == .wiring && (r.condition == .short || r.condition == .opened))
    holdChatter := r.holdChatter || (k == .chatter && r.inChatter) } := by
  obtain ⟨mode, cls, msg, group, lockable, candidate, run, condition, count, inChatter, alarm, wiring, chatter⟩ := r
  cases k with
  | alarm => cases alarm <;> cases condition <;> simp [setCancelHold]
  | wiring => cases wiring <;> cases condition <;> simp [setCancelHold]
  | chatter => cases chatter <;> cases inChatter <;> simp [setCancelHold]

theorem State.cancel_none {s : State} {serial : Nat} (h : findSerial s.engine.table serial = none) : s.cancel serial = s := by
  rw [State.cancel, h]

theorem State.cancel_closing {s : State} {serial e : Nat} {i : Incident} (found : findSerial s.engine.table serial = some e)
    (h : s.incident? e = some i) (closing : i.state = .closing) : s.cancel serial = s := by
  rw [State.cancel, found]
  simp only
  rw [h]
  exact if_pos closing

theorem State.cancel_closes {s : State} {serial e : Nat} {i : Incident} (found : findSerial s.engine.table serial = some e)
    (h : s.incident? e = some i) (open' : i.state ≠ .closing) :
    s.cancel serial = (s.modifyInput i.input (setCancelHold i.kind)).enterClosing e .cancelled := by
  rw [State.cancel, found]
  simp only
  rw [h]
  exact if_neg open'

/-- A closing SETTLE that the queue refuses is owed (R18). -/
theorem State.offerClosing_refused {s : State} {e : Nat} {i : Incident} {k : SettleKind} (h : s.incident? e = some i)
    (owed : i.settleOwed = some k) (hold : s.line.hold = false) (full : 8 ≤ s.line.queue.length)
    (barred : 2 < i.cls ∨ s.line.evictable = none) : s.offerClosing e = s := by
  have refused : s.offer (.settle (i.settle k)) (lineClassFor i.cls) none = (s, false) := by
    by_cases low : 2 < i.cls
    · rw [show lineClassFor i.cls = .class1 from if_neg (by omega)]
      exact s.offer_refused _ _ hold full
    · exact s.offer_full _ _ _ hold full (barred.resolve_left low)
  rw [State.offerClosing, h]
  simp only
  rw [owed]
  simp only
  rw [refused]
  rfl

/-- Settles O48: who the query is for and what its serial finds; then the closing of the incident. -/
theorem cancelClosesTheIncident : Obligations.CancelClosesTheIncident := by
  intro s line b serial hears peer body none'
  obtain ⟨u, hu⟩ : ∃ u, u = s.afterReception line b := ⟨_, rfl⟩
  have engine : u.engine = s.engine := by rw [hu]; rfl
  have ran : exec (.queryCancel line) s = .next (if b.addressee = some s.ident.station then u.cancel serial else u) := by
    show Host.Outcome.next (s.hear line) = _
    rw [State.hear_clearsNone hears peer none', State.deliver_query body, hu]
    rfl
  rw [← hu]
  refine ⟨fun other => ?_, fun e i here h own only => ?_⟩
  · rw [ran]
    rcases other with no | other
    · rw [if_neg no]
    · rw [State.cancel_none (by rw [engine]; exact findSerial_none other), ite_self]
  · have found : findSerial u.engine.table serial = some e := by rw [engine]; exact findSerial_only h own only
    have entry : u.incident? e = some i := by rw [State.incident?, engine]; exact h
    rw [ran, if_pos here]
    refine ⟨fun closing => by rw [State.cancel_closing found entry closing], fun open' => ?_⟩
    subst hu
    intro closing
    obtain ⟨v, hv⟩ : ∃ v, v = (s.afterReception line b).modifyInput i.input (setCancelHold i.kind) := ⟨_, rfl⟩
    have held : v.incident? e = some i := by rw [hv]; exact entry
    have begun : v.setEntry e (some (i.inClosing .cancelled)) = closing := by
      rw [hv, State.modifyInput, funext (setCancelHold_eq i.kind)]
      rfl
    have closes : (s.afterReception line b).cancel serial = closing.offerClosing e := by
      rw [State.cancel_closes found entry open', ← hv, State.enterClosing_eq held, begun]
    have entry' : closing.incident? e = some (i.inClosing .cancelled) := begun ▸ State.incident?_setEntry_self held _
    refine ⟨_, congrArg Host.Outcome.next closes, ?_, fun clear => ?_, fun hold full barred => ?_⟩
    · rw [(closing.offerClosing_works e).rest]
    · exact State.offerClosing_offered (i := i.inClosing .cancelled) entry' rfl clear
    · exact State.offerClosing_refused (i := i.inClosing .cancelled) entry' rfl hold full barred

end Sys2Proof.Machine
end

section
/-! PROOF. Aging, the claims of a CLAIM and the claims a DARK status clears, each with the reports of claimants lost (R41, R49 to R54). -/

namespace Sys2Proof.Machine

/-! ### A roster changed with its reports -/

theorem Reported.change (f : PagerRecord → PagerRecord) (s : State) : Reported (s.presence.roster.map f) s (s.changeRoster f) := by
  have given : Reported (s.presence.roster.map f) s (s.withPresence { s.presence with roster := s.presence.roster.map f }) :=
    ⟨rfl, fun _ => rfl⟩
  exact given.trans (Reported.reports (lostClaimants s.presence.roster (s.presence.roster.map f))
    (s.withPresence { s.presence with roster := s.presence.roster.map f }))

theorem Reported.presence {roster : List PagerRecord} {s t : State} (h : Reported roster s t) :
    t.presence = { s.presence with roster := roster } := by rw [h.rest]

/-- The frame of a change of claims, with every block that a report reaches named by its new value. -/
theorem Reported.frame {roster : List PagerRecord} {s t : State} (h : Reported roster s t) : t = { s with
    engine := t.engine, presence := t.presence, relay := t.relay, zone := t.zone, line := t.line, office := t.office } := by
  have zone : t.zone = { s.zone with plan := t.zone.plan } := by rw [h.rest]
  have rest := h.rest
  rw [← zone, ← h.presence] at rest
  exact rest

/-- The frame of reports alone. -/
theorem Reported.frame_same {s t : State} (h : Reported s.presence.roster s t) : t = { s with
    engine := t.engine, relay := t.relay, zone := t.zone, line := t.line, office := t.office } := by
  have frame := h.frame
  rw [show t.presence = s.presence from h.presence] at frame
  exact frame

/-- Reports change the line in its queue alone (R41). -/
theorem State.changeRoster_line (s : State) (f : PagerRecord → PagerRecord) :
    (s.changeRoster f).line = { s.line with queue := (s.changeRoster f).line.queue } :=
  (Works.foldl State.reportClaim_works (lostClaimants s.presence.roster (s.presence.roster.map f))
    (s.withPresence { s.presence with roster := s.presence.roster.map f })).line

/-- With no claimant lost a change of the roster makes no report (R54). -/
theorem State.changeRoster_none {s : State} {f : PagerRecord → PagerRecord}
    (h : ∀ r ∈ s.presence.roster, r.claimant.isSome = true → (f r).claimant.isSome = true) :
    s.changeRoster f = s.withPresence { s.presence with roster := s.presence.roster.map f } := by
  have none' : lostClaimants s.presence.roster (s.presence.roster.map f) = [] := by
    refine List.eq_nil_iff_forall_not_mem.2 fun p lost => ?_
    obtain ⟨a, b, before, after, had, lacks⟩ := (mem_lostClaimants _ _ _).1 lost
    rw [List.getElem?_map, before] at after
    obtain rfl : f a = b := Option.some.inj after
    rw [Option.isNone_iff_eq_none] at lacks
    have kept := h a (List.mem_of_getElem? before) had
    rw [lacks] at kept
    cases kept
  rw [State.changeRoster, none']
  rfl

theorem lostClaimants_nodup (old new : List PagerRecord) : (lostClaimants old new).Nodup := by
  have places : ((old.zip new).zipIdx.map (·.2)).Nodup := by
    rw [List.zipIdx_map_snd]
    exact List.nodup_range'
  exact places.sublist (List.filter_sublist.map _)

theorem eq_singleton_of_nodup {l : List Nat} {p : Nat} (nodup : l.Nodup) (h : ∀ q, q ∈ l ↔ q = p) : l = [p] :=
  List.perm_singleton.1 ((List.perm_ext_iff_of_nodup nodup (List.nodup_singleton p)).2 fun q => by rw [h, List.mem_singleton])

/-- The one claimant lost is reported (R54). -/
theorem State.changeRoster_one {s : State} {f : PagerRecord → PagerRecord} {p : Nat}
    (h : ∀ q, q ∈ lostClaimants s.presence.roster (s.presence.roster.map f) ↔ q = p) :
    s.changeRoster f = (s.withPresence { s.presence with roster := s.presence.roster.map f }).reportClaim p := by
  unfold State.changeRoster
  simp only
  rw [eq_singleton_of_nodup (lostClaimants_nodup _ _) h, List.foldl_cons, List.foldl_nil]

/-! ### Aging -/

theorem agePager_eq (r : PagerRecord) : agePager r = { r with
    score := 7 * r.score / 8
    claim := 7 * r.claim / 8
    claimant := if 7 * r.claim / 8 = 0 then none else r.claimant
    belowOwed := r.belowOwed || decide (24 ≤ r.score ∧ 7 * r.score / 8 < 24 ∧ 24 ≤ r.announced) } := by
  rw [Bool.decide_and, Bool.decide_and, ← Bool.and_assoc]
  rfl

theorem State.agingExpires_eq {s : State} {T : Nat} (h : s.presence.agingAt = some T) : s.agingExpires =
    ((s.reach T).withPresence { s.presence with agingAt := some (T + 4000000) }).changeRoster agePager := by
  rw [State.agingExpires, h]
  rfl

/-- A claim of 2 or more keeps its claimant at an aging step, and one below it loses its (R49). -/
theorem agePager_claimant (r : PagerRecord) : (agePager r).claimant.isSome = true ↔ r.claimant.isSome = true ∧ 2 ≤ r.claim := by
  rw [agePager_eq]
  by_cases low : 2 ≤ r.claim
  · simp only [if_neg (show ¬ 7 * r.claim / 8 = 0 by omega), low, and_true]
  · simp only [if_pos (show 7 * r.claim / 8 = 0 by omega), low, and_false, Option.isSome_none, Bool.false_eq_true]

/-- Who loses a claimant to a change: a claimant stood before and none does after. -/
theorem mem_lostClaimants_map (roster : List PagerRecord) (f : PagerRecord → PagerRecord) (p : Nat) :
    p ∈ lostClaimants roster (roster.map f) ↔ p < roster.length ∧ (roster.getD p pagerStart).claimant.isSome = true ∧
      ¬ (f (roster.getD p pagerStart)).claimant.isSome = true := by
  rw [mem_lostClaimants, List.getD_eq_getElem?_getD]
  by_cases inside : p < roster.length
  · rw [List.getElem?_map, List.getElem?_eq_getElem inside]
    simp [inside]
  · rw [List.getElem?_eq_none (Nat.not_lt.1 inside)]
    simp [inside]

/-- Settles O19: the aged roster, then the claimants lost. -/
theorem agingLowersEveryScoreAndClaim : Obligations.AgingLowersEveryScoreAndClaim := by
  intro s T due presence aged'
  obtain ⟨u, hu⟩ : ∃ u, u = (s.reach T).withPresence { s.presence with agingAt := some (T + 4000000) } := ⟨_, rfl⟩
  have roster : u.presence.roster = s.presence.roster := by rw [hu]; rfl
  have after : u.withPresence { u.presence with roster := u.presence.roster.map agePager } = aged' := by
    rw [funext agePager_eq, hu]
    rfl
  have ran : exec .agingTimerExpiry s = .next (u.changeRoster agePager) := by
    show Host.Outcome.next s.agingExpires = _
    rw [State.agingExpires_eq due, hu]
  refine ⟨_, ran, ?_, fun kept => ?_, fun p e i inside had low others table only => ?_⟩
  · have folds : u.changeRoster agePager =
        (lostClaimants u.presence.roster (u.presence.roster.map agePager)).foldl State.reportClaim aged' := by
      rw [State.changeRoster, after]
    rw [folds]
    exact (Reported.reports _ aged').frame_same
  · rw [State.changeRoster_none fun r hr had => (agePager_claimant r).2 ⟨had, kept r (roster ▸ hr) had⟩, after]
  · have lost : ∀ q, q ∈ lostClaimants u.presence.roster (u.presence.roster.map agePager) ↔ q = p := fun q => by
      rw [mem_lostClaimants_map, roster, agePager_claimant]
      constructor
      · rintro ⟨within, held, gone⟩
        by_contra other
        exact gone ⟨held, others q within other held⟩
      · rintro rfl
        exact ⟨inside, had, fun both => Nat.not_le.2 low both.2⟩
    rw [State.changeRoster_one lost, after]
    exact State.reportClaim_only (s := aged') table only

/-! ### A CLAIM -/

theorem reportable_iff (old new : PagerRecord) :
    reportable old new = true ↔ new.claimant ≠ old.claimant ∨ (old.claim < 24 ∧ 24 ≤ new.claim) := by
  unfold reportable
  rw [Bool.or_eq_true, bne_iff_ne, Bool.and_eq_true, decide_eq_true_eq, decide_eq_true_eq, ne_comm]
  rfl

/-- What a CLAIM of a peer makes of the station: its claims cleared when its header is DARK, and else met entry by entry (R51 to R53). -/
theorem State.hear_claim {s : State} {line : List Bool} {b : Burst} {entries : List ClaimEntry} (hears : Hears s line b)
    (peer : b.sender ≠ s.ident.station) (body : b.body = .claim entries) : s.hear line =
      if b.dark then (s.afterReception line b).darkStatus b.sender
      else entries.foldl (State.takeClaimEntry b.sender) (s.afterReception line b) := by
  rw [State.hear_hears hears, if_neg peer, State.deliver, body]
  simp only [State.takeClaim]
  cases b.dark <;> rfl

/-- Settles O39. -/
theorem claimEntriesMeetTheStoredClaims : Obligations.ClaimEntriesMeetTheStoredClaims := by
  intro s line b entries hears peer body j meet
  obtain ⟨t, ht⟩ : ∃ t, t = if b.dark then (s.afterReception line b).darkStatus b.sender
      else entries.foldl (State.takeClaimEntry b.sender) (s.afterReception line b) := ⟨_, rfl⟩
  have reported : Reported (if b.dark then clearClaims j s.presence.roster else entries.foldl (rosterAfter j) s.presence.roster)
      (s.afterReception line b) t := by
    rw [ht]
    cases b.dark with
    | true => exact Reported.dark b.sender (s.afterReception line b)
    | false => exact Reported.entries b.sender entries (s.afterReception line b)
  have zone : t.zone = { s.zone with plan := t.zone.plan } := by rw [reported.rest]; rfl
  have presence := reported.presence
  refine ⟨t, ?_, reported.frame, zone, ?_, ?_, fun idle => ?_, fun p v live one inside => ?_⟩
  · show Host.Outcome.next (s.hear line) = _
    rw [State.hear_claim hears peer body, ht]
  · rw [presence]
    rfl
  · rw [presence]
    rfl
  · rw [presence]
    exact reported.none idle
  · intro after reports
    obtain ⟨u, hu⟩ : ∃ u, u = (s.afterReception line b).modifyPager p (meetClaim j v) := ⟨_, rfl⟩
    have taken : t = if reportable (s.pager p) (meet v (s.pager p)) then u.reportClaim p else u := by
      rw [ht, live, one, hu]
      rfl
    have same : after = u := by
      show ({ s.afterReception line b with presence := t.presence } : State) = u
      rw [presence, live, one, hu]
      rfl
    rw [same, taken]
    refine ⟨fun quiet => ?_, fun e i loud table only => ?_⟩
    · rw [if_neg fun h => quiet ((reportable_iff _ _).1 h)]
    · rw [if_pos ((reportable_iff _ _).2 loud)]
      subst hu
      exact State.reportClaim_only table only

/-! ### A DARK status -/

theorem mem_clearClaims {k : Nat} {roster : List PagerRecord} {r : PagerRecord} (h : r ∈ clearClaims k roster) : r.claimant ≠ some k := by
  obtain ⟨old, -, rfl⟩ := List.mem_map.1 h
  split
  · simp
  · next other => exact other

/-- No claim of a peer is left once a DARK status has cleared them (R53). -/
theorem State.darkStatus_clears (s : State) (k : Nat) : ∀ r ∈ (s.darkStatus k).presence.roster, r.claimant ≠ some k := by
  rw [(Reported.dark k s).presence]
  exact fun r => mem_clearClaims

/-- The one claimant a DARK status loses is reported (R53, R54). -/
theorem State.darkStatus_one {s : State} {k p e : Nat} {i : Incident} (inside : p < s.presence.roster.length)
    (own : (s.pager p).claimant = some k) (others : ∀ p' < s.presence.roster.length, p' ≠ p → (s.pager p').claimant ≠ some k)
    (table : s.engine.table.length = 16) (only : OnlyCaller s p e i) :
    ClaimReported { s with presence := { s.presence with roster := clearClaims k s.presence.roster } } e i (s.darkStatus k) := by
  have lost : ∀ q, q ∈ lostClaimants s.presence.roster (s.presence.roster.map (dropClaim k)) ↔ q = p := fun q => by
    rw [mem_lostClaimants_drop]
    constructor
    · rintro ⟨within, held⟩
      by_contra other
      exact others q within other held
    · rintro rfl
      exact ⟨inside, own⟩
  rw [State.darkStatus, State.changeRoster_one lost]
  exact State.reportClaim_only (s := { s with presence := { s.presence with roster := clearClaims k s.presence.roster } }) table only

/-- A DARK status changes the roster, and by its reports the engine, the page list, the plan, the queue and the drain (R53, R54). -/
theorem State.darkStatus_frame (s : State) (k : Nat) : s.darkStatus k = { s with
    presence := { s.presence with roster := clearClaims k s.presence.roster }, engine := (s.darkStatus k).engine
    relay := (s.darkStatus k).relay, zone := { s.zone with plan := (s.darkStatus k).zone.plan }
    line := { s.line with queue := (s.darkStatus k).line.queue }, office := (s.darkStatus k).office } := by
  have rest := (Reported.dark k s).rest
  rw [show (s.darkStatus k).line = _ from s.changeRoster_line (dropClaim k)] at rest
  exact rest

/-- A station as a DARK status leaves it hears the same burst as the station before the reception did. -/
theorem Hears.again {s u : State} {line : List Bool} {b : Burst} (h : Hears s line b) {presence : Presence} {engine : Engine} {relay : Relay}
    {plan : List (Option PageFrame)} {queue : List Queued} {office : Office} (hu : u = { s.afterReception line b with
      presence := presence, engine := engine, relay := relay, zone := { s.zone with plan := plan }
      line := { (s.afterReception line b).line with queue := queue }, office := office }) :
    Hears { u with now := s.now, line := { u.line with reader := s.line.reader } } line b ∧
      ({ u with now := s.now, line := { u.line with reader := s.line.reader } } : State).afterReception line b = u := by
  subst hu
  exact ⟨h, rfl⟩

/-- What the kinds of which no block takes more than a DARK status come to (R53, R145). -/
theorem State.hear_status {s : State} {line : List Bool} {b : Burst} (hears : Hears s line b) (peer : b.sender ≠ s.ident.station)
    (kind : (∃ dark, b.body = .zone dark) ∨ (∃ rs, b.body = .log rs) ∨ ∃ ms n, b.body = .state ms n) :
    s.hear line = if b.dark = true ∨ (b.body = .zone true ∧ (b.addressee = none ∨ b.addressee = some s.ident.station)) then
      (s.afterReception line b).darkStatus b.sender else s.afterReception line b := by
  obtain ⟨u, hu⟩ : ∃ u, u = s.afterReception line b := ⟨_, rfl⟩
  have station : u.ident = s.ident := by rw [hu]; rfl
  have twice : (u.darkStatus b.sender).darkStatus b.sender = u.darkStatus b.sender := State.darkStatus_none (u.darkStatus_clears b.sender)
  have delivered : ∀ v : State, v.deliver b =
      if b.body = .zone true ∧ (b.addressee = none ∨ b.addressee = some v.ident.station) then v.darkStatus b.sender else v := fun v => by
    rcases kind with ⟨dark, body⟩ | ⟨rs, body⟩ | ⟨ms, n, body⟩
    · rw [State.deliver, body]
      refine if_congr ?_ rfl rfl
      rw [Bool.and_eq_true, State.addressed_iff, and_comm]
      simp
    · rw [State.deliver, body, if_neg (by simp)]
    · rw [State.deliver, body, if_neg (by simp)]
  rw [State.hear_hears hears, if_neg peer, ← hu]
  by_cases dark : b.dark = true
  · rw [if_pos dark, if_pos (.inl dark), delivered]
    split
    · exact twice
    · rfl
  · rw [if_neg dark, delivered, station]
    refine if_congr ?_ rfl rfl
    simp [dark]

/-- Settles O40: the header, then the kinds that say no more. -/
theorem darkStatusClearsTheSendersClaims : Obligations.DarkStatusClearsTheSendersClaims := by
  intro s line b c hears peer cleared
  obtain ⟨u, hu⟩ : ∃ u, u = (s.afterReception line b).darkStatus b.sender := ⟨_, rfl⟩
  have reported : Reported (clearClaims b.sender s.presence.roster) (s.afterReception line b) u :=
    hu ▸ Reported.dark b.sender (s.afterReception line b)
  have presence : u.presence = cleared := reported.presence
  have one : ∀ p e i, p < s.presence.roster.length → (s.pager p).claimant = some b.sender →
      (∀ p' < s.presence.roster.length, p' ≠ p → (s.pager p').claimant ≠ some b.sender) →
      s.engine.table.length = 16 → OnlyCaller s p e i →
      ClaimReported { s.afterReception line b with presence := cleared } e i u := fun p e i inside own others table only =>
    hu ▸ State.darkStatus_one (s := s.afterReception line b) inside own others table only
  refine ⟨fun dark hc => ?_, fun kind => ?_⟩
  · have ran : exec c s = .next (u.deliver b) := by
      rw [exec_reception hc, State.hear_hears hears, if_neg peer, if_pos dark, hu]
    have frame := (s.afterReception line b).darkStatus_frame b.sender
    rw [← hu] at frame
    obtain ⟨hears', heard'⟩ := hears.again frame
    have station : u.ident = s.ident := by rw [frame]; rfl
    have none' : ∀ r ∈ u.presence.roster, r.claimant ≠ some b.sender := hu ▸ State.darkStatus_clears _ b.sender
    refine ⟨u, ran, frame, ⟨hears', .inr none', ?_⟩, fun none' => ?_, fun idle => ?_, one⟩
    · rw [ran, exec_reception hc, State.hear_clearsNone hears' (by rw [show _ = u.ident from rfl, station]; exact peer) (.inr none'), heard']
    · rw [hu]
      exact State.darkStatus_none (s := s.afterReception line b) none'
    · exact reported.none idle
  · have ran : exec c s = .next (s.hear line) := by
      rcases kind with ⟨-, -, rfl⟩ | ⟨-, -, rfl⟩ | ⟨-, -, -, rfl⟩ <;> rfl
    have status := State.hear_status hears peer (kind.imp (fun ⟨dark, body, _⟩ => ⟨dark, body⟩)
      (Or.imp (fun ⟨rs, body, _⟩ => ⟨rs, body⟩) fun ⟨ms, n, body, _⟩ => ⟨ms, n, body⟩))
    intro clears
    refine ⟨fun still => ?_, fun does => ⟨u, ?_, reported.frame, presence, fun idle => ?_, fun none' => ?_, ?_⟩⟩
    · rw [ran, status, if_neg still]
    · rw [ran, status, if_pos does, hu]
    · rw [presence]
      exact reported.none idle
    · rw [hu]
      exact State.darkStatus_none (s := s.afterReception line b) none'
    · rw [presence]
      exact one

end Sys2Proof.Machine
end

section
/-! PROOF. The claim timer: the owed duty list, and the CLAIM of the walk (R57, R58, R61). -/

namespace Sys2Proof.Machine

/-! ### Announced pagers -/

theorem announcedIn_length (entries : List ClaimEntry) : ∀ roster, (entries.foldl announcedIn roster).length = roster.length := by
  induction entries with
  | nil => exact fun roster => rfl
  | cons c entries ih => exact fun roster => (ih (announcedIn roster c)).trans (List.length_modify ..)

theorem getD_modify {α : Type} (l : List α) (n p : Nat) (f : α → α) (d : α) (h : p < l.length) :
    (l.modify n f).getD p d = if n = p then f (l.getD p d) else l.getD p d := by
  rw [List.getD_eq_getElem?_getD, List.getD_eq_getElem?_getD, List.getElem?_modify, List.getElem?_eq_getElem h]
  split <;> rfl

/-- The records after a row of entries whose scores are `score` of their pagers (R58). -/
theorem getD_foldl_announcedIn (score : Nat → Nat) (p : Nat) (d : PagerRecord) (entries : List ClaimEntry)
    (h : ∀ c ∈ entries, c.score = score c.pager) : ∀ roster : List PagerRecord, p < roster.length →
      (entries.foldl announcedIn roster).getD p d =
        if entries.any (·.pager == p) then { roster.getD p d with announced := score p, belowOwed := false } else roster.getD p d := by
  induction entries with
  | nil => exact fun roster inside => rfl
  | cons c entries ih =>
    intro roster inside
    have own : c.score = score c.pager := h c List.mem_cons_self
    have first : (announcedIn roster c).getD p d =
        if c.pager = p then { roster.getD p d with announced := score p, belowOwed := false } else roster.getD p d := by
      rw [announcedIn, getD_modify _ _ _ _ _ inside, own]
      by_cases same : c.pager = p
      · rw [if_pos same, if_pos same, same]
      · rw [if_neg same, if_neg same]
    rw [List.foldl_cons, ih (fun x hx => h x (List.mem_cons_of_mem c hx)) (announcedIn roster c)
      (by rw [announcedIn, List.length_modify]; exact inside), first, List.any_cons]
    by_cases same : c.pager = p
    · rw [if_pos same, beq_iff_eq.2 same, Bool.true_or, if_pos rfl]
      split <;> rfl
    · rw [if_neg same, beq_eq_false_iff_ne.2 same, Bool.false_or]

/-! ### The CLAIM -/

theorem State.offerClaim_none {s : State} (h : s.buildClaim = []) : s.offerClaim = s := by
  rw [State.offerClaim, h]
  rfl

theorem State.offerClaim_refused {s : State} (hold : s.line.hold = false) (full : 8 ≤ s.line.queue.length) : s.offerClaim = s := by
  rw [State.offerClaim, State.offer_refused _ _ _ hold full]
  split <;> rfl

/-- An accepted CLAIM announces its entries and moves the pointer behind the last (R58). -/
theorem State.offerClaim_accepted {s : State} {last : ClaimEntry} (ends : s.buildClaim.getLast? = some last)
    (room : s.line.hold = true ∨ s.line.queue.length < 8) : s.offerClaim = { s with
      line := { s.line with
        queue := if s.line.hold then s.line.queue else s.line.queue ++ [⟨.claim s.buildClaim, .class1, none, 0⟩] }
      presence := { s.presence with
        roster := s.buildClaim.foldl announcedIn s.presence.roster, pointer := (last.pager + 1) % 64 } } := by
  have offered : s.offer (.claim s.buildClaim) .class1 none = (s.withLine { s.line with
      queue := if s.line.hold then s.line.queue else s.line.queue ++ [⟨.claim s.buildClaim, .class1, none, 0⟩] }, true) := by
    rw [State.offer_class1 s _ _ (by simp)]
    by_cases hold : s.line.hold = true
    · rw [if_pos hold, if_pos hold]
      rfl
    · rw [if_neg hold, if_neg hold, if_pos (show s.line.queue.length < queueMax from room.resolve_left hold)]
  rw [State.offerClaim, ends]
  simp only
  rw [offered]
  simp only
  rw [if_pos trivial, foldl_announce]
  rfl

/-! ### The timer -/

/-- The claim timer started anew (R57). -/
def State.claimTimed (s : State) (T : Nat) : State :=
  { s with now := max s.now T, presence := { s.presence with claimAt := some (T + 5000000) } }

theorem State.claimExpires_eq {s : State} {T : Nat} (h : s.presence.claimAt = some T) : s.claimExpires =
    (let u := if s.presence.owedDuty.isEmpty then s.claimTimed T else (s.claimTimed T).offerDuty
     if u.zone.dark then u else u.offerClaim) := by
  rw [State.claimExpires, h]
  rfl

theorem State.claimExpires_none {s : State} {T : Nat} (h : s.presence.claimAt = some T) (none' : s.presence.owedDuty = []) :
    s.claimExpires = if s.zone.dark then s.claimTimed T else (s.claimTimed T).offerClaim := by
  rw [State.claimExpires_eq h, none']
  rfl

/-- Settles O20: by the owed duty list, then by zone, queue and walk. -/
theorem claimTimerOffersDutyThenClaim : Obligations.ClaimTimerOffersDutyThenClaim := by
  intro s T due entries timed
  have walk : (s.claimTimed T).buildClaim = entries := rfl
  refine ⟨fun none' quiet => ?_, fun none' live hold full => ?_, fun last none' live room size ends => ?_, fun owed hold full => ?_,
    fun owed room => ?_⟩
  · refine congrArg Host.Outcome.next ((State.claimExpires_none due none').trans ?_)
    rcases quiet with dark | empty
    · rw [if_pos dark]
      rfl
    · rw [State.offerClaim_none (walk.trans empty), ite_self]
      rfl
  · refine congrArg Host.Outcome.next ((State.claimExpires_none due none').trans ?_)
    rw [State.offerClaim_refused (s := s.claimTimed T) hold full, ite_self]
    rfl
  · have accepted := State.offerClaim_accepted (s := s.claimTimed T) (walk ▸ ends) room
    have ran : exec .claimTimerExpiry s = .next (s.claimTimed T).offerClaim := by
      refine congrArg Host.Outcome.next ((State.claimExpires_none due none').trans (if_neg ?_))
      rw [live]
      exact Bool.false_ne_true
    have scores : ∀ c ∈ entries, c.score = (s.pager c.pager).score := fun c hc => State.mem_buildClaim_score (s := s.claimTimed T) hc
    rw [accepted] at ran
    refine ⟨_, ran, rfl, rfl, (announcedIn_length entries s.presence.roster).trans size, fun p hp => ?_⟩
    exact getD_foldl_announcedIn (fun q => (s.pager q).score) p pagerStart entries scores s.presence.roster (size ▸ hp)
  · have kept : (s.claimTimed T).offerDuty = s.claimTimed T := by
      rw [State.offerDuty_eq, if_neg (by rw [show (s.claimTimed T).line.hold = false from hold]; exact Bool.false_ne_true)]
      exact if_neg (Nat.not_lt.2 full)
    refine congrArg Host.Outcome.next ((State.claimExpires_eq due).trans ?_)
    simp only
    rw [kept, ite_self, State.offerClaim_refused (s := s.claimTimed T) hold full, ite_self]
    rfl
  · intro offered
    have duty : (s.claimTimed T).offerDuty = offered.claimTimed T := by
      have emptied : offered.claimTimed T = { s.claimTimed T with
          presence := { (s.claimTimed T).presence with owedDuty := [] }
          line := { s.line with
            queue := if s.line.hold then s.line.queue else s.line.queue ++ [⟨.duty s.presence.owedDuty, .class1, none, 0⟩] } } := rfl
      rw [State.offerDuty_eq, emptied]
      by_cases hold : s.line.hold = true
      · rw [if_pos (show (s.claimTimed T).line.hold = true from hold), if_pos hold]
        rfl
      · rw [if_neg (show ¬ (s.claimTimed T).line.hold = true from hold), if_neg hold,
          if_pos (show (s.claimTimed T).line.queue.length < queueMax from room.resolve_left hold)]
        rfl
    have some' : s.presence.owedDuty.isEmpty = false := by simpa using owed
    refine congrArg Host.Outcome.next ((State.claimExpires_eq due).trans ?_)
    rw [State.claimExpires_none (s := offered) (T := T) due rfl, some']
    simp only [Bool.false_eq_true, if_false]
    rw [duty]
    rfl

end Sys2Proof.Machine
end

section
/-! PROOF. What a SETTLE makes of the page list and the answer list (R75 to R78, R87). -/

namespace Sys2Proof.Machine

/-! ### Entries kept but for the plan -/

/-- An entry that goes WAITING unless it is ON AIR, once the planner has seen to it (R76, R96). -/
theorem PageEntry.upToPlan.waits {a x : PageEntry} {st : PageState} (h : a.upToPlan x) (waits : a.state = waitingUnlessOnAir st) :
    if st = .onAir then x.state = .onAir else x.state = .waiting ∨ x.state = .placed := by
  obtain ⟨-, moved⟩ := h
  rw [waits] at moved
  unfold waitingUnlessOnAir at moved
  by_cases air : st = .onAir
  · rw [if_pos air] at moved ⊢
    rcases moved with same | ⟨no | no, -⟩
    · exact same
    · cases no
    · cases no
  · rw [if_neg air] at moved ⊢
    rcases moved with same | ⟨-, moved⟩
    · exact .inl same
    · exact moved

/-- An entry that is neither WAITING nor PLACED is not the planner's to move (R96). -/
theorem PageEntry.upToPlan.fixed {a x : PageEntry} (h : a.upToPlan x) (waits : a.state ≠ .waiting) (placed : a.state ≠ .placed) : x = a := by
  obtain ⟨same, state | ⟨no | no, -⟩⟩ := h
  · rw [same, state]
  · exact absurd no waits
  · exact absurd no placed

/-! ### A SETTLE on the incident's entries -/

theorem settledEntry_mono (b : SettleBody) (x y : Option PageEntry) (h : keptUpToPlan x y) :
    keptUpToPlan (settledEntry b x) (settledEntry b y) := by
  unfold settledEntry
  split
  · exact keptUpToPlan_map _ (fun _ _ => settleTaken_upToPlan) x y h
  · exact h
  · exact keptUpToPlan_map _ (fun _ _ => standDown_upToPlan) x y h
  · exact keptUpToPlan_map _ (fun _ _ => standDown_upToPlan) x y h
  · trivial

theorem incidentKeys_nodup {s : State} (h : s.keysNodup) (owner serial : Nat) : (incidentKeys owner serial s.relay.pages).Nodup :=
  h.sublist (List.filter_sublist.map _)

theorem mem_incidentKeys {owner serial : Nat} {ps : List PageEntry} {k : PageKey} :
    k ∈ incidentKeys owner serial ps ↔ (∃ e ∈ ps, e.key = k) ∧ k.owner = owner ∧ k.serial = serial := by
  simp only [incidentKeys, List.mem_map, List.mem_filter, Bool.and_eq_true, beq_iff_eq]
  constructor
  · rintro ⟨e, ⟨he, own, serial⟩, rfl⟩
    exact ⟨⟨e, he, rfl⟩, own, serial⟩
  · rintro ⟨⟨e, he, rfl⟩, own, serial⟩
    exact ⟨e, ⟨he, own, serial⟩, rfl⟩

/-- A SETTLE applied: the answers of its incident end, its entries become what R76 to R78 say, others are kept but for the plan. -/
theorem State.applySettle_finds {s : State} (hn : s.keysNodup) (owner : Nat) (b : SettleBody) :
    s.applySettle owner b = { s with
      relay := { s.relay with pages := (s.applySettle owner b).relay.pages, answers := (s.applySettle owner b).relay.answers }
      zone := { s.zone with plan := (s.applySettle owner b).zone.plan } } ∧
    (s.applySettle owner b).relay.answers = s.relay.answers.filter (fun a => !(a.key.owner == owner && a.key.serial == b.serial)) ∧
    (∀ k : PageKey, k.owner ≠ owner ∨ k.serial ≠ b.serial → keptUpToPlan (s.relay.find k) ((s.applySettle owner b).relay.find k)) ∧
    ∀ (k : PageKey) (e : PageEntry), k.owner = owner → k.serial = b.serial → s.relay.find k = some e →
      keptUpToPlan (settledEntry b (some e)) ((s.applySettle owner b).relay.find k) := by
  have keys := incidentKeys_nodup hn owner b.serial
  obtain ⟨rest, -, -, own, others⟩ := Finds.foldl (State.settlePage b) id (fun _ _ => True) (fun _ => settledEntry b)
    (fun s k _ _ _ => ⟨State.settlePage_finds b s k, trivial⟩) (fun _ => settledEntry_mono b) (incidentKeys owner b.serial s.relay.pages) s
    (by rw [List.map_id]; exact keys) trivial hn
  rw [List.map_id] at others
  unfold State.applySettle
  obtain ⟨u, hu⟩ : ∃ u, u = (incidentKeys owner b.serial s.relay.pages).foldl (State.settlePage b) s := ⟨_, rfl⟩
  rw [← hu] at rest own others ⊢
  have answers : u.relay.answers = s.relay.answers := by rw [rest]
  refine ⟨?_, ?_, fun k other => others k fun mem => ?_, fun k e hown hserial found => ?_⟩
  · exact congrArg (fun v : State => v.withRelay { v.relay with
      answers := u.relay.answers.filter fun a => !(a.key.owner == owner && a.key.serial == b.serial) }) rest
  · rw [State.endAnswers, answers]
    rfl
  · obtain ⟨-, own, serial⟩ := mem_incidentKeys.1 mem
    exact other.elim (· own) (· serial)
  · have kept := own k (mem_incidentKeys.2 ⟨⟨e, List.mem_of_find?_eq_some found, Relay.find_key found⟩, hown, hserial⟩)
    rw [id, found] at kept
    exact kept

theorem State.deliver_settle {s : State} {b : Burst} {x : SettleBody} (body : b.body = .settle x) :
    s.deliver b = if b.addressee = none ∨ b.addressee = some s.ident.station then s.applySettle b.sender x else s := by
  rw [State.deliver, body]
  exact if_congr (s.addressed_iff b) rfl rfl

/-- A stand-down, up to its place in the plan (R76, R77). -/
theorem standDown_kept {note : SettleNote} {e : PageEntry} {o : Option PageEntry} (h : keptUpToPlan (some (standDown note e)) o) :
    ∃ st, o = some { e with kind := .standdown, repeats := 1, spentLeft := 0, note := some note, state := st } ∧
      if e.state = .onAir then st = .onAir else st = .waiting ∨ st = .placed := by
  obtain ⟨x, rfl, moved⟩ := keptUpToPlan_some h
  exact ⟨x.state, congrArg some moved.1, moved.waits rfl⟩

/-- Settles O42. -/
theorem settleTurnsPagesIntoStandDowns : Obligations.SettleTurnsPagesIntoStandDowns := by
  intro s line b x hears peer body none'
  have ran : exec (.receiveSettle line) s = .next (if b.addressee = none ∨ b.addressee = some s.ident.station then
      (s.afterReception line b).applySettle b.sender x else s.afterReception line b) := by
    show Host.Outcome.next (s.hear line) = _
    rw [State.hear_clearsNone hears peer none', State.deliver_settle body]
    rfl
  refine ⟨fun no no' => ?_, fun here hn => ?_⟩
  · rw [ran, if_neg (not_or.2 ⟨no, no'⟩)]
  · obtain ⟨rest, answers, others, own⟩ := State.applySettle_finds (s := s.afterReception line b) hn b.sender x
    rw [if_pos here] at ran
    refine ⟨_, ran, rest, answers, others, fun k e hown hserial found => ?_⟩
    intro stoodDown
    have settled := own k e hown hserial found
    have responder := fun r (taken : x.kind = .taken) (named : x.responder = some r) =>
      (show settledEntry x (some e) = some (settleTaken r e) by rw [settledEntry, taken, named]; rfl)
    refine ⟨fun r taken named answered => ?_, fun r taken named other => ?_, fun kind => ?_, fun kind => ?_, fun kind => ?_⟩
    · have key : e.key.pager = r := by rw [Relay.find_key found]; exact answered
      rw [responder r taken named, settleTaken, if_pos key] at settled
      obtain ⟨y, at', moved⟩ := keptUpToPlan_some settled
      rw [at', moved.fixed (by simp) (by simp)]
      rfl
    · have key : ¬ e.key.pager = r := by rw [Relay.find_key found]; exact other
      rw [responder r taken named, settleTaken, if_neg key] at settled
      exact standDown_kept settled
    · rw [settledEntry, kind] at settled
      exact standDown_kept settled
    · rw [settledEntry, kind] at settled
      exact standDown_kept settled
    · rw [settledEntry, kind] at settled
      exact keptUpToPlan_none settled

end Sys2Proof.Machine
end

section
/-! PROOF. What a CALL makes of the page list (R55, R70 to R74). -/

namespace Sys2Proof.Machine

theorem callNewer_iff (c : CallBody) (e : PageEntry) : callNewer c e = true ↔
    (1 ≤ (c.seq + 256 - e.seq) % 256 ∧ (c.seq + 256 - e.seq) % 256 ≤ 127) ∨ c.cls ≠ e.cls ∨ c.msg ≠ e.msg ∨ c.level < e.level := by
  simp only [callNewer, Bool.or_eq_true, Bool.and_eq_true, decide_eq_true_eq, bne_iff_ne, or_assoc]

theorem State.routeTest_iff (s : State) (p : Nat) : s.routeTest p = true ↔
    s.zone.dark = false ∧ 24 ≤ (s.pager p).score ∧ (s.pager p).claim ≤ (s.pager p).score + 32 := by
  simp only [State.routeTest, Bool.and_eq_true, Bool.not_eq_true', decide_eq_true_eq, and_assoc]
  rfl

theorem mem_unnamedPages {owner : Nat} {c : CallBody} {ps : List PageEntry} {e : PageEntry} :
    e ∈ unnamedPages owner c ps ↔ e ∈ ps ∧ (e.key.owner = owner ∧ e.key.serial = c.serial) ∧ e.kind = .page ∧
      (∀ x ∈ c.pagers, x.pager ≠ e.key.pager) ∧ callNewer c e = true := by
  unfold unnamedPages
  rw [List.mem_filter]
  simp only [Bool.and_eq_true, beq_iff_eq, Bool.not_eq_true', List.any_eq_false, and_assoc]

/-- The pass of an unnamed entry, by the entry as it was when the CALL left it out (R73). -/
def passedWhile (c : CallBody) (e : PageEntry) (x : Option PageEntry) : Option PageEntry :=
  if e.state = .onAir then x.map fun x => { x with seq := c.seq, repeats := 0 } else none

theorem passedWhile_self (c : CallBody) (e : PageEntry) : passedWhile c e (some e) = passedEntry c e := rfl

theorem passedWhile_mono (c : CallBody) (e : PageEntry) (x y : Option PageEntry) (h : keptUpToPlan x y) :
    keptUpToPlan (passedWhile c e x) (passedWhile c e y) := by
  unfold passedWhile
  split
  · cases x with
    | none => rw [keptUpToPlan_none h]; trivial
    | some a =>
      obtain ⟨z, rfl, same, moved⟩ := keptUpToPlan_some h
      exact ⟨by rw [same], moved⟩
  · trivial

/-- The unnamed entries of the incident are passed one after another (R73). -/
theorem State.passUnnamed_finds {s : State} (hn : s.keysNodup) (owner : Nat) (c : CallBody) :
    let t := (unnamedPages owner c s.relay.pages).foldl (fun s e => s.passPage c e) s
    OnlyPages s t ∧ (∀ e ∈ unnamedPages owner c s.relay.pages, keptUpToPlan (passedEntry c e) (t.relay.find e.key)) ∧
      ∀ k, k ∉ (unnamedPages owner c s.relay.pages).map (·.key) → keptUpToPlan (s.relay.find k) (t.relay.find k) := by
  have keys : ((unnamedPages owner c s.relay.pages).map (·.key)).Nodup := hn.sublist (List.filter_sublist.map _)
  obtain ⟨rest, -, -, own, others⟩ := Finds.foldl (fun s e => State.passPage s c e) (·.key) (fun _ _ => True) (passedWhile c)
    (fun s e _ _ _ => ⟨State.passPage_finds c s e.key e rfl, trivial⟩) (passedWhile_mono c) _ s keys trivial hn
  refine ⟨rest, fun e he => ?_, others⟩
  have kept := own e he
  rw [Relay.find_of_mem hn (List.mem_of_mem_filter he), passedWhile_self] at kept
  exact kept

/-- A CALL at a list with room for all its pagers, entry by entry (R70 to R73). -/
theorem State.takeCall_finds {s : State} (hn : s.keysNodup) (owner : Nat) (c : CallBody)
    (room : s.relay.pages.length + c.pagers.length ≤ 24) :
    OnlyPages s (s.takeCall owner c) ∧
    (∀ k : PageKey, k.owner ≠ owner ∨ k.serial ≠ c.serial → keptUpToPlan (s.relay.find k) ((s.takeCall owner c).relay.find k)) ∧
    (∀ (k : PageKey) (e : PageEntry), k.owner = owner → k.serial = c.serial → (∀ x ∈ c.pagers, x.pager ≠ k.pager) →
      s.relay.find k = some e → keptUpToPlan (if e.kind = .page ∧ callNewer c e = true then passedEntry c e else some e)
        ((s.takeCall owner c).relay.find k)) ∧
    ∀ (p : Nat) (x : CallPager), c.pagers.find? (·.pager == p) = some x →
      keptUpToPlan (calledEntry s owner c x (s.relay.find ⟨owner, c.serial, p⟩)) ((s.takeCall owner c).relay.find ⟨owner, c.serial, p⟩) := by
  obtain ⟨once, within, few, first⟩ := firstPlaces_spec c.pagers []
  have keys : ((firstPlaces [] c.pagers).map fun x => (⟨owner, c.serial, x.pager⟩ : PageKey)).Nodup := by
    have := once.map (f := fun p => (⟨owner, c.serial, p⟩ : PageKey)) fun a b same => by cases same; rfl
    rwa [List.map_map] at this
  obtain ⟨rest, nodup, -, own, others⟩ := Finds.foldl (State.takePager owner c) (fun x => ⟨owner, c.serial, x.pager⟩)
    (fun l u => OnlyPages s u ∧ u.relay.pages.length + l.length ≤ 24) (calledEntry s owner c)
    (fun u x l ⟨only, fits⟩ un => by
      obtain ⟨finds, grown⟩ := State.takePager_finds s u owner c x only (by simp at fits; omega) un
      exact ⟨finds, only.trans finds.rest, by simp at fits; omega⟩)
    (calledEntry_mono s owner c) _ s keys ⟨rfl, by omega⟩ hn
  unfold State.takeCall
  simp only
  obtain ⟨u, hu⟩ : ∃ u, u = (firstPlaces [] c.pagers).foldl (State.takePager owner c) s := ⟨_, rfl⟩
  rw [← hu] at rest nodup own others ⊢
  obtain ⟨rest', passed, kept⟩ := State.passUnnamed_finds nodup owner c
  have unnamed : ∀ k : PageKey, k ∈ (unnamedPages owner c u.relay.pages).map (·.key) →
      (k.owner = owner ∧ k.serial = c.serial) ∧ ∀ x ∈ c.pagers, x.pager ≠ k.pager := fun k mem => by
    obtain ⟨e, he, rfl⟩ := List.mem_map.1 mem
    obtain ⟨-, incident, -, no, -⟩ := mem_unnamedPages.1 he
    exact ⟨incident, no⟩
  have named : ∀ k : PageKey, k ∈ (firstPlaces [] c.pagers).map (fun x => (⟨owner, c.serial, x.pager⟩ : PageKey)) →
      k.owner = owner ∧ k.serial = c.serial ∧ ∃ x ∈ c.pagers, x.pager = k.pager := fun k mem => by
    obtain ⟨x, hx, rfl⟩ := List.mem_map.1 mem
    exact ⟨rfl, rfl, x, (within x hx).1, rfl⟩
  refine ⟨rest.trans rest', fun k other => ?_, fun k e hown hserial no found => ?_, fun p x at' => ?_⟩
  · refine keptUpToPlan_trans (others k fun mem => ?_) (kept k fun mem => ?_)
    · obtain ⟨own, serial, -⟩ := named k mem
      exact other.elim (· own) (· serial)
    · obtain ⟨⟨own, serial⟩, -⟩ := unnamed k mem
      exact other.elim (· own) (· serial)
  · have still := others k fun mem => by
      obtain ⟨-, -, x, hx, same⟩ := named k mem
      exact no x hx same
    rw [found] at still
    obtain ⟨y, at', moved⟩ := keptUpToPlan_some still
    have key : y.key = k := Relay.find_key at'
    have mem : y ∈ u.relay.pages := List.mem_of_find?_eq_some at'
    have kind : y.kind = e.kind := by rw [moved.1]
    have newer := callNewer_upToPlan (c := c) moved
    split
    · next goes =>
      have left : y ∈ unnamedPages owner c u.relay.pages := mem_unnamedPages.2
        ⟨mem, ⟨key ▸ hown, key ▸ hserial⟩, kind ▸ goes.1, key ▸ no, newer ▸ goes.2⟩
      have pass := passed y left
      rw [key, passedEntry_upToPlan moved] at pass
      exact pass
    · next stays =>
      refine keptUpToPlan_trans still (at' ▸ kept k fun left => ?_)
      obtain ⟨z, hz, same⟩ := List.mem_map.1 left
      obtain ⟨inside, -, page, -, isNewer⟩ := mem_unnamedPages.1 hz
      obtain rfl : z = y := eq_of_key nodup mem inside (same.trans key.symm)
      exact stays ⟨kind ▸ page, newer ▸ isNewer⟩
  · have member := first p x (by simp) at'
    obtain rfl : x.pager = p := by simpa using List.find?_some at'
    refine keptUpToPlan_trans (own x member) (kept _ fun left => ?_)
    exact (unnamed _ left).2 x (within x member).1 rfl

theorem State.deliver_call {s : State} {b : Burst} {c : CallBody} (body : b.body = .call c) :
    s.deliver b = if b.addressee = none ∨ b.addressee = some s.ident.station then s.takeCall b.sender c else s := by
  rw [State.deliver, body]
  exact if_congr (s.addressed_iff b) rfl rfl

/-- The entry a CALL makes stands WAITING or PLACED (R72, R96). -/
theorem pageOf_kept {k : PageKey} {c : CallBody} {o : Option PageEntry} (h : keptUpToPlan (some (pageOf k c)) o) :
    ∃ st, o = some { pageOf k c with state := st } ∧ (st = .waiting ∨ st = .placed) := by
  obtain ⟨x, rfl, moved⟩ := keptUpToPlan_some h
  exact ⟨x.state, congrArg some moved.1, moved.waits (st := .waiting) rfl⟩

theorem pageOf_kept_or {k : PageKey} {c : CallBody} {o : Option PageEntry} (h : keptUpToPlan (some (pageOf k c)) o) :
    o = some { pageOf k c with state := .waiting } ∨ o = some { pageOf k c with state := .placed } := by
  obtain ⟨st, rfl, rfl | rfl⟩ := pageOf_kept h
  · exact .inl rfl
  · exact .inr rfl

/-- An entry ON AIR that a CALL passes keeps its place with no repeats (R73). -/
theorem passedEntry_onAir {c : CallBody} {e : PageEntry} {o : Option PageEntry} (air : e.state = .onAir)
    (h : keptUpToPlan (passedEntry c e) o) : o = some { e with seq := c.seq, repeats := 0 } := by
  rw [passedEntry, if_pos air] at h
  obtain ⟨x, rfl, moved⟩ := keptUpToPlan_some h
  rw [moved.fixed (by simp [air]) (by simp [air])]

theorem passedEntry_offAir {c : CallBody} {e : PageEntry} {o : Option PageEntry} (off : e.state ≠ .onAir)
    (h : keptUpToPlan (passedEntry c e) o) : o = none := by
  rw [passedEntry, if_neg off] at h
  exact keptUpToPlan_none h

section
variable {s : State} {owner : Nat} {c : CallBody} {x : CallPager} {e : PageEntry} {o : Option PageEntry}

theorem taken_iff (s : State) (x : CallPager) : taken s x = true ↔ x.flood = true ∨ s.routeTest x.pager = true := Bool.or_eq_true_iff

theorem calledEntry_made (take : taken s x = true) : calledEntry s owner c x none = some (pageOf ⟨owner, c.serial, x.pager⟩ c) := by
  rw [calledEntry, if_pos take]

theorem calledEntry_renewed (take : taken s x = true) (newer : callNewer c e = true) : calledEntry s owner c x (some e) =
    some { pageOf ⟨owner, c.serial, x.pager⟩ c with state := waitingUnlessOnAir e.state, updated := e.state == .onAir } := by
  rw [calledEntry, if_pos take]
  exact if_pos newer

theorem calledEntry_left (pass : ¬ taken s x = true) : calledEntry s owner c x none = none := by
  rw [calledEntry, if_neg pass]

theorem calledEntry_passed (pass : ¬ taken s x = true) (newer : callNewer c e = true) :
    calledEntry s owner c x (some e) = passedEntry c e := by
  rw [calledEntry, if_neg pass]
  exact if_pos newer

theorem calledEntry_older (older : ¬ callNewer c e = true) : calledEntry s owner c x (some e) = some e := by
  unfold calledEntry
  split
  · exact if_neg older
  · exact if_neg older

theorem calledEntry_offAir (take : taken s x = true) (newer : callNewer c e = true) (off : e.state ≠ .onAir) :
    calledEntry s owner c x (some e) = some (pageOf ⟨owner, c.serial, x.pager⟩ c) := by
  rw [calledEntry_renewed take newer, waitingUnlessOnAir, if_neg off, beq_eq_false_iff_ne.2 off]
  rfl

/-- An entry ON AIR stays there, marked as updated (R72, R103). -/
theorem calledEntry_onAir (take : taken s x = true) (newer : callNewer c e = true) (air : e.state = .onAir)
    (h : keptUpToPlan (calledEntry s owner c x (some e)) o) :
    o = some { pageOf ⟨owner, c.serial, x.pager⟩ c with state := .onAir, updated := true } := by
  rw [calledEntry_renewed take newer, waitingUnlessOnAir, if_pos air, beq_iff_eq.2 air] at h
  obtain ⟨y, rfl, moved⟩ := keptUpToPlan_some h
  rw [moved.fixed (by simp) (by simp)]

end

/-- Settles O41: the list with room entry by entry, then the full list by who makes room. -/
theorem callMakesRenewsAndRemovesPages : Obligations.CallMakesRenewsAndRemovesPages := by
  intro s line b c hears peer body none'
  have ran : exec (.receiveCall line) s = .next (if b.addressee = none ∨ b.addressee = some s.ident.station then
      (s.afterReception line b).takeCall b.sender c else s.afterReception line b) := by
    show Host.Outcome.next (s.hear line) = _
    rw [State.hear_clearsNone hears peer none', State.deliver_call body]
    rfl
  refine ⟨fun no no' => ?_, fun here room hn => ?_, fun p flood here full hn pagers take fresh => ?_⟩
  · rw [ran, if_neg (not_or.2 ⟨no, no'⟩)]
  · obtain ⟨rest, others, unnamed, named⟩ := State.takeCall_finds (s := s.afterReception line b) hn b.sender c room
    rw [if_pos here] at ran
    refine ⟨_, ran, rest, others, ?_⟩
    intro newer
    have newer_iff : ∀ e, newer e ↔ callNewer c e = true := fun e => (callNewer_iff c e).symm
    refine ⟨fun k e own serial no found => ?_, fun p flood at' => ?_⟩
    · have kept := unnamed k e own serial no found
      refine ⟨fun page isNewer off => ?_, fun page isNewer air => ?_, fun stays => ?_⟩
      · rw [if_pos ⟨page, (newer_iff e).1 isNewer⟩] at kept
        exact passedEntry_offAir off kept
      · rw [if_pos ⟨page, (newer_iff e).1 isNewer⟩] at kept
        exact passedEntry_onAir air kept
      · rw [if_neg] at kept
        · exact kept
        · rintro ⟨page, isNewer⟩
          rcases stays with down | older
          · rw [page] at down
            cases down
          · exact older ((newer_iff e).2 isNewer)
    · intro k take made
      have kept := named p ⟨p, flood⟩ at'
      have take_iff : take ↔ taken (s.afterReception line b) ⟨p, flood⟩ = true := by
        rw [taken_iff, State.routeTest_iff]
        rfl
      refine ⟨fun does none'' => ?_, fun e does found isNewer off => ?_, fun e does found isNewer air => ?_, fun pass none'' => ?_,
        fun e pass found isNewer off => ?_, fun e pass found isNewer air => ?_, fun e found older => ?_⟩
      · rw [show (s.afterReception line b).relay.find _ = none from none'', calledEntry_made (take_iff.1 does)] at kept
        exact pageOf_kept_or kept
      · rw [show (s.afterReception line b).relay.find _ = some e from found,
          calledEntry_offAir (take_iff.1 does) ((newer_iff e).1 isNewer) off] at kept
        exact pageOf_kept_or kept
      · rw [show (s.afterReception line b).relay.find _ = some e from found] at kept
        exact calledEntry_onAir (take_iff.1 does) ((newer_iff e).1 isNewer) air kept
      · rw [show (s.afterReception line b).relay.find _ = none from none'', calledEntry_left (mt take_iff.2 pass)] at kept
        exact keptUpToPlan_none kept
      · rw [show (s.afterReception line b).relay.find _ = some e from found,
          calledEntry_passed (mt take_iff.2 pass) ((newer_iff e).1 isNewer)] at kept
        exact passedEntry_offAir off kept
      · rw [show (s.afterReception line b).relay.find _ = some e from found,
          calledEntry_passed (mt take_iff.2 pass) ((newer_iff e).1 isNewer)] at kept
        exact passedEntry_onAir air kept
      · rw [show (s.afterReception line b).relay.find _ = some e from found, calledEntry_older (mt (newer_iff e).2 older)] at kept
        exact kept
  · intro k passes
    have takes : flood = true ∨ (s.afterReception line b).routeTest p = true := by
      rw [State.routeTest_iff]
      exact take
    obtain ⟨makes, refuses⟩ := State.takeCall_full (s.afterReception line b) b.sender c p flood hn full pagers takes fresh
    rw [if_pos here] at ran
    refine ⟨_, ran, fun front v back parts leaves => ?_, fun stuck => refuses (roomVictim_none stuck)⟩
    obtain ⟨rest, gone, made, others⟩ := makes v (roomVictim_some parts leaves)
    obtain ⟨st, at', stands⟩ := pageOf_kept made
    exact ⟨rest, gone, ⟨_, at', stands, rfl⟩, others⟩

end Sys2Proof.Machine
end

section
/-! PROOF. What the Relay Unit makes of an answer for another owner (R83 to R86). -/

namespace Sys2Proof.Machine

section
variable {s : State} {k : AnswerKey}

theorem State.relayOn_duplicate (h : s.relay.answers.any (·.key == k) = true) (fromResponder : Bool) : s.relayOn k fromResponder = s :=
  if_pos h

/-- An answer relayed with the page list left as it is (R85). -/
theorem State.relayOn_leaves (new : s.relay.answers.any (·.key == k) = false) {fromResponder : Bool}
    (leaves : s.relay.find ⟨k.owner, k.serial, k.pager⟩ = none ∨ fromResponder = true) :
    s.relayOn k fromResponder = (s.placeAnswer k).offerAnswer k := by
  unfold State.relayOn
  rw [if_neg (by simp [new])]
  simp only
  split
  · next e found =>
    rw [if_pos (by rw [leaves.resolve_left (by rw [found]; simp)]; rfl)]
  · rfl

/-- An answer relayed with the PAGE entry of its pager made ANSWERED (R85). -/
theorem State.relayOn_marks (new : s.relay.answers.any (·.key == k) = false) {e : PageEntry}
    (found : s.relay.find ⟨k.owner, k.serial, k.pager⟩ = some e) (page : e.kind = .page) :
    s.relayOn k false = ((s.changePage ⟨k.owner, k.serial, k.pager⟩ markAnswered).placeAnswer k).offerAnswer k := by
  unfold State.relayOn
  rw [if_neg (by simp [new])]
  simp only
  rw [found]
  simp only
  rw [if_neg (by simp [page])]

/-- The answer placed, and its burst in a queue with room (R85, R86). -/
theorem State.relays_room (hold : s.line.hold = false) (room : s.line.queue.length < 8) : (s.placeAnswer k).offerAnswer k = { s with
    relay := { s.relay with answers :=
      (if s.relay.answers.length < 4 then s.relay.answers else s.relay.answers.drop 1) ++ [⟨k, 3, s.now + 1000000⟩] }
    line := s.line.place ⟨.answer k, .class0, some k.owner, 0⟩ } := by
  rw [State.offerAnswer, (s.placeAnswer k).offer_room _ _ _ hold room]
  rfl

theorem State.relays_pages (s : State) (k : AnswerKey) : ((s.placeAnswer k).offerAnswer k).relay.pages = s.relay.pages := by
  rw [State.offerAnswer, ((s.placeAnswer k).offer_spec _ _ _).rest]
  rfl

/-! ### By the settle note of the incident -/

theorem State.answerForOther_open (none' : settleNoteOf k.owner k.serial s.relay.pages = none) : s.answerForOther k = s.relayOn k false := by
  rw [State.answerForOther, none']

theorem State.answerForOther_responder (note : settleNoteOf k.owner k.serial s.relay.pages = some (.taken k.pager)) :
    s.answerForOther k = if k.kind = .done then s.relayOn k true else s := by
  rw [State.answerForOther, note]
  exact if_pos rfl

theorem State.answerForOther_settled {n : SettleNote} (note : settleNoteOf k.owner k.serial s.relay.pages = some n)
    (other : n ≠ .taken k.pager) :
    s.answerForOther k = if k.kind = .accept then s.lateAccept ⟨k.owner, k.serial, k.pager⟩ n else s := by
  rw [State.answerForOther, note]
  cases n with
  | taken r => exact if_neg fun same => other (congrArg SettleNote.taken same.symm)
  | withdrawn => rfl
  | cancelled => rfl

theorem State.lateAccept_found {pk : PageKey} {e : PageEntry} (found : s.relay.find pk = some e) (n : SettleNote) :
    s.lateAccept pk n = s.changePage pk (standDown n) := by
  rw [State.lateAccept, found]

theorem latestOf_eq {owner serial : Nat} {ps front back : List PageEntry} {e : PageEntry} (parts : ps = front ++ e :: back)
    (hown : e.key.owner = owner) (hserial : e.key.serial = serial)
    (last : ∀ x ∈ back, ¬ (x.key.owner = owner ∧ x.key.serial = serial)) : latestOf owner serial ps = some e := by
  have none' : back.filter (fun x => x.key.owner == owner && x.key.serial == serial) = [] :=
    List.filter_eq_nil_iff.2 fun x hx => by simpa using last x hx
  rw [latestOf, parts, List.filter_append, List.filter_cons_of_pos (by simp [hown, hserial]), none', List.getLast?_append]
  rfl

/-- The stand-down a late ACCEPT makes where the pager has no entry here (R84). -/
def PageEntry.stoodDownAs (e : PageEntry) (pk : PageKey) : PageEntry :=
  { e with key := pk, kind := .standdown, repeats := 1, state := .waiting, spentLeft := 0, updated := false }

theorem State.lateAccept_creates {pk : PageKey} {e : PageEntry} (absent : s.relay.find pk = none)
    (latest : latestOf pk.owner pk.serial s.relay.pages = some e) (n : SettleNote) :
    s.lateAccept pk n = s.createPage (e.stoodDownAs pk) := by
  rw [State.lateAccept, absent]
  simp only
  rw [latest]
  rfl

end

/-- Settles O18, by the settle note of the incident and what is held for the pager. -/
theorem answerForAnotherOwnerIsRelayedOrAnswered : Obligations.AnswerForAnotherOwnerIsRelayedOrAnswered := by
  intro s k hn note pk relayed
  refine ⟨fun open' again => ?_, fun r settled own other => ?_, fun n settled other late => ?_, fun open' new absent hold room => ?_,
    fun settled done => ⟨fun again => ?_, fun new hold room => ?_⟩, fun e open' new found page => ?_, fun n e settled other late found => ?_,
    fun n front e back settled other late absent room parts hown hserial last => ?_⟩
  · rw [State.answerForOther_open open', State.relayOn_duplicate again]
  · subst own
    rw [State.answerForOther_responder settled, if_neg other]
  · rw [State.answerForOther_settled settled other, if_neg late]
  · rw [State.answerForOther_open open', State.relayOn_leaves new (.inl absent), State.relays_room hold room]
  · rw [State.answerForOther_responder settled, if_pos done, State.relayOn_duplicate again]
  · rw [State.answerForOther_responder settled, if_pos done, State.relayOn_leaves new (.inr rfl), State.relays_room hold room]
  · have keeps : ∀ e, (markAnswered e).key = e.key := fun e => by unfold markAnswered; split <;> rfl
    have kept := (changePage_finds s pk markAnswered keeps).find hn pk
    rw [if_pos rfl, found, Option.map_some, markAnswered, if_pos page] at kept
    obtain ⟨x, at', moved⟩ := keptUpToPlan_some kept
    have same := moved.fixed (by simp) (by simp)
    refine ⟨x, ?_, by rw [same]⟩
    rw [State.answerForOther_open open', State.relayOn_marks new found page, Relay.find, State.relays_pages]
    exact at'
  · have ran : s.answerForOther k = s.changePage pk (standDown n) := by
      rw [State.answerForOther_settled settled other, if_pos late, State.lateAccept_found found]
    have finds := changePage_finds s pk (standDown n) fun _ => rfl
    have kept := finds.find hn pk
    rw [if_pos rfl, found, Option.map_some] at kept
    obtain ⟨st, at', stands⟩ := standDown_kept kept
    rw [ran]
    exact ⟨⟨_, at', rfl, stands⟩, by rw [finds.rest], by rw [finds.rest]⟩
  · have latest := latestOf_eq parts hown hserial last
    have ran : s.answerForOther k = s.createPage (e.stoodDownAs pk) := by
      rw [State.answerForOther_settled settled other, if_pos late, State.lateAccept_creates absent latest]
    have finds := createPage_finds s (e.stoodDownAs pk) room absent
    have kept := finds.find hn pk
    rw [if_pos (show pk = (e.stoodDownAs pk).key from rfl)] at kept
    obtain ⟨x, at', moved⟩ := keptUpToPlan_some kept
    rw [ran]
    exact ⟨⟨x, at', moved.1, moved.waits (st := .waiting) rfl⟩, by rw [finds.rest], by rw [finds.rest]⟩

end Sys2Proof.Machine
end

section
/-! PROOF. The records of the inputs under the scanner's operations, which reports leave alone; and the end of a chatter window
(R154, R155). -/

namespace Sys2Proof.Machine

/-! ### Reports leave the scanner alone -/

theorem State.reportRaise_works (s : State) (n : Nat) (k : SourceKind) : Works s (s.reportRaise n k) := by
  unfold State.reportRaise
  split
  · exact .refl s
  · exact s.raise_works n k

theorem State.reportRestore_works (s : State) (n : Nat) (k : SourceKind) : Works s (s.reportRestore n k) := by
  unfold State.reportRestore
  split
  · exact .refl s
  · exact s.restore_works n k

theorem State.reportWiring_works (s : State) (n : Nat) (old new : Condition) : Works s (s.reportWiring n old new) := by
  unfold State.reportWiring
  split
  · exact s.reportRaise_works n .wiring
  · split
    · exact s.reportRestore_works n .wiring
    · exact .refl s

theorem State.reportAlarm_works (s : State) (n : Nat) (old new : Condition) : Works s (s.reportAlarm n old new) := by
  unfold State.reportAlarm
  split
  · exact s.reportRaise_works n .alarm
  · split
    · exact s.reportRestore_works n .alarm
    · exact .refl s

theorem State.reportPresent_works (s : State) (n : Nat) : Works s (s.reportPresent n) := by
  have wired : Works s (if (s.input n).mode = .supervised then
      (if (s.input n).condition.faulted then s.reportRaise n .wiring else s.reportRestore n .wiring) else s) := by
    split
    · split
      · exact s.reportRaise_works n .wiring
      · exact s.reportRestore_works n .wiring
    · exact .refl s
  unfold State.reportPresent
  simp only
  split
  · exact wired.trans (State.reportRaise_works _ n .alarm)
  · exact wired.trans (State.reportRestore_works _ n .alarm)

theorem Works.input {s t : State} (w : Works s t) (n : Nat) : t.input n = s.input n := by rw [State.input, w.scanner, State.input]

/-! ### The frame of the scanner's commands -/

/-- The blocks a report or the scanner may change have changed, and no other. -/
abbrev Scans (s t : State) : Prop :=
  t = { s with engine := t.engine, relay := t.relay, zone := t.zone, line := t.line, scanner := t.scanner, log := t.log, office := t.office }

theorem Scans.trans {s t u : State} (h : Scans s t) (k : Scans t u) : Scans s u := by
  unfold Scans at h k ⊢
  rw [h] at k
  exact k

theorem Works.scans {s t : State} (w : Works s t) : Scans s t := by
  have rest := w.rest
  unfold Scans
  rw [w.scanner]
  exact rest

theorem State.withScanner_scans (s : State) (x : Scanner) : Scans s (s.withScanner x) := rfl

theorem Scans.foldl {α : Type} {f : State → α → State} (h : ∀ s a, Scans s (f s a)) (l : List α) : ∀ s, Scans s (l.foldl f s) := by
  induction l with
  | nil => exact fun s => rfl
  | cons a l ih => exact fun s => (h s a).trans (ih (f s a))

/-! ### One input's record -/

/-- Input `n` holds the record `r`. -/
def State.setInput (s : State) (n : Nat) (r : InputRecord) : State :=
  s.withScanner { s.scanner with inputs := s.scanner.inputs.set n r }

theorem modify_eq_set {α : Type} (f : α → α) (d : α) : ∀ (l : List α) (n : Nat), n < l.length → l.modify n f = l.set n (f (l.getD n d)) := by
  intro l
  induction l with
  | nil => exact fun n h => absurd h (Nat.not_lt_zero n)
  | cons a l ih =>
    intro n h
    cases n with
    | zero => rfl
    | succ n =>
      rw [List.modify_succ_cons, ih n (Nat.lt_of_succ_lt_succ h)]
      rfl

theorem State.modifyInput_eq {s : State} {n : Nat} (h : n < s.scanner.inputs.length) (f : InputRecord → InputRecord) :
    s.modifyInput n f = s.setInput n (f (s.input n)) := by
  rw [State.modifyInput, modify_eq_set f inputStart _ n h]
  rfl

theorem State.setInput_setInput (s : State) (n : Nat) (r q : InputRecord) : (s.setInput n r).setInput n q = s.setInput n q := by
  show s.withScanner { s.scanner with inputs := (s.scanner.inputs.set n r).set n q } = _
  rw [List.set_set]
  rfl

theorem State.setInput_length (s : State) (n : Nat) (r : InputRecord) : (s.setInput n r).scanner.inputs.length = s.scanner.inputs.length :=
  List.length_set

theorem State.setInput_input {s : State} {n : Nat} (h : n < s.scanner.inputs.length) (r : InputRecord) (m : Nat) :
    (s.setInput n r).input m = if m = n then r else s.input m := by
  show (s.scanner.inputs.set n r).getD m inputStart = _
  rw [List.getD_eq_getElem?_getD, List.getElem?_set]
  by_cases same : n = m
  · rw [if_pos same, if_pos h, if_pos same.symm]
    rfl
  · rw [if_neg same, if_neg (Ne.symm same), State.input, List.getD_eq_getElem?_getD]

theorem State.setInput_self {s : State} {n : Nat} (h : n < s.scanner.inputs.length) : s.setInput n (s.input n) = s := by
  have same : s.scanner.inputs.set n (s.input n) = s.scanner.inputs := by
    rw [State.input, List.getD_eq_getElem?_getD, List.getElem?_eq_getElem h]
    exact List.set_getElem_self h
  rw [State.setInput, same]
  exact s.withScanner_same

theorem State.input_absent {s : State} {n : Nat} (h : s.scanner.inputs.length ≤ n) : s.input n = inputStart := by
  rw [State.input, List.getD_eq_getElem?_getD, List.getElem?_eq_none h]
  rfl

/-! ### A chatter window ends -/

/-- A used input in CHATTER whose counter is 0 (R154). -/
def InputRecord.leaves (r : InputRecord) : Bool := r.mode != .unused && r.inChatter && r.chatterCount == 0

/-- The record of an input that leaves CHATTER, and of another as it is (R154). -/
def InputRecord.quieted (r : InputRecord) : InputRecord := if r.leaves then { r with inChatter := false, holdChatter := false } else r

theorem State.leaveChatter_stays {s : State} {n : Nat} (h : (s.input n).leaves = false) : s.leaveChatter n = s := by
  unfold State.leaveChatter
  exact if_neg fun yes => Bool.false_ne_true (h.symm.trans yes)

theorem State.leaveChatter_leaves {s : State} {n : Nat} (h : (s.input n).leaves = true) : s.leaveChatter n =
    ((s.modifyInput n fun r => { r with inChatter := false, holdChatter := false }).reportRestore n .chatter).reportPresent n := if_pos h

theorem State.leaveChatter_scanner {s : State} {n : Nat} (h : n < s.scanner.inputs.length) :
    (s.leaveChatter n).scanner = { s.scanner with inputs := s.scanner.inputs.modify n InputRecord.quieted } := by
  have set : s.modifyInput n InputRecord.quieted = s.setInput n (s.input n).quieted := State.modifyInput_eq h _
  suffices same : (s.leaveChatter n).scanner = (s.setInput n (s.input n).quieted).scanner by rw [same, ← set]; rfl
  cases leaves : (s.input n).leaves with
  | false => rw [State.leaveChatter_stays leaves, InputRecord.quieted, if_neg (by simp [leaves]), State.setInput_self h]
  | true =>
    rw [State.leaveChatter_leaves leaves, (State.reportPresent_works _ n).scanner, (State.reportRestore_works _ n .chatter).scanner,
      State.modifyInput_eq h, InputRecord.quieted, if_pos leaves]

theorem State.leaveChatter_scans (s : State) (n : Nat) : Scans s (s.leaveChatter n) := by
  cases leaves : (s.input n).leaves with
  | false => rw [State.leaveChatter_stays leaves]
  | true =>
    rw [State.leaveChatter_leaves leaves]
    exact (State.withScanner_scans s _).trans ((State.reportRestore_works _ n .chatter).trans (State.reportPresent_works _ n)).scans

/-- Every record changed in turn is every record changed. -/
theorem getElem?_foldl_modify {α : Type} (f : α → α) (l : List α) (m i : Nat) :
    ((List.range m).foldl (fun l n => l.modify n f) l)[i]? = if i < m then l[i]?.map f else l[i]? := by
  induction m with
  | zero => rfl
  | succ m ih =>
    rw [List.range_succ, List.foldl_append, List.foldl_cons, List.foldl_nil, List.getElem?_modify, ih]
    by_cases own : m = i
    · rw [if_neg (by omega), if_pos (by omega)]
      simp [own]
    · by_cases before : i < m
      · rw [if_pos before, if_pos (by omega)]
        simp [own]
      · rw [if_neg before, if_neg (by omega)]
        simp [own]

theorem foldl_modify_all {α : Type} (f : α → α) {l : List α} {m : Nat} (h : l.length = m) :
    (List.range m).foldl (fun l n => l.modify n f) l = l.map f := by
  refine List.ext_getElem? fun i => ?_
  rw [getElem?_foldl_modify, List.getElem?_map]
  by_cases inside : i < m
  · rw [if_pos inside]
  · rw [if_neg inside, List.getElem?_eq_none (by omega)]
    rfl

theorem foldl_modify_length {α : Type} (f : α → α) (l : List α) (m : Nat) :
    ((List.range m).foldl (fun l n => l.modify n f) l).length = l.length := by
  induction m with
  | zero => rfl
  | succ m ih => rw [List.range_succ, List.foldl_append, List.foldl_cons, List.foldl_nil, List.length_modify, ih]

/-- The records once every input has been seen at a window end (R154). -/
theorem State.foldl_leaveChatter_scanner {s : State} (h : s.scanner.inputs.length = 16) : ∀ m ≤ 16,
    ((List.range m).foldl State.leaveChatter s).scanner =
      { s.scanner with inputs := (List.range m).foldl (fun l n => l.modify n InputRecord.quieted) s.scanner.inputs } := by
  intro m
  induction m with
  | zero => exact fun _ => rfl
  | succ m ih =>
    intro hm
    have before := ih (by omega)
    have size : m < ((List.range m).foldl State.leaveChatter s).scanner.inputs.length := by
      rw [before]
      exact lt_of_lt_of_eq (by omega) (foldl_modify_length _ _ m).symm
    rw [List.range_succ, List.foldl_append, List.foldl_append, List.foldl_cons, List.foldl_nil, State.leaveChatter_scanner size, before]
    rfl

/-- The station at a window end, before the inputs are seen (R154). -/
def State.windowTimed (s : State) (T : Nat) : State :=
  { s with now := max s.now T, scanner := { s.scanner with windowAt := some (T + 60000000) } }

theorem State.windowEnds_eq {s : State} {T : Nat} (h : s.scanner.windowAt = some T) : s.windowEnds =
    (let u := (List.range 16).foldl State.leaveChatter (s.windowTimed T)
     u.withScanner { u.scanner with inputs := u.scanner.inputs.map fun r => { r with chatterCount := 0 } }) := by
  have timed : (s.reach T).withScanner { (s.reach T).scanner with windowAt := some (T + chatterWindow) } = s.windowTimed T := rfl
  rw [State.windowEnds, h]
  simp only [timed]

theorem quieted_counted (r : InputRecord) : ({ r.quieted with chatterCount := 0 } : InputRecord) =
    { r with chatterCount := 0, inChatter := r.inChatter && !r.leaves, holdChatter := r.holdChatter && !r.leaves } := by
  unfold InputRecord.quieted
  cases r.leaves <;> simp

/-- The reports of an input that has left CHATTER, by its present condition (R155). -/
theorem State.reportPresent_eq (s : State) (n : Nat) : s.reportPresent n =
    (let wired :=
      if (s.input n).mode ≠ .supervised then s
      else if (s.input n).condition = .short ∨ (s.input n).condition = .opened then s.reportRaise n .wiring else s.reportRestore n .wiring
     if (s.input n).condition = .active then wired.reportRaise n .alarm else wired.reportRestore n .alarm) := by
  unfold State.reportPresent
  simp only [ite_not, Condition.faulted_iff]

/-- The records at a window end: each counter anew, and who leaves out of CHATTER (R154). -/
theorem State.windowEnds_scanner {s : State} {T : Nat} (h : s.scanner.windowAt = some T) (size : s.scanner.inputs.length = 16) :
    s.windowEnds.scanner = { s.scanner with
      windowAt := some (T + 60000000)
      inputs := s.scanner.inputs.map fun r =>
        { r with chatterCount := 0, inChatter := r.inChatter && !r.leaves, holdChatter := r.holdChatter && !r.leaves } } := by
  have seen := State.foldl_leaveChatter_scanner (s := s.windowTimed T) size 16 (Nat.le_refl 16)
  have all : (List.range 16).foldl (fun l n => l.modify n InputRecord.quieted) (s.windowTimed T).scanner.inputs =
      s.scanner.inputs.map InputRecord.quieted := foldl_modify_all InputRecord.quieted size
  rw [all] at seen
  rw [State.windowEnds_eq h]
  simp only [State.withScanner_scanner, seen, List.map_map]
  have counted : ((fun r : InputRecord => ({ r with chatterCount := 0 } : InputRecord)) ∘ InputRecord.quieted) = fun r =>
      { r with chatterCount := 0, inChatter := r.inChatter && !r.leaves, holdChatter := r.holdChatter && !r.leaves } :=
    funext quieted_counted
  rw [counted]
  rfl

theorem State.input_leaves {s : State} {n : Nat} (h : ∀ r ∈ s.scanner.inputs, r.leaves = false) : (s.input n).leaves = false := by
  by_cases inside : n < s.scanner.inputs.length
  · refine h _ ?_
    rw [State.input, List.getD_eq_getElem?_getD, List.getElem?_eq_getElem inside]
    exact List.getElem_mem inside
  · rw [State.input_absent (Nat.not_lt.1 inside)]
    rfl

/-- Settles O22: the records, then the reports of the one input that leaves. -/
theorem windowEndLetsQuietInputsLeaveChatter : Obligations.WindowEndLetsQuietInputsLeaveChatter := by
  intro s T due size leaves
  obtain ⟨v, hv⟩ : ∃ v, v = s.windowTimed T := ⟨_, rfl⟩
  have inputs : ∀ n, v.input n = s.input n := fun n => by rw [hv]; rfl
  obtain ⟨u, hu⟩ : ∃ u, u = (List.range 16).foldl State.leaveChatter v := ⟨_, rfl⟩
  have ends := State.windowEnds_eq due
  rw [← hv, ← hu] at ends
  have records := State.windowEnds_scanner due size
  have frame : Scans v s.windowEnds := by
    rw [ends, hu]
    exact (Scans.foldl State.leaveChatter_scans (List.range 16) v).trans (State.withScanner_scans _ _)
  have after : s.windowEnds = u.withScanner s.windowEnds.scanner := by rw [ends]; rfl
  refine ⟨s.windowEnds, rfl, by rw [hv] at frame; exact frame, records, fun none' => ?_, fun n hn goes others => ?_⟩
  · have same : u = v := by
      rw [hu]
      exact List.foldl_fixed' (fun a => State.leaveChatter_stays (State.input_leaves (by rw [hv]; exact none'))) _
    rw [same, hv] at after
    exact after
  · intro r w quiet wired
    have rest : ∀ a, a ≠ n → (v.input a).leaves = false := fun a ha => by
      by_cases inside : a < 16
      · rw [inputs]
        exact others a inside ha
      · rw [State.input_absent (by rw [hv]; exact size.le.trans (Nat.not_lt.1 inside))]
        rfl
    have left : v.leaveChatter n = (w.reportRestore n .chatter).reportPresent n := by
      rw [State.leaveChatter_leaves (by rw [inputs]; exact goes), hv]
      rfl
    have restored : ∀ a, a ≠ n → (v.leaveChatter n).input a = v.input a := fun a ha => by
      have size' : n < v.scanner.inputs.length := by rw [hv]; exact size ▸ hn
      rw [left, (State.reportPresent_works _ n).input, (State.reportRestore_works _ n .chatter).input,
        show w = v.setInput n _ from by rw [hv]; exact State.modifyInput_eq (s := s.windowTimed T) (by exact size ▸ hn) _,
        State.setInput_input size', if_neg ha]
    have one : u = v.leaveChatter n := by
      rw [hu, foldl_only (e := n) (fun a ha => State.leaveChatter_stays (rest a ha))
        (fun a ha => State.leaveChatter_stays (by rw [restored a ha]; exact rest a ha)) _ List.nodup_range,
        if_pos (List.mem_range.2 hn)]
    have seen : quiet.input n = { r with inChatter := false, holdChatter := false } := by
      have inside : n < (s.windowTimed T).scanner.inputs.length := by exact size ▸ hn
      rw [show quiet = w.reportRestore n .chatter from rfl, (State.reportRestore_works _ n .chatter).input,
        show w = (s.windowTimed T).setInput n _ from State.modifyInput_eq (s := s.windowTimed T) inside _,
        State.setInput_input inside, if_pos rfl]
      rfl
    rw [one, left, State.reportPresent_eq, seen] at after
    exact after

end Sys2Proof.Machine
end

section
/-! PROOF. A scan: the debounce of LOCKOUT and of each input, the reports of the input that changes, and those of the release of
LOCKOUT (R149 to R153, R158, R160). -/

namespace Sys2Proof.Machine

/-! ### One input is scanned -/

/-- The run count of a reading that differs from the debounced condition (R150). -/
def InputRecord.runTo (r : InputRecord) (raw : Condition) : Nat := if r.candidate = some raw then r.run + 1 else 1

/-- The record of an input whose change to a condition has been accepted, at a chatter threshold (R150, R153, R160). -/
def InputRecord.changed (threshold : Nat) (r : InputRecord) (raw : Condition) : InputRecord :=
  let count := min (r.chatterCount + 1) 31
  let enters := !r.inChatter && decide (threshold ≤ count)
  { r with
    candidate := none, run := 0, condition := raw
    holdAlarm := r.holdAlarm && raw == .active
    holdWiring := r.holdWiring && (raw == .short || raw == .opened)
    inChatter := r.inChatter || enters
    chatterCount := if enters then 0 else count }

/-- The record of an input after one reading of its raw condition (R150). -/
def InputRecord.debounced (count threshold : Nat) (r : InputRecord) (raw : Condition) : InputRecord :=
  if raw = r.condition then { r with candidate := none, run := 0 }
  else if r.runTo raw < count then { r with candidate := some raw, run := r.runTo raw }
  else r.changed threshold raw

/-- The record of an input after one reading of its band (R149). -/
def InputRecord.scanned (c : Scanner) (r : InputRecord) (b : Band) : InputRecord :=
  match readBand r.mode b with
  | none => r
  | some raw => r.debounced c.debounce c.threshold raw

/-- The reports of an input whose record was `r` and whose condition has changed: CHATTER, wiring, alarm (R152, R153). -/
def State.reportsChange (s : State) (n : Nat) (r : InputRecord) : State :=
  ((if (s.input n).inChatter ∧ ¬ r.inChatter then s.reportRaise n .chatter else s).reportWiring n r.condition
    (s.input n).condition).reportAlarm n r.condition (s.input n).condition

theorem State.reportsChange_works (s : State) (n : Nat) (r : InputRecord) : Works s (s.reportsChange n r) := by
  have first : Works s (if (s.input n).inChatter ∧ ¬ r.inChatter then s.reportRaise n .chatter else s) := by
    split
    · exact s.reportRaise_works n .chatter
    · exact .refl s
  exact (first.trans (State.reportWiring_works _ n _ _)).trans (State.reportAlarm_works _ n _ _)

theorem InputRecord.debounced_same {r : InputRecord} {c x : Nat} : (r.debounced c x r.condition).condition = r.condition := by
  rw [InputRecord.debounced, if_pos rfl]

/-- The record of an accepted change: as the model accepts it, and then in CHATTER when it enters it (R150, R153). -/
theorem InputRecord.changed_eq (threshold : Nat) (r : InputRecord) (raw : Condition) : r.changed threshold raw =
    if !r.inChatter && decide (threshold ≤ min (r.chatterCount + 1) 31) then
      { acceptChange raw { r with candidate := none, run := 0 } with inChatter := true, chatterCount := 0 }
    else acceptChange raw { r with candidate := none, run := 0 } := by
  simp only [InputRecord.changed]
  generalize (!r.inChatter && decide (threshold ≤ min (r.chatterCount + 1) 31)) = enters
  cases enters with
  | false =>
    rw [Bool.or_false]
    rfl
  | true =>
    rw [Bool.or_true]
    rfl

/-- An accepted change: the record, then the reports. -/
theorem State.changeAccepted_eq {s : State} {n : Nat} {r : InputRecord} {raw : Condition} (h : n < s.scanner.inputs.length)
    (own : s.input n = { r with candidate := none, run := 0 }) :
    s.changeAccepted n r.condition raw = (s.setInput n (r.changed s.scanner.threshold raw)).reportsChange n r := by
  obtain ⟨u, hu⟩ : ∃ u, u = s.modifyInput n (acceptChange raw) := ⟨_, rfl⟩
  have set : u = s.setInput n (acceptChange raw { r with candidate := none, run := 0 }) := by
    rw [hu, State.modifyInput_eq h, own]
  have uOwn : u.input n = acceptChange raw { r with candidate := none, run := 0 } := by
    rw [set, State.setInput_input h, if_pos rfl]
  have uSize : n < u.scanner.inputs.length := by rw [set, State.setInput_length]; exact h
  have threshold : u.scanner.threshold = s.scanner.threshold := by rw [set]; rfl
  have result : (s.setInput n (r.changed s.scanner.threshold raw)).input n = r.changed s.scanner.threshold raw := by
    rw [State.setInput_input h, if_pos rfl]
  suffices entered : u.enterChatter n =
      (if (r.changed s.scanner.threshold raw).inChatter ∧ ¬ r.inChatter then
        (s.setInput n (r.changed s.scanner.threshold raw)).reportRaise n .chatter
      else s.setInput n (r.changed s.scanner.threshold raw)) by
    rw [State.changeAccepted, ← hu, entered, State.reportsChange, result]
    rfl
  have changedAs := r.changed_eq s.scanner.threshold raw
  have test : (!(u.input n).inChatter && decide (u.scanner.threshold ≤ (u.input n).chatterCount)) =
      (!r.inChatter && decide (s.scanner.threshold ≤ min (r.chatterCount + 1) 31)) := by
    rw [uOwn, threshold]
    rfl
  unfold State.enterChatter
  simp only [test]
  cases enters : !r.inChatter && decide (s.scanner.threshold ≤ min (r.chatterCount + 1) 31) with
  | false =>
    rw [enters, if_neg (by simp)] at changedAs
    have stays : ¬ ((r.changed s.scanner.threshold raw).inChatter = true ∧ ¬ r.inChatter = true) := by
      rw [changedAs]
      exact fun both => both.2 both.1
    rw [if_neg (by simp), if_neg stays, changedAs, set]
  | true =>
    rw [enters, if_pos rfl] at changedAs
    have enters' : (r.changed s.scanner.threshold raw).inChatter = true ∧ ¬ r.inChatter = true := by
      rw [changedAs]
      exact ⟨rfl, by simpa using (Bool.and_eq_true_iff.1 enters).1⟩
    rw [if_pos rfl, if_pos enters', State.modifyInput_eq uSize, uOwn, set, State.setInput_setInput, changedAs]

/-- One input scanned: its record, and the reports of a change (R149, R150, R152). -/
theorem State.scanInput_eq {s : State} {n : Nat} {b : Band} (h : n < s.scanner.inputs.length) : s.scanInput (b, n) =
    (if ((s.input n).scanned s.scanner b).condition = (s.input n).condition then s.setInput n ((s.input n).scanned s.scanner b)
    else (s.setInput n ((s.input n).scanned s.scanner b)).reportsChange n (s.input n)) := by
  obtain ⟨r, hr⟩ : ∃ r, r = s.input n := ⟨_, rfl⟩
  have setTo : ∀ f, s.modifyInput n f = s.setInput n (f r) := fun f => by rw [State.modifyInput_eq h, hr]
  unfold State.scanInput InputRecord.scanned
  simp only [← hr]
  cases reading : readBand r.mode b with
  | none =>
    simp only [if_true]
    rw [hr, State.setInput_self h]
  | some raw =>
    simp only [debounce, InputRecord.debounced]
    by_cases same : raw = r.condition
    · simp only [if_pos same, if_true]
      exact setTo _
    · simp only [if_neg same]
      by_cases short : r.runTo raw < s.scanner.debounce
      · have below : ¬ s.scanner.debounce ≤ (if r.candidate = some raw then r.run + 1 else 1) := Nat.not_le.2 short
        simp only [if_neg below, if_pos short, if_true]
        exact setTo _
      · have reached : s.scanner.debounce ≤ (if r.candidate = some raw then r.run + 1 else 1) := Nat.not_lt.1 short
        have differs : ¬ (r.changed s.scanner.threshold raw).condition = r.condition := same
        simp only [if_pos reached, if_neg short, if_neg differs]
        rw [setTo, State.changeAccepted_eq (by rw [State.setInput_length]; exact h) (by rw [State.setInput_input h, if_pos rfl]),
          State.setInput_setInput]
        rfl

/-! ### The inputs in turn -/

/-- The record of input `n` after its reading in a scan. -/
def State.seen (s : State) (bands : Vector Band 16) (n : Nat) : InputRecord := (s.input n).scanned s.scanner (bands.toList.getD n 0)

/-- The inputs below `m` scanned in turn. -/
def State.scanTo (s : State) (bands : Vector Band 16) (m : Nat) : State :=
  (List.range m).foldl (fun u n => u.scanInput (bands.toList.getD n 0, n)) s

theorem State.scanTo_succ (s : State) (bands : Vector Band 16) (m : Nat) :
    s.scanTo bands (m + 1) = (s.scanTo bands m).scanInput (bands.toList.getD m 0, m) := by
  rw [State.scanTo, List.range_succ, List.foldl_append]
  rfl

theorem zipIdx_eq_map_range {α : Type} (d : α) (l : List α) : l.zipIdx = (List.range l.length).map fun n => (l.getD n d, n) := by
  refine List.ext_getElem (by simp) fun i h _ => ?_
  have inside : i < l.length := by simpa using h
  simp [inside]

theorem State.scanTo_all (s : State) (bands : Vector Band 16) : bands.toList.zipIdx.foldl State.scanInput s = s.scanTo bands 16 := by
  rw [zipIdx_eq_map_range 0, List.foldl_map, Vector.length_toList]
  rfl

/-- The scanner once the inputs below `m` have been read. -/
def State.scannerTo (s : State) (bands : Vector Band 16) (m : Nat) : Scanner :=
  { s.scanner with inputs := (List.range 16).map fun n => if n < m then s.seen bands n else s.input n }

theorem State.scannerTo_length (s : State) (bands : Vector Band 16) (m : Nat) : (s.scannerTo bands m).inputs.length = 16 := by
  simp [State.scannerTo]

theorem getD_map_range {α : Type} (f : Nat → α) (d : α) {m n : Nat} (h : n < m) : ((List.range m).map f).getD n d = f n := by
  simp [h]

/-- The input records are those of their numbers. -/
theorem State.inputs_eq {s : State} (h : s.scanner.inputs.length = 16) : (List.range 16).map s.input = s.scanner.inputs := by
  refine List.ext_getElem (by simp [h]) fun i hi _ => ?_
  have inside : i < s.scanner.inputs.length := by simpa [h] using hi
  simp [State.input, inside]

theorem State.scanInput_scanner {s : State} {n : Nat} {b : Band} (h : n < s.scanner.inputs.length) :
    (s.scanInput (b, n)).scanner = (s.setInput n ((s.input n).scanned s.scanner b)).scanner := by
  rw [State.scanInput_eq h]
  split
  · rfl
  · exact (State.reportsChange_works _ n _).scanner

theorem State.scanInput_scans {s : State} {n : Nat} {b : Band} (h : n < s.scanner.inputs.length) : Scans s (s.scanInput (b, n)) := by
  rw [State.scanInput_eq h]
  split
  · exact s.withScanner_scans _
  · exact (s.withScanner_scans _).trans (State.reportsChange_works _ n _).scans

/-- What the scanner holds while the inputs are read in turn (R149). -/
theorem State.scanTo_scanner {s : State} (size : s.scanner.inputs.length = 16) (bands : Vector Band 16) :
    ∀ m ≤ 16, (s.scanTo bands m).scanner = s.scannerTo bands m := by
  intro m
  induction m with
  | zero =>
    intro _
    show s.scanner = { s.scanner with inputs := (List.range 16).map s.input }
    rw [State.inputs_eq size]
  | succ m ih =>
    intro hm
    have before := ih (by omega)
    have inside : m < (s.scanTo bands m).scanner.inputs.length := by rw [before, State.scannerTo_length]; omega
    have own : (s.scanTo bands m).input m = s.input m := by
      rw [State.input, before]
      exact (getD_map_range (fun n => if n < m then s.seen bands n else s.input n) inputStart (show m < 16 by omega)).trans
        (if_neg (Nat.lt_irrefl m))
    have records : ((List.range 16).map fun n => if n < m then s.seen bands n else s.input n).set m (s.seen bands m) =
        (List.range 16).map fun n => if n < m + 1 then s.seen bands n else s.input n := by
      refine List.ext_getElem (by simp) fun i _ _ => ?_
      simp only [List.getElem_set, List.getElem_map, List.getElem_range]
      by_cases own : m = i
      · rw [if_pos own, if_pos (by omega), own]
      · rw [if_neg own]
        exact if_congr (by omega) rfl rfl
    rw [State.scanTo_succ, State.scanInput_scanner inside, own, State.setInput, before]
    exact congrArg (fun l => ({ s.scanner with inputs := l } : Scanner)) records

theorem State.scanTo_inside {s : State} (size : s.scanner.inputs.length = 16) (bands : Vector Band 16) {m : Nat} (hm : m < 16) :
    m < (s.scanTo bands m).scanner.inputs.length := by
  rw [State.scanTo_scanner size bands m (by omega), State.scannerTo_length]
  exact hm

theorem State.scanTo_input {s : State} (size : s.scanner.inputs.length = 16) (bands : Vector Band 16) {m n : Nat} (hm : m ≤ 16) (hn : n < 16) :
    (s.scanTo bands m).input n = if n < m then s.seen bands n else s.input n := by
  rw [State.input, State.scanTo_scanner size bands m hm]
  exact getD_map_range _ _ hn

theorem State.scanTo_scans {s : State} (size : s.scanner.inputs.length = 16) (bands : Vector Band 16) :
    ∀ m ≤ 16, Scans s (s.scanTo bands m) := by
  intro m
  induction m with
  | zero => exact fun _ => rfl
  | succ m ih =>
    intro hm
    rw [State.scanTo_succ]
    exact (ih (by omega)).trans (State.scanInput_scans (State.scanTo_inside size bands (by omega)))

/-- The step of a scan at one input, in terms of the records at its start. -/
theorem State.scanTo_step {s : State} (size : s.scanner.inputs.length = 16) (bands : Vector Band 16) {n : Nat} (hn : n < 16) :
    s.scanTo bands (n + 1) = if (s.seen bands n).condition = (s.input n).condition then
        (s.scanTo bands n).withScanner (s.scannerTo bands (n + 1))
      else ((s.scanTo bands n).withScanner (s.scannerTo bands (n + 1))).reportsChange n (s.input n) := by
  have inside := State.scanTo_inside size bands hn
  have own : (s.scanTo bands n).input n = s.input n := by
    rw [State.scanTo_input size bands hn.le hn, if_neg (Nat.lt_irrefl n)]
  have reading : ((s.scanTo bands n).input n).scanned (s.scanTo bands n).scanner (bands.toList.getD n 0) = s.seen bands n := by
    rw [own, State.scanTo_scanner size bands n hn.le]
    rfl
  have scanner := State.scanInput_scanner (b := bands.toList.getD n 0) inside
  rw [← State.scanTo_succ, State.scanTo_scanner size bands (n + 1) hn, reading] at scanner
  rw [State.scanTo_succ, State.scanInput_eq inside, reading, own, scanner]
  rfl

/-- Inputs that do not change make no report (R150). -/
theorem State.scanTo_quiet {s : State} (size : s.scanner.inputs.length = 16) (bands : Vector Band 16) {a m : Nat} (ham : a ≤ m) :
    m ≤ 16 → (∀ n, a ≤ n → n < m → (s.seen bands n).condition = (s.input n).condition) →
    s.scanTo bands m = (s.scanTo bands a).withScanner (s.scannerTo bands m) := by
  induction m, ham using Nat.le_induction with
  | base =>
    intro ha _
    rw [← State.scanTo_scanner size bands a ha]
    rfl
  | succ m ham ih =>
    intro hm quiet
    rw [State.scanTo_step size bands (by omega), if_pos (quiet m ham (by omega)), ih (by omega) fun n h k => quiet n h (by omega)]
    rfl

/-- One input that changes makes its reports, from the state in which it and those before it have been read (R152). -/
theorem State.scanTo_one {s : State} (size : s.scanner.inputs.length = 16) (bands : Vector Band 16) {n : Nat} (hn : n < 16)
    (changes : (s.seen bands n).condition ≠ (s.input n).condition)
    (others : ∀ a < 16, a ≠ n → (s.seen bands a).condition = (s.input a).condition) :
    s.scanTo bands 16 = ((s.withScanner (s.scannerTo bands (n + 1))).reportsChange n (s.input n)).withScanner (s.scannerTo bands 16) := by
  have before : s.scanTo bands n = s.withScanner (s.scannerTo bands n) :=
    State.scanTo_quiet size bands (Nat.zero_le n) hn.le fun a _ ha => others a (by omega) (by omega)
  rw [State.scanTo_quiet size bands (show n + 1 ≤ 16 from hn) (Nat.le_refl 16) fun a ha h => others a h (by omega),
    State.scanTo_step size bands hn, if_neg changes, before]
  rfl

/-! ### LOCKOUT -/

/-- The run count of a LOCKOUT reading that differs from the debounced level (R151). -/
def Scanner.lockRunTo (c : Scanner) (level : Bool) : Nat := if c.lockCandidate = some level then c.lockRun + 1 else 1

/-- A reading of LOCKOUT that releases it (R158). -/
def Scanner.Releases (c : Scanner) (level : Bool) : Prop := level = false ∧ c.lockout = true ∧ c.debounce ≤ c.lockRunTo level

/-- The scanner after a reading of LOCKOUT (R151). -/
def Scanner.locked (c : Scanner) (level : Bool) : Scanner :=
  { c with
    lockout := if c.lockout ≠ level ∧ c.debounce ≤ c.lockRunTo level then level else c.lockout
    lockCandidate := if c.lockout ≠ level ∧ c.lockRunTo level < c.debounce then some level else none
    lockRun := if c.lockout ≠ level ∧ c.lockRunTo level < c.debounce then c.lockRunTo level else 0 }

/-- One reading of LOCKOUT: its debounce, then the reports of a release (R151, R158). -/
theorem State.scanLockout_cases (s : State) (level : Bool) :
    (s.scanner.Releases level → s.scanLockout level = (List.range 16).foldl State.releaseInput (s.withScanner (s.scanner.locked level))) ∧
    (¬ s.scanner.Releases level → s.scanLockout level = s.withScanner (s.scanner.locked level)) := by
  unfold State.scanLockout Scanner.locked
  simp only [debounce]
  by_cases same : level = s.scanner.lockout
  · have still : ¬ s.scanner.lockout ≠ level := fun differs => differs same.symm
    refine ⟨fun releases => absurd (same.symm.trans releases.1) (by rw [releases.2.1]; decide), fun _ => ?_⟩
    simp only [if_pos same, if_neg fun both : _ ∧ _ => still both.1]
  · have differs : s.scanner.lockout ≠ level := Ne.symm same
    by_cases short : s.scanner.lockRunTo level < s.scanner.debounce
    · have below : ¬ s.scanner.debounce ≤ (if s.scanner.lockCandidate = some level then s.scanner.lockRun + 1 else 1) := Nat.not_le.2 short
      have held : ¬ (s.scanner.lockout ≠ level ∧ s.scanner.debounce ≤ s.scanner.lockRunTo level) := fun both => below both.2
      simp only [if_neg same, if_neg below, if_neg held, if_pos (And.intro differs short)]
      exact ⟨fun releases => absurd releases.2.2 below, fun _ => rfl⟩
    · have reached : s.scanner.debounce ≤ (if s.scanner.lockCandidate = some level then s.scanner.lockRun + 1 else 1) := Nat.not_lt.1 short
      have now' : s.scanner.lockout ≠ level ∧ s.scanner.debounce ≤ s.scanner.lockRunTo level := ⟨differs, reached⟩
      simp only [if_neg same, if_pos reached, if_pos now', if_neg fun both : _ ∧ _ => short both.2]
      cases level with
      | false => exact ⟨fun _ => rfl, fun not => absurd ⟨rfl, by simpa using differs, reached⟩ not⟩
      | true => exact ⟨fun releases => absurd releases.1 (by decide), fun _ => rfl⟩

/-- The release considers this kind at the input (R158). -/
def InputRecord.held (r : InputRecord) (k : SourceKind) : Bool := r.lockable && r.used && r.stands k

theorem State.releaseKind_still {s : State} {n : Nat} {k : SourceKind} (h : (s.input n).stands k = false) : s.releaseKind n k = s := by
  rw [State.releaseKind, h]
  rfl

theorem State.releaseKind_open {s : State} {n e : Nat} {k : SourceKind} {i : Incident}
    (found : findSource s.engine.table n k = some (e, i)) (notClosing : i.state ≠ .closing) : s.releaseKind n k = s := by
  rw [State.releaseKind, found]
  simp only [if_neg notClosing, ite_self]

theorem State.releaseKind_raised {s : State} {n : Nat} {k : SourceKind} (stands : (s.input n).stands k = true)
    (closing : ∀ i ∈ s.incidents, i.input = n → i.kind = k → i.state = .closing) : s.releaseKind n k = s.reportRaise n k := by
  rw [State.releaseKind, if_pos stands]
  cases found : findSource s.engine.table n k with
  | none => rfl
  | some x =>
    obtain ⟨e, i⟩ := x
    obtain ⟨inTable, input, kind⟩ := findSource_some found
    exact if_pos (closing i (incident?_mem inTable) input kind)

theorem State.releaseKind_works (s : State) (n : Nat) (k : SourceKind) : Works s (s.releaseKind n k) := by
  unfold State.releaseKind
  split
  · split
    · split
      · exact s.reportRaise_works n k
      · exact .refl s
    · exact s.reportRaise_works n k
  · exact .refl s

/-- The kind that stands at an input (R158). -/
def InputRecord.standing (r : InputRecord) : Option SourceKind :=
  if r.inChatter then some .chatter else if r.condition.faulted then some .wiring else if r.condition = .active then some .alarm else none

theorem InputRecord.stands_iff (r : InputRecord) (k : SourceKind) : r.stands k = true ↔ r.standing = some k := by
  unfold InputRecord.stands InputRecord.standing
  cases r.inChatter with
  | true => cases k <;> simp
  | false => cases r.condition <;> cases k <;> decide

/-- At most one kind stands at an input (R158). -/
theorem InputRecord.stands_only {r : InputRecord} {k k' : SourceKind} (h : r.stands k = true) (differs : k' ≠ k) : r.stands k' = false := by
  refine Bool.eq_false_iff.2 fun also => differs ?_
  rw [InputRecord.stands_iff] at h also
  exact Option.some.inj (also.symm.trans h)

theorem State.releaseInput_still {s : State} {n : Nat} (h : ∀ k, (s.input n).held k = false) : s.releaseInput n = s := by
  unfold State.releaseInput
  simp only
  split
  · next locks =>
    have none' : ∀ k, (s.input n).stands k = false := fun k => by
      have held := h k
      rwa [InputRecord.held, locks, Bool.true_and] at held
    rw [List.foldl_cons, State.releaseKind_still (none' _), List.foldl_cons, State.releaseKind_still (none' _), List.foldl_cons,
      State.releaseKind_still (none' _), List.foldl_nil]
  · rfl

/-- The release for an input at which a kind stands: that kind alone (R158). -/
theorem State.releaseInput_one {s : State} {n : Nat} {k : SourceKind} (h : (s.input n).held k = true) :
    s.releaseInput n = s.releaseKind n k := by
  obtain ⟨locks, stands⟩ := Bool.and_eq_true_iff.1 h
  have before : ∀ k', k' ≠ k → s.releaseKind n k' = s := fun k' differs => State.releaseKind_still (InputRecord.stands_only stands differs)
  have after : ∀ k', k' ≠ k → (s.releaseKind n k).releaseKind n k' = s.releaseKind n k := fun k' differs =>
    State.releaseKind_still (by rw [(s.releaseKind_works n k).input]; exact InputRecord.stands_only stands differs)
  unfold State.releaseInput
  simp only [if_pos locks, List.foldl_cons, List.foldl_nil]
  cases k with
  | chatter => rw [after .wiring (by decide), after .alarm (by decide)]
  | wiring => rw [before .chatter (by decide), after .alarm (by decide)]
  | alarm => rw [before .chatter (by decide), before .wiring (by decide)]

theorem State.releaseInput_works (s : State) (n : Nat) : Works s (s.releaseInput n) := by
  unfold State.releaseInput
  simp only
  split
  · rw [List.foldl_cons, List.foldl_cons, List.foldl_cons, List.foldl_nil]
    exact ((State.releaseKind_works _ n _).trans (State.releaseKind_works _ n _)).trans (State.releaseKind_works _ n _)
  · exact .refl s

theorem State.releaseInputs_works (l : List Nat) : ∀ s : State, Works s (l.foldl State.releaseInput s) := by
  induction l with
  | nil => exact fun s => .refl s
  | cons n l ih => exact fun s => (s.releaseInput_works n).trans (ih _)

theorem State.releaseInputs_still {s : State} (h : ∀ n k, (s.input n).held k = false) :
    (List.range 16).foldl State.releaseInput s = s := List.foldl_fixed' (fun n => State.releaseInput_still (h n)) _

theorem State.releaseInputs_one {s : State} {n : Nat} {k : SourceKind} (hn : n < 16) (h : (s.input n).held k = true)
    (others : ∀ a k', a ≠ n → (s.input a).held k' = false) :
    (List.range 16).foldl State.releaseInput s = s.releaseKind n k := by
  rw [foldl_only (e := n) (fun a ha => State.releaseInput_still fun k' => others a k' ha)
    (fun a ha => State.releaseInput_still fun k' => by rw [(s.releaseInput_works n).input]; exact others a k' ha) _ List.nodup_range,
    if_pos (List.mem_range.2 hn), State.releaseInput_one h]

/-! ### A scan -/

theorem State.scanLockout_works (s : State) (level : Bool) : Works (s.withScanner (s.scanner.locked level)) (s.scanLockout level) := by
  by_cases releases : s.scanner.Releases level
  · rw [(s.scanLockout_cases level).1 releases]
    exact State.releaseInputs_works _ _
  · rw [(s.scanLockout_cases level).2 releases]
    exact .refl _

/-- The station at a scan, before its readings (R149). -/
def State.scanTimed (s : State) (T : Nat) : State :=
  { s with now := max s.now T, scanner := { s.scanner with scanAt := some (T + 20000) } }

theorem State.scanOnce_eq {s : State} {T : Nat} (h : s.scanner.scanAt = some T) (level : Bool) (bands : Vector Band 16) :
    s.scanOnce level bands = ((s.scanTimed T).scanLockout level).scanTo bands 16 := by
  rw [State.scanOnce, h, ← State.scanTo_all]
  rfl

/-- The release of LOCKOUT considers an input of the sixteen (R158). -/
theorem InputRecord.held_iff (r : InputRecord) (k : SourceKind) : r.held k = true ↔ r.lockable = true ∧ r.mode ≠ .unused ∧
    match k with
    | .chatter => r.inChatter = true
    | .wiring => r.inChatter = false ∧ (r.condition = .short ∨ r.condition = .opened)
    | .alarm => r.inChatter = false ∧ r.condition = .active := by
  unfold InputRecord.held InputRecord.used
  cases k <;> simp [InputRecord.stands, Condition.faulted, and_assoc]

/-- Settles O21: LOCKOUT, then the inputs in turn. -/
theorem scanDebouncesEveryInput : Obligations.ScanDebouncesEveryInput := by
  refine ⟨⟨fun b => rfl, rfl, rfl⟩, ?_⟩
  intro s T lock bands due size run after lockRun released changes
  obtain ⟨v, hv⟩ : ∃ v, v = s.scanTimed T := ⟨_, rfl⟩
  obtain ⟨w, hw⟩ : ∃ w, w = v.scanLockout lock := ⟨_, rfl⟩
  have locked : Works (v.withScanner (v.scanner.locked lock)) w := hw ▸ v.scanLockout_works lock
  have scanner : w.scanner = v.scanner.locked lock := locked.scanner
  have inputs : ∀ n, w.input n = s.input n := fun n => by rw [locked.input, hv]; rfl
  have wSize : w.scanner.inputs.length = 16 := by rw [scanner, hv]; exact size
  obtain ⟨t, ht⟩ : ∃ t, t = w.scanTo bands 16 := ⟨_, rfl⟩
  have ends : s.scanOnce lock bands = t := by rw [State.scanOnce_eq due, ← hv, ← hw, ht]
  have last : t.scanner = w.scannerTo bands 16 := by rw [ht]; exact State.scanTo_scanner wSize bands 16 (Nat.le_refl 16)
  have frame : Scans v t := by
    rw [ht]
    exact ((v.withScanner_scans _).trans locked.scans).trans (State.scanTo_scans wSize bands 16 (Nat.le_refl 16))
  have seen : ∀ n (h : n < 16), w.seen bands n = after (s.input n) bands[n] := fun n h => by
    have band : bands.toList.getD n 0 = bands[n] := by simp [h]
    rw [State.seen, inputs, band, scanner, hv]
    rfl
  have records : ∀ n, n < 16 → t.input n = w.seen bands n := fun n h => by
    rw [ht, State.scanTo_input wSize bands (Nat.le_refl 16) h, if_pos h]
  refine ⟨t, congrArg Host.Outcome.next ends, by rw [hv] at frame; exact frame, by rw [last, State.scannerTo, scanner, hv]; rfl,
    by rw [last]; exact State.scannerTo_length w bands 16, fun n h => (records n h).trans (seen n h), ?_⟩
  intro during
  have duringIs : ∀ m, during m = v.withScanner (w.scannerTo bands m) := fun m => by
    have same : ((List.range 16).map fun n => if n < m then t.input n else s.input n) =
        (List.range 16).map fun n => if n < m then w.seen bands n else w.input n :=
      List.map_congr_left fun n hn => by rw [records n (List.mem_range.1 hn), inputs]
    show ({ s with now := max s.now T, scanner := { t.scanner with inputs := _ } } : State) = _
    rw [same, last, hv]
    rfl
  have still : (∀ n, ¬ changes n) → t = w.withScanner t.scanner := fun quiet => by
    rw [last, ht]
    refine State.scanTo_quiet wSize bands (Nat.zero_le 16) (Nat.le_refl 16) fun n _ hn => ?_
    rw [seen n hn, inputs]
    exact not_not.1 fun differs => quiet n ⟨hn, differs⟩
  have held : ¬ released → w = v.withScanner (v.scanner.locked lock) := fun notReleased => by
    rw [hw]
    exact (v.scanLockout_cases lock).2 (by rw [hv]; exact notReleased)
  refine ⟨fun quiet notReleased => ?_, fun n change only notReleased => ?_, fun quiet releases => ?_⟩
  · have result := still quiet
    rw [held notReleased, hv] at result
    exact result
  · obtain ⟨hn, differs⟩ := change
    have one := State.scanTo_one wSize bands hn (by rw [seen n hn, inputs]; exact differs) fun a ha other => by
      rw [seen a ha, inputs]
      exact not_not.1 fun moves => other (only a ⟨ha, moves⟩)
    have before : w.withScanner (w.scannerTo bands (n + 1)) = during (n + 1) := by
      rw [duringIs, held notReleased]
      rfl
    have own : (during (n + 1)).input n = t.input n := by
      rw [duringIs, records n hn]
      exact (getD_map_range (fun a => if a < n + 1 then w.seen bands a else w.input a) inputStart hn).trans (if_pos (Nat.lt_succ_self n))
    rw [← ht, ← last, before, State.reportsChange, own, inputs] at one
    exact one
  · intro stands
    have standsIff : ∀ n k, stands n k ↔ n < 16 ∧ (v.input n).held k = true := fun n k => by
      rw [InputRecord.held_iff, hv]
      exact Iff.rfl
    have out : ∀ n k, ¬ stands n k → (v.input n).held k = false := fun n k not => by
      by_cases inside : n < 16
      · exact Bool.eq_false_iff.2 fun yes => not ((standsIff n k).2 ⟨inside, yes⟩)
      · rw [State.input_absent (by rw [hv]; exact size.le.trans (Nat.not_lt.1 inside))]
        cases k <;> rfl
    obtain ⟨x, hx⟩ : ∃ x, x = v.withScanner (v.scanner.locked lock) := ⟨_, rfl⟩
    have released' : w = (List.range 16).foldl State.releaseInput x := by
      rw [hw, hx]
      exact (v.scanLockout_cases lock).1 (by rw [hv]; exact releases)
    have xInput : ∀ n, x.input n = v.input n := fun n => by rw [hx]; rfl
    have first : during 0 = x := by
      rw [duringIs, hx, ← State.scanTo_scanner wSize bands 0 (Nat.zero_le 16), ← scanner]
      rfl
    have result := still quiet
    refine ⟨fun none' => ?_, fun n k stand only => ?_⟩
    · rw [released', State.releaseInputs_still fun n k => by rw [xInput]; exact out n k (none' n k), hx, hv] at result
      exact result
    · obtain ⟨hn, own⟩ := (standsIff n k).1 stand
      rw [released', State.releaseInputs_one hn (by rw [xInput]; exact own) fun a k' ha => by
        rw [xInput]; exact out a k' fun also => ha (only a k' also)] at result
      refine ⟨fun ⟨e, i, inTable, input, kind, notClosing, unique⟩ => ?_, fun closing => ?_⟩
      · have found : findSource x.engine.table n k = some (e, i) := by
          rw [hx, hv]
          exact findSource_only (s := s) inTable input kind unique
        rw [State.releaseKind_open found notClosing, hx, hv] at result
        exact result
      · have stands' : (x.input n).stands k = true := by
          rw [xInput]
          exact (Bool.and_eq_true_iff.1 own).2
        rw [State.releaseKind_raised stands' (by rw [hx, hv]; exact closing), ← first] at result
        exact result

end Sys2Proof.Machine
end

section
/-! PROOF. What a slot boundary makes of a SETTLE, a CALL or a ZONE burst that is owed, and of the raises that pend (R9, R20). -/

namespace Sys2Proof.Machine

/-! ### A boundary away from slots 0 and 16 -/

/-- The station in its next slot, away from slots 0 and 16, before anything owed is offered (R90, R100). -/
def State.inNextSlot (s : State) (T : Nat) : State := { s with
  now := max s.now T
  zone := { s.zone with
    slotStart := T, slotAt := some (T + 80000), slot := s.zone.slot + 1
    handover := if s.zone.dark then none else (s.zone.plan[s.zone.slot + 1]?).join.map fun f => ⟨pageFrameBytes f, 0⟩ } }

theorem State.boundary_away {s : State} {T : Nat} (at' : s.zone.slotAt = some T) (low : s.zone.slot < 32) (h31 : s.zone.slot ≠ 31)
    (h15 : s.zone.slot ≠ 15) (free : s.zone.handover = none) : s.boundary = (s.inNextSlot T).engineBoundary.reofferZone := by
  have begun : (s.slotBegun T).nextSlot.startHandover = s.inNextSlot T := by
    have next : (s.zone.slot + 1) % 32 = s.zone.slot + 1 := Nat.mod_eq_of_lt (by omega)
    have frame := (s.aired T).slotFrame_eq
    rw [State.nextSlot_eq T low, if_neg h31, if_neg h15, State.startHandover, frame]
    unfold State.aired State.inNextSlot
    simp only [if_neg h31, if_neg h15, next, if_neg (Nat.succ_ne_zero s.zone.slot)]
    rfl
  rw [State.boundary_eq at' free, begun]

/-! ### One entry owes -/

theorem State.setEntry_same {s : State} {e : Nat} {i : Incident} (h : s.incident? e = some i) : s.setEntry e (some i) = s := by
  have same : s.engine.table.set e (some i) = s.engine.table := by
    obtain ⟨inside, holds⟩ := List.getElem?_eq_some_iff.1 (incident?_eq.1 h)
    rw [← holds]
    exact List.set_getElem_self inside
  rw [State.setEntry, same]
  rfl

/-- Offering the CALL of one entry again leaves the others alone, and the marks (R20). -/
theorem State.reofferCall_sets {s : State} {e : Nat} {i : Incident} (h : s.incident? e = some i) :
    ∃ owed, Sets e { i with callOwed := owed } s (s.reofferCall e) := by
  rw [State.reofferCall, h]
  by_cases owes : i.callOwed = true
  · obtain ⟨owed, sets⟩ := State.offerCall_sets h
    exact ⟨owed, by simpa only [owes, if_true] using sets⟩
  · refine ⟨i.callOwed, ?_⟩
    simp only [if_neg owes]
    exact ⟨(congrArg (fun u => u.engine.table) (State.setEntry_same h)).symm, rfl⟩

theorem State.reofferCall_others (s : State) {e a : Nat} (ha : a ≠ e) : (s.reofferCall e).incident? a = s.incident? a := by
  cases h : s.incident? e with
  | none => rw [State.reofferCall, h]
  | some i =>
    obtain ⟨owed, sets⟩ := State.reofferCall_sets h
    rw [sets.incident (incident?_lt h), if_neg ha]

/-- With one entry alone that may owe something, the boundary offers its SETTLE and its CALL (R20). -/
theorem State.engineBoundary_at {s : State} {e : Nat} (he : e < tableSize)
    (others : ∀ a j, a ≠ e → s.incident? a = some j → j.settleOwed = none ∧ j.callOwed = false)
    (kept : ∀ a ≠ e, (s.reofferSettle e).incident? a = s.incident? a) : s.engineBoundary = (s.reofferSettle e).reofferCall e := by
  have settles : (List.range tableSize).foldl State.reofferSettle s = s.reofferSettle e := by
    rw [foldl_only (e := e) (fun a ha => State.reofferSettle_of_none fun j hj => (others a j ha hj).1)
      (fun a ha => State.reofferSettle_of_none fun j hj => (others a j ha (kept a ha ▸ hj)).1) _ List.nodup_range,
      if_pos (List.mem_range.2 he)]
  rw [State.engineBoundary, settles,
    foldl_only (e := e) (fun a ha => State.reofferCall_of_none fun j hj => (others a j ha (kept a ha ▸ hj)).2)
      (fun a ha => State.reofferCall_of_none fun j hj => (others a j ha (kept a ha ▸ State.reofferCall_others _ ha ▸ hj)).2) _
      List.nodup_range, if_pos (List.mem_range.2 he)]

/-- With no ZONE burst owed a boundary ends with what the incidents owe (R20, R107). -/
theorem State.engineBoundary_zone {s : State} (h : s.zone.zoneOwed = false) : s.engineBoundary.reofferZone = s.engineBoundary :=
  State.reofferZone_of_not_owed (by rw [(s.engineBoundary_works).zone]; exact h)

/-- Offering the SETTLE TAKEN of an entry sets that entry alone (R13). -/
theorem State.offerTaken_sets {s : State} {e : Nat} {i : Incident} (h : s.incident? e = some i) :
    ∃ owed, Sets e { i with settleOwed := owed } s (s.offerTaken e) := by
  have engine := s.offer_engine (.settle (i.settle .taken)) (lineClassFor i.cls) none
  unfold State.offerTaken
  rw [h]
  simp only
  split
  · refine ⟨none, Sets.keep ?_ (State.applySettle_engine _ _ _)⟩
    exact ⟨by rw [← engine]; rfl, by rw [← engine]; rfl⟩
  · exact ⟨some .taken, by rw [← engine]; rfl, by rw [← engine]; rfl⟩

/-- The station with an entry freed, its closing record made and its SETTLE applied here, before pending raises open (R19). -/
def State.freed (s : State) (e : Nat) (i : Incident) (k : SettleKind) : State :=
  ((s.setEntry e none).append (settleTag k) (some i.serial) i.responder none).applySettle s.ident.station (i.settle k)

theorem State.freed_engine (s : State) (e : Nat) (i : Incident) (k : SettleKind) :
    (s.freed e i k).engine = { s.engine with table := s.engine.table.set e none } := State.applySettle_engine _ _ _

theorem State.freeEntry_eq (s : State) (e : Nat) (i : Incident) (k : SettleKind) : s.freeEntry e i k = State.openPending 48 (s.freed e i k) :=
  rfl

theorem incident?_set_none {s t : State} {e : Nat} (h : t.engine.table = s.engine.table.set e none) (a : Nat) :
    t.incident? a = if a = e then none else s.incident? a := by
  unfold State.incident?
  rw [h, List.getElem?_set]
  by_cases own : e = a
  · rw [if_pos own, if_pos own.symm]
    split <;> rfl
  · rw [if_neg own, if_neg (Ne.symm own)]

/-- With no mark set a closing SETTLE offered again frees its entry or leaves the table (R19, R20). -/
theorem State.offerClosing_idle {s : State} {e : Nat} {i : Incident} (h : s.incident? e = some i) (calls : i.callOwed = false)
    (pend : ∀ m ∈ s.engine.pend, m = none) :
    (∀ a ≠ e, (s.offerClosing e).incident? a = s.incident? a) ∧ ∀ j, (s.offerClosing e).incident? e = some j → j.callOwed = false := by
  have still : (∀ a ≠ e, s.incident? a = s.incident? a) ∧ ∀ j, s.incident? e = some j → j.callOwed = false :=
    ⟨fun _ _ => rfl, fun j hj => by rw [h] at hj; cases hj; exact calls⟩
  cases owes : i.settleOwed with
  | none =>
    have same : s.offerClosing e = s := by
      rw [State.offerClosing, h]
      simp only [owes]
    rw [same]
    exact still
  | some k =>
    have engine := s.offer_engine (.settle (i.settle k)) (lineClassFor i.cls) none
    rw [State.offerClosing, h]
    simp only [owes]
    obtain ⟨u, hu⟩ : ∃ u, u = (s.offer (.settle (i.settle k)) (lineClassFor i.cls) none).1 := ⟨_, rfl⟩
    rw [← hu] at engine ⊢
    split
    · have table : (u.freeEntry e i k).engine.table = s.engine.table.set e none := by
        rw [State.freeEntry_eq, State.openPending_idle, State.freed_engine, engine]
        rw [State.freed_engine, engine]
        exact pend
      refine ⟨fun a ha => by rw [incident?_set_none table, if_neg ha], fun j hj => ?_⟩
      rw [incident?_set_none table, if_pos rfl] at hj
      cases hj
    · have same : ∀ a, u.incident? a = s.incident? a := fun a => by rw [State.incident?, engine, State.incident?]
      exact ⟨fun a _ => same a, fun j hj => still.2 j (same e ▸ hj)⟩

/-! ### The pending raise that opens -/

/-- The best of a row: the first of the lowest class (R9). -/
theorem State.foldl_betterMark {s : State} {l₁ l₂ : List (Nat × Bool)} {x : Nat × Bool}
    (before : ∀ y ∈ l₁, s.sourceClass (x.1 / 3) (placeKind x.1) < s.sourceClass (y.1 / 3) (placeKind y.1))
    (behind : ∀ y ∈ l₂, s.sourceClass (x.1 / 3) (placeKind x.1) ≤ s.sourceClass (y.1 / 3) (placeKind y.1)) :
    (l₁ ++ x :: l₂).foldl s.betterMark none = some x := by
  have among : ∀ (l : List (Nat × Bool)) (best : Option (Nat × Bool)), (∀ b, best = some b → b ∈ l₁) → (∀ y ∈ l, y ∈ l₁) →
      ∀ b, l.foldl s.betterMark best = some b → b ∈ l₁ := by
    intro l
    induction l with
    | nil => exact fun best hb _ => hb
    | cons y l ih =>
      intro best hb hl
      refine ih _ (fun b h => ?_) fun z hz => hl z (List.mem_cons_of_mem y hz)
      have own := hl y List.mem_cons_self
      unfold State.betterMark at h
      split at h
      · cases h
        exact own
      · split at h
        · cases h
          exact own
        · cases h
          exact hb _ rfl
  have better : s.betterMark (l₁.foldl s.betterMark none) x = some x := by
    cases first : l₁.foldl s.betterMark none with
    | none => rfl
    | some b => exact if_pos (before b (among l₁ none (fun _ h => by cases h) (fun _ h => h) b first))
  have stays : ∀ l : List (Nat × Bool), (∀ y ∈ l, y ∈ l₂) → l.foldl s.betterMark (some x) = some x := by
    intro l
    induction l with
    | nil => exact fun _ => rfl
    | cons y l ih =>
      intro hl
      have worse : s.betterMark (some x) y = some x := if_neg (Nat.not_lt.2 (behind y (hl y List.mem_cons_self)))
      rw [List.foldl_cons, worse, ih fun z hz => hl z (List.mem_cons_of_mem y hz)]
  rw [List.foldl_append, List.foldl_cons, better, stays l₂ fun _ h => h]

/-- A mark at its place, when its raise may open (R9). -/
def State.opens (s : State) (x : Option Bool × Nat) : Option (Nat × Bool) :=
  x.1.bind fun note => if (findSource s.engine.table (x.2 / 3) (placeKind x.2)).isNone then some (x.2, note) else none

theorem State.openable_eq (s : State) : s.openable = s.engine.pend.zipIdx.filterMap s.opens := by
  unfold State.openable
  congr 1
  funext x
  obtain ⟨m, i⟩ := x
  cases m <;> rfl

theorem State.opens_eq_some {s : State} {x : Option Bool × Nat} {y : Nat × Bool} : s.opens x = some y ↔
    x = (some y.2, y.1) ∧ findSource s.engine.table (y.1 / 3) (placeKind y.1) = none := by
  obtain ⟨m, i⟩ := x
  obtain ⟨p, note⟩ := y
  cases m with
  | none => simp [State.opens]
  | some b =>
    by_cases free : findSource s.engine.table (i / 3) (placeKind i) = none
    · simp only [State.opens, Option.bind_some, free, Option.isNone_none, if_true, Option.some.injEq, Prod.mk.injEq]
      constructor
      · rintro ⟨rfl, rfl⟩
        exact ⟨⟨rfl, rfl⟩, free⟩
      · rintro ⟨⟨rfl, rfl⟩, -⟩
        exact ⟨rfl, rfl⟩
    · have held : (findSource s.engine.table (i / 3) (placeKind i)).isNone ≠ true := by simpa using free
      simp only [State.opens, Option.bind_some, if_neg held, reduceCtorEq, false_iff, Option.some.injEq, Prod.mk.injEq]
      rintro ⟨⟨-, rfl⟩, free'⟩
      exact free free'

/-- The best pending raise, by its place (R9). -/
theorem State.bestMark_eq {s : State} {p : Nat} {note : Bool} (mark : s.engine.pend[p]? = some (some note))
    (free : findSource s.engine.table (p / 3) (placeKind p) = none)
    (best : ∀ q m, q ≠ p → s.engine.pend[q]? = some (some m) → findSource s.engine.table (q / 3) (placeKind q) = none →
      s.sourceClass (p / 3) (placeKind p) < s.sourceClass (q / 3) (placeKind q) ∨
        (s.sourceClass (p / 3) (placeKind p) = s.sourceClass (q / 3) (placeKind q) ∧ p < q)) : s.bestMark = some (p, note) := by
  obtain ⟨inside, holds⟩ := List.getElem?_eq_some_iff.1 mark
  have cut : s.engine.pend.zipIdx = s.engine.pend.zipIdx.take p ++ (some note, p) :: s.engine.pend.zipIdx.drop (p + 1) := by
    have here : (some note, p) = s.engine.pend.zipIdx[p]'(by simpa using inside) := by simp [holds]
    rw [here, List.getElem_cons_drop, List.take_append_drop]
  have own : s.opens (some note, p) = some (p, note) := by
    rw [State.opens_eq_some]
    exact ⟨rfl, free⟩
  rw [State.bestMark, State.openable_eq, cut, List.filterMap_append, List.filterMap_cons_some own]
  refine State.foldl_betterMark (fun y hy => ?_) fun y hy => ?_
  · obtain ⟨x, hx, hy⟩ := List.mem_filterMap.1 hy
    obtain ⟨rfl, free'⟩ := State.opens_eq_some.1 hy
    obtain ⟨j, hj, at'⟩ := List.mem_take_iff_getElem.1 hx
    rw [List.getElem_zipIdx, Prod.mk.injEq] at at'
    obtain ⟨held, place⟩ := at'
    have low : y.1 < p := by omega
    have marked : s.engine.pend[y.1]? = some (some y.2) := by
      rw [← held, ← place, Nat.zero_add]
      exact List.getElem?_eq_getElem _
    rcases best y.1 y.2 low.ne marked free' with less | ⟨-, later⟩
    · exact less
    · exact absurd later (Nat.lt_asymm low)
  · obtain ⟨x, hx, hy⟩ := List.mem_filterMap.1 hy
    obtain ⟨rfl, free'⟩ := State.opens_eq_some.1 hy
    obtain ⟨j, hj, at'⟩ := List.mem_drop_iff_getElem.1 hx
    rw [List.getElem_zipIdx, Prod.mk.injEq] at at'
    obtain ⟨held, place⟩ := at'
    have high : p < y.1 := by omega
    have marked : s.engine.pend[y.1]? = some (some y.2) := by
      rw [← held, ← place, Nat.zero_add]
      exact List.getElem?_eq_getElem _
    rcases best y.1 y.2 high.ne' marked free' with less | ⟨same, -⟩
    · exact less.le
    · exact same.le

/-! ### The places of the marks (R8, R9) -/

theorem markPlace_div (n : Nat) (k : SourceKind) : markPlace n k / 3 = n := by
  cases k <;> simp only [markPlace, sourceKindCode] <;> omega

theorem placeKind_markPlace (n : Nat) (k : SourceKind) : placeKind (markPlace n k) = k := by
  cases k with
  | alarm => exact if_pos (by simp only [markPlace, sourceKindCode]; omega)
  | wiring =>
    exact (if_neg (by simp only [markPlace, sourceKindCode]; omega)).trans (if_pos (by simp only [markPlace, sourceKindCode]; omega))
  | chatter =>
    exact (if_neg (by simp only [markPlace, sourceKindCode]; omega)).trans (if_neg (by simp only [markPlace, sourceKindCode]; omega))

theorem sourceKindCode_placeKind (q : Nat) : sourceKindCode (placeKind q) = q % 3 := by
  unfold placeKind
  split
  · next zero => exact zero.symm
  · split
    · next one => exact one.symm
    · show 2 = q % 3
      omega

theorem markPlace_placeKind (q : Nat) : markPlace (q / 3) (placeKind q) = q := by
  rw [markPlace, sourceKindCode_placeKind]
  omega

/-! ### A pending raise takes the freed entry -/

/-- With one entry free and a best pending raise, that raise opens in it, and no other (R9). -/
theorem State.openPending_one {y : State} {e n : Nat} {kind : SourceKind} {note : Bool} (fuel : Nat) (he : e < y.engine.table.length)
    (free : y.incident? e = none) (others : ∀ a < y.engine.table.length, a ≠ e → y.incident? a ≠ none)
    (best : y.bestMark = some (markPlace n kind, note)) :
    ∃ j, Sets e j (y.setMark n kind none) (State.openPending (fuel + 2) y) ∧ j.input = n ∧ j.kind = kind ∧ j.restored = note ∧
      (j.state = .calling ∨ j.state = .unanswered) := by
  obtain ⟨v, hv⟩ : ∃ v, v = y.setMark n kind none := ⟨_, rfl⟩
  have inside : e < v.engine.table.length := by rw [hv]; exact he
  obtain ⟨j, climbs, state, -⟩ := State.openIncident_opens inside n kind note
  obtain ⟨z, hz⟩ : ∃ z, z = v.openIncident e n kind note := ⟨_, rfl⟩
  have lowest : lowestFree y.engine.table = some e := lowestFree_eq_some he free fun a ha => others a (by omega) (by omega)
  have table : Sets e j v z := by
    rw [hz]
    exact ⟨by rw [climbs.engine]; exact List.set_set .., by rw [climbs.engine]; rfl⟩
  have full : lowestFree z.engine.table = none := lowestFree_eq_none fun a ha => by
    rw [table.table, List.length_set] at ha
    rw [table.incident inside]
    split
    · exact Option.some_ne_none j
    · next differs => exact others a (by rw [hv] at ha; exact ha) differs |> fun held => by rw [hv]; exact held
  have opened : State.openPending (fuel + 2) y = z := by
    rw [State.openPending, lowest, best]
    simp only [markPlace_div, placeKind_markPlace]
    rw [← hv, ← hz, State.openPending, full]
  have same := climbs.same
  exact ⟨j, opened ▸ hv ▸ table, by rw [same]; rfl, by rw [same]; rfl, by rw [same]; rfl, state⟩

theorem State.freed_works (s : State) (e : Nat) (i : Incident) (k : SettleKind) : Works s (s.freed e i k) :=
  ((s.setEntry_works e none).trans (State.append_works _ _ _ _ _)).trans (State.applySettle_works _ _ _)

theorem State.sourceClass_scanner {s t : State} (h : t.scanner = s.scanner) (n : Nat) (k : SourceKind) : t.sourceClass n k = s.sourceClass n k := by
  rw [sourceClass_eq, sourceClass_eq, State.input, h, State.input]

/-- An open incident stands in an entry (R1). -/
theorem exists_incident? {s : State} {j : Incident} (h : j ∈ s.incidents) : ∃ a, s.incident? a = some j := by
  obtain ⟨a, inside, holds⟩ := List.getElem_of_mem (mem_incidents.1 h)
  exact ⟨a, incident?_eq.2 (by rw [List.getElem?_eq_getElem inside, holds])⟩

/-- The source has an open incident other than that of entry `e`. -/
def State.OpenBut (s : State) (e n : Nat) (k : SourceKind) : Prop := ∃ a j, a ≠ e ∧ s.incident? a = some j ∧ j.input = n ∧ j.kind = k

/-- Once an entry is freed, a source has no open incident exactly when no other entry holds one of it (R9). -/
theorem findSource_freed {s t : State} {e n : Nat} {k : SourceKind} (h : t.engine.table = s.engine.table.set e none) :
    findSource t.engine.table n k = none ↔ ¬ s.OpenBut e n k := by
  constructor
  · rintro absent ⟨a, j, differs, holds, input, kind⟩
    have stays : t.incident? a = some j := by rw [incident?_set_none h, if_neg differs, holds]
    exact findSource_none absent (List.mem_map.2 ⟨j, incident?_mem stays, by rw [input, kind]⟩)
  · refine fun closed => findSource_absent fun j hj input kind => ?_
    obtain ⟨a, holds⟩ := exists_incident? hj
    rw [incident?_set_none h] at holds
    by_cases own : a = e
    · rw [if_pos own] at holds
      cases holds
    · rw [if_neg own] at holds
      exact closed ⟨a, j, own, holds, input, kind⟩

/-- The pending raise of input `n` and kind `kind` ranks before every other that may open once entry `e` is free (R9). -/
def State.RanksFirst (s : State) (e n : Nat) (kind : SourceKind) : Prop :=
  ∀ n' kind', n' < 16 → s.mark n' kind' ≠ none → ¬ s.OpenBut e n' kind' → (n', kind') ≠ (n, kind) →
    s.sourceClass n kind < s.sourceClass n' kind' ∨ (s.sourceClass n kind = s.sourceClass n' kind' ∧
      (n < n' ∨ n = n' ∧ sourceKindCode kind < sourceKindCode kind'))

/-- The best mark once entry `e` is free (R9). -/
theorem State.bestMark_freed {s y : State} {e n : Nat} {kind : SourceKind} {note : Bool}
    (engine : y.engine = { s.engine with table := s.engine.table.set e none }) (scanner : y.scanner = s.scanner)
    (size : s.engine.pend.length = 48) (mark : s.mark n kind = some note) (closed : ¬ s.OpenBut e n kind) (first : s.RanksFirst e n kind) :
    y.bestMark = some (markPlace n kind, note) := by
  have table : y.engine.table = s.engine.table.set e none := by rw [engine]
  have pend : y.engine.pend = s.engine.pend := by rw [engine]
  refine State.bestMark_eq ?_ ?_ fun q m differs marked free => ?_
  · rw [pend]
    exact Option.join_eq_some_iff.1 mark
  · rw [markPlace_div, placeKind_markPlace]
    exact (findSource_freed table).2 closed
  · rw [pend] at marked
    obtain ⟨inside, -⟩ := List.getElem?_eq_some_iff.1 marked
    have set : s.mark (q / 3) (placeKind q) ≠ none := by
      rw [State.mark, markPlace_placeKind, marked]
      exact Option.some_ne_none m
    have other : (q / 3, placeKind q) ≠ (n, kind) := fun same => differs (by
      rw [Prod.mk.injEq] at same
      rw [← same.1, ← same.2, markPlace_placeKind])
    have ranks := first (q / 3) (placeKind q) (by omega) set ((findSource_freed table).1 free) other
    rw [markPlace_div, placeKind_markPlace, State.sourceClass_scanner scanner, State.sourceClass_scanner scanner]
    refine ranks.imp_right fun ⟨same, later⟩ => ⟨same, ?_⟩
    rw [sourceKindCode_placeKind] at later
    have low : sourceKindCode kind ≤ 2 := by cases kind <;> decide
    unfold markPlace
    omega

/-- A closing SETTLE accepted at a full table lets the best pending raise take its entry (R9, R19). -/
theorem State.offerClosing_opens {s : State} {e n : Nat} {i : Incident} {k : SettleKind} {kind : SourceKind} {note : Bool}
    (h : s.incident? e = some i) (owes : i.settleOwed = some k) (hold : s.line.hold = false) (room : s.line.queue.length < queueMax)
    (full : ∀ a < s.engine.table.length, s.incident? a ≠ none) (size : s.engine.pend.length = 48) (mark : s.mark n kind = some note)
    (closed : ¬ s.OpenBut e n kind) (first : s.RanksFirst e n kind) :
    ∃ j, Sets e j (s.setMark n kind none) (s.offerClosing e) ∧ j.input = n ∧ j.kind = kind ∧ j.restored = note ∧
      (j.state = .calling ∨ j.state = .unanswered) := by
  obtain ⟨v, hv⟩ : ∃ v, v = s.withLine (s.line.place ⟨.settle (i.settle k), lineClassFor i.cls, none, 0⟩) := ⟨_, rfl⟩
  have accepted : s.offerClosing e = State.openPending 48 (v.freed e i k) := by
    rw [State.offerClosing, h]
    simp only [owes, s.offer_room _ _ _ hold room, ← hv]
    rfl
  have engine : (v.freed e i k).engine = { s.engine with table := s.engine.table.set e none } := by
    rw [State.freed_engine, hv]
    rfl
  have table : (v.freed e i k).engine.table = s.engine.table.set e none := by rw [engine]
  have scanner : (v.freed e i k).scanner = s.scanner := by
    rw [(State.freed_works v e i k).scanner, hv]
    rfl
  have size' : (v.freed e i k).engine.table.length = s.engine.table.length := by rw [table, List.length_set]
  obtain ⟨j, sets, opened⟩ := State.openPending_one 46 (size' ▸ incident?_lt h) (by rw [incident?_set_none table, if_pos rfl])
    (fun a ha differs => by rw [incident?_set_none table, if_neg differs]; exact full a (size' ▸ ha))
    (State.bestMark_freed engine scanner size mark closed first)
  refine ⟨j, ⟨?_, ?_⟩, opened⟩
  · rw [accepted, sets.table]
    show (v.freed e i k).engine.table.set e (some j) = s.engine.table.set e (some j)
    rw [table, List.set_set]
  · rw [accepted, sets.pend]
    show (v.freed e i k).engine.pend.set _ _ = s.engine.pend.set _ _
    rw [engine]

/-- Settles O9: each owed burst by the one entry, or the zone, that owes it. -/
theorem slotBoundaryOffersTheOwedSettle : Obligations.SlotBoundaryOffersTheOwedSettle := by
  intro s T at' low h31 h15 free next
  obtain ⟨x, hx⟩ : ∃ x, x = s.inNextSlot T := ⟨_, rfl⟩
  have incidents : ∀ a, x.incident? a = s.incident? a := fun a => by rw [hx]; rfl
  have ends := State.boundary_away at' low h31 h15 free
  rw [← hx] at ends
  have isNext : x = next := hx
  refine ⟨fun e i zone size found settles calls => ?_, fun e i zone size found owes settles others => ?_, fun zone idle => ?_⟩
  · have he : e < tableSize := lt_of_lt_of_eq (incident?_lt found) size
    have inNext : x.incident? e = some i := (incidents e).trans found
    have noCall : i.callOwed = false := calls i (incident?_mem found)
    have served : (∀ a ≠ e, (x.reofferSettle e).incident? a = x.incident? a) → s.boundary = (x.reofferSettle e).reofferCall e := fun kept => by
      rw [ends, State.engineBoundary_zone (by rw [hx]; exact zone)]
      refine State.engineBoundary_at he (fun a j ha hj => ?_) kept
      rw [incidents] at hj
      exact ⟨settles a j ha hj, calls j (incident?_mem hj)⟩
    have closes : i.state = .closing → x.reofferSettle e = x.offerClosing e := fun closing => by
      rw [State.reofferSettle, inNext]
      simp only [closing]
    refine ⟨fun taken owes => ?_, fun k closing owes pend => ?_, fun k n kind note hold room closing owes size' hn full mark => ?_⟩
    · have offers : x.reofferSettle e = x.offerTaken e := by
        rw [State.reofferSettle, inNext]
        simp only [taken, owes, if_true]
      obtain ⟨owed, sets⟩ := State.offerTaken_sets inNext
      have result := served fun a ha => by rw [offers, sets.incident (incident?_lt inNext), if_neg ha]
      rw [offers, State.reofferCall_of_none fun j hj => by
        rw [sets.lookup (incident?_lt inNext)] at hj
        cases hj
        exact noCall] at result
      have offered := State.offerTaken_offered inNext
      have still : ({ i with settleOwed := some .taken } : Incident) = i := by rw [← owes]
      rw [still, State.setEntry_same inNext, isNext] at offered
      exact ⟨_, congrArg Host.Outcome.next (result.trans (by rw [isNext])), offered⟩
    · obtain ⟨kept, quiet⟩ := State.offerClosing_idle inNext noCall (by rw [hx]; exact pend)
      have result := served (by rw [closes closing]; exact kept)
      rw [closes closing, State.reofferCall_of_none quiet] at result
      have offered := State.offerClosing_offered inNext owes (by rw [hx]; exact pend)
      rw [isNext] at offered
      exact ⟨_, congrArg Host.Outcome.next (result.trans (by rw [isNext])), offered⟩
    · intro open' closed first
      obtain ⟨j, sets, input, kind', restored, state⟩ := State.offerClosing_opens (n := n) (kind := kind) (note := note) inNext owes
        (by rw [hx]; exact hold) (by rw [hx]; exact room) (fun a ha => by rw [incidents]; exact full a (by rw [hx] at ha; exact size ▸ ha))
        (by rw [hx]; exact size') (by rw [hx]; exact mark) (by rw [hx]; exact closed) (by rw [hx]; exact first)
      have inside : e < (x.setMark n kind none).engine.table.length := incident?_lt inNext
      have opened : (x.offerClosing e).incident? e = some j := sets.lookup inside
      have others : ∀ a ≠ e, (x.offerClosing e).incident? a = x.incident? a := fun a ha => by
        rw [sets.incident inside, if_neg ha]
        rfl
      have result := served (by rw [closes closing]; exact others)
      rw [closes closing] at result
      obtain ⟨owed, again⟩ := State.reofferCall_sets opened
      refine ⟨_, { j with callOwed := owed }, congrArg Host.Outcome.next result, again.lookup (incident?_lt opened), input, kind', restored,
        state, ?_, fun a ha => ?_⟩
      · rw [again.pend, sets.pend, hx]
        rfl
      · rw [State.reofferCall_others _ ha, others a ha, incidents]
  · have he : e < tableSize := lt_of_lt_of_eq (incident?_lt found) size
    have inNext : x.incident? e = some i := (incidents e).trans found
    have quiet : x.reofferSettle e = x := State.reofferSettle_of_none fun j hj => settles j (incident?_mem ((incidents e).symm.trans hj))
    have offers : x.reofferCall e = x.offerCall e := by
      rw [State.reofferCall, inNext]
      exact if_pos owes
    have result : s.boundary = x.offerCall e := by
      rw [ends, State.engineBoundary_zone (by rw [hx]; exact zone), State.engineBoundary_at he (fun a j ha hj => ?_) fun a _ => by rw [quiet],
        quiet, offers]
      rw [incidents] at hj
      exact ⟨settles j (incident?_mem hj), others a j ha hj⟩
    have offered := State.offerCall_offered inNext
    rw [isNext] at offered
    exact ⟨_, congrArg Host.Outcome.next (result.trans (by rw [isNext])), offered⟩
  · have result : s.boundary = x.offerZone := by
      rw [ends, State.engineBoundary_of_none (by rw [hx]; exact idle), State.reofferZone, if_pos (by rw [hx]; exact zone)]
    rw [hx] at result
    refine ⟨fun hold => congrArg Host.Outcome.next ?_, fun hold room => congrArg Host.Outcome.next ?_,
      fun hold full none' => congrArg Host.Outcome.next ?_⟩
    · rw [result, State.offerZone_discarded (s := s.inNextSlot T) hold]
      rfl
    · rw [result, State.offerZone_room (s := s.inNextSlot T) hold room]
      rfl
    · have kept : ({ next.zone with zoneOwed := true } : Zone) = next.zone := by rw [← show next.zone.zoneOwed = true from zone]
      rw [result, State.offerZone_full (s := s.inNextSlot T) hold full none']
      exact congrArg (State.withZone next) kept

end Sys2Proof.Machine
end
